-- ==== Sys2Proof/Word.lean ====
section
/-!
DEFINITION. Word.lean: the fixed-width words the spec's formats are made of (30_encoding R88 to R103, 00_scope R18:
bit 0 is the least significant, every value is unsigned).
-/
namespace Sys2Proof

/-- One byte of memory. -/
abbrev Byte := BitVec 8

/-- A 16-bit field: a status word or a length (30_encoding R90, R93, R95). -/
abbrev Half := BitVec 16

/-- A 32-bit word: a physical address, a command or operand word (30_encoding R91, R103). -/
abbrev Word := BitVec 32

/-- The bits of the event register, of whatever width EV_WIDTH is (30_encoding R99). -/
abbrev Events := Nat

end Sys2Proof
end

