-- ==== Sys2Proof/Syntax.lean ====
section
/-!
DEFINITION. Syntax.lean: the operations of 30_encoding R105 (spec/opcode_table.json), one constructor a row, with
the operands of R104.
-/
namespace Sys2Proof

/-- A MAC address, `mac[0]` first (30_encoding R102). -/
structure Mac where
  b0 : Byte
  b1 : Byte
  b2 : Byte
  b3 : Byte
  b4 : Byte
  b5 : Byte
deriving DecidableEq, Repr, Inhabited

/-- The all-zero address: the sign "none configured" (R102). -/
def Mac.zero : Mac := ⟨0, 0, 0, 0, 0, 0⟩

/-- Duplex takes two values (10_state R40). -/
inductive Duplex where
  | half
  | full
deriving DecidableEq, Repr, Inhabited

/-- The promiscuous flag of the configuration record is three-valued (30_encoding R101). -/
inductive Promisc where
  | unspecified
  | off
  | on
deriving DecidableEq, Repr, Inhabited

/-- `CFG`, the platform configuration record (30_encoding R101). -/
structure PlatformCfg where
  phyAddr    : BitVec 8
  promisc    : Promisc
  index      : BitVec 8
  mac        : Mac
  remoteMdio : Bool
deriving DecidableEq, Repr, Inhabited

/-- The configuration whose three words are all zero. -/
def PlatformCfg.zero : PlatformCfg := ⟨0, .unspecified, 0, Mac.zero, false⟩

/-- One fragment of a packet: physical address and length (41_buffer_supply R122; both fields of R89's widths). -/
structure Frag where
  phys : Word
  len  : Half
deriving DecidableEq, Repr, Inhabited

/-- The operations of 30_encoding R105. `bu1` to `bu10` are internal to INIT and the `h…` constructors name the DMA
engine's steps; none of these seventeen is issuable on the command port (R105, R106). -/
inductive Instr where
  | ringInit (capRx capTx : Word)
  | ringTeardown
  | fillRx
  | enqTx (frags : List Frag) (handle : Word)
  | reapRx
  | reapTx
  | handleIrq
  | poll
  | init (cfg : PlatformCfg)
  | bu1
  | bu2
  | bu3
  | bu4
  | bu5
  | bu6
  | bu7
  | bu8
  | bu9
  | bu10
  | rxEnable
  | rxDisable
  | txEnable
  | txDisable
  | rxEnabled
  | txEnabled
  | evRead
  | evClear (m : Word)
  | evReadClear
  | evSetMask (m : Word)
  | setSpeedDuplex (speed : Half) (duplex : Duplex)
  | promiscSet
  | promiscClear
  | mdioRead (phy reg : BitVec 5)
  | mdioWrite (phy reg : BitVec 5) (v : Half)
  | macCoreInit (rxBase txBase bufSize : Word) (mac : Mac)
  | macEnable
  | transmit (frags : List Frag) (handle : Word)
  | getMac
  | printDiag
  | hRxSample
  | hRxDone (length flags : Half)
  | hRxStall
  | hTxSample
  | hTxDone
  | hTxStall
  | hBusError
deriving DecidableEq, Repr

end Sys2Proof
end

