-- ==== Sys2Proof/Config.lean ====
section
/-!
DEFINITION. Config.lean: the build-time parameters of 00_scope section 4 and the free values: what oracles answer
when no answer is listed, and what the spec leaves open in an operation or after it; and the type of handles. A free value is
opaque: nothing in Lean can evaluate it (notes/assumptions/3, 13, 14, 15, 34).
-/
namespace Sys2Proof

/-- `TARGET_ENDIAN`, the byte order of the DMA engine (00_scope R11). -/
inductive Endian where
  | little
  | big
deriving DecidableEq, Repr, Inhabited

/-- The open parameters of the spec (00_scope R10 to R14, 44_link_bringup R160, 45_register_interface R178; the table
of open parameters in 92_eei_decisions). They are fixed for the life of a machine. -/
structure Params where
  capRx      : Nat
  capTx      : Nat
  endian     : Endian
  dmaAlign   : Nat
  bufSize    : Nat
  rxdEmpty   : Nat
  rxdWrap    : Nat
  rxdBcast   : Nat
  rxdMcast   : Nat
  rxdLenviol : Nat
  rxdError   : Nat
  txdReady   : Nat
  txdWrap    : Nat
  txdLast    : Nat
  txdAddcrc  : Nat
  evWidth    : Nat
  evTxf      : Nat
  evRxf      : Nat
  evBerr     : Nat
  phyAddrMax : Nat
  speedSet   : List Nat
deriving DecidableEq, Repr

/-- The defaults the spec's own vectors use (R10 to R13, R94, R96, R100, R160, R178). -/
def Params.default : Params where
  capRx      := 8
  capTx      := 8
  endian     := .little
  dmaAlign   := 32
  bufSize    := 2048
  rxdEmpty   := 15
  rxdWrap    := 13
  rxdBcast   := 7
  rxdMcast   := 6
  rxdLenviol := 5
  rxdError   := 2
  txdReady   := 15
  txdWrap    := 13
  txdLast    := 11
  txdAddcrc  := 10
  evWidth    := 32
  evTxf      := 27
  evRxf      := 25
  evBerr     := 22
  phyAddrMax := 31
  speedSet   := [10, 100, 1000]

/-- The positions of the receive status flags, of the transmit status flags and of the event bits. -/
def Params.rxBits (p : Params) : List Nat :=
  [p.rxdEmpty, p.rxdWrap, p.rxdBcast, p.rxdMcast, p.rxdLenviol, p.rxdError]
def Params.txBits (p : Params) : List Nat := [p.txdReady, p.txdWrap, p.txdLast, p.txdAddcrc]
def Params.evBits (p : Params) : List Nat := [p.evTxf, p.evRxf, p.evBerr]

/-- The constraints the spec puts on the parameters: capacities at least 2 (R10), alignment a power of two at least 32
(R12: the one bit of a power of two has none below it), buffer size in 1 to 65535 (R13), distinct status positions below
16 (R94, R96), distinct event positions below the register's width (R100), a non-empty set of speeds below 2^16 (R178). -/
def Params.wf (p : Params) : Bool :=
  decide (2 ≤ p.capRx) && decide (2 ≤ p.capTx)
    && decide (32 ≤ p.dmaAlign) && decide (p.dmaAlign &&& (p.dmaAlign - 1) = 0)
    && decide (1 ≤ p.bufSize) && decide (p.bufSize ≤ 65535)
    && decide p.rxBits.Nodup && p.rxBits.all (fun b => decide (b < 16))
    && decide p.txBits.Nodup && p.txBits.all (fun b => decide (b < 16))
    && decide p.evBits.Nodup && p.evBits.all (fun b => decide (b < p.evWidth))
    && !p.speedSet.isEmpty && p.speedSet.all (fun v => decide (v < 2 ^ 16))

/-- The handles but one (00_scope R15, 93 U26): a type of which nothing is known. It is bundled with an order because every
type has one and a decidable equality comes with it; nothing compares two handles. -/
opaque Config.otherHandles : LinOrd

/-- The opaque buffer handle, a parameter of the machine (R15): any type with a decidable equality that has an element, here
`first` (notes/assumptions/18). -/
inductive Handle where
  | first
  | other {h : Config.otherHandles}
deriving DecidableEq, Repr, Inhabited

/-- The handle that a word on the command port stands for (R15, 30_encoding R104). -/
opaque Config.handleOfWord : Word → Handle

/-- Free answer of `fuse_mac` (44_link_bringup R153, 93 U16). -/
opaque Config.freeFuse : Nat → Option Mac
/-- Free answer of an oracle that answers ok or fail (R153, 45 R182, U16, U19). -/
opaque Config.freeOk : Nat → Bool
/-- Free answer of `dma_alloc` (40_ring_lifecycle R111). -/
opaque Config.freeDma : Nat → Option Word
/-- Free answer of `map_regs` (R157). -/
opaque Config.freeMap : Nat → Option Word
/-- Free answer of `phy_connect` (R160, U17). -/
opaque Config.freePhy : Nat → Option Nat
/-- Free answer of `phy_startup` (R161, U18): a position in SpeedSet and a duplex. -/
opaque Config.freeStartup : Nat → Option (Nat × Duplex)
/-- Free answer of `allocate_receive_buffer` (46_facade R191, U15). -/
opaque Config.freeBuffer : Nat → Option (Word × Handle)
/-- Free answer of `MdioRead` (45 R181, U19). -/
opaque Config.freeMdio : Nat → Option Half
/-- Free byte that H writes into a receive buffer (47_dma_engine R201, U8): the draw, then the byte's position. -/
opaque Config.freeFrameByte : Nat → Nat → Byte
/-- Free byte where more than one hand is on a buffer in flight (60_exceptions R224 rows 6a and 7, U23): the draw, then the
byte's position. -/
opaque Config.freeHostByte : Nat → Nat → Byte
/-- Free choice of the register writes a failed MAC-core initialisation performed (45 R184). -/
opaque Config.freeCoreWrites : Nat → BitVec 9
/-- Free value of a ring register after RING_TEARDOWN (40_ring_lifecycle R115): the draw, then which register. -/
opaque Config.freeRingReg : Nat → Nat → Nat
/-- Free contents of a freshly allocated handle array (10_state R61): the draw, then the entry. -/
opaque Config.freeHandle : Nat → Nat → Handle
/-- Free contents of a freshly allocated descriptor-count array (10_state R61): the draw, then the entry. -/
opaque Config.freeNdesc : Nat → Nat → Nat

end Sys2Proof
end

