-- ==== Sys2Proof/WellFormed.lean ====
section
/-!
DEFINITION. WellFormed.lean: which operations the encoding of 30_encoding R104 admits. The field widths of R101 to R104
are the types of the constructors' arguments; what the types do not say is checked here.
-/
namespace Sys2Proof

/-- A fragment's length is in 1 to 65535 (41_buffer_supply R124; the upper bound is the field's width). -/
def Frag.wf (f : Frag) : Bool := f.len != 0

/-- A fragment list has 1 to 2^24 − 1 fragments, each well-formed (R104, R124). -/
def fragsWf (fs : List Frag) : Bool :=
  decide (1 ≤ fs.length) && decide (fs.length < 2 ^ 24) && fs.all Frag.wf

/-- Well-formed operations. Every constructor is listed. -/
def Instr.wf : Instr → Bool
  | .enqTx fs _ => fragsWf fs
  | .transmit fs _ => fragsWf fs
  | .ringInit _ _ => true
  | .ringTeardown => true
  | .fillRx => true
  | .reapRx => true
  | .reapTx => true
  | .handleIrq => true
  | .poll => true
  | .init _ => true
  | .bu1 => true
  | .bu2 => true
  | .bu3 => true
  | .bu4 => true
  | .bu5 => true
  | .bu6 => true
  | .bu7 => true
  | .bu8 => true
  | .bu9 => true
  | .bu10 => true
  | .rxEnable => true
  | .rxDisable => true
  | .txEnable => true
  | .txDisable => true
  | .rxEnabled => true
  | .txEnabled => true
  | .evRead => true
  | .evClear _ => true
  | .evReadClear => true
  | .evSetMask _ => true
  | .setSpeedDuplex _ _ => true
  | .promiscSet => true
  | .promiscClear => true
  | .mdioRead _ _ => true
  | .mdioWrite _ _ _ => true
  | .macCoreInit _ _ _ _ => true
  | .macEnable => true
  | .getMac => true
  | .printDiag => true
  | .hRxSample => true
  | .hRxDone _ _ => true
  | .hRxStall => true
  | .hTxSample => true
  | .hTxDone => true
  | .hTxStall => true
  | .hBusError => true

end Sys2Proof
end

