-- ==== Sys2Proof/Decode.lean ====
section
/-!
DEFINITION. Decode.lean: the command word and its operand words (30_encoding R101 to R107): decoding, total on any list
of words and rejecting by name (R106), the port an operation belongs to (R105), and the encoder written from the same
tables.
-/
namespace Sys2Proof

/-- Why a list of words is no operation (30_encoding R106, 93 U10, 41_buffer_supply R124). -/
inductive DecodeError where
  /-- no command word at all -/
  | noCommandWord
  /-- a selector that R105 does not assign -/
  | reservedSelector (op : Byte)
  /-- a non-zero `arg` where R104 says 0 -/
  | reservedArg
  /-- a non-zero reserved field inside `arg` or inside an operand word -/
  | reservedField
  /-- `promisc` code 3 -/
  | reservedPromisc
  /-- `n = 0` on ENQ_TX or TRANSMIT -/
  | noFragments
  /-- a fragment length outside 1 to 65535 -/
  | fragmentLength
  /-- more or fewer operand words than `op` and `arg` call for (R107) -/
  | operandCount
deriving DecidableEq, Repr

/-- Who presents an operation: the host on the command port, the sequencer inside INIT, or the DMA engine (R105). -/
inductive Agent where
  | host
  | sequencer
  | engine
deriving DecidableEq, Repr

/-- The last lines of R105: `H_` steps are the engine's, `BU` steps are internal to INIT, all others are commands. -/
def Instr.agent : Instr → Agent
  | .bu1 | .bu2 | .bu3 | .bu4 | .bu5 | .bu6 | .bu7 | .bu8 | .bu9 | .bu10 => .sequencer
  | .hRxSample | .hRxDone _ _ | .hRxStall | .hTxSample | .hTxDone | .hTxStall | .hBusError => .engine
  | .ringInit _ _ | .ringTeardown | .fillRx | .enqTx _ _ | .reapRx | .reapTx | .handleIrq | .poll | .init _
  | .rxEnable | .rxDisable | .txEnable | .txDisable | .rxEnabled | .txEnabled | .evRead | .evClear _
  | .evReadClear | .evSetMask _ | .setSpeedDuplex _ _ | .promiscSet | .promiscClear | .mdioRead _ _
  | .mdioWrite _ _ _ | .macCoreInit _ _ _ _ | .macEnable | .transmit _ _ | .getMac | .printDiag => .host

/-! ### Field layouts, used by both directions -/

/-- `{op[31:24], arg[23:0]}` (R103). -/
def cmdWord (op : Byte) (arg : BitVec 24) : Word := op ++ arg
def opOf (c : Word) : Byte := c.extractLsb' 24 8
def argOf (c : Word) : BitVec 24 := c.extractLsb' 0 24

/-- `promisc` codes: 0 unspecified, 1 false, 2 true (R101). -/
def promiscCode : Promisc → BitVec 2
  | .unspecified => 0
  | .off => 1
  | .on => 2

/-- Word 0 of CFG: `{remote_mdio_present[31], 0[30:24], index[23:16], 0[15:10], promisc[9:8], phy_addr[7:0]}` (R101). -/
def cfgWord0 (c : PlatformCfg) : Word :=
  BitVec.ofBool c.remoteMdio ++ 0#7 ++ c.index ++ 0#6 ++ promiscCode c.promisc ++ c.phyAddr

/-- `{mac[0], mac[1], mac[2], mac[3]}` and `{mac[4], mac[5], 0[15:0]}` (R101, R104). -/
def macWord0 (m : Mac) : Word := m.b0 ++ m.b1 ++ m.b2 ++ m.b3
def macWord1 (m : Mac) : Word := m.b4 ++ m.b5 ++ 0#16

/-- The address in two operand words whose low half-word is reserved. -/
def macOfWords (w0 w1 : Word) : Except DecodeError Mac :=
  if w1.extractLsb' 0 16 = 0 then
    .ok ⟨w0.extractLsb' 24 8, w0.extractLsb' 16 8, w0.extractLsb' 8 8, w0.extractLsb' 0 8,
      w1.extractLsb' 24 8, w1.extractLsb' 16 8⟩
  else .error .reservedField

/-- The configuration record in its three words (R101). -/
def cfgOfWords (w0 w1 w2 : Word) : Except DecodeError PlatformCfg :=
  if w0.extractLsb' 24 7 = 0 ∧ w0.extractLsb' 10 6 = 0 then
    match macOfWords w1 w2 with
    | .error e => .error e
    | .ok m =>
      let code : BitVec 2 := w0.extractLsb' 8 2
      if code = 3 then .error .reservedPromisc
      else .ok
        { phyAddr := w0.extractLsb' 0 8
          promisc := if code = 0 then .unspecified else if code = 1 then .off else .on
          index := w0.extractLsb' 16 8
          mac := m
          remoteMdio := w0.getLsbD 31 }
  else .error .reservedField

/-- `{speed[23:8], 0[7:1], duplex[0]}`, duplex 1 = full (R104). -/
def duplexBit : Duplex → BitVec 1
  | .half => 0
  | .full => 1
def speedArg (speed : Half) (d : Duplex) : BitVec 24 := speed ++ 0#7 ++ duplexBit d

/-- `{0[23:13], phy[12:8], 0[7:5], reg[4:0]}` (R104). -/
def mdioArg (phy reg : BitVec 5) : BitVec 24 := 0#11 ++ phy ++ 0#3 ++ reg

/-- The operand words of ENQ_TX and TRANSMIT: `phys_k, len_k` for each fragment, then the handle (R104). -/
def fragWords : List Frag → Word → List Word
  | [], h => [h]
  | f :: fs, h => f.phys :: f.len.setWidth 32 :: fragWords fs h

/-! ### Decoding -/

/-- `n` fragments and a handle; a length outside 1 to 65535 is no operand (R104, R124). -/
def parseFrags : Nat → List Word → Except DecodeError (List Frag × Word)
  | 0, [h] => .ok ([], h)
  | n + 1, p :: l :: rest =>
    if 1 ≤ l.toNat ∧ l.toNat ≤ 65535 then
      match parseFrags n rest with
      | .ok (fs, h) => .ok (⟨p, l.setWidth 16⟩ :: fs, h)
      | .error e => .error e
    else .error .fragmentLength
  | _, _ => .error .operandCount

/-- An operation with a fragment list: `arg = n`, `2n + 1` operand words (R104, R107). -/
def decodeFrags (arg : BitVec 24) (ops : List Word) (mk : List Frag → Word → Instr) : Except DecodeError Instr :=
  if arg = 0 then .error .noFragments
  else
    match parseFrags arg.toNat ops with
    | .ok (fs, h) => .ok (mk fs h)
    | .error e => .error e

/-- An operation with `arg = 0` and no operand word (R104). -/
def decodePlain (arg : BitVec 24) (ops : List Word) (i : Instr) : Except DecodeError Instr :=
  if arg = 0 then
    match ops with
    | [] => .ok i
    | _ => .error .operandCount
  else .error .reservedArg

/-- An operation with `arg = 0` and one operand word. -/
def decodeWord (arg : BitVec 24) (ops : List Word) (mk : Word → Instr) : Except DecodeError Instr :=
  if arg = 0 then
    match ops with
    | [m] => .ok (mk m)
    | _ => .error .operandCount
  else .error .reservedArg

/-- The two register numbers of an MDIO operation, with the reserved fields of `arg` zero (R104). -/
def decodeMdio (arg : BitVec 24) : Except DecodeError (BitVec 5 × BitVec 5) :=
  if arg.extractLsb' 13 11 = 0 ∧ arg.extractLsb' 5 3 = 0 then .ok (arg.extractLsb' 8 5, arg.extractLsb' 0 5)
  else .error .reservedField

/-- RING_INIT: two operand words (R104). -/
def decodeRingInit (arg : BitVec 24) (ops : List Word) : Except DecodeError Instr :=
  if arg = 0 then
    match ops with
    | [a, b] => .ok (.ringInit a b)
    | _ => .error .operandCount
  else .error .reservedArg

/-- INIT: the three CFG words (R101, R104). -/
def decodeInit (arg : BitVec 24) (ops : List Word) : Except DecodeError Instr :=
  if arg = 0 then
    match ops with
    | [w0, w1, w2] =>
      match cfgOfWords w0 w1 w2 with
      | .ok c => .ok (.init c)
      | .error e => .error e
    | _ => .error .operandCount
  else .error .reservedArg

/-- SET_SPEED_DUPLEX: both operands inside `arg` (R104). -/
def decodeSpeed (arg : BitVec 24) (ops : List Word) : Except DecodeError Instr :=
  if arg.extractLsb' 1 7 = 0 then
    match ops with
    | [] => .ok (.setSpeedDuplex (arg.extractLsb' 8 16) (if arg.getLsbD 0 then .full else .half))
    | _ => .error .operandCount
  else .error .reservedField

/-- MDIO_READ: no operand word (R104). -/
def decodeMdioRead (arg : BitVec 24) (ops : List Word) : Except DecodeError Instr :=
  match decodeMdio arg with
  | .error e => .error e
  | .ok (phy, reg) =>
    match ops with
    | [] => .ok (.mdioRead phy reg)
    | _ => .error .operandCount

/-- MDIO_WRITE: one operand word, the value in bits 15:0, bits 31:16 zero (R104, 45_register_interface R182). -/
def decodeMdioWrite (arg : BitVec 24) (ops : List Word) : Except DecodeError Instr :=
  match decodeMdio arg with
  | .error e => .error e
  | .ok (phy, reg) =>
    match ops with
    | [v] => if v.extractLsb' 16 16 = 0 then .ok (.mdioWrite phy reg (v.setWidth 16)) else .error .reservedField
    | _ => .error .operandCount

/-- MAC_CORE_INIT: five operand words (R104). -/
def decodeMacCoreInit (arg : BitVec 24) (ops : List Word) : Except DecodeError Instr :=
  if arg = 0 then
    match ops with
    | [rb, tb, sz, w0, w1] =>
      match macOfWords w0 w1 with
      | .ok m => .ok (.macCoreInit rb tb sz m)
      | .error e => .error e
    | _ => .error .operandCount
  else .error .reservedArg

/-- H_RX_DONE: the length in `arg[15:0]`, one operand word with the 16-bit flags (R104, 47_dma_engine R201; a bit above
bit 15 is no flag: notes/assumptions/33). -/
def decodeRxDone (arg : BitVec 24) (ops : List Word) : Except DecodeError Instr :=
  if arg.extractLsb' 16 8 = 0 then
    match ops with
    | [f] =>
      if f.extractLsb' 16 16 = 0 then .ok (.hRxDone (arg.extractLsb' 0 16) (f.setWidth 16)) else .error .reservedField
    | _ => .error .operandCount
  else .error .reservedField

/-- The operation of a selector, its `arg` and its operand words (the table of R105). -/
def decodeOp (op : Byte) (arg : BitVec 24) (ops : List Word) : Except DecodeError Instr :=
  match op.toNat with
  | 0x10 => decodeRingInit arg ops
  | 0x11 => decodePlain arg ops .ringTeardown
  | 0x20 => decodePlain arg ops .fillRx
  | 0x21 => decodeFrags arg ops .enqTx
  | 0x30 => decodePlain arg ops .reapRx
  | 0x31 => decodePlain arg ops .reapTx
  | 0x40 => decodePlain arg ops .handleIrq
  | 0x41 => decodePlain arg ops .poll
  | 0x50 => decodeInit arg ops
  | 0x51 => decodePlain arg ops .bu1
  | 0x52 => decodePlain arg ops .bu2
  | 0x53 => decodePlain arg ops .bu3
  | 0x54 => decodePlain arg ops .bu4
  | 0x55 => decodePlain arg ops .bu5
  | 0x56 => decodePlain arg ops .bu6
  | 0x57 => decodePlain arg ops .bu7
  | 0x58 => decodePlain arg ops .bu8
  | 0x59 => decodePlain arg ops .bu9
  | 0x5A => decodePlain arg ops .bu10
  | 0x60 => decodePlain arg ops .rxEnable
  | 0x61 => decodePlain arg ops .rxDisable
  | 0x62 => decodePlain arg ops .txEnable
  | 0x63 => decodePlain arg ops .txDisable
  | 0x64 => decodePlain arg ops .rxEnabled
  | 0x65 => decodePlain arg ops .txEnabled
  | 0x66 => decodePlain arg ops .evRead
  | 0x67 => decodeWord arg ops .evClear
  | 0x68 => decodePlain arg ops .evReadClear
  | 0x69 => decodeWord arg ops .evSetMask
  | 0x6B => decodeSpeed arg ops
  | 0x6C => decodePlain arg ops .promiscSet
  | 0x6D => decodePlain arg ops .promiscClear
  | 0x6E => decodeMdioRead arg ops
  | 0x6F => decodeMdioWrite arg ops
  | 0x70 => decodeMacCoreInit arg ops
  | 0x71 => decodePlain arg ops .macEnable
  | 0x80 => decodeFrags arg ops .transmit
  | 0x81 => decodePlain arg ops .getMac
  | 0x82 => decodePlain arg ops .printDiag
  | 0xE0 => decodePlain arg ops .hRxSample
  | 0xE1 => decodeRxDone arg ops
  | 0xE2 => decodePlain arg ops .hRxStall
  | 0xE3 => decodePlain arg ops .hTxSample
  | 0xE4 => decodePlain arg ops .hTxDone
  | 0xE5 => decodePlain arg ops .hTxStall
  | 0xE6 => decodePlain arg ops .hBusError
  | _ => .error (.reservedSelector op)

/-- The operation a command word and its operand words stand for, or why they are none (R103 to R107). -/
def decode : List Word → Except DecodeError Instr
  | [] => .error .noCommandWord
  | c :: ops => decodeOp (opOf c) (argOf c) ops

/-! ### Encoding -/

/-- An operation with `arg = 0`. -/
def encodePlain (op : Byte) (ops : List Word) : List Word := cmdWord op 0 :: ops

/-- An operation with a fragment list. -/
def encodeFrags (op : Byte) (fs : List Frag) (h : Word) : List Word :=
  cmdWord op (BitVec.ofNat 24 fs.length) :: fragWords fs h

/-- The words of an operation (R101, R103, R104, R105). -/
def encode : Instr → List Word
  | .ringInit a b => encodePlain 0x10 [a, b]
  | .ringTeardown => encodePlain 0x11 []
  | .fillRx => encodePlain 0x20 []
  | .enqTx fs h => encodeFrags 0x21 fs h
  | .reapRx => encodePlain 0x30 []
  | .reapTx => encodePlain 0x31 []
  | .handleIrq => encodePlain 0x40 []
  | .poll => encodePlain 0x41 []
  | .init c => encodePlain 0x50 [cfgWord0 c, macWord0 c.mac, macWord1 c.mac]
  | .bu1 => encodePlain 0x51 []
  | .bu2 => encodePlain 0x52 []
  | .bu3 => encodePlain 0x53 []
  | .bu4 => encodePlain 0x54 []
  | .bu5 => encodePlain 0x55 []
  | .bu6 => encodePlain 0x56 []
  | .bu7 => encodePlain 0x57 []
  | .bu8 => encodePlain 0x58 []
  | .bu9 => encodePlain 0x59 []
  | .bu10 => encodePlain 0x5A []
  | .rxEnable => encodePlain 0x60 []
  | .rxDisable => encodePlain 0x61 []
  | .txEnable => encodePlain 0x62 []
  | .txDisable => encodePlain 0x63 []
  | .rxEnabled => encodePlain 0x64 []
  | .txEnabled => encodePlain 0x65 []
  | .evRead => encodePlain 0x66 []
  | .evClear m => encodePlain 0x67 [m]
  | .evReadClear => encodePlain 0x68 []
  | .evSetMask m => encodePlain 0x69 [m]
  | .setSpeedDuplex v d => [cmdWord 0x6B (speedArg v d)]
  | .promiscSet => encodePlain 0x6C []
  | .promiscClear => encodePlain 0x6D []
  | .mdioRead phy reg => [cmdWord 0x6E (mdioArg phy reg)]
  | .mdioWrite phy reg v => [cmdWord 0x6F (mdioArg phy reg), v.setWidth 32]
  | .macCoreInit rb tb sz m => encodePlain 0x70 [rb, tb, sz, macWord0 m, macWord1 m]
  | .macEnable => encodePlain 0x71 []
  | .transmit fs h => encodeFrags 0x80 fs h
  | .getMac => encodePlain 0x81 []
  | .printDiag => encodePlain 0x82 []
  | .hRxSample => encodePlain 0xE0 []
  | .hRxDone l f => [cmdWord 0xE1 (l.setWidth 24), f.setWidth 32]
  | .hRxStall => encodePlain 0xE2 []
  | .hTxSample => encodePlain 0xE3 []
  | .hTxDone => encodePlain 0xE4 []
  | .hTxStall => encodePlain 0xE5 []
  | .hBusError => encodePlain 0xE6 []

/-! ### Words numbered as spec/opcode_table.json numbers them -/

/-- How many operand words follow a command word (R104, R107: told from `op` and `arg` alone). -/
def operandCount (c : Word) : Nat :=
  match (opOf c).toNat with
  | 0x10 => 2
  | 0x21 => 2 * (argOf c).toNat + 1
  | 0x50 => 3
  | 0x67 => 1
  | 0x69 => 1
  | 0x6F => 1
  | 0x70 => 5
  | 0x80 => 2 * (argOf c).toNat + 1
  | 0xE1 => 1
  | _ => 0

/-- The words of the instruction whose bits are `w`: bits 31:0 the command word, then one operand word every 32 bits;
every bit from `nbits` up is 0. -/
def tableWords (nbits w : Nat) : List Word :=
  let v := w % 2 ^ nbits
  let c : Word := BitVec.ofNat 32 v
  c :: (List.range (operandCount c)).map (fun k => BitVec.ofNat 32 (v / 2 ^ (32 * (k + 1))))

/-- The operation the decoder reads from those words. -/
def decodeTableWord (nbits w : Nat) : Option Instr :=
  match decode (tableWords nbits w) with
  | .ok i => some i
  | .error _ => none

end Sys2Proof
end

