-- ==== Sys2Proof/Machine/State.lean ====
section
/-!
DEFINITION. Machine/State.lean: everything the spec gives the block (10_state), with the memory system of 20_memory R74,
the inputs from outside and the record of what the block sent outside; the reasons a step can stop; the state before
any operation (10_state R61, 70_reset_and_hazards R232). Plain data throughout.
-/
namespace Sys2Proof.Machine

/-- The two rings (10_state R25). -/
inductive Dir where
  | rx
  | tx
deriving DecidableEq, Repr

/-- The private registers of one ring (10_state R25). The descriptor-count array, which only the transmit ring has, is
`State.ndesc`. -/
structure Ring where
  cap    : Nat
  base   : Option Word
  head   : Nat
  tail   : Nat
  remain : Nat
  alive  : Bool
  handle : List Handle
deriving DecidableEq, Repr

/-- The device context (10_state R39). `regs` is the opaque handle of the mapped register block. -/
structure Ctx where
  alive   : Bool
  regs    : Option Word
  index   : BitVec 8
  phyAddr : BitVec 8
  promisc : Promisc
  mac     : Mac
deriving DecidableEq, Repr

/-- The negotiated link settings (10_state R40). -/
structure Link where
  speed  : Nat
  duplex : Duplex
deriving DecidableEq, Repr

/-- The life-cycle modes (10_state R41). -/
inductive Mode where
  | off
  | bringUp
  | running
  | halted
  | dead
deriving DecidableEq, Repr

/-- The sequencing registers (10_state R41 to R43). -/
structure Seq where
  mode  : Mode
  bstep : Nat
  busy  : Bool
deriving DecidableEq, Repr

/-- What bring-up holds between its steps: INIT's operand (44_link_bringup R150), the address of step 1 (R154) and the
PHY of step 7 (R160). -/
structure BringUp where
  cfg        : PlatformCfg
  macPending : Mac
  phy        : Nat
deriving DecidableEq, Repr

/-- The MAC/DMA register block, one abstract register per capability (10_state R44 to R52). EVENT and EVMASK hold EV_WIDTH
bits (30_encoding R99). No width is given for RXBASE, TXBASE and BUFSZ (R37, R50): 32 bits each, a DESIGN CHOICE
(notes/assumptions/37). -/
structure Regs where
  macEn   : Bool
  rxEn    : Bool
  txEn    : Bool
  event   : Events
  evmask  : Events
  speed   : Nat
  duplex  : Duplex
  promisc : Bool
  rxbase  : Word
  txbase  : Word
  bufsz   : Word
  macaddr : Mac
  mib     : Word
deriving DecidableEq, Repr

/-- The hidden state of the DMA engine (10_state R56). -/
structure Hw where
  rxIdx    : Nat
  txIdx    : Nat
  rxSample : Option Half
  txSample : Option Half
deriving DecidableEq, Repr

/-- Memory: the listed bytes, addresses strictly rising, no listed byte equal to what an unlisted one reads as. -/
abbrev Memory := List Host.Cell

/-- A write C has issued and memory has not yet performed (10_state R58, 20_memory R74). -/
structure PendWrite where
  addr  : Nat
  bytes : List Byte
deriving DecidableEq, Repr

/-- A read the memory system has performed ahead of its issue (20_memory R74 (c)). -/
structure EarlyRead where
  addr  : Nat
  bytes : List Byte
deriving DecidableEq, Repr

/-- What the host's program does besides issuing operations (60_exceptions R224 rows 6a, 7 and 8): it writes memory, or it
writes a register of the block behind the block's back. -/
inductive HostAct where
  | write (addr : Nat) (bytes : List Byte)
  | register
deriving DecidableEq, Repr

/-- What may happen before an event of C: a step of the DMA engine (47_dma_engine R195), the performance of the k-th
issued write, an early read of `n` bytes (20_memory R73, R74), an act of the host, or event bits outside EV_ALL being set
(10_state R46). -/
inductive EnvStep where
  | rxSample
  | rxDone (length flags : Half)
  | rxStall
  | txSample
  | txDone
  | txStall
  | busError
  | perform (k : Nat)
  | prefetch (addr n : Nat)
  | host (a : HostAct)
  | otherEvents (m : Events)
deriving DecidableEq, Repr

/-- What the outside gives the machine between operations: a command on the command port, its words together
(30_encoding R103), a step of the DMA engine named at that point of the trace (R105, R108), or an act of the host. -/
inductive Input where
  | command (words : List Word)
  | hstep (words : List Word)
  | host (a : HostAct)
deriving DecidableEq, Repr

/-- The coming answers of the oracles and the coming frames, one list each (44_link_bringup R153, 46_facade R191,
45_register_interface R181, R182, R184, 47_dma_engine R201). -/
structure Answers where
  fuse       : List (Option Mac)
  ctxAlloc   : List Bool
  dmaAlloc   : List (Option Word)
  metaAlloc  : List Bool
  platform   : List Bool
  mapRegs    : List (Option Word)
  coreInit   : List Bool
  coreWrites : List (BitVec 9)
  mdioInit   : List Bool
  phyConnect : List (Option Nat)
  phyTune    : List Bool
  phyStartup : List (Option (Nat × Duplex))
  buffers    : List (Option (Nat × Handle))
  mdioRead   : List (Option Half)
  mdioWrite  : List Bool
  frames     : List (List Byte)
deriving DecidableEq, Repr

/-- No answer listed: every answer is a free value. -/
def Answers.none : Answers := ⟨[], [], [], [], [], [], [], [], [], [], [], [], [], [], [], []⟩

/-- The environment: inputs, schedule, answers, and the counter that makes free values fresh. -/
structure Env where
  inputs  : List Input
  sched   : List (List EnvStep)
  answers : Answers
  draws   : Nat
deriving DecidableEq, Repr

/-- A call of a callback or of a collaborator (00_scope R22), with its arguments. -/
inductive Call where
  | fuseMac (index : BitVec 8)
  | ctxAlloc
  | ctxFree
  | dmaAlloc (size align : Nat)
  | dmaFree (base : Word) (size : Nat)
  | metaAlloc (capRx capTx : Nat)
  | metaFree (d : Dir)
  | platformSetup (index : Nat)
  | mapRegs
  | macCoreHwInit (regs : Option Word)
  | mdioInit (regs : Option Word) (remote : Bool)
  | phyConnect (addr : Option (BitVec 8))
  | phyTune (phy : Nat)
  | phyStartup (phy : Nat)
  | allocateReceiveBuffer (size : Nat)
  | onReceiveComplete (handles : List Handle) (lengths : List Nat)
  | onTransmitComplete (handle : Handle)
  | mdioRead (remote : Bool) (phy reg : BitVec 5)
  | mdioWrite (remote : Bool) (phy reg : BitVec 5) (v : Half)
  | diagSink (speed : Nat) (duplex : Duplex) (mib : Word)
deriving DecidableEq, Repr

/-- The errors of 60_exceptions R213. -/
inductive Err where
  | ringInitFailed
  | txQueueFull
  | macAddressUnavailable
  | contextAllocFailed
  | unsupportedConfiguration
  | platformSetupFailed
  | mapFailed
  | macCoreInitFailed
  | invalidPhyAddress
  | mdioInitFailed
  | phyNotFound
  | phyStartupFailed
  | mdioFailed
  | busError
deriving DecidableEq, Repr

/-- The machine (INVENTORY.md, "State"). `params` is written by no step; `handing` is the model's own, the slots of the group that
ENQ_TX is handing over (notes/assumptions/34). -/
structure State where
  params    : Params
  rx        : Ring
  tx        : Ring
  ndesc     : List Nat
  ctx       : Ctx
  link      : Link
  seq       : Seq
  bring     : BringUp
  regs      : Regs
  coreFresh : Bool
  handing   : Nat
  hw        : Hw
  mem       : Memory
  pend      : List PendWrite
  early     : List EarlyRead
  env       : Env
  out       : List Word
  calls     : List Call
deriving DecidableEq, Repr

/-- Why the model is spoiled (60_exceptions R211). -/
inductive Fault where
  /-- A step of H reads or writes descriptor memory that is not in the live ring its base register points at, or that
  was not given to the core since the ring was initialised (47_dma_engine R207, 70_reset_and_hazards R234 (1), R240).
  Raised by the H steps; safe. -/
  | hOutsideLiveRing
  /-- A step of H works on a slot whose ownership bit is clear in memory: the slot and its buffer are C's again (R207,
  R208 (a), 20_memory R87). Raised by H_RX_DONE and H_TX_DONE; safe. -/
  | hSlotTakenBack
  /-- A buffer the host supplied is not real: it leaves the 32-bit space or overlaps descriptor memory
  (60_exceptions R224 row 6). Raised by FILL_RX, ENQ_TX, TRANSMIT and what contains
  them, H_RX_DONE and H_TX_DONE; safe. -/
  | bufferNotReal
  /-- The MAC is enabled without a fresh MAC_CORE_INIT (93_implementation_defined U3, 70_reset_and_hazards R240).
  Raised by MAC_ENABLE; safe. -/
  | staleMacEnable
  /-- RING_TEARDOWN is issued while the MAC is enabled (60_exceptions R224 row 12, U23). Raised by RING_TEARDOWN; safe. -/
  | teardownUnderMac
  /-- The host writes descriptor memory, a register of the block, or an address that does not exist (R224 row 8, U23).
  Raised by the host's acts; safe. -/
  | behindTheBack
  /-- The machine is Dead after a failed MAC-core initialisation, from which nothing goes on (44_link_bringup R165,
  60_exceptions R211, U2). Raised by every step but a refused one; safe. -/
  | coreInitFailed
deriving DecidableEq, Repr

/-- Why the model gives an operation no meaning in this state (60_exceptions R210). -/
inductive Refusal where
  /-- An instruction that has no meaning in this model yet; raised by exec's arms only; safe. -/
  | notModelled (mnemonic : String)
  /-- The words presented are no operation (30_encoding R106); raised by the fetch; safe. -/
  | encoding (e : DecodeError)
  /-- A BU or H_ selector on the command port, or a command among the H steps (R106); raised by the fetch; safe. -/
  | wrongPort
  /-- The mode does not allow the operation (60_exceptions R221); raised by every operation of C; safe. -/
  | notAdmitted
  /-- An operation is issued while another is in progress (R222, R225); raised by every operation of C; safe. -/
  | busy
  /-- INIT or RING_INIT with something allocated (40_ring_lifecycle R113 (d), 44_link_bringup R150); safe. -/
  | alreadyAllocated
  /-- A ring operation or a MAC core operation with the ring not alive (60_exceptions R221); safe. -/
  | ringNotAlive
  /-- GET_MAC or PRINT_DIAG without a device context (46_facade R189, R190); safe. -/
  | noContext
  /-- A ring capacity below 2 (R113 (a)); raised by RING_INIT and INIT step 2; safe. -/
  | capacityTooSmall
  /-- No fragment, or a fragment of length 0 (41_buffer_supply R124); raised by ENQ_TX and TRANSMIT; safe. -/
  | operandLimits
  /-- The buffer source answers an address above 32 bits (R121 (d)); raised by FILL_RX; safe. -/
  | physTooWide
  /-- A speed outside SpeedSet (45_register_interface R178); raised by SET_SPEED_DUPLEX and INIT step 9; safe. -/
  | speedNotInSet
  /-- The allocator answers ring memory that is misaligned, overlapping or above 32 bits (20_memory R65, R71); raised
  by RING_INIT and INIT step 2; safe. -/
  | allocatorContract
  /-- A descriptor access of C to a slot the ring does not have (20_memory R67); no state of a run reaches it; safe. -/
  | slotOutsideRing
  /-- A step of H that is not enabled, or whose draw is not admissible (47_dma_engine R196, R201, R208; 60_exceptions
  R221); raised by the H steps; safe. -/
  | stepNotEnabled
deriving DecidableEq, Repr

/-! ### The state before any operation -/

/-- A ring of which nothing is allocated (10_state R61); the registers R61 leaves unspecified hold 0
(DESIGN CHOICE: notes/assumptions/2). -/
def Ring.reset : Ring := ⟨0, none, 0, 0, 0, false, []⟩

/-- The register block before any write (10_state R61: unspecified; DESIGN CHOICE: notes/assumptions/2). -/
def Regs.reset : Regs := ⟨false, false, false, 0, 0, 0, .half, false, 0, 0, 0, Mac.zero, 0⟩

/-- The power-on state (10_state R61, 70_reset_and_hazards R232): mode Off, nothing allocated, no sample held. -/
def State.reset : State where
  params    := Params.default
  rx        := Ring.reset
  tx        := Ring.reset
  ndesc     := []
  ctx       := ⟨false, none, 0, 0, .unspecified, Mac.zero⟩
  link      := ⟨0, .half⟩
  seq       := ⟨.off, 0, false⟩
  bring     := ⟨PlatformCfg.zero, Mac.zero, 0⟩
  regs      := Regs.reset
  coreFresh := false
  handing   := 0
  hw        := ⟨0, 0, none, none⟩
  mem       := []
  pend      := []
  early     := []
  env       := ⟨[], [], Answers.none, 0⟩
  out       := []
  calls     := []

/-! ### Access to the parts of the state -/

/-- The registers of a ring. -/
def State.ring (s : State) : Dir → Ring
  | .rx => s.rx
  | .tx => s.tx

def State.setRx (s : State) (r : Ring) : State := { s with rx := r }
def State.setTx (s : State) (r : Ring) : State := { s with tx := r }
def State.setRing (s : State) (d : Dir) (r : Ring) : State :=
  match d with
  | .rx => s.setRx r
  | .tx => s.setTx r
def State.setNdesc (s : State) (x : List Nat) : State := { s with ndesc := x }
def State.setCtx (s : State) (x : Ctx) : State := { s with ctx := x }
def State.setLink (s : State) (x : Link) : State := { s with link := x }
def State.setSeq (s : State) (x : Seq) : State := { s with seq := x }
def State.setBring (s : State) (x : BringUp) : State := { s with bring := x }
def State.setRegs (s : State) (x : Regs) : State := { s with regs := x }
def State.setCoreFresh (s : State) (x : Bool) : State := { s with coreFresh := x }
def State.setHanding (s : State) (x : Nat) : State := { s with handing := x }
def State.setHw (s : State) (x : Hw) : State := { s with hw := x }
def State.setMem (s : State) (x : Memory) : State := { s with mem := x }
def State.setPend (s : State) (x : List PendWrite) : State := { s with pend := x }
def State.setEarly (s : State) (x : List EarlyRead) : State := { s with early := x }
def State.setEnv (s : State) (x : Env) : State := { s with env := x }
def State.setOut (s : State) (x : List Word) : State := { s with out := x }
def State.setCalls (s : State) (x : List Call) : State := { s with calls := x }

/-- How an operation stops: with a fault or with a refusal. -/
inductive Stop where
  | fault (r : Fault)
  | refused (r : Refusal)
deriving DecidableEq, Repr

end Sys2Proof.Machine
end

