-- ==== Sys2Proof/Machine/Memory.lean ====
section
/-!
DEFINITION. Machine/Memory.lean: bytes of the 32-bit physical space in one canonical form (10_state R55), and the two
memory primitives of 00_scope R20 in the byte order of the DMA engine (20_memory R62).
-/
namespace Sys2Proof.Machine

/-- What an unlisted address reads as (DESIGN CHOICE: notes/assumptions/4). -/
def unlistedByte : Byte := 0

/-- The canonical form: addresses strictly rising, no listed byte equal to what an unlisted address reads as. -/
def Memory.wf : Memory → Bool
  | [] => true
  | (a, b) :: rest => b != unlistedByte && rest.all (fun c => decide (a < c.1)) && Memory.wf rest

/-- The byte at an address. -/
def Memory.read (a : Nat) : Memory → Byte
  | [] => unlistedByte
  | (k, v) :: rest => if a = k then v else Memory.read a rest

/-- The byte at an address becomes `b`; writing what an unlisted address reads as removes the entry. -/
def Memory.write (a : Nat) (b : Byte) : Memory → Memory
  | [] => if b = unlistedByte then [] else [(a, b)]
  | (k, v) :: rest =>
    if a < k then (if b = unlistedByte then (k, v) :: rest else (a, b) :: (k, v) :: rest)
    else if a = k then (if b = unlistedByte then rest else (a, b) :: rest)
    else (k, v) :: Memory.write a b rest

/-- Consecutive bytes, lowest address first. -/
def Memory.writeBytes (a : Nat) : List Byte → Memory → Memory
  | [], m => m
  | b :: bs, m => Memory.writeBytes (a + 1) bs (Memory.write a b m)

/-- `n` consecutive bytes, lowest address first. -/
def Memory.readBytes (a : Nat) (n : Nat) (m : Memory) : List Byte :=
  (List.range n).map (fun k => Memory.read (a + k) m)

/-- The low `n` bytes of a value, least significant first. -/
def bytesLE (n v : Nat) : List Byte := (List.range n).map (fun k => BitVec.ofNat 8 (v / 2 ^ (8 * k)))

/-- The value of bytes given least significant first. -/
def valueLE : List Byte → Nat
  | [] => 0
  | b :: bs => b.toNat + 256 * valueLE bs

/-- A value as the bytes memory holds, in `TARGET_ENDIAN` order (20_memory R62). -/
def toBytes (e : Endian) (n v : Nat) : List Byte :=
  match e with
  | .little => bytesLE n v
  | .big => (bytesLE n v).reverse

/-- The value memory's bytes stand for (20_memory R62). -/
def ofBytes (e : Endian) (bs : List Byte) : Nat :=
  match e with
  | .little => valueLE bs
  | .big => valueLE bs.reverse

/-- `MemRead(addr, n)` on a memory (00_scope R20). -/
def memRead (e : Endian) (m : Memory) (a n : Nat) : Nat := ofBytes e (Memory.readBytes a n m)

/-- `MemWrite(addr, n, v)` on a memory (00_scope R20). -/
def memWrite (e : Endian) (m : Memory) (a n v : Nat) : Memory := Memory.writeBytes a (toBytes e n v) m

/-- Whether `n` bytes at `a` and `k` bytes at `b` have a byte in common. -/
def overlaps (a n b k : Nat) : Bool := decide (0 < n) && decide (0 < k) && decide (a < b + k) && decide (b < a + n)

/-- An issued write takes effect in memory. -/
def performOne (m : Memory) (w : PendWrite) : Memory := Memory.writeBytes w.addr w.bytes m

/-- Issued writes take effect in program order. -/
def performAll (m : Memory) (ws : List PendWrite) : Memory := ws.foldl performOne m

/-- Memory as it is once every write C has issued is performed. -/
def State.settled (s : State) : Memory := performAll s.mem s.pend

end Sys2Proof.Machine
end

