-- ==== Sys2Proof/Machine/Operands.lean ====
section
/-!
DEFINITION. Machine/Operands.lean: the derived ring functions of 00_scope R23, the layout of a descriptor
(30_encoding R89) and the one addressing mode of the block, base plus scaled index plus field offset (20_memory R67).
-/
namespace Sys2Proof.Machine

/-! ### Ring indices (00_scope R23, 10_state R38) -/

/-- `adv(r, i, n) = (i + n) mod r.cap`; `next(r, i)` is `adv(r, i, 1)`. -/
def Ring.adv (r : Ring) (i n : Nat) : Nat := (i + n) % r.cap

/-- `inflight(r) = (r.tail − r.head) mod r.cap`, on head and tail below cap. -/
def Ring.inflight (r : Ring) : Nat := (r.tail + r.cap - r.head) % r.cap

/-- `pending(r) = (r.head ≠ r.tail)`. -/
def Ring.pending (r : Ring) : Bool := r.head != r.tail

/-- `is_last(r, i) = (i = r.cap − 1)`. -/
def Ring.isLast (r : Ring) (i : Nat) : Bool := i + 1 == r.cap

/-- `n` slots at the tail go to hardware, with the handle at the first of them (41_buffer_supply R117, R123). -/
def Ring.give (r : Ring) (n : Nat) (h : Handle) : Ring :=
  { r with handle := r.handle.set r.tail h, tail := r.adv r.tail n, remain := r.remain - n }

/-- `n` slots at the head come back from hardware (42_completion_reaper R130, R137). -/
def Ring.take (r : Ring) (n : Nat) : Ring := { r with head := r.adv r.head n, remain := r.remain + n }

/-! ### The descriptor (30_encoding R89) -/

/-- The three fields of a descriptor. -/
inductive Field where
  | stat
  | len
  | phys
deriving DecidableEq, Repr

/-- `DESC_SIZE` (00_scope R12). -/
def descSize : Nat := 8

/-- `off(f)`, by target byte order (R89). -/
def fieldOff (e : Endian) : Field → Nat
  | .len => match e with | .little => 0 | .big => 2
  | .stat => match e with | .little => 2 | .big => 0
  | .phys => 4

/-- `w(f)` in bytes (20_memory R67, R68). -/
def fieldWidth : Field → Nat
  | .stat => 2
  | .len => 2
  | .phys => 4

/-- The address of a field of the descriptor at address `d`. -/
def fieldAddr (e : Endian) (d : Nat) (f : Field) : Nat := d + fieldOff e f

/-- The address of slot `i` of a ring, for a slot the ring has (10_state R26). -/
def Ring.slotAddr (r : Ring) (i : Nat) : Option Nat :=
  match r.base with
  | some b => if i < r.cap then some (b.toNat + descSize * i) else none
  | none => none

/-- `DescAddr(r, i, f)` (20_memory R67). -/
def descAddr (s : State) (d : Dir) (i : Nat) (f : Field) : Option Nat :=
  match (s.ring d).slotAddr i with
  | some a => some (fieldAddr s.params.endian a f)
  | none => none

/-- The bytes a ring's descriptor array occupies from its allocation to its release: start and length (10_state R55). -/
def Ring.block (r : Ring) : Option (Nat × Nat) :=
  match r.base with
  | some b => some (b.toNat, descSize * r.cap)
  | none => none

/-- Whether `n` bytes at `a` touch the descriptor array of a ring. -/
def Ring.touches (r : Ring) (a n : Nat) : Bool :=
  match r.block with
  | some (b, k) => overlaps a n b k
  | none => false

/-- A buffer is real: it lies in the 32-bit space and off descriptor memory (60_exceptions R224 row 6, 20_memory R71). That H
can reach every such address is a DESIGN CHOICE, since R71 leaves the memory map to the platform (notes/assumptions/40). -/
def bufferReal (s : State) (a n : Nat) : Bool :=
  decide (a + n ≤ 2 ^ 32) && !s.rx.touches a n && !s.tx.touches a n

/-- What RING_INIT may get from the allocator: two aligned blocks in the 32-bit space, apart from each other
(20_memory R65, R71). -/
def allocOk (align : Nat) (a capRx b capTx : Nat) : Bool :=
  decide (a % align = 0) && decide (b % align = 0)
    && decide (a + descSize * capRx ≤ 2 ^ 32) && decide (b + descSize * capTx ≤ 2 ^ 32)
    && !overlaps a (descSize * capRx) b (descSize * capTx)

end Sys2Proof.Machine
end

