-- ==== Sys2Proof/Machine/Flags.lean ====
section
/-!
DEFINITION. Machine/Flags.lean: the status words C writes (30_encoding R97), the tests of the ownership and wrap bits
(R93, R95), the event bits (R99, R100), the interrupt line (10_state R57) and the result codes (60_exceptions R213).
-/
namespace Sys2Proof.Machine

/-- `BIT(i)` in a status word (00_scope R18). -/
def bit16 (i : Nat) : Half := BitVec.ofNat 16 (2 ^ i)

/-- Position of the ownership bit of a ring: `RXD_EMPTY`, `TXD_READY` (30_encoding R92). -/
def ownBit (p : Params) : Dir → Nat
  | .rx => p.rxdEmpty
  | .tx => p.txdReady

/-- Position of the wrap marker of a ring (R93, R95). -/
def wrapBit (p : Params) : Dir → Nat
  | .rx => p.rxdWrap
  | .tx => p.txdWrap

/-- The wrap marker of slot `i`: set exactly on the last physical slot (10_state R35). -/
def wrapFlag (p : Params) (d : Dir) (r : Ring) (i : Nat) : Half :=
  if r.isLast i then bit16 (wrapBit p d) else 0

/-- `RxInit(r, i)` and `TxInit(r, i)` (R97). -/
def statInit (p : Params) (d : Dir) (r : Ring) (i : Nat) : Half := wrapFlag p d r i

/-- `RxHandover(i)` (R97). -/
def rxHandover (p : Params) (r : Ring) (i : Nat) : Half := bit16 p.rxdEmpty ||| wrapFlag p .rx r i

/-- `TxHandover(i, k, n)` (R97). -/
def txHandover (p : Params) (r : Ring) (i k n : Nat) : Half :=
  bit16 p.txdReady ||| wrapFlag p .tx r i ||| (if k + 1 = n then bit16 p.txdAddcrc ||| bit16 p.txdLast else 0)

/-- A status word belongs to hardware (R92: value 1 means hardware-owned). -/
def hwOwned (p : Params) (d : Dir) (w : Half) : Bool := w.getLsbD (ownBit p d)

/-- What H leaves in a completed receive slot: the wrap bit it sampled and the drawn flags (47_dma_engine R201). -/
def rxDoneStat (p : Params) (sampled flags : Half) : Half := (sampled &&& bit16 p.rxdWrap) ||| flags

/-- The drawn flags touch neither the ownership bit nor the wrap marker (R201, R208). -/
def rxFlagsAdmissible (p : Params) (flags : Half) : Bool := !flags.getLsbD p.rxdEmpty && !flags.getLsbD p.rxdWrap

/-- What H leaves in a completed transmit slot: only the ownership bit changes (47_dma_engine R204). -/
def txDoneStat (p : Params) (sampled : Half) : Half := sampled &&& ~~~(bit16 p.txdReady)

/-- `EV_RXF`, `EV_TXF`, `EV_BERR` and `EV_ALL` (R99, R100). -/
def evRxf (p : Params) : Events := 2 ^ p.evRxf
def evTxf (p : Params) : Events := 2 ^ p.evTxf
def evBerr (p : Params) : Events := 2 ^ p.evBerr
def evAll (p : Params) : Events := evRxf p ||| evTxf p ||| evBerr p

/-- `e & ~m` on events (00_scope R18): the bits of `e` that are not in `m`. -/
def clearBits (e m : Events) : Events := e ^^^ (e &&& m)

/-- The bits of `m` that EVENT has besides the three served (10_state R46, 30_encoding R99). -/
def otherEvents (p : Params) (m : Events) : Events := clearBits (m % 2 ^ p.evWidth) (evAll p)

/-- Events as a value word (30_encoding R104, R110). Of a register wider than a word the low 32 bits show (DESIGN CHOICE:
notes/assumptions/17). -/
def eventWord (e : Events) : Word := BitVec.ofNat 32 e

/-- The interrupt line, a level (10_state R57). -/
def irq (s : State) : Bool := (s.regs.event &&& s.regs.evmask) != 0

/-- The result code of an error (60_exceptions R213); success is 0. -/
def Err.code : Err → Word
  | .ringInitFailed => 1
  | .txQueueFull => 2
  | .macAddressUnavailable => 3
  | .contextAllocFailed => 4
  | .unsupportedConfiguration => 5
  | .platformSetupFailed => 6
  | .mapFailed => 7
  | .macCoreInitFailed => 8
  | .invalidPhyAddress => 9
  | .mdioInitFailed => 10
  | .phyNotFound => 11
  | .phyStartupFailed => 12
  | .mdioFailed => 13
  | .busError => 14

end Sys2Proof.Machine
end

