-- ==== Sys2Proof/Machine/Buffers.lean ====
section
/-!
DEFINITION. Machine/Buffers.lean: the fields of a slot as memory holds them, and the buffers in flight, which belong to
hardware from their hand-over to their completion callback (20_memory R87).
-/
namespace Sys2Proof.Machine

/-- A field of a descriptor as memory holds it, with the issued writes performed (20_memory R67). -/
def State.field (s : State) (d : Dir) (i : Nat) (f : Field) : Option Nat :=
  match descAddr s d i f with
  | some a => some (memRead s.params.endian s.settled a (fieldWidth f))
  | none => none

/-- A slot's status word says that it belongs to hardware (30_encoding R92). -/
def State.slotOwned (s : State) (d : Dir) (i : Nat) : Bool :=
  match s.field d i .stat with
  | some w => hwOwned s.params d (BitVec.ofNat 16 w)
  | none => false

/-- How many slots lie between the head and slot `i`. -/
def Ring.behindHead (r : Ring) (i : Nat) : Nat := r.adv i (r.cap - r.head)

/-- The slots from the tail on that ENQ_TX has handed to hardware and not yet recorded; FILL_RX moves the tail with each. -/
def State.handed (s : State) : Dir → Nat
  | .rx => 0
  | .tx => s.handing

/-- A slot's buffer is in flight, from its hand-over to the report of its group (20_memory R87): the slot lies between the head
of a live ring and its tail, or in the group that is being handed over and its status word has been issued. RING_TEARDOWN, which
returns no buffer to the caller (40_ring_lifecycle R116), ends the window with the ring: DESIGN CHOICE, since R87 names no end
for a slot that is never reaped (notes/assumptions/34). -/
def State.slotOut (s : State) (d : Dir) (i : Nat) : Bool :=
  (s.ring d).alive && decide ((s.ring d).behindHead i < (s.ring d).inflight + s.handed d)

/-- A buffer in flight, with the slot that holds it. -/
structure OutBuffer where
  dir  : Dir
  slot : Nat
  addr : Nat
  len  : Nat
deriving DecidableEq, Repr

/-- The buffer of a slot of a ring: BUF_SIZE bytes to receive into, the fragment's bytes to send (20_memory R87). -/
def State.bufferOf (s : State) (d : Dir) (i : Nat) : Option OutBuffer :=
  match s.field d i .phys, s.field d i .len with
  | some p, some l => some ⟨d, i, p, match d with | .rx => s.params.bufSize | .tx => l⟩
  | _, _ => none

/-- The buffers in flight of one ring. -/
def State.outOf (s : State) (d : Dir) : List OutBuffer :=
  ((List.range (s.ring d).cap).filter (s.slotOut d)).filterMap (s.bufferOf d)

/-- The buffers in flight. -/
def State.buffersOut (s : State) : List OutBuffer := s.outOf .rx ++ s.outOf .tx

/-- A byte lies in a buffer. -/
def OutBuffer.holds (b : OutBuffer) (a : Nat) : Bool := decide (b.addr ≤ a) && decide (a < b.addr + b.len)

/-- A byte lies in a buffer in flight, which the host must not touch (60_exceptions R224 row 7). -/
def State.inFlight (s : State) (a : Nat) : Bool := s.buffersOut.any fun b => b.holds a

/-- A byte lies in a buffer in flight besides the one of receive slot `i` (R224 row 6a). -/
def State.shared (s : State) (i : Nat) (a : Nat) : Bool :=
  s.buffersOut.any fun b => !(decide (b.dir = .rx) && decide (b.slot = i)) && b.holds a

/-- The bytes a write at `a` leaves: where the host has no right to rely on them, any value (93 U23; notes/assumptions/34). -/
def blur (f : Nat → Bool) (k a : Nat) (bs : List Byte) : List Byte :=
  bs.mapIdx fun i b => if f (a + i) then Config.freeHostByte k i else b

end Sys2Proof.Machine
end

