-- ==== Sys2Proof/Machine/Op.lean ====
section
/-!
DEFINITION. Machine/Op.lean: what an operation is made of, a piece of work from a state to a value and a state, or to a
stop (60_exceptions R209 to R211), and how it ends as one of the host's three outcomes.
-/
namespace Sys2Proof.Machine

/-- A piece of an operation. -/
abbrev Op (α : Type) := StateT State (Except Stop) α

/-- The state now. -/
def here : Op State := fun s => .ok (s, s)

/-- Change the state. -/
def upd (f : State → State) : Op Unit := fun s => .ok ((), f s)

/-- Stop with a fault (60_exceptions R211). -/
def spoil {α : Type} (r : Fault) : Op α := fun _ => .error (.fault r)

/-- Stop with a refusal (60_exceptions R210, 00_scope R22). -/
def refuse {α : Type} (r : Refusal) : Op α := fun _ => .error (.refused r)

/-- Go on only where a condition holds. -/
def require (c : Bool) (r : Refusal) : Op Unit := if c then pure () else refuse r

/-- Go on only where a condition holds; where it fails the model is spoiled. -/
def sound (c : Bool) (r : Fault) : Op Unit := if c then pure () else spoil r

/-- The next value of the counter of free values. -/
def freshDraw : Op Nat := do
  let s ← here
  upd fun s => s.setEnv { s.env with draws := s.env.draws + 1 }
  pure s.env.draws

/-- The outcome of a whole piece of work, its value dropped. -/
def outcome {α : Type} (x : Op α) (s : State) : Host.Outcome State Fault Refusal :=
  match x s with
  | .ok (_, t) => .next t
  | .error (.fault r) => .fault r
  | .error (.refused r) => .refused r

end Sys2Proof.Machine
end

