-- ==== Sys2Proof/Machine/Engine.lean ====
section
/-!
DEFINITION. Machine/Engine.lean: the steps of the DMA engine H (47_dma_engine), each with the condition that enables it
and its effect. They are used twice: as the operations H_RX_SAMPLE to H_BUS_ERROR, and inside an operation of C, where
the schedule places them between two events (20_memory R73). H's accesses are performed at once (R76).
-/
namespace Sys2Proof.Machine

/-! ### The slot H works on (R197) -/

/-- `RXBASE`, `TXBASE`. -/
def hwBase (s : State) : Dir → Word
  | .rx => s.regs.rxbase
  | .tx => s.regs.txbase

/-- `hw.rx_idx`, `hw.tx_idx`. -/
def hwIdx (s : State) : Dir → Nat
  | .rx => s.hw.rxIdx
  | .tx => s.hw.txIdx

/-- `hw.rx_sample`, `hw.tx_sample`. -/
def hwSample (s : State) : Dir → Option Half
  | .rx => s.hw.rxSample
  | .tx => s.hw.txSample

/-- `RX_EN`, `TX_EN`. -/
def pathEnabled (s : State) : Dir → Bool
  | .rx => s.regs.rxEn
  | .tx => s.regs.txEn

/-- The address of the slot H looks at, where that slot lies in the live ring its base register points at and the core was
given the rings since they were initialised; elsewhere the access is a fault of the model (R207, 70_reset_and_hazards
R234 (1), R240; notes/assumptions/9). -/
def hwSlot (s : State) (d : Dir) : Option Nat :=
  let r := s.ring d
  if r.alive && s.coreFresh && (r.base == some (hwBase s d)) then r.slotAddr (hwIdx s d) else none

/-- The slot's address, or the fault of R207. -/
def hSlot (d : Dir) : Op Nat := do
  let s ← here
  match hwSlot s d with
  | some a => pure a
  | none => spoil .hOutsideLiveRing

/-- H reads a descriptor field. -/
def hRead (a : Nat) (f : Field) : Op Nat := do
  let s ← here
  pure (memRead s.params.endian s.mem (fieldAddr s.params.endian a f) (fieldWidth f))

/-- H completes only a slot that is still its own: one whose ownership bit is clear in memory has been taken back, its
buffer with it (R207, R208 (a), 20_memory R87; notes/assumptions/10). -/
def hOwns (d : Dir) (a : Nat) : Op Unit := do
  let s ← here
  let w ← hRead a .stat
  sound (hwOwned s.params d (BitVec.ofNat 16 w)) .hSlotTakenBack

/-- H writes a descriptor field. -/
def hWrite (a : Nat) (f : Field) (v : Nat) : Op Unit :=
  upd fun s => s.setMem (memWrite s.params.endian s.mem (fieldAddr s.params.endian a f) (fieldWidth f) v)

/-- The sample of a side is replaced. -/
def setSample (d : Dir) (x : Option Half) : Op Unit :=
  upd fun s =>
    match d with
    | .rx => s.setHw { s.hw with rxSample := x }
    | .tx => s.setHw { s.hw with txSample := x }

/-- After slot `i`, whose sampled word is `w`: slot 0 if the wrap bit was set, else the next one; the sample is used up
(R197, R201, R204). -/
def hAdvance (d : Dir) (w : Half) : Op Unit :=
  upd fun s =>
    let i := if w.getLsbD (wrapBit s.params d) then 0 else hwIdx s d + 1
    match d with
    | .rx => s.setHw { s.hw with rxIdx := i, rxSample := none }
    | .tx => s.setHw { s.hw with txIdx := i, txSample := none }

/-- H sets an event bit and clears none (10_state R46, 47_dma_engine R208 (e)). The seven steps of H set bits of EV_ALL only; how
the others come to be set is the model's choice, `otherEventsStep` (notes/assumptions/39). -/
def hEvent (bit : Params → Events) : Op Unit :=
  upd fun s => s.setRegs { s.regs with event := s.regs.event ||| bit s.params }

/-! ### Sampling (R200, R203) -/

/-- A path works only while the MAC and the path are enabled (R196). -/
def pathWorks (s : State) (d : Dir) : Bool := s.regs.macEn && pathEnabled s d

/-- A sample step is enabled while no sample is outstanding (R200, R203). -/
def sampleEnabled (s : State) (d : Dir) : Bool := pathWorks s d && (hwSample s d).isNone

/-- H reads the status word of its next slot. -/
def sampleStep (d : Dir) : Op Unit := do
  let a ← hSlot d
  let w ← hRead a .stat
  setSample d (some (BitVec.ofNat 16 w))

/-! ### Completing a receive slot (R201) -/

/-- `H_RX_DONE` is enabled on a sampled word that is hardware-owned; the drawn length and flags are within R201's sets. -/
def rxDoneEnabled (s : State) (length flags : Half) : Bool :=
  pathWorks s .rx
    && (match s.hw.rxSample with | some w => hwOwned s.params .rx w | none => false)
    && decide (length.toNat ≤ s.regs.bufsz.toNat) && rxFlagsAdmissible s.params flags

/-- What H writes into a buffer of `limit` bytes for a frame of `n`: the listed bytes, which may go on behind the frame;
a byte of the frame that is not listed is free, and where no frame is listed every byte of the buffer is (R201, 20_memory
R87, 93 U8; notes/assumptions/31). -/
def frameBytes (listed : Option (List Byte)) (k n limit : Nat) : List Byte :=
  match listed with
  | some f =>
    (List.range n).map (fun i => match f[i]? with | some b => b | none => Config.freeFrameByte k i) ++
      (f.take limit).drop n
  | none => (List.range limit).map (Config.freeFrameByte k)

/-- The next frame from the wire. -/
def drawFrame (n limit : Nat) : Op (List Byte) := do
  let s ← here
  upd fun s => s.setEnv { s.env with
    draws := s.env.draws + 1, answers := { s.env.answers with frames := s.env.answers.frames.tail } }
  pure (frameBytes s.env.answers.frames.head? s.env.draws n limit)

/-- Payload, then length, then the status word that hands the slot back, then the event bit (R201, 20_memory R76). Bytes
that lie in another buffer in flight as well are any value (60_exceptions R224 row 6a, 93 U23). -/
def rxDoneStep (length flags : Half) : Op Unit := do
  let s ← here
  match s.hw.rxSample with
  | none => pure ()
  | some w => do
    let a ← hSlot .rx
    hOwns .rx a
    let p ← hRead a .phys
    let data ← drawFrame length.toNat s.regs.bufsz.toNat
    sound (bufferReal s p data.length) .bufferNotReal
    upd fun t => t.setMem (Memory.writeBytes p (blur (s.shared s.hw.rxIdx) s.env.draws p data) t.mem)
    hWrite a .len length.toNat
    hWrite a .stat (rxDoneStat s.params w flags).toNat
    hAdvance .rx w
    hEvent evRxf

/-! ### Completing a transmit slot (R204) -/

/-- `H_TX_DONE` is enabled on a sampled word that is ready. -/
def txDoneEnabled (s : State) : Bool :=
  pathWorks s .tx && (match s.hw.txSample with | some w => hwOwned s.params .tx w | none => false)

/-- The fragment's bytes are read and sent, which changes nothing modelled (R204, 00_scope R9); only the ownership bit of
the word changes; the event is raised on the fragment marked last. -/
def txDoneStep : Op Unit := do
  let s ← here
  match s.hw.txSample with
  | none => pure ()
  | some w => do
    let a ← hSlot .tx
    hOwns .tx a
    let p ← hRead a .phys
    let l ← hRead a .len
    sound (bufferReal s p l) .bufferNotReal
    hWrite a .stat (txDoneStat s.params w).toNat
    hAdvance .tx w
    if w.getLsbD s.params.txdLast then hEvent evTxf else pure ()

/-! ### Stalling (R202, R205) -/

/-- A stall is enabled on a sampled word that is not hardware-owned. -/
def stallEnabled (s : State) (d : Dir) : Bool :=
  pathWorks s d && (match hwSample s d with | some w => !hwOwned s.params d w | none => false)

/-- H turns its own path off; its index does not move and no event is raised. -/
def stallStep (d : Dir) : Op Unit := do
  upd fun s =>
    match d with
    | .rx => s.setRegs { s.regs with rxEn := false }
    | .tx => s.setRegs { s.regs with txEn := false }
  setSample d none

/-! ### Bus error (R206) -/

/-- Enabled whenever the MAC is (R196). -/
def busErrorEnabled (s : State) : Bool := s.regs.macEn

/-- The step only raises the event. -/
def busErrorStep : Op Unit := hEvent evBerr

/-! ### Event bits outside EV_ALL (10_state R46, 93 U9) -/

/-- The hardware sets bits of EVENT that are none of the three served, which the spec leaves unspecified: whichever of them, and
when, is the schedule's choice (DESIGN CHOICE: notes/assumptions/39). C never reads, clears or unmasks them. -/
def otherEventsStep (m : Events) : Op Unit := hEvent fun p => otherEvents p m

end Sys2Proof.Machine
end

