-- ==== Sys2Proof/Machine/Ops.lean ====
section
/-!
DEFINITION. Machine/Ops.lean: the primitives C's operations are made of (00_scope R20 to R22), each one event: before it
H and the memory system may act (20_memory R73, R74); then the frame every operation of C has (60_exceptions R209,
R221, R222).
-/
namespace Sys2Proof.Machine

/-! ### What happens between two events of C -/

/-- The k-th issued write is performed, unless an earlier issued write touches the same bytes (20_memory R74 (a)). -/
def performNth (k : Nat) (s : State) : State :=
  match s.pend[k]? with
  | none => s
  | some w =>
    if (s.pend.take k).any (fun v => overlaps v.addr v.bytes.length w.addr w.bytes.length) then s
    else (s.setMem (performOne s.mem w)).setPend (s.pend.eraseIdx k)

/-- A read of C is performed ahead of its issue (R74 (c)), unless it would pass an issued write to the same bytes or an
earlier read of them (R74 (a)). -/
def prefetchAt (a n : Nat) (s : State) : State :=
  if s.pend.any (fun v => overlaps v.addr v.bytes.length a n) || s.early.any (fun e => overlaps e.addr e.bytes.length a n)
  then s
  else s.setEarly (⟨a, Memory.readBytes a n s.mem⟩ :: s.early)

/-- An act of the host: it writes memory that exists and is no descriptor memory; what it writes into a buffer in flight,
which it must not touch, is any value (60_exceptions R224 row 7); writing descriptor memory or a register breaks a duty,
which is a fault (R224 row 8, 93 U23; notes/assumptions/34). -/
def hostAct : HostAct → Op Unit
  | .write a bs => do
    let s ← here
    sound (bufferReal s a bs.length) .behindTheBack
    let k ← freshDraw
    upd fun t => t.setMem (Memory.writeBytes a (blur s.inFlight k a bs) t.mem)
  | .register => spoil .behindTheBack

/-- A step of H taken where it is enabled; elsewhere H takes none. -/
def takeIf (c : State → Bool) (x : Op Unit) : Op Unit := do
  let s ← here
  if c s then x else pure ()

/-- One entry of the schedule. -/
def envStep : EnvStep → Op Unit
  | .rxSample => takeIf (fun s => sampleEnabled s .rx) (sampleStep .rx)
  | .rxDone l f => takeIf (fun s => rxDoneEnabled s l f) (rxDoneStep l f)
  | .rxStall => takeIf (fun s => stallEnabled s .rx) (stallStep .rx)
  | .txSample => takeIf (fun s => sampleEnabled s .tx) (sampleStep .tx)
  | .txDone => takeIf txDoneEnabled txDoneStep
  | .txStall => takeIf (fun s => stallEnabled s .tx) (stallStep .tx)
  | .busError => takeIf busErrorEnabled busErrorStep
  | .perform k => upd (performNth k)
  | .prefetch a n => upd (prefetchAt a n)
  | .host a => hostAct a
  | .otherEvents m => otherEventsStep m

/-- The entries of one gap between two events. -/
def envSteps : List EnvStep → Op Unit
  | [] => pure ()
  | e :: es => do
    envStep e
    envSteps es

/-- The gap before an event: the next line of the schedule, nothing where it has run out (notes/assumptions/3). -/
def tick : Op Unit := do
  let s ← here
  match s.env.sched with
  | [] => pure ()
  | es :: rest => do
    upd fun s => s.setEnv { s.env with sched := rest }
    envSteps es

/-! ### Memory of C (20_memory R67, R74, R77) -/

/-- A write is issued: it joins the pending ones, and no earlier-performed read of its bytes is left (R74). -/
def issueWrite (a : Nat) (bs : List Byte) (s : State) : State :=
  (s.setPend (s.pend ++ [⟨a, bs⟩])).setEarly (s.early.filter fun e => !overlaps e.addr e.bytes.length a bs.length)

/-- Every issued write is performed and no earlier-performed read is left: what a barrier does (R77). -/
def flush (s : State) : State := ((s.setMem s.settled).setPend []).setEarly []

/-- The issued writes to bytes about to be read are performed first (R74 (a)). -/
def flushTouching (a n : Nat) (s : State) : State :=
  (s.setMem (performAll s.mem (s.pend.filter fun v => overlaps v.addr v.bytes.length a n))).setPend
    (s.pend.filter fun v => !overlaps v.addr v.bytes.length a n)

/-- The bytes a read of C yields: an early read of exactly these bytes, or memory. -/
def readValue (a n : Nat) (s : State) : List Byte :=
  match s.early.find? (fun e => decide (e.addr = a) && decide (e.bytes.length = n)) with
  | some e => e.bytes
  | none => Memory.readBytes a n s.mem

/-- A read is issued: its bytes, and no early read of them is left. -/
def issueRead (a n : Nat) : Op (List Byte) := do
  upd (flushTouching a n)
  let s ← here
  let bs := readValue a n s
  upd fun s => s.setEarly (s.early.filter fun e => !overlaps e.addr e.bytes.length a n)
  pure bs

/-- The address of a descriptor field, for a slot the ring has (R67; elsewhere no meaning: notes/assumptions/26). -/
def descField (d : Dir) (i : Nat) (f : Field) : Op Nat := do
  let s ← here
  match descAddr s d i f with
  | some a => pure a
  | none => refuse .slotOutsideRing

/-- `DescWrite(r, i, f, v)` (R67). -/
def descWrite (d : Dir) (i : Nat) (f : Field) (v : Nat) : Op Unit := do
  tick
  let s ← here
  let a ← descField d i f
  upd (issueWrite a (toBytes s.params.endian (fieldWidth f) v))

/-- `DescRead(r, i, f)` (R67). -/
def descRead (d : Dir) (i : Nat) (f : Field) : Op Nat := do
  tick
  let s ← here
  let a ← descField d i f
  let bs ← issueRead a (fieldWidth f)
  pure (ofBytes s.params.endian bs)

/-- `Barrier()` (R77). -/
def barrier : Op Unit := do
  tick
  upd flush

/-! ### Registers of C (00_scope R21, 20_memory R82: a register access orders like a barrier) -/

/-- `RegRead`: the register block as it is when the access takes effect. -/
def regRead {α : Type} (get : Regs → α) : Op α := do
  tick
  upd flush
  let s ← here
  pure (get s.regs)

/-- `RegWrite`. -/
def regWrite (set : Regs → Regs) : Op Unit := do
  tick
  upd flush
  upd fun s => s.setRegs (set s.regs)

/-- `RegWrite(RX_EN, v)`; either value clears H's receive sample (47_dma_engine R196), a 1 over a 1 too, which changes no register
(45_register_interface R168; notes/assumptions/38). -/
def writeRxEn (v : Bool) : Op Unit := do
  regWrite fun r => { r with rxEn := v }
  setSample .rx none

/-- `RegWrite(TX_EN, v)`; either value clears H's transmit sample (R196). -/
def writeTxEn (v : Bool) : Op Unit := do
  regWrite fun r => { r with txEn := v }
  setSample .tx none

/-- `EVENT <- EVENT & ~m`, one atomic action (45_register_interface R175). -/
def eventClear (m : Events) : Op Unit := regWrite fun r => { r with event := clearBits r.event m }

/-- `RegReadClear(EVENT, m)`, one atomic action: it clears exactly the bits it returns (R176, 20_memory R84). -/
def regReadClear (m : Events) : Op Events := do
  tick
  upd flush
  let s ← here
  let e := s.regs.event &&& m
  upd fun s => s.setRegs { s.regs with event := clearBits s.regs.event e }
  pure e

/-! ### Calls of callbacks and collaborators (00_scope R22) -/

/-- `Call f(args)`: one event; the call is recorded. -/
def call (c : Call) : Op Unit := do
  tick
  upd fun s => s.setCalls (s.calls ++ [c])

/-- A completion callback: the ring is updated, then the callback runs (46_facade R194), with nothing between the two, so
that the buffer is in flight up to the callback (20_memory R87). -/
def deliver (f : State → State) (c : Call) : Op Unit := do
  tick
  upd f
  upd fun s => s.setCalls (s.calls ++ [c])

/-- A call that is answered: the next listed answer, or a free one (notes/assumptions/3). -/
def ask {α : Type} (c : Call) (get : Answers → List α) (put : Answers → List α → Answers) (free : Nat → α) : Op α := do
  call c
  let s ← here
  match get s.env.answers with
  | a :: rest => do
    upd fun s => s.setEnv { s.env with answers := put s.env.answers rest }
    pure a
  | [] => do
    let k ← freshDraw
    pure (free k)

/-- The collaborators of bring-up (44_link_bringup R153) and RING_INIT (40_ring_lifecycle R111). -/
def askFuse (index : BitVec 8) : Op (Option Mac) :=
  ask (.fuseMac index) (·.fuse) (fun a x => { a with fuse := x }) Config.freeFuse
def askCtxAlloc : Op Bool := ask .ctxAlloc (·.ctxAlloc) (fun a x => { a with ctxAlloc := x }) Config.freeOk
def askDma (size align : Nat) : Op (Option Word) :=
  ask (.dmaAlloc size align) (·.dmaAlloc) (fun a x => { a with dmaAlloc := x }) Config.freeDma
def askMeta (capRx capTx : Nat) : Op Bool :=
  ask (.metaAlloc capRx capTx) (·.metaAlloc) (fun a x => { a with metaAlloc := x }) Config.freeOk
def askPlatform (index : Nat) : Op Bool :=
  ask (.platformSetup index) (·.platform) (fun a x => { a with platform := x }) Config.freeOk
def askMapRegs : Op (Option Word) := ask .mapRegs (·.mapRegs) (fun a x => { a with mapRegs := x }) Config.freeMap
def askCoreInit (regs : Option Word) : Op Bool :=
  ask (.macCoreHwInit regs) (·.coreInit) (fun a x => { a with coreInit := x }) Config.freeOk
def askMdioInit (regs : Option Word) (remote : Bool) : Op Bool :=
  ask (.mdioInit regs remote) (·.mdioInit) (fun a x => { a with mdioInit := x }) Config.freeOk
def askPhyConnect (addr : Option (BitVec 8)) : Op (Option Nat) :=
  ask (.phyConnect addr) (·.phyConnect) (fun a x => { a with phyConnect := x }) Config.freePhy
def askPhyTune (phy : Nat) : Op Bool :=
  ask (.phyTune phy) (·.phyTune) (fun a x => { a with phyTune := x }) Config.freeOk

/-- A free negotiation result: a position in SpeedSet and a duplex (93 U18). -/
def freeNegotiation (p : Params) (k : Nat) : Option (Nat × Duplex) :=
  match Config.freeStartup k with
  | none => none
  | some (i, d) => some (p.speedSet.getD (i % p.speedSet.length) 0, d)

def askPhyStartup (phy : Nat) : Op (Option (Nat × Duplex)) := do
  let s ← here
  ask (.phyStartup phy) (·.phyStartup) (fun a x => { a with phyStartup := x }) (freeNegotiation s.params)

/-- A free answer of the buffer source fits 32 bits (93 U15). -/
def freeBufferAnswer (k : Nat) : Option (Nat × Handle) :=
  match Config.freeBuffer k with
  | none => none
  | some (p, h) => some (p.toNat, h)

/-- `allocate_receive_buffer(size)` (46_facade R191). -/
def askBuffer (size : Nat) : Op (Option (Nat × Handle)) :=
  ask (.allocateReceiveBuffer size) (·.buffers) (fun a x => { a with buffers := x }) freeBufferAnswer

/-- MDIO accesses made for this device go through the remote functions when its configuration has them
(45_register_interface R183; notes/assumptions/21). -/
def remoteMdio (s : State) : Bool := s.ctx.alive && s.bring.cfg.remoteMdio

/-- `MdioRead(phy, reg)` (R181). -/
def askMdioRead (phy reg : BitVec 5) : Op (Option Half) := do
  let s ← here
  ask (.mdioRead (remoteMdio s) phy reg) (·.mdioRead) (fun a x => { a with mdioRead := x }) Config.freeMdio

/-- `MdioWrite(phy, reg, v)` (R182). -/
def askMdioWrite (phy reg : BitVec 5) (v : Half) : Op Bool := do
  let s ← here
  ask (.mdioWrite (remoteMdio s) phy reg v) (·.mdioWrite) (fun a x => { a with mdioWrite := x }) Config.freeOk

/-- Which writes a failed MAC-core initialisation performed (R184); not a call, a free choice. -/
def drawCoreWrites : Op (BitVec 9) := do
  let s ← here
  match s.env.answers.coreWrites with
  | m :: rest => do
    upd fun s => s.setEnv { s.env with answers := { s.env.answers with coreWrites := rest } }
    pure m
  | [] => do
    let k ← freshDraw
    pure (Config.freeCoreWrites k)

/-! ### How an operation of C begins and ends -/

/-- `raise E(info)`: the operation ends; the changes made so far stand; the result word is the error's code, followed by
`info` (60_exceptions R209, 30_encoding R110). -/
def raise (e : Err) (info : List Word) : Op (List Word) := pure (e.code :: info)

/-- `return`: the result word 0, then the value words (30_encoding R110). -/
def returnOk (values : List Word) : Op (List Word) := pure (0 :: values)

/-- An operation of C begins and ends: `busy` is its duration, the answer words stand at its end (10_state R43,
30_encoding R110). -/
def State.begun (s : State) : State := s.setSeq { s.seq with busy := true }
def State.ended (s : State) (ws : List Word) : State := (s.setSeq { s.seq with busy := false }).setOut ws

/-- The body of an operation between its begin and its end. -/
def whole (body : Op (List Word)) : Op Unit := do
  upd State.begun
  let ws ← body
  upd fun s => s.ended ws

/-- One operation of C issued from outside: refused while another is in progress (60_exceptions R222) or where it is not
admitted (R221). -/
def issue (adm : State → Option Refusal) (body : Op (List Word)) (s : State) : Host.Outcome State Fault Refusal :=
  if s.seq.busy then .refused .busy
  else
    match adm s with
    | some r => .refused r
    | none => outcome (whole body) s

/-- A step of H named from outside: refused where it is not enabled (60_exceptions R221, 47_dma_engine R196). -/
def engineStep (enabled : State → Bool) (x : Op Unit) (s : State) : Host.Outcome State Fault Refusal :=
  if enabled s then outcome x s else .refused .stepNotEnabled

/-! ### The admission table (60_exceptions R221) -/

/-- INIT: in Off, with nothing allocated. -/
def admitInit (s : State) : Option Refusal :=
  if s.seq.mode ≠ .off then some .notAdmitted
  else if s.rx.alive || s.tx.alive || s.ctx.alive then some .alreadyAllocated
  else none

/-- RING_INIT: in Off, with no ring alive. -/
def admitRingInit (s : State) : Option Refusal :=
  if s.seq.mode ≠ .off then some .notAdmitted
  else if s.rx.alive || s.tx.alive then some .alreadyAllocated
  else none

/-- RING_TEARDOWN: in Off. -/
def admitTeardown (s : State) : Option Refusal :=
  if s.seq.mode ≠ .off then some .notAdmitted else none

/-- Ring operations: in Off or Running, with their ring alive. -/
def admitRing (d : Dir) (s : State) : Option Refusal :=
  if s.seq.mode ≠ .off ∧ s.seq.mode ≠ .running then some .notAdmitted
  else if (s.ring d).alive then none
  else some .ringNotAlive

/-- HANDLE_IRQ, POLL, TRANSMIT: in Running. -/
def admitRunning (s : State) : Option Refusal :=
  if s.seq.mode ≠ .running then some .notAdmitted else none

/-- GET_MAC and PRINT_DIAG: in Running or Halted, with a device context. -/
def admitContext (s : State) : Option Refusal :=
  if s.seq.mode ≠ .running ∧ s.seq.mode ≠ .halted then some .notAdmitted
  else if s.ctx.alive then none
  else some .noContext

/-- Register operations: in Off (component-level use) or Running. -/
def admitRegister (s : State) : Option Refusal :=
  if s.seq.mode ≠ .off ∧ s.seq.mode ≠ .running then some .notAdmitted else none

/-- MAC_CORE_INIT and MAC_ENABLE: in Off, with both rings alive. -/
def admitCore (s : State) : Option Refusal :=
  if s.seq.mode ≠ .off then some .notAdmitted
  else if s.rx.alive && s.tx.alive then none
  else some .ringNotAlive

end Sys2Proof.Machine
end

