-- ==== Sys2Proof/Machine/Registers.lean ====
section
/-!
DEFINITION. Machine/Registers.lean: the register-level interface to the MAC/DMA engine (45_register_interface). The
definitions named after a capability are also what the bring-up steps use.
-/
namespace Sys2Proof.Machine

/-! ### Capabilities shared with bring-up -/

/-- `EV_SET_MASK m` (R177): the whole mask is replaced, bits outside `EV_ALL` by 0. -/
def setEventMask (m : Events) : Op Unit := do
  let s ← here
  regWrite fun r => { r with evmask := m &&& evAll s.params }

/-- `SET_SPEED_DUPLEX` (R178): both registers in one event; the speed is in SpeedSet. -/
def setSpeedDuplex (speed : Nat) (d : Duplex) : Op Unit := do
  let s ← here
  require (s.params.speedSet.contains speed) .speedNotInSet
  regWrite fun r => { r with speed := speed, duplex := d }

/-- `RegWrite(PROMISC, v)` (R179, R180). -/
def setPromisc (v : Bool) : Op Unit := regWrite fun r => { r with promisc := v }

/-- H's hidden registers start over (R184, 10_state R56). -/
def resetEngine : Op Unit := upd fun s => s.setHw ⟨0, 0, none, none⟩

/-- The k-th write of MAC_CORE_INIT where it is among those performed. -/
def onBit (m : BitVec 9) (k : Nat) (x : Op Unit) : Op Unit := if m.getLsbD k then x else pure ()

/-- The writes of MAC_CORE_INIT in R184's order, those that `m` selects: all of them where the core comes up. -/
def coreWrites (m : BitVec 9) (rxBase txBase bufSize : Word) (mac : Mac) : Op Unit := do
  onBit m 0 (regWrite fun r => { r with macEn := false })
  onBit m 1 (writeRxEn false)
  onBit m 2 (writeTxEn false)
  onBit m 3 (regWrite fun r => { r with evmask := 0 })
  onBit m 4 (regWrite fun r => { r with rxbase := rxBase })
  onBit m 5 (regWrite fun r => { r with txbase := txBase })
  onBit m 6 (regWrite fun r => { r with bufsz := bufSize })
  onBit m 7 (regWrite fun r => { r with macaddr := mac })
  onBit m 8 resetEngine

/-- MAC_CORE_INIT (R184): true where it succeeds; where it fails, which writes happened is a free choice
(notes/assumptions/13). -/
def macCoreInit (rxBase txBase bufSize : Word) (mac : Mac) : Op Bool := do
  let s ← here
  require (s.rx.alive && s.tx.alive) .ringNotAlive
  let ok ← askCoreInit s.ctx.regs
  if ok then do
    coreWrites (BitVec.allOnes 9) rxBase txBase bufSize mac
    upd fun s => s.setCoreFresh true
    pure true
  else do
    let m ← drawCoreWrites
    coreWrites m rxBase txBase bufSize mac
    pure false

/-- MAC_ENABLE (R185): after a MAC_CORE_INIT that succeeded since the rings were initialised; without one the model is
spoiled (93 U3, 70_reset_and_hazards R240). -/
def macEnable : Op Unit := do
  let s ← here
  sound s.coreFresh .staleMacEnable
  regWrite fun r => { r with macEn := true }

/-! ### The operations -/

/-- RX_ENABLE (R168). -/
def execRxEnable (s : State) : Host.Outcome State Fault Refusal :=
  issue admitRegister (do
    writeRxEn true
    returnOk []) s

/-- RX_DISABLE (R169). -/
def execRxDisable (s : State) : Host.Outcome State Fault Refusal :=
  issue admitRegister (do
    writeRxEn false
    returnOk []) s

/-- TX_ENABLE (R170). -/
def execTxEnable (s : State) : Host.Outcome State Fault Refusal :=
  issue admitRegister (do
    writeTxEn true
    returnOk []) s

/-- TX_DISABLE (R171). -/
def execTxDisable (s : State) : Host.Outcome State Fault Refusal :=
  issue admitRegister (do
    writeTxEn false
    returnOk []) s

/-- A flag as a value word, 0 or 1 (30_encoding R104). -/
def flagWord (b : Bool) : Word := if b then 1 else 0

/-- RX_ENABLED (R172). -/
def execRxEnabled (s : State) : Host.Outcome State Fault Refusal :=
  issue admitRegister (do
    let on ← regRead (·.rxEn)
    returnOk [flagWord on]) s

/-- TX_ENABLED (R173). -/
def execTxEnabled (s : State) : Host.Outcome State Fault Refusal :=
  issue admitRegister (do
    let on ← regRead (·.txEn)
    returnOk [flagWord on]) s

/-- EV_READ (R174): reading clears nothing. -/
def execEvRead (s : State) : Host.Outcome State Fault Refusal :=
  issue admitRegister (do
    let s ← here
    let e ← regRead (·.event)
    returnOk [eventWord (e &&& evAll s.params)]) s

/-- EV_CLEAR (R175): bits outside `EV_ALL` are never cleared. -/
def execEvClear (m : Word) (s : State) : Host.Outcome State Fault Refusal :=
  issue admitRegister (do
    let s ← here
    eventClear (m.toNat &&& evAll s.params)
    returnOk []) s

/-- EV_READ_CLEAR (R176). -/
def execEvReadClear (s : State) : Host.Outcome State Fault Refusal :=
  issue admitRegister (do
    let s ← here
    let e ← regReadClear (evAll s.params)
    returnOk [eventWord e]) s

/-- EV_SET_MASK (R177). -/
def execEvSetMask (m : Word) (s : State) : Host.Outcome State Fault Refusal :=
  issue admitRegister (do
    setEventMask m.toNat
    returnOk []) s

/-- SET_SPEED_DUPLEX (R178). -/
def execSetSpeedDuplex (speed : Half) (d : Duplex) (s : State) : Host.Outcome State Fault Refusal :=
  issue admitRegister (do
    setSpeedDuplex speed.toNat d
    returnOk []) s

/-- PROMISC_SET (R179). -/
def execPromiscSet (s : State) : Host.Outcome State Fault Refusal :=
  issue admitRegister (do
    setPromisc true
    returnOk []) s

/-- PROMISC_CLEAR (R180). -/
def execPromiscClear (s : State) : Host.Outcome State Fault Refusal :=
  issue admitRegister (do
    setPromisc false
    returnOk []) s

/-- MDIO_READ (R181). -/
def execMdioRead (phy reg : BitVec 5) (s : State) : Host.Outcome State Fault Refusal :=
  issue admitRegister (do
    let v ← askMdioRead phy reg
    match v with
    | some v => returnOk [v.setWidth 32]
    | none => raise .mdioFailed []) s

/-- MDIO_WRITE (R182). -/
def execMdioWrite (phy reg : BitVec 5) (v : Half) (s : State) : Host.Outcome State Fault Refusal :=
  issue admitRegister (do
    let ok ← askMdioWrite phy reg v
    if ok then returnOk [] else raise .mdioFailed []) s

/-- MAC_CORE_INIT issued on its own (R184): a failure is reported and the mode stays (notes/assumptions/13). -/
def execMacCoreInit (rxBase txBase bufSize : Word) (mac : Mac) (s : State) : Host.Outcome State Fault Refusal :=
  issue admitCore (do
    let ok ← macCoreInit rxBase txBase bufSize mac
    if ok then returnOk [] else raise .macCoreInitFailed []) s

/-- MAC_ENABLE (R185). -/
def execMacEnable (s : State) : Host.Outcome State Fault Refusal :=
  issue admitCore (do
    macEnable
    returnOk []) s

end Sys2Proof.Machine
end

