-- ==== Sys2Proof/Machine/Rings.lean ====
section
/-!
DEFINITION. Machine/Rings.lean: the ring life cycle, RING_INIT and RING_TEARDOWN (40_ring_lifecycle).
-/
namespace Sys2Proof.Machine

/-- `r.cap` and `r.base` are set (R111). -/
def setBlock (d : Dir) (base : Word) (cap : Nat) : Op Unit :=
  upd fun s => s.setRing d { s.ring d with base := some base, cap := cap }

/-- Slots `0 .. n−1` in index order: address 0, length 0, and the wrap marker alone on the last slot (R111). -/
def initSlots (d : Dir) : Nat → Op Unit
  | 0 => pure ()
  | n + 1 => do
    initSlots d n
    descWrite d n .phys 0
    descWrite d n .len 0
    let s ← here
    descWrite d n .stat (statInit s.params d (s.ring d) n).toNat

/-- `r.head <- 0 ; r.tail <- 0 ; r.remain <- r.cap - 2 ; r.alive <- true` (R111). -/
def Ring.opened (r : Ring) : Ring := { r with head := 0, tail := 0, remain := r.cap - 2, alive := true }
def openRing (d : Dir) : Op Unit := upd fun s => s.setRing d (s.ring d).opened

/-- The metadata arrays of both rings, one entry a slot, with contents no rule gives (10_state R61; free values:
notes/assumptions/15). -/
def freshMeta (capRx capTx : Nat) : Op Unit := do
  let k ← freshDraw
  let j ← freshDraw
  upd fun s => s.setRx { s.rx with handle := (List.range capRx).map (Config.freeHandle k) }
  upd fun s => s.setTx { s.tx with handle := (List.range capTx).map (Config.freeHandle j) }
  upd fun s => s.setNdesc ((List.range capTx).map (Config.freeNdesc k))

/-- One ring is laid out. -/
def layRing (d : Dir) (cap : Nat) : Op Unit := do
  initSlots d cap
  openRing d

/-- The allocations that succeeded are released (R112). -/
def releaseDma (a : Option Word) (size : Nat) : Op Unit :=
  match a with
  | some b => call (.dmaFree b size)
  | none => pure ()
def releaseMeta (m : Bool) : Op Unit :=
  if m then do
    call (.metaFree .rx)
    call (.metaFree .tx)
  else pure ()

/-- RING_INIT (R111): true where both rings stand, false where RingInitFailed is to be raised (R112). -/
def ringInit (capRx capTx : Nat) : Op Bool := do
  require (decide (2 ≤ capRx) && decide (2 ≤ capTx)) .capacityTooSmall
  let s ← here
  require (!s.rx.alive && !s.tx.alive) .alreadyAllocated
  let a ← askDma (descSize * capRx) s.params.dmaAlign
  let b ← askDma (descSize * capTx) s.params.dmaAlign
  let m ← askMeta capRx capTx
  match a, b, m with
  | some a, some b, true => do
    require (allocOk s.params.dmaAlign a.toNat capRx b.toNat capTx) .allocatorContract
    setBlock .rx a capRx
    setBlock .tx b capTx
    freshMeta capRx capTx
    upd fun s => s.setCoreFresh false
    layRing .rx capRx
    layRing .tx capTx
    pure true
  | a, b, m => do
    releaseDma a (descSize * capRx)
    releaseDma b (descSize * capTx)
    releaseMeta m
    pure false

/-- One ring is released (R115): `base` and `alive` are written; capacity, indices, counter and metadata are
unspecified afterwards (free values: notes/assumptions/14). -/
def closeRing (d : Dir) : Op Unit := do
  let s ← here
  let r := s.ring d
  if r.alive then do
    match r.base with
    | some b => call (.dmaFree b (descSize * r.cap))
    | none => pure ()
    call (.metaFree d)
    let k ← freshDraw
    upd fun s => s.setRing d
      { cap := Config.freeRingReg k 0, base := none, head := Config.freeRingReg k 1, tail := Config.freeRingReg k 2,
        remain := Config.freeRingReg k 3, alive := false, handle := [] }
  else pure ()

/-- The descriptor-count array goes with the transmit ring's metadata (R115). -/
def closeNdesc : Op Unit := do
  let s ← here
  if s.tx.alive then upd fun s => s.setNdesc [] else pure ()

/-- RING_TEARDOWN (R115): a ring that is not alive is left as it is. -/
def ringTeardown : Op Unit := do
  closeRing .rx
  closeNdesc
  closeRing .tx
  upd fun s => s.setCoreFresh false

/-- The operation RING_INIT (R111 to R113). -/
def execRingInit (capRx capTx : Word) (s : State) : Host.Outcome State Fault Refusal :=
  issue admitRingInit (do
    let ok ← ringInit capRx.toNat capTx.toNat
    if ok then returnOk [] else raise .ringInitFailed []) s

/-- The operation RING_TEARDOWN (R115, R116); issued while the MAC is enabled it breaks a duty of the host, which is a fault
(60_exceptions R224 row 12, 93 U23). -/
def execRingTeardown (s : State) : Host.Outcome State Fault Refusal :=
  issue admitTeardown (do
    let s ← here
    sound (!s.regs.macEn) .teardownUnderMac
    ringTeardown
    returnOk []) s

end Sys2Proof.Machine
end

