-- ==== Sys2Proof/Machine/Reaper.lean ====
section
/-!
DEFINITION. Machine/Reaper.lean: the completion reaper, REAP_RX and REAP_TX (42_completion_reaper). A loop's bound is
the number of slots in flight on entry (60_exceptions R226; notes/assumptions/20).
-/
namespace Sys2Proof.Machine

/-- The re-enable test of a path, `pending(r) and RegRead(r_EN) = 0` (R120, R135, R139). -/
def reenable (d : Dir) : Op Unit := do
  let s ← here
  if (s.ring d).pending then do
    let on ← regRead (fun r => match d with | .rx => r.rxEn | .tx => r.txEn)
    if on then pure () else match d with | .rx => writeRxEn true | .tx => writeTxEn true
  else pure ()

/-- The handle of a slot (10_state R32). An index outside the array, which no run reaches, reads as the first handle. -/
def handleAt (r : Ring) (i : Nat) : Handle := r.handle.getD i .first

/-- The turns of REAP_RX's loop (R130, R131). -/
def reapRxLoop : Nat → Op Unit
  | 0 => pure ()
  | n + 1 => do
    let s ← here
    if s.rx.pending then do
      let i := s.rx.head
      let w ← descRead .rx i .stat
      barrier
      if hwOwned s.params .rx (BitVec.ofNat 16 w) then pure ()
      else do
        let h := handleAt s.rx i
        let l ← descRead .rx i .len
        deliver (fun s => s.setRx (s.rx.take 1)) (.onReceiveComplete [h] [l])
        reapRxLoop n
    else pure ()

/-- REAP_RX (R130): the loop, then the re-enable test (R135). -/
def reapRx : Op Unit := do
  let s ← here
  require s.rx.alive .ringNotAlive
  reapRxLoop s.rx.inflight
  reenable .rx

/-- Whether some fragment of the group of `n` slots at `t` is still hardware-owned: every fragment is read (R137). -/
def groupBusy (t : Nat) : Nat → Op Bool
  | 0 => pure false
  | n + 1 => do
    let before ← groupBusy t n
    let s ← here
    let w ← descRead .tx (s.tx.adv t n) .stat
    pure (before || hwOwned s.params .tx (BitVec.ofNat 16 w))

/-- The turns of REAP_TX's loop (R137, R138). -/
def reapTxLoop : Nat → Op Unit
  | 0 => pure ()
  | k + 1 => do
    let s ← here
    if s.tx.pending then do
      let t := s.tx.head
      let n := s.ndesc.getD t 0
      let owned ← groupBusy t n
      if owned then pure ()
      else do
        barrier
        let h := handleAt s.tx t
        deliver (fun s => s.setTx (s.tx.take n)) (.onTransmitComplete h)
        reapTxLoop k
    else pure ()

/-- REAP_TX (R137): the loop, then the re-enable test (R139). -/
def reapTx : Op Unit := do
  let s ← here
  require s.tx.alive .ringNotAlive
  reapTxLoop s.tx.inflight
  reenable .tx

/-- The operation REAP_RX. -/
def execReapRx (s : State) : Host.Outcome State Fault Refusal :=
  issue (admitRing .rx) (do
    reapRx
    returnOk []) s

/-- The operation REAP_TX. -/
def execReapTx (s : State) : Host.Outcome State Fault Refusal :=
  issue (admitRing .tx) (do
    reapTx
    returnOk []) s

end Sys2Proof.Machine
end

