-- ==== Sys2Proof/Machine/Supply.lean ====
section
/-!
DEFINITION. Machine/Supply.lean: buffer supply, FILL_RX and ENQ_TX (41_buffer_supply). Both hand slots over by address
and length, barrier, status word (20_memory R79).
-/
namespace Sys2Proof.Machine

/-- An answered buffer fits the `phys` field (R121 (d)) and is real (60_exceptions R224 row 6). -/
def acceptBuffer (pa : Nat) : Op Unit := do
  require (decide (pa < 2 ^ 32)) .physTooWide
  let s ← here
  sound (bufferReal s pa s.params.bufSize) .bufferNotReal

/-- One empty buffer is handed to hardware in the slot at the tail (R117, R119). -/
def handOverRx (pa : Nat) (h : Handle) : Op Unit := do
  let s ← here
  let i := s.rx.tail
  descWrite .rx i .phys pa
  descWrite .rx i .len 0
  barrier
  descWrite .rx i .stat (rxHandover s.params s.rx i).toNat
  upd fun s => s.setRx (s.rx.give 1 h)

/-- The turns of FILL_RX's loop: at most `RX.remain` of them (R117, R118). -/
def fillLoop : Nat → Op Unit
  | 0 => pure ()
  | n + 1 => do
    let s ← here
    let b ← askBuffer s.params.bufSize
    match b with
    | none => pure ()
    | some (pa, h) => do
      acceptBuffer pa
      handOverRx pa h
      fillLoop n

/-- FILL_RX (R117): the loop, then the re-enable test (R120). -/
def fillRx : Op Unit := do
  let s ← here
  require s.rx.alive .ringNotAlive
  fillLoop s.rx.remain
  reenable .rx

/-- Every fragment's buffer is real (60_exceptions R224 row 6). -/
def fragsReal (s : State) (fs : List Frag) : Bool := fs.all fun f => bufferReal s f.phys.toNat f.len.toNat

/-- Address and length of every fragment of the group at `t`, from fragment `k` on (R123). -/
def writeFrags (t : Nat) : Nat → List Frag → Op Unit
  | _, [] => pure ()
  | k, f :: fs => do
    let s ← here
    let i := s.tx.adv t k
    descWrite .tx i .phys f.phys.toNat
    descWrite .tx i .len f.len.toNat
    writeFrags t (k + 1) fs

/-- The status words of the group of `n` slots at `t`, issued in index order from fragment `k` on; in which order H
comes to see them is the memory system's choice (R126; notes/assumptions/6). With its word a slot is handed over (20_memory
R87). -/
def writeStats (t n : Nat) : Nat → List Frag → Op Unit
  | _, [] => pure ()
  | k, _ :: fs => do
    let s ← here
    let i := s.tx.adv t k
    descWrite .tx i .stat (txHandover s.params s.tx i k n).toNat
    upd fun s => s.setHanding (k + 1)
    writeStats t n (k + 1) fs

/-- The group at the tail is written: addresses and lengths, then the barrier (R123, 20_memory R79). -/
def layGroup (t : Nat) (fs : List Frag) : Op Unit := do
  writeFrags t 0 fs
  barrier

/-- The group's metadata at its first slot, the tail and the counter (R123). -/
def recordGroup (t n : Nat) (h : Handle) : Op Unit := do
  upd fun s => s.setNdesc (s.ndesc.set t n)
  upd fun s => s.setTx (s.tx.give n h)
  upd fun s => s.setHanding 0

/-- `if RegRead(TX_EN) = 0: RegWrite(TX_EN, 1)`, with no test of pending slots (R127). -/
def enableTx : Op Unit := do
  let on ← regRead (·.txEn)
  if on then pure () else writeTxEn true

/-- The group is handed over (R123, after the room is known to suffice). -/
def handOverTx (fs : List Frag) (h : Handle) : Op Unit := do
  let s ← here
  sound (fragsReal s fs) .bufferNotReal
  let t := s.tx.tail
  let n := fs.length
  layGroup t fs
  writeStats t n 0 fs
  recordGroup t n h
  enableTx

/-- Operand limits (R124): at least one fragment, none of length 0. -/
def fragsAdmitted (fs : List Frag) : Bool := !fs.isEmpty && fs.all Frag.wf

/-- ENQ_TX (R123, R125): true for Enqueued, false for TxQueueFull. -/
def enqTx (fs : List Frag) (h : Handle) : Op Bool := do
  require (fragsAdmitted fs) .operandLimits
  let s ← here
  require s.tx.alive .ringNotAlive
  if s.tx.remain < fs.length then do
    reapTx
    let s ← here
    if s.tx.remain < fs.length then pure false
    else do
      handOverTx fs h
      pure true
  else do
    handOverTx fs h
    pure true

/-- The operation FILL_RX. -/
def execFillRx (s : State) : Host.Outcome State Fault Refusal :=
  issue (admitRing .rx) (do
    fillRx
    returnOk []) s

/-- The operation ENQ_TX. -/
def execEnqTx (fs : List Frag) (h : Word) (s : State) : Host.Outcome State Fault Refusal :=
  issue (admitRing .tx) (do
    let ok ← enqTx fs (Config.handleOfWord h)
    if ok then returnOk [] else raise .txQueueFull []) s

end Sys2Proof.Machine
end

