-- ==== Sys2Proof/Machine/Bringup.lean ====
section
/-!
DEFINITION. Machine/Bringup.lean: the link bring-up sequencer, INIT and its ten steps (44_link_bringup). `bstep` selects
the step that runs (10_state R42). A step answers `none` where it succeeds and has moved `bstep`, or the error it raises
once its clean-up is done.
-/
namespace Sys2Proof.Machine

/-- `bstep <- k`. -/
def setBstep (k : Nat) : Op Unit := upd fun s => s.setSeq { s.seq with bstep := k }

/-- `mode <- m ; bstep <- 0`. -/
def leaveBringUp (m : Mode) : Op Unit := upd fun s => s.setSeq { s.seq with mode := m, bstep := 0 }

/-- A step ends well. -/
def goTo (k : Nat) : Op (Option Err) := do
  setBstep k
  pure none

/-- A step fails before anything exists (R154, R155). -/
def failEarly (e : Err) : Op (Option Err) := do
  leaveBringUp .off
  pure (some e)

/-- `abort(E)` (R164): rings and context are released; no register of the MAC/DMA block is written. -/
def abort (e : Err) : Op (Option Err) := do
  ringTeardown
  call .ctxFree
  upd fun s => s.setCtx { s.ctx with alive := false, regs := none }
  leaveBringUp .off
  pure (some e)

/-- `BU1`, acquire the MAC address (R154). -/
def bu1 : Op (Option Err) := do
  let s ← here
  if s.bring.cfg.mac ≠ Mac.zero then do
    upd fun s => s.setBring { s.bring with macPending := s.bring.cfg.mac }
    goTo 2
  else do
    let f ← askFuse s.bring.cfg.index
    match f with
    | none => failEarly .macAddressUnavailable
    | some m => do
      upd fun s => s.setBring { s.bring with macPending := m }
      goTo 2

/-- The device context is filled in (R155). -/
def openContext : Op Unit :=
  upd fun s => s.setCtx
    { alive := true, regs := none, index := s.bring.cfg.index, phyAddr := s.bring.cfg.phyAddr
      promisc := s.bring.cfg.promisc, mac := s.bring.macPending }

/-- `BU2`, allocate the device context and the rings (R155). -/
def bu2 : Op (Option Err) := do
  let got ← askCtxAlloc
  if got then do
    openContext
    let s ← here
    let ok ← ringInit s.params.capRx s.params.capTx
    if ok then goTo 3 else abort .ringInitFailed
  else failEarly .contextAllocFailed

/-- `BU3`, platform pin and clock setup (R156). -/
def bu3 : Op (Option Err) := do
  let s ← here
  if s.ctx.index ≠ 0 then abort .unsupportedConfiguration
  else do
    let ok ← askPlatform 0
    if ok then goTo 4 else abort .platformSetupFailed

/-- `BU4`, map the device registers (R157). -/
def bu4 : Op (Option Err) := do
  let m ← askMapRegs
  match m with
  | none => abort .mapFailed
  | some h => do
    upd fun s => s.setCtx { s.ctx with regs := some h }
    goTo 5

/-- `BU5`, initialise the MAC/DMA core (R158); a failure is the one without unwinding (R165). -/
def bu5 : Op (Option Err) := do
  let s ← here
  let ok ← macCoreInit (s.rx.base.getD 0) (s.tx.base.getD 0) (BitVec.ofNat 32 s.params.bufSize) s.ctx.mac
  if ok then goTo 6
  else do
    leaveBringUp .dead
    pure (some .macCoreInitFailed)

/-- `BU6`, set promiscuous mode: enabled unless the configuration says false (R159). -/
def bu6 : Op (Option Err) := do
  let s ← here
  setPromisc (decide (s.ctx.promisc ≠ .off))
  goTo 7

/-- `BU7`, MDIO and PHY (R160): address 0 asks for a scan. -/
def bu7 : Op (Option Err) := do
  let s ← here
  if s.params.phyAddrMax < s.ctx.phyAddr.toNat then abort .invalidPhyAddress
  else do
    let ok ← askMdioInit s.ctx.regs s.bring.cfg.remoteMdio
    if ok then do
      let p ← askPhyConnect (if s.ctx.phyAddr = 0 then none else some s.ctx.phyAddr)
      match p with
      | none => abort .phyNotFound
      | some phy => do
        upd fun s => s.setBring { s.bring with phy := phy }
        goTo 8
    else abort .mdioInitFailed

/-- `BU8`, PHY tuning and start-up (R161). -/
def bu8 : Op (Option Err) := do
  let s ← here
  let ok ← askPhyTune s.bring.phy
  if ok then do
    let r ← askPhyStartup s.bring.phy
    match r with
    | none => abort .phyStartupFailed
    | some (speed, d) => do
      upd fun s => s.setLink ⟨speed, d⟩
      goTo 9
  else abort .phyStartupFailed

/-- `BU9`, program speed and duplex (R162). -/
def bu9 : Op (Option Err) := do
  let s ← here
  setSpeedDuplex s.link.speed s.link.duplex
  goTo 10

/-- `BU10`, enable the MAC, fill, unmask (R163). -/
def bu10 : Op (Option Err) := do
  macEnable
  fillRx
  let s ← here
  setEventMask (evAll s.params)
  goTo 0

/-- The step `bstep` selects (10_state R42). -/
def buStep (k : Nat) : Op (Option Err) :=
  match k with
  | 1 => bu1
  | 2 => bu2
  | 3 => bu3
  | 4 => bu4
  | 5 => bu5
  | 6 => bu6
  | 7 => bu7
  | 8 => bu8
  | 9 => bu9
  | 10 => bu10
  | _ => pure none

/-- `while 1 <= bstep <= 10: run step BU<bstep>` (R150), each step once (R152). -/
def runSteps : Nat → Op (Option Err)
  | 0 => pure none
  | n + 1 => do
    let s ← here
    if 1 ≤ s.seq.bstep ∧ s.seq.bstep ≤ 10 then do
      let r ← buStep s.seq.bstep
      match r with
      | some e => pure (some e)
      | none => runSteps n
    else pure none

/-- INIT after its steps: `mode <- Running ; return Ok`, or the error of the step that failed (R150). -/
def endInit (r : Option Err) : Op (List Word) :=
  match r with
  | some e => raise e []
  | none => do
    upd fun s => s.setSeq { s.seq with mode := .running }
    returnOk []

/-- INIT (R150). -/
def initAll (cfg : PlatformCfg) : Op (List Word) := do
  upd fun s => s.setBring { s.bring with cfg := cfg }
  upd fun s => s.setSeq { s.seq with mode := .bringUp, bstep := 1 }
  let r ← runSteps 10
  endInit r

/-- The operation INIT. -/
def execInit (cfg : PlatformCfg) (s : State) : Host.Outcome State Fault Refusal := issue admitInit (initAll cfg) s

/-- INIT ends after a step: the answer words stand and `busy` falls (60_exceptions R209). -/
def closeInit (r : Option Err) : Op Unit := do
  let ws ← endInit r
  upd fun s => s.ended ws

/-- One step of an INIT in progress, run as the machine's next instruction: step `k` where `bstep` selects it
(60_exceptions R221: only in order, inside INIT). A step before the last one leaves INIT in progress; an error, and the
completion of step 10, end it. -/
def sequencerStep (k : Nat) (body : Op (Option Err)) (s : State) : Host.Outcome State Fault Refusal :=
  if s.seq.mode = .bringUp ∧ s.seq.bstep = k then
    outcome (do
      let r ← body
      match r with
      | some e => closeInit (some e)
      | none => if k = 10 then closeInit none else pure ()) s
  else .refused .notAdmitted

/-- The ten steps as operations (R154 to R163). -/
def execBu1 (s : State) : Host.Outcome State Fault Refusal := sequencerStep 1 bu1 s
def execBu2 (s : State) : Host.Outcome State Fault Refusal := sequencerStep 2 bu2 s
def execBu3 (s : State) : Host.Outcome State Fault Refusal := sequencerStep 3 bu3 s
def execBu4 (s : State) : Host.Outcome State Fault Refusal := sequencerStep 4 bu4 s
def execBu5 (s : State) : Host.Outcome State Fault Refusal := sequencerStep 5 bu5 s
def execBu6 (s : State) : Host.Outcome State Fault Refusal := sequencerStep 6 bu6 s
def execBu7 (s : State) : Host.Outcome State Fault Refusal := sequencerStep 7 bu7 s
def execBu8 (s : State) : Host.Outcome State Fault Refusal := sequencerStep 8 bu8 s
def execBu9 (s : State) : Host.Outcome State Fault Refusal := sequencerStep 9 bu9 s
def execBu10 (s : State) : Host.Outcome State Fault Refusal := sequencerStep 10 bu10 s

end Sys2Proof.Machine
end

