-- ==== Sys2Proof/Machine/Facade.lean ====
section
/-!
DEFINITION. Machine/Facade.lean: the facade operations whose rules stand in 46_facade, TRANSMIT, GET_MAC and PRINT_DIAG.
-/
namespace Sys2Proof.Machine

/-- TRANSMIT (R188): ENQ_TX with its failure named Failed; code 2 either way (60_exceptions R213). -/
def execTransmit (fs : List Frag) (h : Word) (s : State) : Host.Outcome State Fault Refusal :=
  issue admitRunning (do
    let ok ← enqTx fs (Config.handleOfWord h)
    if ok then returnOk [] else raise .txQueueFull []) s

/-- GET_MAC (R189): the context's address, no register read. -/
def execGetMac (s : State) : Host.Outcome State Fault Refusal :=
  issue admitContext (do
    let s ← here
    returnOk [macWord0 s.ctx.mac, macWord1 s.ctx.mac]) s

/-- PRINT_DIAG (R190): the stored link settings and the MIB value are reported. -/
def execPrintDiag (s : State) : Host.Outcome State Fault Refusal :=
  issue admitContext (do
    let s ← here
    let mib ← regRead (·.mib)
    call (.diagSink s.link.speed s.link.duplex mib)
    returnOk []) s

end Sys2Proof.Machine
end

