-- ==== Sys2Proof/Machine/Hsteps.lean ====
section
/-!
DEFINITION. Machine/Hsteps.lean: the DMA engine's steps as operations of a trace (47_dma_engine R200 to R206). They run
in every mode and whether or not an operation of C is in progress (60_exceptions R221).
-/
namespace Sys2Proof.Machine

/-- H_RX_SAMPLE (R200). -/
def execHRxSample (s : State) : Host.Outcome State Fault Refusal :=
  engineStep (fun s => sampleEnabled s .rx) (sampleStep .rx) s

/-- H_RX_DONE (R201). -/
def execHRxDone (length flags : Half) (s : State) : Host.Outcome State Fault Refusal :=
  engineStep (fun s => rxDoneEnabled s length flags) (rxDoneStep length flags) s

/-- H_RX_STALL (R202). -/
def execHRxStall (s : State) : Host.Outcome State Fault Refusal :=
  engineStep (fun s => stallEnabled s .rx) (stallStep .rx) s

/-- H_TX_SAMPLE (R203). -/
def execHTxSample (s : State) : Host.Outcome State Fault Refusal :=
  engineStep (fun s => sampleEnabled s .tx) (sampleStep .tx) s

/-- H_TX_DONE (R204). -/
def execHTxDone (s : State) : Host.Outcome State Fault Refusal := engineStep txDoneEnabled txDoneStep s

/-- H_TX_STALL (R205). -/
def execHTxStall (s : State) : Host.Outcome State Fault Refusal :=
  engineStep (fun s => stallEnabled s .tx) (stallStep .tx) s

/-- H_BUS_ERROR (R206). -/
def execHBusError (s : State) : Host.Outcome State Fault Refusal := engineStep busErrorEnabled busErrorStep s

end Sys2Proof.Machine
end

