-- ==== Sys2Proof/Machine/Irq.lean ====
section
/-!
DEFINITION. Machine/Irq.lean: interrupt dispatch and its polled equivalent, HANDLE_IRQ and POLL (43_interrupt_dispatch).
-/
namespace Sys2Proof.Machine

/-- The transmit branch and the receive branch of the dispatch (R142, R144). -/
def serveTx (e : Events) : Op Unit := do
  let s ← here
  if (e &&& evTxf s.params) != 0 then reapTx else pure ()
def serveRx (e : Events) : Op Unit := do
  let s ← here
  if (e &&& evRxf s.params) != 0 then do
    reapRx
    fillRx
  else pure ()

/-- HANDLE_IRQ (R142 to R145): the bus-error bit is tested first and is fatal. -/
def handleIrq : Op (List Word) := do
  let s ← here
  let e ← regReadClear (evAll s.params)
  if (e &&& evBerr s.params) != 0 then do
    upd fun s => s.setSeq { s.seq with mode := .halted }
    raise .busError [eventWord e]
  else do
    serveTx e
    serveRx e
    returnOk []

/-- The operation HANDLE_IRQ. -/
def execHandleIrq (s : State) : Host.Outcome State Fault Refusal := issue admitRunning handleIrq s

/-- The operation POLL (R147): no event register access (R148). -/
def execPoll (s : State) : Host.Outcome State Fault Refusal :=
  issue admitRunning (do
    reapRx
    reapTx
    fillRx
    returnOk []) s

end Sys2Proof.Machine
end

