-- ==== Sys2Proof/Machine/Dispatch.lean ====
section
/-!
DEFINITION. Machine/Dispatch.lean: one arm for each operation of 30_encoding R105.
-/
namespace Sys2Proof.Machine

def exec (i : Instr) (s : State) : Host.Outcome State Fault Refusal :=
  match i with
  | .ringInit capRx capTx => Sys2Proof.Machine.execRingInit capRx capTx s
  | .ringTeardown => Sys2Proof.Machine.execRingTeardown s
  | .fillRx => Sys2Proof.Machine.execFillRx s
  | .enqTx frags handle => Sys2Proof.Machine.execEnqTx frags handle s
  | .reapRx => Sys2Proof.Machine.execReapRx s
  | .reapTx => Sys2Proof.Machine.execReapTx s
  | .handleIrq => Sys2Proof.Machine.execHandleIrq s
  | .poll => Sys2Proof.Machine.execPoll s
  | .init cfg => Sys2Proof.Machine.execInit cfg s
  | .bu1 => Sys2Proof.Machine.execBu1 s
  | .bu2 => Sys2Proof.Machine.execBu2 s
  | .bu3 => Sys2Proof.Machine.execBu3 s
  | .bu4 => Sys2Proof.Machine.execBu4 s
  | .bu5 => Sys2Proof.Machine.execBu5 s
  | .bu6 => Sys2Proof.Machine.execBu6 s
  | .bu7 => Sys2Proof.Machine.execBu7 s
  | .bu8 => Sys2Proof.Machine.execBu8 s
  | .bu9 => Sys2Proof.Machine.execBu9 s
  | .bu10 => Sys2Proof.Machine.execBu10 s
  | .rxEnable => Sys2Proof.Machine.execRxEnable s
  | .rxDisable => Sys2Proof.Machine.execRxDisable s
  | .txEnable => Sys2Proof.Machine.execTxEnable s
  | .txDisable => Sys2Proof.Machine.execTxDisable s
  | .rxEnabled => Sys2Proof.Machine.execRxEnabled s
  | .txEnabled => Sys2Proof.Machine.execTxEnabled s
  | .evRead => Sys2Proof.Machine.execEvRead s
  | .evClear m => Sys2Proof.Machine.execEvClear m s
  | .evReadClear => Sys2Proof.Machine.execEvReadClear s
  | .evSetMask m => Sys2Proof.Machine.execEvSetMask m s
  | .setSpeedDuplex speed duplex => Sys2Proof.Machine.execSetSpeedDuplex speed duplex s
  | .promiscSet => Sys2Proof.Machine.execPromiscSet s
  | .promiscClear => Sys2Proof.Machine.execPromiscClear s
  | .mdioRead phy reg => Sys2Proof.Machine.execMdioRead phy reg s
  | .mdioWrite phy reg v => Sys2Proof.Machine.execMdioWrite phy reg v s
  | .macCoreInit rxBase txBase bufSize mac => Sys2Proof.Machine.execMacCoreInit rxBase txBase bufSize mac s
  | .macEnable => Sys2Proof.Machine.execMacEnable s
  | .transmit frags handle => Sys2Proof.Machine.execTransmit frags handle s
  | .getMac => Sys2Proof.Machine.execGetMac s
  | .printDiag => Sys2Proof.Machine.execPrintDiag s
  | .hRxSample => Sys2Proof.Machine.execHRxSample s
  | .hRxDone length flags => Sys2Proof.Machine.execHRxDone length flags s
  | .hRxStall => Sys2Proof.Machine.execHRxStall s
  | .hTxSample => Sys2Proof.Machine.execHTxSample s
  | .hTxDone => Sys2Proof.Machine.execHTxDone s
  | .hTxStall => Sys2Proof.Machine.execHTxStall s
  | .hBusError => Sys2Proof.Machine.execHBusError s

end Sys2Proof.Machine
end

