-- ==== Sys2Proof/Machine/Fetch.lean ====
section
/-!
DEFINITION. Machine/Fetch.lean: which operation the machine performs next. There is no instruction stream (00_scope R2):
an operation comes from the trace's steps of H, from the sequencer (`bstep`, 10_state R42) or from the command port
(30_encoding R103); notes/assumptions/7 and 23 say in which order.
-/
namespace Sys2Proof.Machine

/-- The step `bstep` selects while an INIT is in progress (10_state R42, 44_link_bringup R150). -/
def buInstr (k : Nat) : Option Instr :=
  match k with
  | 1 => some .bu1
  | 2 => some .bu2
  | 3 => some .bu3
  | 4 => some .bu4
  | 5 => some .bu5
  | 6 => some .bu6
  | 7 => some .bu7
  | 8 => some .bu8
  | 9 => some .bu9
  | 10 => some .bu10
  | _ => none

/-- The number of a bring-up step. -/
def buNumber (i : Instr) : Nat :=
  match i with
  | .bu1 => 1
  | .bu2 => 2
  | .bu3 => 3
  | .bu4 => 4
  | .bu5 => 5
  | .bu6 => 6
  | .bu7 => 7
  | .bu8 => 8
  | .bu9 => 9
  | .bu10 => 10
  | _ => 0

/-- The operation the sequencer has to run now. -/
def sequencerNext (s : State) : Option Instr := if s.seq.mode = .bringUp then buInstr s.seq.bstep else none

/-- The operation that words presented by an agent stand for (30_encoding R105, R106). -/
def readWords (a : Agent) (ws : List Word) : Except Refusal Instr :=
  match decode ws with
  | .error e => .error (.encoding e)
  | .ok i => if i.agent = a then .ok i else .error .wrongPort

/-- The inputs that come after the first. -/
def State.popInput (s : State) : State := s.setEnv { s.env with inputs := s.env.inputs.tail }

/-- What the machine does next: an operation of its agents, an act of the host, or nothing. -/
inductive NextAct where
  | operation (i : Except Refusal Instr) (s : State)
  | host (a : HostAct) (s : State)
  | idle

/-- What comes next: a step of H or an act of the host where the trace names one (20_memory R73), else the sequencer's
step, else the next command; nothing where no input is left. -/
def fetch (s : State) : NextAct :=
  match s.env.inputs, sequencerNext s with
  | .hstep ws :: _, _ => .operation (readWords .engine ws) s.popInput
  | .host a :: _, _ => .host a s.popInput
  | _, some i => .operation (.ok i) s
  | .command ws :: _, none => .operation (readWords .host ws) s.popInput
  | [], none => .idle

/-- A Dead machine is a fault of the model: a refused operation is refused there too, and nothing else goes on
(44_link_bringup R165, 60_exceptions R211; notes/assumptions/12). -/
def unlessDead (s : State) (o : Host.Outcome State Fault Refusal) : Host.Outcome State Fault Refusal :=
  if s.seq.mode = .dead then
    match o with
    | .refused r => .refused r
    | _ => .fault .coreInitFailed
  else o

/-- The inputs without the steps of H and the acts of the host that stand first. -/
def dropTrace : List Input → List Input
  | .hstep _ :: rest => dropTrace rest
  | .host _ :: rest => dropTrace rest
  | inputs => inputs

/-- The sequencer stands before step `k`, as INIT leaves it there. -/
def placeSequencer (s : State) (k : Nat) : State :=
  (s.setSeq ⟨.bringUp, k, true⟩).setEnv { s.env with inputs := dropTrace s.env.inputs }

/-- The next step of the machine performs the operation of `ws`: a step of the engine as the trace's next, a bring-up
step by the place of the sequencer, anything else as the next command (notes/assumptions/24). -/
def placeWords (s : State) (ws : List Word) : State :=
  match decode ws with
  | .error _ => (s.setSeq { s.seq with bstep := 0 }).setEnv { s.env with inputs := .command ws :: s.env.inputs }
  | .ok i =>
    match i.agent with
    | .engine => s.setEnv { s.env with inputs := .hstep ws :: s.env.inputs }
    | .sequencer => placeSequencer s (buNumber i)
    | .host => (s.setSeq { s.seq with bstep := 0 }).setEnv { s.env with inputs := .command ws :: s.env.inputs }

end Sys2Proof.Machine
end

