-- ==== Sys2Proof/Machine/Step.lean ====
section
/-!
DEFINITION. Machine/Step.lean: one step of the machine, the operation that comes next run on the state; and how an
operation is placed there from outside.
-/
namespace Sys2Proof.Machine

/-- One step: the next operation or act of the host, a refusal where what is presented is none, and no change where nothing
is presented (00_scope R5, 44_link_bringup R151); from a Dead machine nothing goes on. -/
def step (s : State) : Host.Outcome State Fault Refusal :=
  unlessDead s (match fetch s with
    | .idle => .next s
    | .host a t => outcome (hostAct a) t
    | .operation (.ok i) t => exec i t
    | .operation (.error r) _ => .refused r)

/-- The operation whose bits are `w`, numbered as spec/opcode_table.json numbers them, is the next one to run. -/
def State.withFetchWord (s : State) (nbits w : Nat) : State := placeWords s (tableWords nbits w)

end Sys2Proof.Machine
end

