-- ==== Sys2Proof/Safety.lean ====
section
/-!
DEFINITION. Safety.lean: what counts as a sound state of the machine (the invariants of 10_state and 60_exceptions), and
the parts of the state that claims about frames are made of.
-/
namespace Sys2Proof.Machine

/-! ### Parts of the state -/

/-- The registers private to C, which H cannot see (00_scope R19, 20_memory R73), with the machine's parameters. -/
structure Private where
  params    : Params
  rx        : Ring
  tx        : Ring
  ndesc     : List Nat
  ctx       : Ctx
  link      : Link
  seq       : Seq
  bring     : BringUp
  coreFresh : Bool
deriving DecidableEq, Repr

def State.priv (s : State) : Private :=
  ⟨s.params, s.rx, s.tx, s.ndesc, s.ctx, s.link, s.seq, s.bring, s.coreFresh⟩

/-- The registers of the block that only C writes: all but EVENT, RX_EN and TX_EN (10_state R44 to R50). -/
structure CRegs where
  macEn   : Bool
  evmask  : Events
  speed   : Nat
  duplex  : Duplex
  promisc : Bool
  rxbase  : Word
  txbase  : Word
  bufsz   : Word
  macaddr : Mac
  mib     : Word
deriving DecidableEq, Repr

def Regs.ofC (r : Regs) : CRegs :=
  ⟨r.macEn, r.evmask, r.speed, r.duplex, r.promisc, r.rxbase, r.txbase, r.bufsz, r.macaddr, r.mib⟩

/-- What neither H nor the memory system changes: C's private registers, the registers only C writes, the answer words,
the calls made and the inputs still to come. -/
structure Owned where
  priv   : Private
  regs   : CRegs
  out    : List Word
  calls  : List Call
  inputs : List Input
deriving DecidableEq, Repr

def State.owned (s : State) : Owned := ⟨s.priv, s.regs.ofC, s.out, s.calls, s.env.inputs⟩

/-- Nothing happens between C's events: H takes no step, the memory system performs no write ahead of a barrier and no
read ahead of its issue. -/
def State.quiet (s : State) : Prop := s.env.sched = [] ∧ s.early = []

/-- Besides, every write C has issued is performed. -/
def State.rested (s : State) : Prop := s.quiet ∧ s.pend = []

/-- Every byte of memory, with the issued writes performed, reads as before. -/
def SameBytes (s t : State) : Prop := ∀ a, Memory.read a t.settled = Memory.read a s.settled

/-- A byte of one of the `n` slots of a ring from slot `i` on. -/
def inSlots (r : Ring) (i n a : Nat) : Prop :=
  ∃ k x, k < n ∧ r.slotAddr (r.adv i k) = some x ∧ x ≤ a ∧ a < x + descSize

/-- A buffer source that supplies exactly the buffers `bs` to a FILL_RX with room for `room`: then the room is used up or it
says that it has none (41_buffer_supply R117, R118); every buffer is real (60_exceptions R224 row 6). -/
def Supplies (s : State) (room : Nat) (bs : List (Nat × Handle)) : Prop :=
  bs.length ≤ room ∧ (∀ b ∈ bs, b.1 < 2 ^ 32 ∧ bufferReal s b.1 s.params.bufSize = true) ∧
    ∃ rest, s.env.answers.buffers = bs.map some ++ rest ∧ (bs.length = room ∨ ∃ r, rest = none :: r)

/-! ### Where an operation of C may start -/

/-- No operation is in progress and the mode is Off or Running (60_exceptions R221, R222). -/
def State.ready (s : State) : Prop := s.seq.busy = false ∧ (s.seq.mode = .off ∨ s.seq.mode = .running)

/-- No operation is in progress and the mode is Running. -/
def State.running (s : State) : Prop := s.seq.busy = false ∧ s.seq.mode = .running

/-- An INIT in progress stands before step `k` (10_state R42). -/
def State.atStep (s : State) (k : Nat) : Prop := s.seq.mode = .bringUp ∧ s.seq.bstep = k

/-- The modes that allow an operation issued from outside (the table of 60_exceptions R221); a step of bring-up has its
place inside INIT, and a step of H depends on no mode. -/
def modesOf : Instr → List Mode
  | .init _ | .ringInit _ _ | .ringTeardown | .macCoreInit _ _ _ _ | .macEnable => [.off]
  | .fillRx | .enqTx _ _ | .reapRx | .reapTx => [.off, .running]
  | .handleIrq | .poll | .transmit _ _ => [.running]
  | .getMac | .printDiag => [.running, .halted]
  | .rxEnable | .rxDisable | .txEnable | .txDisable | .rxEnabled | .txEnabled | .evRead | .evClear _ | .evReadClear
  | .evSetMask _ | .setSpeedDuplex _ _ | .promiscSet | .promiscClear | .mdioRead _ _ | .mdioWrite _ _ _ => [.off, .running]
  | .bu1 | .bu2 | .bu3 | .bu4 | .bu5 | .bu6 | .bu7 | .bu8 | .bu9 | .bu10 => [.bringUp]
  | .hRxSample | .hRxDone _ _ | .hRxStall | .hTxSample | .hTxDone | .hTxStall | .hBusError =>
    [.off, .bringUp, .running, .halted, .dead]

/-- The selectors that 30_encoding R105 assigns. -/
def selectors : List Byte :=
  [0x10, 0x11, 0x20, 0x21, 0x30, 0x31, 0x40, 0x41] ++
  [0x50, 0x51, 0x52, 0x53, 0x54, 0x55, 0x56, 0x57, 0x58, 0x59, 0x5A] ++
  [0x60, 0x61, 0x62, 0x63, 0x64, 0x65, 0x66, 0x67, 0x68, 0x69, 0x6B, 0x6C, 0x6D, 0x6E, 0x6F, 0x70, 0x71] ++
  [0x80, 0x81, 0x82, 0xE0, 0xE1, 0xE2, 0xE3, 0xE4, 0xE5, 0xE6]

/-- The selectors whose `arg` is an operand (30_encoding R104); on every other one it is 0. -/
def argSelectors : List Byte := [0x21, 0x6B, 0x6E, 0x6F, 0x80, 0xE1]

/-! ### Completed slots -/

/-- Some fragment of the group of `n` slots at `t` belongs to hardware. -/
def State.groupOwned (s : State) (t n : Nat) : Bool := (List.range n).any fun k => s.slotOwned .tx (s.tx.adv t k)

/-- Exactly `n` receive slots at the head are completed: then none is in flight, or the next one belongs to hardware. -/
def RxDone (s : State) (n : Nat) : Prop :=
  n ≤ s.rx.inflight ∧ (∀ k, k < n → s.slotOwned .rx (s.rx.adv s.rx.head k) = false) ∧
    (n = s.rx.inflight ∨ s.slotOwned .rx (s.rx.adv s.rx.head n) = true)

/-- Exactly the groups `gs`, by their numbers of slots, are completed at slot `t` with `left` slots in flight from it: then
none is in flight, or a fragment of the next group belongs to hardware. -/
def TxDone (s : State) (t left : Nat) : List Nat → Prop
  | [] => left = 0 ∨ s.groupOwned t (s.ndesc.getD t 0) = true
  | g :: gs => 0 < left ∧ g = s.ndesc.getD t 0 ∧ s.groupOwned t g = false ∧ TxDone s (s.tx.adv t g) (left - g) gs

/-- The callbacks for `n` receive slots from slot `i` on, oldest first (42_completion_reaper R130). -/
def rxCalls (s : State) (i n : Nat) : List Call :=
  (List.range n).map fun k =>
    .onReceiveComplete [handleAt s.rx (s.rx.adv i k)] [(s.field .rx (s.rx.adv i k) .len).getD 0]

/-- The callbacks for groups from slot `t` on, oldest first (42_completion_reaper R137). -/
def txCalls (s : State) (t : Nat) : List Nat → List Call
  | [] => []
  | g :: gs => .onTransmitComplete (handleAt s.tx t) :: txCalls s (s.tx.adv t g) gs

/-! ### What an operation leaves -/

/-- Before the first event of an operation of C issued at `s`, H and the memory system bring the machine to `u`
(20_memory R73). Without a schedule `u` is `s` with `busy` set. -/
def Gap (s u : State) : Prop := tick s.begun = .ok ((), u)

/-- An operation that stores nothing to memory led from `s` to `t`: C's private registers are `p`, the register block is `r`,
H's hidden registers are `w`, the calls `c` were made, the answer words are `o`. -/
structure Became (s t : State) (p : Private) (r : Regs) (w : Hw) (c : List Call) (o : List Word) : Prop where
  priv   : t.priv = p
  regs   : t.regs = r
  hw     : t.hw = w
  calls  : t.calls = s.calls ++ c
  out    : t.out = o
  bytes  : SameBytes s t
  inputs : t.env.inputs = s.env.inputs
  quiet  : s.quiet → t.quiet

/-- `Became`, with every issued write performed: what an access to the register block leaves (20_memory R82). -/
structure Accessed (s t : State) (p : Private) (r : Regs) (w : Hw) (o : List Word) : Prop where
  became : Became s t p r w [] o
  done   : t.pend = [] ∧ t.early = []

/-- The receive slots at the head that are completed, `n` of them, were reaped from `s` to `t` (42_completion_reaper R130 to
R136), nothing happening between C's events. -/
structure ReapedRx (s : State) (n : Nat) (t : State) : Prop where
  priv   : t.priv = { s.priv with rx := s.rx.take n }
  regs   : t.regs = if t.rx.pending then { s.regs with rxEn := true } else s.regs
  hw     : t.hw = if t.rx.pending && !s.regs.rxEn then { s.hw with rxSample := none } else s.hw
  calls  : t.calls = s.calls ++ rxCalls s s.rx.head n
  env    : t.env = s.env
  bytes  : SameBytes s t
  rested : t.rested

/-- The groups at the head that are completed, `gs` by their numbers of slots, were reaped from `s` to `t`
(42_completion_reaper R137 to R140), nothing happening between C's events. -/
structure ReapedTx (s : State) (gs : List Nat) (t : State) : Prop where
  priv   : t.priv = { s.priv with tx := s.tx.take gs.sum }
  regs   : t.regs = if t.tx.pending then { s.regs with txEn := true } else s.regs
  hw     : t.hw = if t.tx.pending && !s.regs.txEn then { s.hw with txSample := none } else s.hw
  calls  : t.calls = s.calls ++ txCalls s s.tx.head gs
  env    : t.env = s.env
  bytes  : SameBytes s t
  rested : t.rested

/-- The buffers `bs` were supplied from `s` to `t` (41_buffer_supply R117 to R121), nothing happening between C's events:
the `k`-th of them in the `k`-th slot from the tail. -/
structure SuppliedRx (s : State) (bs : List (Nat × Handle)) (t : State) : Prop where
  priv    : t.priv = { s.priv with rx := t.rx }
  cap     : t.rx.cap = s.rx.cap
  base    : t.rx.base = s.rx.base
  head    : t.rx.head = s.rx.head
  alive   : t.rx.alive = s.rx.alive
  tail    : t.rx.tail = s.rx.adv s.rx.tail bs.length
  remain  : t.rx.remain + bs.length = s.rx.remain
  handles : ∀ k (h : k < bs.length), t.rx.handle[s.rx.adv s.rx.tail k]? = some bs[k].2
  others  : ∀ i, (∀ k, k < bs.length → s.rx.adv s.rx.tail k ≠ i) → t.rx.handle[i]? = s.rx.handle[i]?
  phys    : ∀ k (h : k < bs.length), t.field .rx (s.rx.adv s.rx.tail k) .phys = some bs[k].1
  len     : ∀ k, k < bs.length → t.field .rx (s.rx.adv s.rx.tail k) .len = some 0
  stat    : ∀ k, k < bs.length → t.field .rx (s.rx.adv s.rx.tail k) .stat =
    some (rxHandover s.params s.rx (s.rx.adv s.rx.tail k)).toNat
  outside : ∀ a, ¬inSlots s.rx s.rx.tail bs.length a → Memory.read a t.settled = Memory.read a s.settled
  regs    : t.regs = if t.rx.pending then { s.regs with rxEn := true } else s.regs
  hw      : t.hw = if t.rx.pending && !s.regs.rxEn then { s.hw with rxSample := none } else s.hw
  calls   : ∃ asked, (asked = bs.length ∨ asked = bs.length + 1 ∧ asked ≤ s.rx.remain) ∧
    t.calls = s.calls ++ List.replicate asked (.allocateReceiveBuffer s.params.bufSize)
  inputs  : t.env.inputs = s.env.inputs
  quiet   : t.quiet

/-- The group of the fragments `fs` with the handle `h` was handed over from `s` to `t` (41_buffer_supply R122, R123, R127),
nothing happening between C's events. -/
structure EnqueuedTx (s : State) (fs : List Frag) (h : Handle) (t : State) : Prop where
  priv    : t.priv = { s.priv with tx := s.tx.give fs.length h, ndesc := s.ndesc.set s.tx.tail fs.length }
  phys    : ∀ k (hk : k < fs.length), t.field .tx (s.tx.adv s.tx.tail k) .phys = some fs[k].phys.toNat
  len     : ∀ k (hk : k < fs.length), t.field .tx (s.tx.adv s.tx.tail k) .len = some fs[k].len.toNat
  stat    : ∀ k, k < fs.length → t.field .tx (s.tx.adv s.tx.tail k) .stat =
    some (txHandover s.params s.tx (s.tx.adv s.tx.tail k) k fs.length).toNat
  outside : ∀ a, ¬inSlots s.tx s.tx.tail fs.length a → Memory.read a t.settled = Memory.read a s.settled
  regs    : t.regs = { s.regs with txEn := true }
  hw      : t.hw = if s.regs.txEn then s.hw else { s.hw with txSample := none }
  calls   : t.calls = s.calls
  env     : t.env = s.env
  rested  : t.rested

/-- The callbacks that release what a ring holds (40_ring_lifecycle R115): its memory, then its metadata. -/
def freeCalls (d : Dir) (r : Ring) : List Call :=
  if r.alive then
    (match r.base with
      | some b => [.dmaFree b (descSize * r.cap)]
      | none => []) ++ [.metaFree d]
  else []

/-- The rings were released from `s` to `t` (40_ring_lifecycle R115, R116), the calls `before` made first and `after` last:
no register, no byte of memory and no hidden register of H is written, and no issued write is performed. -/
structure TornDown (s t : State) (before after : List Call) : Prop where
  dead   : t.rx.alive = false ∧ t.tx.alive = false
  gone   : t.rx.base = none ∧ t.tx.base = none
  fresh  : t.coreFresh = false
  kept   : t.params = s.params ∧ t.link = s.link ∧ t.bring = s.bring
  regs   : t.regs = s.regs
  hw     : t.hw = s.hw
  bytes  : SameBytes s t
  memory : t.mem = s.mem ∧ t.pend = s.pend
  calls  : t.calls = s.calls ++ before ++ freeCalls .rx s.rx ++ freeCalls .tx s.tx ++ after
  inputs : t.env.inputs = s.env.inputs

/-- Both rings were laid out from `s` to `t` in the blocks at `a` and `b`, the calls `c` made (40_ring_lifecycle R111): what the
metadata arrays hold is open (10_state R61). -/
structure LaidOut (s t : State) (capRx capTx : Nat) (a b : Word) (c : List Call) : Prop where
  rx      : t.rx = ⟨capRx, some a, 0, 0, capRx - 2, true, t.rx.handle⟩ ∧ t.rx.handle.length = capRx
  tx      : t.tx = ⟨capTx, some b, 0, 0, capTx - 2, true, t.tx.handle⟩ ∧ t.tx.handle.length = capTx
  ndesc   : t.ndesc.length = capTx
  fresh   : t.coreFresh = false
  kept    : t.params = s.params ∧ t.link = s.link ∧ t.bring = s.bring
  rxSlots : ∀ i, i < capRx → t.field .rx i .phys = some 0 ∧ t.field .rx i .len = some 0 ∧
    t.field .rx i .stat = some (if i + 1 = capRx then bit16 s.params.rxdWrap else 0).toNat
  txSlots : ∀ i, i < capTx → t.field .tx i .phys = some 0 ∧ t.field .tx i .len = some 0 ∧
    t.field .tx i .stat = some (if i + 1 = capTx then bit16 s.params.txdWrap else 0).toNat
  outside : ∀ x, (x < a.toNat ∨ a.toNat + descSize * capRx ≤ x) → (x < b.toNat ∨ b.toNat + descSize * capTx ≤ x) →
    Memory.read x t.settled = Memory.read x s.settled
  regs    : t.regs = s.regs
  hw      : t.hw = s.hw
  calls   : t.calls = s.calls ++ c
  inputs  : t.env.inputs = s.env.inputs
  quiet   : t.quiet

/-- The calls by which RING_INIT asks for its three allocations, and by which it releases those that succeeded
(40_ring_lifecycle R111, R112). -/
def allocCalls (p : Params) (capRx capTx : Nat) : List Call :=
  [.dmaAlloc (descSize * capRx) p.dmaAlign, .dmaAlloc (descSize * capTx) p.dmaAlign, .metaAlloc capRx capTx]
def unwindCalls (capRx capTx : Nat) (a b : Option Word) (m : Bool) : List Call :=
  (match a with | some x => [.dmaFree x (descSize * capRx)] | none => []) ++
  (match b with | some x => [.dmaFree x (descSize * capTx)] | none => []) ++
  (if m then [.metaFree .rx, .metaFree .tx] else [])

/-- The register block after a MAC_CORE_INIT that succeeded (45_register_interface R184). -/
def Regs.coreInit (r : Regs) (rxBase txBase bufSize : Word) (mac : Mac) : Regs :=
  { r with macEn := false, rxEn := false, txEn := false, evmask := 0, rxbase := rxBase, txbase := txBase, bufsz := bufSize
           macaddr := mac }

/-- What each register may hold after a MAC_CORE_INIT that failed: its old value or the one the operation writes; which of
the writes happened is unspecified (R184). -/
def Regs.coreTried (r t : Regs) (rxBase txBase bufSize : Word) (mac : Mac) : Prop :=
  (t.macEn = r.macEn ∨ t.macEn = false) ∧ (t.rxEn = r.rxEn ∨ t.rxEn = false) ∧ (t.txEn = r.txEn ∨ t.txEn = false) ∧
  (t.evmask = r.evmask ∨ t.evmask = 0) ∧ (t.rxbase = r.rxbase ∨ t.rxbase = rxBase) ∧
  (t.txbase = r.txbase ∨ t.txbase = txBase) ∧ (t.bufsz = r.bufsz ∨ t.bufsz = bufSize) ∧
  (t.macaddr = r.macaddr ∨ t.macaddr = mac) ∧ t.event = r.event ∧ t.speed = r.speed ∧ t.duplex = r.duplex ∧
  t.promisc = r.promisc ∧ t.mib = r.mib

/-- What H's hidden registers may hold then: each its old value or the one MAC_CORE_INIT gives it (R184, 47_dma_engine R196;
notes/assumptions/13). -/
def Hw.coreTried (w t : Hw) : Prop :=
  (t.rxIdx = w.rxIdx ∨ t.rxIdx = 0) ∧ (t.txIdx = w.txIdx ∨ t.txIdx = 0) ∧
  (t.rxSample = w.rxSample ∨ t.rxSample = none) ∧ (t.txSample = w.txSample ∨ t.txSample = none)

/-- The answers with which every step of an INIT succeeds (44_link_bringup R153): the address `m`, ring blocks at `a` and `b`, the
register handle `h`, the PHY `phy`, the negotiated speed `v` and duplex `d`, the buffers `bs`. -/
structure GoodAnswers (s : State) (cfg : PlatformCfg) (m : Mac) (a b h : Word) (phy v : Nat) (d : Duplex)
    (bs : List (Nat × Handle)) : Prop where
  mac      : cfg.mac ≠ Mac.zero ∧ m = cfg.mac ∨ cfg.mac = Mac.zero ∧ ∃ r, s.env.answers.fuse = some m :: r
  ctx      : ∃ r, s.env.answers.ctxAlloc = true :: r
  dma      : ∃ r, s.env.answers.dmaAlloc = some a :: some b :: r
  metas    : ∃ r, s.env.answers.metaAlloc = true :: r
  blocks   : allocOk s.params.dmaAlign a.toNat s.params.capRx b.toNat s.params.capTx = true
  index    : cfg.index = 0
  platform : ∃ r, s.env.answers.platform = true :: r
  map      : ∃ r, s.env.answers.mapRegs = some h :: r
  core     : ∃ r, s.env.answers.coreInit = true :: r
  phyAddr  : cfg.phyAddr.toNat ≤ s.params.phyAddrMax
  mdio     : ∃ r, s.env.answers.mdioInit = true :: r
  connect  : ∃ r, s.env.answers.phyConnect = some phy :: r
  tune     : ∃ r, s.env.answers.phyTune = true :: r
  startup  : ∃ r, s.env.answers.phyStartup = some (v, d) :: r
  speed    : s.params.speedSet.contains v = true
  count    : bs.length ≤ s.params.capRx - 2
  buffers  : ∃ rest, s.env.answers.buffers = bs.map some ++ rest ∧
    (bs.length = s.params.capRx - 2 ∨ ∃ r, rest = none :: r)
  real     : ∀ x ∈ bs, x.1 + s.params.bufSize ≤ 2 ^ 32 ∧ x.1 < 2 ^ 32 ∧
    overlaps x.1 s.params.bufSize a.toNat (descSize * s.params.capRx) = false ∧
    overlaps x.1 s.params.bufSize b.toNat (descSize * s.params.capTx) = false

/-- The machine after an INIT whose steps all succeeded (44_link_bringup R150), no step of H having occurred. -/
structure BroughtUp (s t : State) (cfg : PlatformCfg) (m : Mac) (a b h : Word) (v : Nat) (d : Duplex)
    (bs : List (Nat × Handle)) : Prop where
  seq     : t.seq = ⟨.running, 0, false⟩
  ctx     : t.ctx = ⟨true, some h, cfg.index, cfg.phyAddr, cfg.promisc, m⟩
  link    : t.link = ⟨v, d⟩
  params  : t.params = s.params
  regs    : t.regs = { macEn := true, rxEn := !bs.isEmpty, txEn := false, event := s.regs.event
                       evmask := evAll s.params, speed := v, duplex := d, promisc := decide (cfg.promisc ≠ .off)
                       rxbase := a, txbase := b, bufsz := BitVec.ofNat 32 s.params.bufSize, macaddr := m
                       mib := s.regs.mib }
  hw      : t.hw = ⟨0, 0, none, none⟩
  fresh   : t.coreFresh = true
  rx      : t.rx.cap = s.params.capRx ∧ t.rx.base = some a ∧ t.rx.head = 0 ∧ t.rx.tail = bs.length ∧
    t.rx.remain = s.params.capRx - 2 - bs.length ∧ t.rx.alive = true
  tx      : t.tx.cap = s.params.capTx ∧ t.tx.base = some b ∧ t.tx.head = 0 ∧ t.tx.tail = 0 ∧
    t.tx.remain = s.params.capTx - 2 ∧ t.tx.alive = true
  handles : ∀ k (hk : k < bs.length), t.rx.handle[k]? = some bs[k].2
  filled  : ∀ k (hk : k < bs.length), t.field .rx k .phys = some bs[k].1 ∧ t.field .rx k .len = some 0 ∧
    t.field .rx k .stat = some (bit16 s.params.rxdEmpty).toNat
  empty   : ∀ k, bs.length ≤ k → k < s.params.capRx → t.field .rx k .phys = some 0 ∧ t.field .rx k .len = some 0 ∧
    t.field .rx k .stat = some (if k + 1 = s.params.capRx then bit16 s.params.rxdWrap else 0).toNat
  txSlots : ∀ k, k < s.params.capTx → t.field .tx k .phys = some 0 ∧ t.field .tx k .len = some 0 ∧
    t.field .tx k .stat = some (if k + 1 = s.params.capTx then bit16 s.params.txdWrap else 0).toNat
  outside : ∀ x, (x < a.toNat ∨ a.toNat + descSize * s.params.capRx ≤ x) →
    (x < b.toNat ∨ b.toNat + descSize * s.params.capTx ≤ x) → Memory.read x t.settled = Memory.read x s.settled
  out     : t.out = [0]
  inputs  : t.env.inputs = s.env.inputs

/-- An abort of bring-up from `s` to `t` with the code `e` (44_link_bringup R164), the calls `c` made before it. -/
structure Aborted (s t : State) (c : List Call) (e : Word) : Prop where
  torn : TornDown s t c [.ctxFree]
  ctx  : t.ctx.alive = false ∧ t.ctx.regs = none
  seq  : t.seq = ⟨.off, 0, false⟩
  out  : t.out = [e]

/-- An INIT of the configuration `cfg` has begun: the sequencer stands before step 1 (44_link_bringup R150). -/
def State.initStarted (s : State) (cfg : PlatformCfg) : State :=
  (s.setBring { s.bring with cfg := cfg }).setSeq ⟨.bringUp, 1, true⟩

/-- The steps that `bstep` selects, run one after another as operations of their own, lead from the first state to the second,
in which INIT is over (44_link_bringup R150, R152, 60_exceptions R214): the first step that fails is the last. -/
inductive BuSteps : State → State → Prop
  | last (s t : State) (i : Instr) : sequencerNext s = some i → exec i s = .next t → t.seq.mode ≠ .bringUp → BuSteps s t
  | more (s u t : State) (i : Instr) : sequencerNext s = some i → exec i s = .next u → u.seq.mode = .bringUp →
      BuSteps u t → BuSteps s t

/-- The error codes with which an INIT fails and releases what it built (44_link_bringup R164, 60_exceptions R213): all
but 8, MacCoreInitFailed. -/
def abortCodes : List Word := [1, 3, 4, 5, 6, 7, 9, 10, 11, 12]

/-- How an INIT ends (44_link_bringup R150, R164, R165): running, with everything allocated; off, with nothing allocated and
the code of the step that failed; or dead, after MAC_CORE_INIT failed, with nothing released. -/
def InitEnds (t : State) : Prop :=
  (t.seq = ⟨.running, 0, false⟩ ∧ t.out = [0] ∧ t.rx.alive = true ∧ t.tx.alive = true ∧ t.ctx.alive = true) ∨
  (t.seq = ⟨.off, 0, false⟩ ∧ (∃ e ∈ abortCodes, t.out = [e]) ∧ t.rx.alive = false ∧ t.tx.alive = false ∧
    t.rx.base = none ∧ t.tx.base = none ∧ t.ctx.alive = false ∧ t.ctx.regs = none) ∨
  (t.seq = ⟨.dead, 0, false⟩ ∧ t.out = [8] ∧ t.rx.alive = true ∧ t.tx.alive = true ∧ t.ctx.alive = true)

/-! ### In which order an operation writes and reads, whatever happens between its events -/

/-- An issued write of a descriptor field. -/
def IsWrite (s : State) (d : Dir) (i : Nat) (f : Field) (v : Nat) (w : PendWrite) : Prop :=
  ∃ a, descAddr s d i f = some a ∧ w = ⟨a, toBytes s.params.endian (fieldWidth f) v⟩

/-- FILL_RX's loop leads from the first state to the second (41_buffer_supply R117): when a slot's status word has been
issued it is the only write still pending, so the slot's address and length, and every earlier write, are in memory before
H can see the ownership bit (20_memory R79). -/
inductive FillTurns : Nat → State → State → Prop
  | full (s : State) : FillTurns 0 s s
  | noBuffer (n : Nat) (s t : State) : askBuffer s.params.bufSize s = .ok (none, t) → FillTurns (n + 1) s t
  | turn (n : Nat) (s a b c t : State) (pa : Nat) (h : Handle) (w : PendWrite) :
      askBuffer s.params.bufSize s = .ok (some (pa, h), a) → acceptBuffer pa a = .ok ((), b) →
      handOverRx pa h b = .ok ((), c) → c.pend = [w] →
      IsWrite b .rx b.rx.tail .stat (rxHandover b.params b.rx b.rx.tail).toNat w →
      FillTurns n c t → FillTurns (n + 1) s t

/-- A group was handed over from `s` to `t` (41_buffer_supply R123): while its addresses and lengths are issued no status
word of it is; when they have been, the barrier leaves nothing pending; from then on only its status words are
(20_memory R79). The prefixes of `fs` are the moments between two of the operation's events. -/
structure HandedOver (s : State) (fs : List Frag) (h : Handle) (t : State) : Prop where
  before : ∀ m c, m ≤ fs.length → writeFrags s.tx.tail 0 (fs.take m) s = .ok ((), c) → ∀ w ∈ c.pend, w ∈ s.pend ∨
    ∃ k v, k < m ∧ (IsWrite s .tx (s.tx.adv s.tx.tail k) .phys v w ∨ IsWrite s .tx (s.tx.adv s.tx.tail k) .len v w)
  after  : ∃ a b, layGroup s.tx.tail fs s = .ok ((), a) ∧ a.pend = [] ∧ a.early = [] ∧
    (∀ m c, m ≤ fs.length → writeStats s.tx.tail fs.length 0 (fs.take m) a = .ok ((), c) → ∀ w ∈ c.pend, ∃ k, k < m ∧
      IsWrite s .tx (s.tx.adv s.tx.tail k) .stat (txHandover s.params s.tx (s.tx.adv s.tx.tail k) k fs.length).toNat w) ∧
    writeStats s.tx.tail fs.length 0 fs a = .ok ((), b) ∧
    (recordGroup s.tx.tail fs.length h >>= fun _ => enableTx) b = .ok ((), t)

/-- REAP_RX's loop leads from the first state to the second (42_completion_reaper R130, R131): after the status word comes
the barrier, which leaves no earlier read to use, and only then the length. Where `sure` holds the length delivered is the
one memory holds once the slot is software's. -/
inductive ReapTurns (sure : Prop) : Nat → State → State → Prop
  | spent (s : State) : ReapTurns sure 0 s s
  | empty (n : Nat) (s : State) : s.rx.pending = false → ReapTurns sure (n + 1) s s
  | owned (n : Nat) (s a b : State) (w : Nat) : s.rx.pending = true → descRead .rx s.rx.head .stat s = .ok (w, a) →
      barrier a = .ok ((), b) → b.pend = [] → b.early = [] → hwOwned s.params .rx (BitVec.ofNat 16 w) = true →
      ReapTurns sure (n + 1) s b
  | turn (n : Nat) (s a b c d t : State) (w l : Nat) : s.rx.pending = true → descRead .rx s.rx.head .stat s = .ok (w, a) →
      barrier a = .ok ((), b) → b.pend = [] → b.early = [] → hwOwned s.params .rx (BitVec.ofNat 16 w) = false →
      descRead .rx s.rx.head .len b = .ok (l, c) →
      (sure → b.slotOwned .rx s.rx.head = false ∧ b.field .rx s.rx.head .len = some l) →
      deliver (fun s => s.setRx (s.rx.take 1)) (.onReceiveComplete [handleAt s.rx s.rx.head] [l]) c = .ok ((), d) →
      ReapTurns sure n d t → ReapTurns sure (n + 1) s t

/-- REAP_TX's loop leads from the first state to the second (42_completion_reaper R137, R138): a group is reported once no
fragment of it belongs to hardware, and between the last ownership read and the callback comes the barrier, which leaves no
access of C pending (20_memory R80). -/
inductive ReapTxTurns : Nat → State → State → Prop
  | spent (s : State) : ReapTxTurns 0 s s
  | empty (n : Nat) (s : State) : s.tx.pending = false → ReapTxTurns (n + 1) s s
  | owned (n : Nat) (s a : State) : s.tx.pending = true →
      groupBusy s.tx.head (s.ndesc.getD s.tx.head 0) s = .ok (true, a) → ReapTxTurns (n + 1) s a
  | turn (n : Nat) (s a b c t : State) : s.tx.pending = true →
      groupBusy s.tx.head (s.ndesc.getD s.tx.head 0) s = .ok (false, a) → barrier a = .ok ((), b) → b.pend = [] →
      b.early = [] →
      deliver (fun u => u.setTx (u.tx.take (s.ndesc.getD s.tx.head 0))) (.onTransmitComplete (handleAt s.tx s.tx.head)) b =
        .ok ((), c) →
      ReapTxTurns n c t → ReapTxTurns (n + 1) s t

/-- What the memory system does on its own between two events: it performs issued writes and reads ahead (20_memory R74). -/
def EnvStep.ofMemory : EnvStep → Bool
  | .perform _ | .prefetch _ _ => true
  | _ => false

/-! ### Sound states -/

/-- The registers of a ring that is alive: two slots in reserve (10_state R30), indices below the capacity (R38), one
handle a slot (R32), an aligned base in the 32-bit space (20_memory R65, R71). A ring that is not alive has no base. -/
structure Ring.Sound (align : Nat) (r : Ring) : Prop where
  cap     : r.alive → 2 ≤ r.cap
  head    : r.alive → r.head < r.cap
  tail    : r.alive → r.tail < r.cap
  reserve : r.alive → r.remain + r.inflight + 2 = r.cap
  handles : r.alive → r.handle.length = r.cap
  base    : r.alive → ∃ b, r.base = some b ∧ b.toNat % align = 0 ∧ b.toNat + descSize * r.cap ≤ 2 ^ 32
  gone    : r.alive = false → r.base = none

/-- `n` slots from `h` on are a sequence of whole fragment groups, each with its number of slots at its first slot
(10_state R33, 42_completion_reaper R138). -/
inductive Groups (cap : Nat) (ndesc : List Nat) : Nat → Nat → Prop
  | nil (h : Nat) : Groups cap ndesc h 0
  | cons (h g n : Nat) : ndesc.getD h 0 = g → 1 ≤ g → Groups cap ndesc ((h + g) % cap) n → Groups cap ndesc h (g + n)

/-- The sequencing registers between two operations (10_state R41 to R43, 60_exceptions R220). -/
structure SeqSound (p : Private) : Prop where
  step    : p.seq.mode = .bringUp → 1 ≤ p.seq.bstep ∧ p.seq.bstep ≤ 10
  idle    : p.seq.mode ≠ .bringUp → p.seq.bstep = 0
  busy    : p.seq.busy = true ↔ p.seq.mode = .bringUp
  off     : p.seq.mode = .off → p.ctx.alive = false
  early   : p.seq.mode = .bringUp → p.seq.bstep ≤ 2 → p.ctx.alive = false ∧ p.rx.alive = false
  late    : p.seq.mode = .bringUp → 3 ≤ p.seq.bstep → p.ctx.alive = true ∧ p.rx.alive = true
  started : p.seq.mode = .running ∨ p.seq.mode = .halted ∨ p.seq.mode = .dead →
    p.ctx.alive = true ∧ p.rx.alive = true
  fresh   : p.seq.mode = .bringUp → 6 ≤ p.seq.bstep → p.coreFresh = true
  link    : p.seq.mode = .running ∨ p.seq.mode = .halted ∨ (p.seq.mode = .bringUp ∧ p.seq.bstep = 10) →
    p.params.speedSet.contains p.link.speed = true

/-- The rings are sound: each by itself, both alive or neither (40_ring_lifecycle R111, R115), their blocks apart
(20_memory R71), and the slots in flight of the transmit ring whole groups. -/
structure RingsSound (p : Private) : Prop where
  params : p.params.wf = true
  rx     : p.rx.Sound p.params.dmaAlign
  tx     : p.tx.Sound p.params.dmaAlign
  both   : p.rx.alive = p.tx.alive
  apart  : ∀ a b m n, p.rx.block = some (a, m) → p.tx.block = some (b, n) → overlaps a m b n = false
  counts : p.tx.alive = true → p.ndesc.length = p.tx.cap
  groups : p.tx.alive = true → Groups p.tx.cap p.ndesc p.tx.head p.tx.inflight

/-- C's private registers are sound. -/
structure Private.Sound (p : Private) : Prop where
  rings : RingsSound p
  core  : p.coreFresh = true → p.rx.alive = true
  ctx   : p.ctx.alive = false → p.ctx.regs = none
  seq   : SeqSound p

/-- A sound state: sound private registers, memory in its canonical form, no event outside EV_ALL unmasked
(45_register_interface R177), EVENT within its width (30_encoding R99), and no group being handed over, which happens only
inside ENQ_TX (notes/assumptions/34). -/
structure Inv (s : State) : Prop where
  priv : s.priv.Sound
  mem  : Memory.wf s.mem = true
  mask : clearBits s.regs.evmask (evAll s.params) = 0
  event : s.regs.event < 2 ^ s.params.evWidth
  handing : s.handing = 0

end Sys2Proof.Machine
end

