-- ==== Sys2Proof/Certificates/Slice0/Obligations.lean ====
section
/-!
DEFINITION. Certificates/Slice0/Obligations.lean: the statements about the machine, file by file of spec/. A statement
whose hypotheses say `quiet` is about an operation between whose events H takes no step; one with a `Gap` is about any
schedule. Their parts (`Became`, `ReapedRx`, …) are defined in Safety.lean. Where a premise says that a buffer is real
(`bufferReal`, `fragsReal`, `Supplies`), which memory H can reach is the model's choice (notes/assumptions/40).
-/
open Sys2Proof Sys2Proof.Machine

/-! ### Encoding (spec/30_encoding.md) -/

/-- R101 to R107: no bit of an encoding is dropped. -/
def Obligations.DecodeEncode : Prop := ∀ i : Instr, i.wf = true → decode (encode i) = .ok i

/-- R103 to R107: words that decode are exactly the encoding of a well-formed operation, so no operation has two. -/
def Obligations.EncodeDecode : Prop :=
  ∀ (ws : List Word) (i : Instr), decode ws = .ok i → i.wf = true ∧ encode i = ws

/-- R106: what is reserved is refused, by the decoder and by the machine; a BU or H_ selector on the command port is refused. -/
def Obligations.ReservedRefused : Prop :=
  (∀ (c : Word) (ops : List Word),
    (opOf c ∉ selectors → decode (c :: ops) = .error (.reservedSelector (opOf c))) ∧
    (opOf c ∈ selectors → opOf c ∉ argSelectors → argOf c ≠ 0 → decode (c :: ops) = .error .reservedArg) ∧
    (opOf c = 0x6B → (argOf c).extractLsb' 1 7 ≠ 0 → decode (c :: ops) = .error .reservedField) ∧
    (opOf c = 0x6E ∨ opOf c = 0x6F → (argOf c).extractLsb' 13 11 ≠ 0 ∨ (argOf c).extractLsb' 5 3 ≠ 0 →
      decode (c :: ops) = .error .reservedField) ∧
    (opOf c = 0xE1 → (argOf c).extractLsb' 16 8 ≠ 0 → decode (c :: ops) = .error .reservedField) ∧
    (opOf c = 0x21 ∨ opOf c = 0x80 → argOf c = 0 → decode (c :: ops) = .error .noFragments)) ∧
  (∀ w0 w1 w2 : Word, w0.extractLsb' 8 2 = 3#2 → ∃ e, decode [0x50000000, w0, w1, w2] = .error e) ∧
  (∀ (s : State) (ws : List Word) (rest : List Input), s.env.inputs = .command ws :: rest → sequencerNext s = none →
    (∀ e, decode ws = .error e → step s = .refused (.encoding e)) ∧
    (∀ i, decode ws = .ok i → i.agent ≠ .host → step s = .refused .wrongPort))

/-- R104, R105: words written out from the tables. -/
def Obligations.DecodeWords : Prop :=
  decode [0x10000000, 8, 8] = .ok (.ringInit 8 8) ∧
  decode [0x21000002, 0x30000000, 64, 0x30001000, 1000, 7] =
    .ok (.enqTx [⟨0x30000000, 64⟩, ⟨0x30001000, 1000⟩] 7) ∧
  decode [0x30000000] = .ok .reapRx ∧
  decode [0x40000000] = .ok .handleIrq ∧
  decode [0x50000000, 0x80000105, 0x02112233, 0x44550000] =
    .ok (.init ⟨5, .off, 0, ⟨0x02, 0x11, 0x22, 0x33, 0x44, 0x55⟩, true⟩) ∧
  decode [0x55000000] = .ok .bu5 ∧
  decode [0x67000000, 0x08000000] = .ok (.evClear 0x08000000) ∧
  decode [0x6B03E801] = .ok (.setSpeedDuplex 1000 .full) ∧
  decode [0x6E000102] = .ok (.mdioRead 1 2) ∧
  decode [0x6F000100, 0x1200] = .ok (.mdioWrite 1 0 0x1200) ∧
  decode [0x81000000] = .ok .getMac ∧
  decode [0xE100003C, 0x0080] = .ok (.hRxDone 60 0x0080)

/-- R89, R62: where a descriptor's fields lie, in which order memory holds their bytes, and where slot `i` starts. -/
def Obligations.DescriptorLayout : Prop :=
  (∀ x : Nat, fieldAddr .little x .len = x ∧ fieldAddr .little x .stat = x + 2 ∧ fieldAddr .big x .stat = x ∧
    fieldAddr .big x .len = x + 2 ∧ ∀ e, fieldAddr e x .phys = x + 4) ∧
  (∀ (m : Memory) (a n v k : Nat), Memory.wf m = true → k < n →
    Memory.read (a + k) (memWrite .little m a n v) = BitVec.ofNat 8 (v / 256 ^ k) ∧
    Memory.read (a + k) (memWrite .big m a n v) = BitVec.ofNat 8 (v / 256 ^ (n - 1 - k))) ∧
  (∀ (e : Endian) (m : Memory) (a n v k : Nat), Memory.wf m = true → k < a ∨ a + n ≤ k →
    Memory.read k (memWrite e m a n v) = Memory.read k m) ∧
  (∀ (s : State) (d : Dir) (i : Nat) (f : Field) (b : Word), (s.ring d).base = some b → i < (s.ring d).cap →
    descAddr s d i f = some (fieldAddr s.params.endian (b.toNat + 8 * i) f))

/-- R97 (with 10_state R35, R36): the bits of the status words C writes, and whatever happens between the events, what
RING_INIT, FILL_RX and ENQ_TX issue: a slot is laid with zeros and its initial word, and handed over with its handover word. -/
def Obligations.HandoverBits : Prop :=
  (∀ (p : Params) (r : Ring) (i k n b : Nat), p.wf = true → b < 16 →
    (statInit p .rx r i).getLsbD b = (b == p.rxdWrap && r.isLast i) ∧
    (statInit p .tx r i).getLsbD b = (b == p.txdWrap && r.isLast i) ∧
    (rxHandover p r i).getLsbD b = (b == p.rxdEmpty || (b == p.rxdWrap && r.isLast i)) ∧
    (txHandover p r i k n).getLsbD b = (b == p.txdReady || (b == p.txdWrap && r.isLast i) ||
      ((b == p.txdAddcrc || b == p.txdLast) && k + 1 == n))) ∧
  (∀ (s t : State) (d : Dir) (n : Nat), initSlots d n s = .ok ((), t) → ∀ w ∈ t.pend, w ∈ s.pend ∨ ∃ i, i < n ∧
    (IsWrite s d i .phys 0 w ∨ IsWrite s d i .len 0 w ∨ IsWrite s d i .stat (statInit s.params d (s.ring d) i).toNat w)) ∧
  (∀ (s t : State) (pa : Nat) (h : Handle), handOverRx pa h s = .ok ((), t) → ∀ w ∈ t.pend,
    IsWrite s .rx s.rx.tail .stat (rxHandover s.params s.rx s.rx.tail).toNat w) ∧
  (∀ (s t : State) (i n : Nat) (fs : List Frag), writeStats i n 0 fs s = .ok ((), t) → ∀ w ∈ t.pend, w ∈ s.pend ∨
    ∃ k, k < fs.length ∧ IsWrite s .tx (s.tx.adv i k) .stat (txHandover s.params s.tx (s.tx.adv i k) k n).toNat w)

/-! ### The step -/

/-- The next operation runs: a step of H that the trace names, else the sequencer's step, else the next command; without one
nothing changes. An act of the host stands in the trace as a step of H does: it writes memory off the rings, whatever it
writes into a buffer in flight being any value (60_exceptions R224 row 7), and anything else it would write is a fault. The order, and which acts are presented, are the model's choice (notes/assumptions/7, 23, 34).
A Dead machine refuses or faults, and goes nowhere (44_link_bringup R165, 60_exceptions R211; notes/assumptions/12). -/
def Obligations.StepRunsDecoded : Prop :=
  ∀ s : State,
    (s.seq.mode ≠ .dead →
      (∀ ws rest i, s.env.inputs = .hstep ws :: rest → decode ws = .ok i → i.agent = .engine →
        step s = exec i (s.setEnv { s.env with inputs := rest })) ∧
      (∀ i, (∀ ws rest, s.env.inputs ≠ .hstep ws :: rest) → (∀ a rest, s.env.inputs ≠ .host a :: rest) →
        sequencerNext s = some i → step s = exec i s) ∧
      (∀ ws rest i, s.env.inputs = .command ws :: rest → sequencerNext s = none → decode ws = .ok i → i.agent = .host →
        step s = exec i (s.setEnv { s.env with inputs := rest })) ∧
      (∀ a bs rest, s.env.inputs = .host (.write a bs) :: rest →
        (bufferReal s a bs.length = true → ∃ cs e, cs.length = bs.length ∧
          (∀ k, s.inFlight (a + k) = false → cs[k]? = bs[k]?) ∧ e.inputs = rest ∧ e.sched = s.env.sched ∧
          e.answers = s.env.answers ∧ step s = .next ((s.setEnv e).setMem (Memory.writeBytes a cs s.mem))) ∧
        (bufferReal s a bs.length = false → step s = .fault .behindTheBack)) ∧
      (∀ rest, s.env.inputs = .host .register :: rest → step s = .fault .behindTheBack) ∧
      (s.env.inputs = [] → sequencerNext s = none → step s = .next s)) ∧
    (s.seq.mode = .dead → (∀ t, step s ≠ .next t) ∧ (∀ f, step s = .fault f → f = .coreInitFailed) ∧
      (∀ ws rest i r, s.env.inputs = .command ws :: rest → decode ws = .ok i → i.agent = .host →
        exec i (s.setEnv { s.env with inputs := rest }) = .refused r → step s = .refused r) ∧
      (s.env.inputs = [] → step s = .fault .coreInitFailed))

/-! ### State (spec/10_state.md) -/

/-- R61, R232: the power-on state. -/
def Obligations.ResetState : Prop :=
  State.reset.seq = ⟨.off, 0, false⟩ ∧ State.reset.rx.alive = false ∧ State.reset.tx.alive = false ∧
    State.reset.rx.base = none ∧ State.reset.tx.base = none ∧ State.reset.ctx.alive = false ∧
    State.reset.ctx.regs = none ∧ State.reset.hw.rxSample = none ∧ State.reset.hw.txSample = none ∧
    State.reset.mem = [] ∧ State.reset.pend = []

/-- The power-on state is sound. -/
def Obligations.ResetSound : Prop := Inv State.reset

/-- R29 to R33, R37, R38, R42, R43, R65, R71, 45_register_interface R177, 60_exceptions R220: a step keeps a sound state sound. -/
def Obligations.StepKeepsInvariant : Prop := ∀ s t : State, Inv s → step s = .next t → Inv t

/-- R31, R33: with two slots in reserve `head = tail` means empty, and the group at the head is recorded. -/
def Obligations.RingsNeverAmbiguous : Prop :=
  ∀ s : State, Inv s →
    (∀ d, (s.ring d).alive = true → (s.ring d).remain + (s.ring d).inflight + 2 = (s.ring d).cap ∧
      ((s.ring d).head = (s.ring d).tail ↔ (s.ring d).inflight = 0)) ∧
    (s.tx.alive = true → s.tx.pending = true →
      1 ≤ s.ndesc.getD s.tx.head 0 ∧ s.ndesc.getD s.tx.head 0 ≤ s.tx.inflight)

/-- Whatever else the state is, a step keeps memory in its canonical form (the model's own data; notes/assumptions/4) and the
parameters as they are (00_scope R10, R11). -/
def Obligations.StepKeepsFormAndParameters : Prop :=
  ∀ s t : State, step s = .next t → (Memory.wf s.mem = true → Memory.wf t.mem = true) ∧ t.params = s.params

/-! ### Memory and ordering (spec/20_memory.md) -/

/-- R77: a barrier performs every issued write and has no other effect. -/
def Obligations.BarrierPerforms : Prop :=
  ∀ s u : State, tick s = .ok ((), u) →
    ∃ t, barrier s = .ok ((), t) ∧ t.mem = u.settled ∧ t.pend = [] ∧ t.early = [] ∧ t.regs = u.regs ∧ t.hw = u.hw ∧
      t.owned = u.owned ∧ t.env = u.env

/-- R74: in whichever order the memory system performs issued writes, the bytes memory comes to hold are those of program
order. -/
def Obligations.PerformedInAnyOrder : Prop :=
  ∀ (s : State) (k : Nat), Memory.wf s.mem = true →
    Memory.wf (performNth k s).mem = true ∧ SameBytes s (performNth k s)

/-- R74 (a): a read of bytes C has written yields what it wrote, performed or not: whatever the memory system performs and
reads ahead between the write and the read, and after a barrier as well. -/
def Obligations.ReadsOwnWrite : Prop :=
  ∀ (s u : State) (a : Nat) (bs : List Byte) (es : List EnvStep), Memory.wf s.mem = true →
    es.all EnvStep.ofMemory = true → envSteps es (issueWrite a bs s) = .ok ((), u) →
    (∃ t, issueRead a bs.length u = .ok (bs, t) ∧ t.owned = s.owned) ∧
    (∃ t, issueRead a bs.length (flush u) = .ok (bs, t) ∧ t.owned = s.owned)

/-- R73, 47_dma_engine R195, R208 (e): whatever H and the memory system do between two events of C, they leave what is C's,
clear no event bit and enable no path. -/
def Obligations.GapLeavesWhatIsC : Prop :=
  ∀ (s t : State), tick s = .ok ((), t) →
    t.owned = s.owned ∧ clearBits s.regs.event t.regs.event = 0 ∧ (t.regs.rxEn = true → s.regs.rxEn = true) ∧
      (t.regs.txEn = true → s.regs.txEn = true)

/-! ### Modes and admission (spec/60_exceptions.md) -/

/-- R221, by modes: an operation issued in a mode that does not allow it is refused; a bring-up step runs only where the
sequencer stands before it; a step of H depends on no sequencing register. -/
def Obligations.ModesAdmit : Prop :=
  ∀ (i : Instr) (s : State),
    (i.agent = .host → s.seq.busy = false → s.seq.mode ∉ modesOf i → exec i s = .refused .notAdmitted) ∧
    (i.agent = .sequencer → ¬(s.seq.mode = .bringUp ∧ s.seq.bstep = buNumber i) → exec i s = .refused .notAdmitted) ∧
    (∀ (t : State) (q : Seq), i.agent = .engine → exec i s = .next t → exec i (s.setSeq q) = .next (t.setSeq q))

/-- R221, by what is allocated. -/
def Obligations.AllocationAdmits : Prop :=
  ∀ s : State, s.seq.busy = false →
    (s.seq.mode = .off → s.rx.alive = true ∨ s.tx.alive = true → ∀ a b, exec (.ringInit a b) s = .refused .alreadyAllocated) ∧
    (s.seq.mode = .off → s.rx.alive = true ∨ s.tx.alive = true ∨ s.ctx.alive = true →
      ∀ c, exec (.init c) s = .refused .alreadyAllocated) ∧
    (s.seq.mode = .off ∨ s.seq.mode = .running → s.rx.alive = false →
      exec .fillRx s = .refused .ringNotAlive ∧ exec .reapRx s = .refused .ringNotAlive) ∧
    (s.seq.mode = .off ∨ s.seq.mode = .running → s.tx.alive = false →
      exec .reapTx s = .refused .ringNotAlive ∧ ∀ fs h, exec (.enqTx fs h) s = .refused .ringNotAlive) ∧
    (s.seq.mode = .off → s.rx.alive = false ∨ s.tx.alive = false →
      exec .macEnable s = .refused .ringNotAlive ∧ ∀ a b n m, exec (.macCoreInit a b n m) s = .refused .ringNotAlive)

/-- R222: an operation issued while another is in progress is refused, and the end of an operation clears `busy`. -/
def Obligations.OneOperationAtATime : Prop :=
  ∀ (i : Instr) (s : State), i.agent = .host →
    (s.seq.busy = true → exec i s = .refused .busy) ∧ ∀ t, exec i s = .next t → t.seq.busy = false

/-- R220, and 44_link_bringup R150 for `bstep`: the transitions between modes, INIT's own as one operation. -/
def Obligations.ModeTransitions : Prop :=
  ∀ (i : Instr) (s t : State), exec i s = .next t →
    (t.seq.mode ≠ s.seq.mode →
      (s.seq.mode = .off ∧ (∃ c, i = .init c) ∧ (t.seq.mode = .running ∨ t.seq.mode = .dead)) ∨
      (s.seq.mode = .bringUp ∧ i ∈ [.bu1, .bu2, .bu3, .bu4, .bu7, .bu8] ∧ t.seq.mode = .off) ∨
      (s.seq.mode = .bringUp ∧ i = .bu5 ∧ t.seq.mode = .dead) ∨
      (s.seq.mode = .bringUp ∧ i = .bu10 ∧ t.seq.mode = .running) ∨
      (s.seq.mode = .running ∧ i = .handleIrq ∧ t.seq.mode = .halted)) ∧
    (i.agent = .sequencer → s.seq.bstep = buNumber i ∧
      (t.seq.mode = .bringUp → t.seq.bstep = buNumber i + 1) ∧ (t.seq.mode ≠ .bringUp → t.seq.bstep = 0))

/-! ### Ring life cycle (spec/40_ring_lifecycle.md) -/

/-- R111: RING_INIT where the three allocations succeed. The allocator's contract is the premise `allocOk`
(notes/assumptions/11). -/
def Obligations.RingInitLays : Prop :=
  ∀ (s : State) (capRx capTx a b : Word) (ra : List (Option Word)) (rm : List Bool),
    Inv s → s.quiet → s.seq.busy = false → s.seq.mode = .off → s.rx.alive = false → s.tx.alive = false →
    2 ≤ capRx.toNat → 2 ≤ capTx.toNat → s.env.answers.dmaAlloc = some a :: some b :: ra →
    s.env.answers.metaAlloc = true :: rm → allocOk s.params.dmaAlign a.toNat capRx.toNat b.toNat capTx.toNat = true →
    ∃ t, exec (.ringInit capRx capTx) s = .next t ∧
      LaidOut s t capRx.toNat capTx.toNat a b (allocCalls s.params capRx.toNat capTx.toNat) ∧ t.ctx = s.ctx ∧
      t.seq = s.seq ∧ t.out = [0]

/-- R112: RING_INIT where an allocation fails releases what succeeded and leaves everything else as it was. It is stated of a
quiet schedule. In which order the calls stand, and that both metadata arrays are released one by one, is the model's choice
(notes/assumptions/32). -/
def Obligations.RingInitFailsAtomically : Prop :=
  ∀ (s : State) (capRx capTx : Word) (x y : Option Word) (m : Bool) (rd : List (Option Word)) (rm : List Bool),
    Inv s → s.quiet → s.seq.busy = false → s.seq.mode = .off → s.rx.alive = false → s.tx.alive = false →
    2 ≤ capRx.toNat → 2 ≤ capTx.toNat → s.env.answers.dmaAlloc = x :: y :: rd → s.env.answers.metaAlloc = m :: rm →
    x = none ∨ y = none ∨ m = false →
    ∃ t, exec (.ringInit capRx capTx) s = .next t ∧
      Became s t s.priv s.regs s.hw
        (allocCalls s.params capRx.toNat capTx.toNat ++ unwindCalls capRx.toNat capTx.toNat x y m) [1] ∧
      t.rx.alive = false ∧ t.tx.alive = false ∧ t.rx.base = none ∧ t.tx.base = none

/-- R115: RING_TEARDOWN, on rings alive or not; issued while the MAC is enabled, which is a duty broken, it is a fault
(R116, 60_exceptions R224 row 12). -/
def Obligations.RingTeardownReleases : Prop :=
  encode .ringTeardown = [0x11000000] ∧
  (∀ s : State, Inv s → s.quiet → s.seq.busy = false → s.seq.mode = .off → s.regs.macEn = false →
    ∃ t, exec .ringTeardown s = .next t ∧ TornDown s t [] [] ∧ t.ctx = s.ctx ∧ t.seq = s.seq ∧ t.out = [0] ∧
      (s.rx.alive = false → t.rx = s.rx ∧ t.tx = s.tx ∧ t.ndesc = s.ndesc ∧ t.calls = s.calls)) ∧
  (∀ s : State, s.seq.busy = false → s.seq.mode = .off → s.regs.macEn = true →
    exec .ringTeardown s = .fault .teardownUnderMac)

/-! ### Buffer supply (spec/41_buffer_supply.md) -/

/-- R117 to R121, with 20_memory R79: FILL_RX, first where H takes no step between its events, then its order whatever
happens between them. -/
def Obligations.FillRxSupplies : Prop :=
  (∀ (s : State) (bs : List (Nat × Handle)), Inv s → s.quiet → s.ready → s.rx.alive = true →
    Supplies s s.rx.remain bs →
    ∃ t, exec .fillRx s = .next t ∧ SuppliedRx s bs t ∧ t.out = [0]) ∧
  (∀ s t : State, exec .fillRx s = .next t →
    ∃ u v, FillTurns s.rx.remain s.begun u ∧ reenable .rx u = .ok ((), v) ∧ t = v.ended [0])

/-- R123, R122, R127, 46_facade R188, with 20_memory R79: ENQ_TX and TRANSMIT with room for the group, first where H takes no
step between their events, then their order whatever happens between them. -/
def Obligations.EnqueueHandsOver : Prop :=
  (∀ (i : Instr) (s : State) (fs : List Frag) (h : Word),
    (i = .enqTx fs h ∧ s.ready) ∨ (i = .transmit fs h ∧ s.running) → Inv s → s.quiet → s.tx.alive = true →
    fragsAdmitted fs = true → fragsReal s fs = true → fs.length ≤ s.tx.remain →
    ∃ t, exec i s = .next t ∧ EnqueuedTx s fs (Config.handleOfWord h) t ∧ t.out = [0]) ∧
  (∀ (i : Instr) (s t : State) (fs : List Frag) (h : Word), i = .enqTx fs h ∨ i = .transmit fs h → exec i s = .next t →
    t.out = [0] ∧ (∃ a b, (a = s.begun ∨ reapTx s.begun = .ok ((), a)) ∧ HandedOver a fs (Config.handleOfWord h) b ∧ t = b.ended [0]) ∨
    t.out = [2] ∧ ∃ a, reapTx s.begun = .ok ((), a) ∧ t = a.ended [2])

/-- R125: with too little room the completed groups are reaped first; where that does not suffice the operation answers
TxQueueFull with the effects of the reap alone. -/
def Obligations.EnqueueReapsFirst : Prop :=
  ∀ (i : Instr) (s : State) (fs : List Frag) (h : Word) (gs : List Nat),
    (i = .enqTx fs h ∧ s.ready) ∨ (i = .transmit fs h ∧ s.running) → Inv s → s.rested → s.tx.alive = true →
    fragsAdmitted fs = true → s.tx.remain < fs.length → TxDone s s.tx.head s.tx.inflight gs →
    ∃ a, ReapedTx s.begun gs a ∧ a.tx.remain = s.tx.remain + gs.sum ∧
      (s.tx.remain + gs.sum < fs.length → exec i s = .next (a.ended [2])) ∧
      (fs.length ≤ s.tx.remain + gs.sum → fragsReal s fs = true →
        ∃ b, EnqueuedTx a fs (Config.handleOfWord h) b ∧ exec i s = .next (b.ended [0]))

/-- R124, and 40_ring_lifecycle R113 (a): operands outside the limits are refused. -/
def Obligations.OperandLimits : Prop :=
  (∀ (i : Instr) (s : State) (fs : List Frag) (h : Word),
    (i = .enqTx fs h ∧ s.ready ∧ s.tx.alive = true) ∨ (i = .transmit fs h ∧ s.running) →
    fs = [] ∨ (∃ f ∈ fs, f.len = 0) → exec i s = .refused .operandLimits) ∧
  (∀ (s : State) (capRx capTx : Word), s.seq.busy = false → s.seq.mode = .off → s.rx.alive = false → s.tx.alive = false →
    capRx.toNat < 2 ∨ capTx.toNat < 2 → exec (.ringInit capRx capTx) s = .refused .capacityTooSmall)

/-! ### Completion reaper (spec/42_completion_reaper.md) -/

/-- R130 to R136, R141 (for `n = 0`): REAP_RX, first where H takes no step between its events, then its order whatever happens
between them: each length is read after the barrier that follows its status word, and on a sound state with no access
outstanding it is the one memory holds once the slot is software's (R131). -/
def Obligations.ReapRxDelivers : Prop :=
  (∀ (s : State) (n : Nat), Inv s → s.rested → s.ready → s.rx.alive = true → RxDone s n →
    ∃ t, exec .reapRx s = .next t ∧ ReapedRx s n t ∧ t.out = [0]) ∧
  (∀ s t : State, exec .reapRx s = .next t →
    ∃ u v, ReapTurns (Inv s ∧ s.pend = [] ∧ s.early = []) s.rx.inflight s.begun u ∧ reenable .rx u = .ok ((), v) ∧
      t = v.ended [0])

/-- R137 to R141: REAP_TX reaps whole groups, first where H takes no step between its events, then its order whatever happens
between them: after the last ownership read of a group that is not hardware's comes the barrier, and only then the callback
(R138, 20_memory R80). -/
def Obligations.ReapTxReports : Prop :=
  (∀ (s : State) (gs : List Nat), Inv s → s.rested → s.ready → s.tx.alive = true →
    TxDone s s.tx.head s.tx.inflight gs →
    ∃ t, exec .reapTx s = .next t ∧ ReapedTx s gs t ∧ t.out = [0]) ∧
  (∀ s t : State, exec .reapTx s = .next t →
    ∃ u v, ReapTxTurns s.tx.inflight s.begun u ∧ reenable .tx u = .ok ((), v) ∧ t = v.ended [0])

/-! ### Interrupt dispatch (spec/43_interrupt_dispatch.md) -/

/-- R145: a bus error is fatal: nothing is served, and every later operation but GET_MAC and PRINT_DIAG is refused. -/
def Obligations.BusErrorHalts : Prop :=
  ∀ s u : State, s.running → Gap s u → u.regs.event &&& evBerr s.params ≠ 0 →
    ∃ t, exec .handleIrq s = .next t ∧
      Accessed u t { s.priv with seq := { s.seq with mode := .halted } }
        { u.regs with event := clearBits u.regs.event (u.regs.event &&& evAll s.params) } u.hw
        [14, eventWord (u.regs.event &&& evAll s.params)] ∧
      ∀ i : Instr, i.agent = .host → i ≠ .getMac → i ≠ .printDiag → exec i t = .refused .notAdmitted

/-- R146 (a): HANDLE_IRQ with no event pending changes nothing. -/
def Obligations.SpuriousIrq : Prop :=
  ∀ s u : State, s.running → Gap s u → u.regs.event &&& evAll s.params = 0 →
    ∃ t, exec .handleIrq s = .next t ∧ Accessed u t s.priv u.regs u.hw [0]

/-- R142 to R146: HANDLE_IRQ clears the events it read, then serves transmit, then receive with a refill right after. First where
H takes no step between its events, then its order whatever happens between them: the read-and-clear is the first of them, and an
event that stands after it, or when a later part begins, is still there when that part has ended (R143). -/
def Obligations.IrqServes : Prop :=
  (∀ (s : State) (gs : List Nat) (n : Nat) (bs : List (Nat × Handle)), Inv s → s.quiet → s.running →
    s.regs.event &&& evBerr s.params = 0 →
    (s.regs.event &&& evTxf s.params ≠ 0 → TxDone s s.tx.head s.tx.inflight gs) →
    (s.regs.event &&& evRxf s.params ≠ 0 → RxDone s n ∧ Supplies s (s.rx.remain + n) bs) →
    ∃ a b c d, Accessed s.begun a s.begun.priv { s.regs with event := clearBits s.regs.event (evAll s.params) } s.hw s.out ∧
      (s.regs.event &&& evTxf s.params ≠ 0 → ReapedTx a gs b) ∧ (s.regs.event &&& evTxf s.params = 0 → b = a) ∧
      (s.regs.event &&& evRxf s.params ≠ 0 → ReapedRx b n c ∧ SuppliedRx c bs d) ∧
      (s.regs.event &&& evRxf s.params = 0 → d = b) ∧ exec .handleIrq s = .next (d.ended [0])) ∧
  (∀ s t : State, exec .handleIrq s = .next t →
    ∃ u a, Gap s u ∧ regReadClear (evAll s.params) s.begun = .ok (u.regs.event &&& evAll s.params, a) ∧
      a = (flush u).setRegs { u.regs with event := clearBits u.regs.event (evAll s.params) } ∧
      (u.regs.event &&& evBerr s.params ≠ 0 →
        t = (a.setSeq { a.seq with mode := .halted }).ended [14, eventWord (u.regs.event &&& evAll s.params)]) ∧
      (u.regs.event &&& evBerr s.params = 0 → ∃ b c d,
        (u.regs.event &&& evTxf s.params ≠ 0 → reapTx a = .ok ((), b)) ∧ (u.regs.event &&& evTxf s.params = 0 → b = a) ∧
        (u.regs.event &&& evRxf s.params ≠ 0 → reapRx b = .ok ((), c) ∧ fillRx c = .ok ((), d)) ∧
        (u.regs.event &&& evRxf s.params = 0 → c = b ∧ d = b) ∧ t = d.ended [0] ∧
        clearBits a.regs.event b.regs.event = 0 ∧ clearBits b.regs.event c.regs.event = 0 ∧
        clearBits c.regs.event d.regs.event = 0))

/-- R147, R148: POLL reaps receive, then transmit, then refills, and leaves the event register. -/
def Obligations.PollServes : Prop :=
  ∀ (s : State) (gs : List Nat) (n : Nat) (bs : List (Nat × Handle)), Inv s → s.rested → s.running →
    RxDone s n → TxDone s s.tx.head s.tx.inflight gs → Supplies s (s.rx.remain + n) bs →
    ∃ a b c, ReapedRx s.begun n a ∧ ReapedTx a gs b ∧ SuppliedRx b bs c ∧ c.regs.event = s.regs.event ∧
      exec .poll s = .next (c.ended [0])

/-! ### Link bring-up (spec/44_link_bringup.md) -/

/-- R150, R154 to R163: an INIT whose collaborators all answer with success. Then, whatever they answer and whatever happens
between the events: INIT as one operation leads where its steps, run one by one, lead (R152), the first that fails being the last
(60_exceptions R214); and it ends in one of three ways (R150, R164, R165): running with everything allocated, off with nothing
allocated and the code of the error, or dead with nothing released and the code 8. -/
def Obligations.InitBringsUp : Prop :=
  (∀ (s : State) (cfg : PlatformCfg) (m : Mac) (a b h : Word) (phy v : Nat) (d : Duplex) (bs : List (Nat × Handle)),
    Inv s → s.quiet → s.seq.mode = .off → s.rx.alive = false → GoodAnswers s cfg m a b h phy v d bs →
    ∃ t, exec (.init cfg) s = .next t ∧ BroughtUp s t cfg m a b h v d bs) ∧
  (∀ (s t : State) (cfg : PlatformCfg), Inv s → s.seq.mode = .off → s.rx.alive = false →
    (exec (.init cfg) s = .next t ↔ BuSteps (s.initStarted cfg) t)) ∧
  (∀ (s t : State) (cfg : PlatformCfg), Inv s → exec (.init cfg) s = .next t → InitEnds t)

/-- R154: step 1. -/
def Obligations.Bu1AcquiresMac : Prop :=
  ∀ s : State, s.quiet → s.atStep 1 →
    (s.bring.cfg.mac ≠ Mac.zero → ∃ t, exec .bu1 s = .next t ∧
      Became s t { s.priv with bring := { s.bring with macPending := s.bring.cfg.mac }, seq := { s.seq with bstep := 2 } }
        s.regs s.hw [] s.out) ∧
    (∀ m r, s.bring.cfg.mac = Mac.zero → s.env.answers.fuse = some m :: r → ∃ t, exec .bu1 s = .next t ∧
      Became s t { s.priv with bring := { s.bring with macPending := m }, seq := { s.seq with bstep := 2 } }
        s.regs s.hw [.fuseMac s.bring.cfg.index] s.out) ∧
    (∀ r, s.bring.cfg.mac = Mac.zero → s.env.answers.fuse = none :: r → ∃ t, exec .bu1 s = .next t ∧
      Became s t { s.priv with seq := ⟨.off, 0, false⟩ } s.regs s.hw [.fuseMac s.bring.cfg.index] [3])

/-- R155: step 2. -/
def Obligations.Bu2Allocates : Prop :=
  ∀ (s : State) (r : List Bool), Inv s → s.quiet → s.atStep 2 →
    (∀ a b rd rm, s.env.answers.ctxAlloc = true :: r → s.env.answers.dmaAlloc = some a :: some b :: rd →
      s.env.answers.metaAlloc = true :: rm →
      allocOk s.params.dmaAlign a.toNat s.params.capRx b.toNat s.params.capTx = true →
      ∃ t, exec .bu2 s = .next t ∧
        LaidOut s t s.params.capRx s.params.capTx a b (.ctxAlloc :: allocCalls s.params s.params.capRx s.params.capTx) ∧
        t.ctx = ⟨true, none, s.bring.cfg.index, s.bring.cfg.phyAddr, s.bring.cfg.promisc, s.bring.macPending⟩ ∧
        t.seq = { s.seq with bstep := 3 } ∧ t.out = s.out) ∧
    (s.env.answers.ctxAlloc = false :: r → ∃ t, exec .bu2 s = .next t ∧
      Became s t { s.priv with seq := ⟨.off, 0, false⟩ } s.regs s.hw [.ctxAlloc] [4])

/-- R156, R157: steps 3 and 4. -/
def Obligations.Bu3Bu4SetUp : Prop :=
  ∀ s : State, s.quiet →
    (∀ r, s.atStep 3 → s.ctx.index = 0 → s.env.answers.platform = true :: r → ∃ t, exec .bu3 s = .next t ∧
      Became s t { s.priv with seq := { s.seq with bstep := 4 } } s.regs s.hw [.platformSetup 0] s.out) ∧
    (∀ h r, s.atStep 4 → s.env.answers.mapRegs = some h :: r → ∃ t, exec .bu4 s = .next t ∧
      Became s t { s.priv with ctx := { s.ctx with regs := some h }, seq := { s.seq with bstep := 5 } }
        s.regs s.hw [.mapRegs] s.out)

/-- R158, R165: step 5, and its failure, which unwinds nothing and answers 8. That the failed step ends in a next state, in
mode Dead, from which every further step is refused or a fault, is the model's reading of R165 and R211 (notes/assumptions/12);
which of the writes a failed initialisation made is open (notes/assumptions/13). -/
def Obligations.Bu5InitialisesCore : Prop :=
  ∀ (s : State) (r : List Bool), Inv s → s.quiet → s.atStep 5 →
    ∃ a b, s.rx.base = some a ∧ s.tx.base = some b ∧
      (s.env.answers.coreInit = true :: r → ∃ t, exec .bu5 s = .next t ∧
        Became s t { s.priv with coreFresh := true, seq := { s.seq with bstep := 6 } }
          (s.regs.coreInit a b (BitVec.ofNat 32 s.params.bufSize) s.ctx.mac) ⟨0, 0, none, none⟩ [.macCoreHwInit s.ctx.regs] s.out) ∧
      (s.env.answers.coreInit = false :: r → ∃ t, exec .bu5 s = .next t ∧
        Became s t { s.priv with seq := ⟨.dead, 0, false⟩ } t.regs t.hw [.macCoreHwInit s.ctx.regs] [8] ∧
        s.regs.coreTried t.regs a b (BitVec.ofNat 32 s.params.bufSize) s.ctx.mac ∧ s.hw.coreTried t.hw)

/-- R159, R162: steps 6 and 9. A speed outside SpeedSet, which no accepted negotiation gives, is the refusal of
45_register_interface R178 (notes/assumptions/28). -/
def Obligations.Bu6Bu9Program : Prop :=
  ∀ s : State, s.quiet →
    (s.atStep 6 → ∃ t, exec .bu6 s = .next t ∧
      Accessed s t { s.priv with seq := { s.seq with bstep := 7 } }
        { s.regs with promisc := decide (s.ctx.promisc ≠ .off) } s.hw s.out) ∧
    (s.atStep 9 → s.params.speedSet.contains s.link.speed = true → ∃ t, exec .bu9 s = .next t ∧
      Accessed s t { s.priv with seq := { s.seq with bstep := 10 } }
        { s.regs with speed := s.link.speed, duplex := s.link.duplex } s.hw s.out)

/-- R160, R161: steps 7 and 8. -/
def Obligations.Bu7Bu8StartPhy : Prop :=
  ∀ (s : State) (r : List Bool), s.quiet →
    (∀ phy q, s.atStep 7 → s.ctx.phyAddr.toNat ≤ s.params.phyAddrMax → s.env.answers.mdioInit = true :: r →
      s.env.answers.phyConnect = some phy :: q → ∃ t, exec .bu7 s = .next t ∧
      Became s t { s.priv with bring := { s.bring with phy := phy }, seq := { s.seq with bstep := 8 } } s.regs s.hw
        [.mdioInit s.ctx.regs s.bring.cfg.remoteMdio, .phyConnect (if s.ctx.phyAddr = 0 then none else some s.ctx.phyAddr)] s.out) ∧
    (∀ v d q, s.atStep 8 → s.env.answers.phyTune = true :: r → s.env.answers.phyStartup = some (v, d) :: q →
      ∃ t, exec .bu8 s = .next t ∧
      Became s t { s.priv with link := ⟨v, d⟩, seq := { s.seq with bstep := 9 } } s.regs s.hw
        [.phyTune s.bring.phy, .phyStartup s.bring.phy] s.out)

/-- R163, 70_reset_and_hazards R234: step 10 enables the MAC, fills, and unmasks last; INIT is complete. First where H takes no
step between its events, then its order whatever happens between them. -/
def Obligations.Bu10Completes : Prop :=
  (∀ (s : State) (bs : List (Nat × Handle)), Inv s → s.quiet → s.atStep 10 → Supplies s s.rx.remain bs →
    ∃ a c t, Accessed s a s.priv { s.regs with macEn := true } s.hw s.out ∧ SuppliedRx a bs c ∧
      exec .bu10 s = .next t ∧
      Accessed c t { c.priv with seq := ⟨.running, 0, false⟩ } { c.regs with evmask := evAll s.params } c.hw [0]) ∧
  (∀ s t : State, exec .bu10 s = .next t → s.atStep 10 ∧
    ∃ a c b, macEnable s = .ok ((), a) ∧ fillRx a = .ok ((), c) ∧ setEventMask (evAll s.params) c = .ok ((), b) ∧
      t = (b.setSeq ⟨.running, 0, false⟩).ended [0])

/-- R164: every failure at steps 2 to 4, 7 and 8 releases rings and context and writes no register. In which order the
calls of a failed ring allocation stand, and that both metadata arrays are released one by one, is the model's choice
(notes/assumptions/32). -/
def Obligations.AbortUnwinds : Prop :=
  ∀ (s : State) (r q : List Bool), Inv s → s.quiet →
    (∀ x y m rd rm, s.atStep 2 → s.env.answers.ctxAlloc = true :: r → s.env.answers.dmaAlloc = x :: y :: rd →
      s.env.answers.metaAlloc = m :: rm → x = none ∨ y = none ∨ m = false →
      ∃ t, exec .bu2 s = .next t ∧ Aborted s t (.ctxAlloc :: allocCalls s.params s.params.capRx s.params.capTx ++
        unwindCalls s.params.capRx s.params.capTx x y m) 1) ∧
    (s.atStep 3 → s.ctx.index ≠ 0 → ∃ t, exec .bu3 s = .next t ∧ Aborted s t [] 5) ∧
    (s.atStep 3 → s.ctx.index = 0 → s.env.answers.platform = false :: r →
      ∃ t, exec .bu3 s = .next t ∧ Aborted s t [.platformSetup 0] 6) ∧
    (∀ l, s.atStep 4 → s.env.answers.mapRegs = none :: l → ∃ t, exec .bu4 s = .next t ∧ Aborted s t [.mapRegs] 7) ∧
    (s.atStep 7 → s.params.phyAddrMax < s.ctx.phyAddr.toNat → ∃ t, exec .bu7 s = .next t ∧ Aborted s t [] 9) ∧
    (s.atStep 7 → s.ctx.phyAddr.toNat ≤ s.params.phyAddrMax → s.env.answers.mdioInit = false :: r →
      ∃ t, exec .bu7 s = .next t ∧ Aborted s t [.mdioInit s.ctx.regs s.bring.cfg.remoteMdio] 10) ∧
    (∀ l, s.atStep 7 → s.ctx.phyAddr.toNat ≤ s.params.phyAddrMax → s.env.answers.mdioInit = true :: r →
      s.env.answers.phyConnect = none :: l → ∃ t, exec .bu7 s = .next t ∧ Aborted s t [.mdioInit s.ctx.regs s.bring.cfg.remoteMdio,
        .phyConnect (if s.ctx.phyAddr = 0 then none else some s.ctx.phyAddr)] 11) ∧
    (s.atStep 8 → s.env.answers.phyTune = false :: r →
      ∃ t, exec .bu8 s = .next t ∧ Aborted s t [.phyTune s.bring.phy] 12) ∧
    (∀ l, s.atStep 8 → s.env.answers.phyTune = true :: q → s.env.answers.phyStartup = none :: l →
      ∃ t, exec .bu8 s = .next t ∧ Aborted s t [.phyTune s.bring.phy, .phyStartup s.bring.phy] 12)

/-! ### Registers (spec/45_register_interface.md) -/

/-- R168 to R171, with 20_memory R81 and 47_dma_engine R196: the path enables. A write of either value drops H's sample of the
path, a 1 over a 1 too, which changes no register (notes/assumptions/38). -/
def Obligations.PathEnables : Prop :=
  ∀ s u : State, s.ready → Gap s u →
    (∃ t, exec .rxEnable s = .next t ∧
      Accessed u t s.priv { u.regs with rxEn := true } { u.hw with rxSample := none } [0]) ∧
    (∃ t, exec .rxDisable s = .next t ∧
      Accessed u t s.priv { u.regs with rxEn := false } { u.hw with rxSample := none } [0]) ∧
    (∃ t, exec .txEnable s = .next t ∧
      Accessed u t s.priv { u.regs with txEn := true } { u.hw with txSample := none } [0]) ∧
    (∃ t, exec .txDisable s = .next t ∧
      Accessed u t s.priv { u.regs with txEn := false } { u.hw with txSample := none } [0])

/-- R172 to R174: reads without a side effect. -/
def Obligations.RegisterReads : Prop :=
  encode .rxEnabled = [0x64000000] ∧ encode .txEnabled = [0x65000000] ∧ encode .evRead = [0x66000000] ∧ ∀ s u : State, s.ready → Gap s u →
    (∃ t, exec .rxEnabled s = .next t ∧ Accessed u t s.priv u.regs u.hw [0, if u.regs.rxEn then 1 else 0]) ∧
    (∃ t, exec .txEnabled s = .next t ∧ Accessed u t s.priv u.regs u.hw [0, if u.regs.txEn then 1 else 0]) ∧
    (∃ t, exec .evRead s = .next t ∧ Accessed u t s.priv u.regs u.hw [0, eventWord (u.regs.event &&& evAll s.params)])

/-- R175: EV_CLEAR clears the bits of `m` within EV_ALL and no other. -/
def Obligations.EvClearClears : Prop :=
  ∀ (s u : State) (m : Word), s.ready → Gap s u → encode (.evClear m) = [0x67000000, m] ∧
    ∃ t, exec (.evClear m) s = .next t ∧
      Accessed u t s.priv { u.regs with event := clearBits u.regs.event (m.toNat &&& evAll s.params) } u.hw [0]

/-- R176: EV_READ_CLEAR clears exactly the bits it returns; an event raised in the gap before it is among them. -/
def Obligations.EvReadClearAtomic : Prop :=
  encode .evReadClear = [0x68000000] ∧ ∀ s u : State, s.ready → Gap s u →
    ∃ t e, exec .evReadClear s = .next t ∧ e = u.regs.event &&& evAll s.params ∧
      Accessed u t s.priv { u.regs with event := clearBits u.regs.event e } u.hw [0, eventWord e]

/-- R177, 10_state R57: EV_SET_MASK replaces the whole mask, and the interrupt line follows at once. -/
def Obligations.EvSetMaskUnmasks : Prop :=
  ∀ (s u : State) (m : Word), s.ready → Gap s u → encode (.evSetMask m) = [0x69000000, m] ∧
    ∃ t, exec (.evSetMask m) s = .next t ∧
      Accessed u t s.priv { u.regs with evmask := m.toNat &&& evAll s.params } u.hw [0] ∧
      irq t = (u.regs.event &&& (m.toNat &&& evAll s.params) != 0)

/-- R178: SET_SPEED_DUPLEX writes both registers; a speed outside SpeedSet is refused. -/
def Obligations.SpeedDuplexSet : Prop :=
  ∀ (s : State) (v : Half) (d : Duplex), s.ready →
    (∀ u, Gap s u → s.params.speedSet.contains v.toNat = true → ∃ t, exec (.setSpeedDuplex v d) s = .next t ∧
      Accessed u t s.priv { u.regs with speed := v.toNat, duplex := d } u.hw [0]) ∧
    (s.params.speedSet.contains v.toNat = false → exec (.setSpeedDuplex v d) s = .refused .speedNotInSet)

/-- R179, R180: promiscuous mode. -/
def Obligations.PromiscWritten : Prop :=
  encode .promiscSet = [0x6C000000] ∧ encode .promiscClear = [0x6D000000] ∧ ∀ s u : State, s.ready → Gap s u →
    (∃ t, exec .promiscSet s = .next t ∧ Accessed u t s.priv { u.regs with promisc := true } u.hw [0]) ∧
    (∃ t, exec .promiscClear s = .next t ∧ Accessed u t s.priv { u.regs with promisc := false } u.hw [0])

/-- R181 to R183: MDIO accesses answer what the bus answers, listed or free, and change nothing of the block. Which bus is
asked, the remote one only while the context is alive and its configuration says so, is the model's choice
(notes/assumptions/21). -/
def Obligations.MdioAnswers : Prop :=
  ∀ (s u : State) (phy reg : BitVec 5), s.ready → Gap s u →
    (∃ t x, exec (.mdioRead phy reg) s = .next t ∧ (∀ y l, u.env.answers.mdioRead = y :: l → x = y) ∧
      Became u t s.priv u.regs u.hw [.mdioRead (s.ctx.alive && s.bring.cfg.remoteMdio) phy reg]
        (match x with | some v => [0, v.setWidth 32] | none => [13])) ∧
    (∀ v : Half, ∃ t x, exec (.mdioWrite phy reg v) s = .next t ∧ (∀ y l, u.env.answers.mdioWrite = y :: l → x = y) ∧
      Became u t s.priv u.regs u.hw [.mdioWrite (s.ctx.alive && s.bring.cfg.remoteMdio) phy reg v]
        (if x then [0] else [13]))

/-- R184: MAC_CORE_INIT issued on its own; what a failure wrote is open. R184 says of a failure only that fail is returned: that
the answer is then the code 8 of MacCoreInitFailed is the model's choice (both: notes/assumptions/13). -/
def Obligations.MacCoreInitWrites : Prop :=
  ∀ (s : State) (a b n : Word) (m : Mac) (r : List Bool), s.quiet → s.seq.busy = false → s.seq.mode = .off →
    s.rx.alive = true → s.tx.alive = true →
    (s.env.answers.coreInit = true :: r → ∃ t, exec (.macCoreInit a b n m) s = .next t ∧
      Became s t { s.priv with coreFresh := true } (s.regs.coreInit a b n m) ⟨0, 0, none, none⟩ [.macCoreHwInit s.ctx.regs] [0]) ∧
    (s.env.answers.coreInit = false :: r → ∃ t, exec (.macCoreInit a b n m) s = .next t ∧
      Became s t s.priv t.regs t.hw [.macCoreHwInit s.ctx.regs] [8] ∧ s.regs.coreTried t.regs a b n m ∧ s.hw.coreTried t.hw)

/-- R185: MAC_ENABLE; without a fresh MAC_CORE_INIT the model is spoiled (93_implementation_defined U3). -/
def Obligations.MacEnableSets : Prop :=
  ∀ s u : State, s.seq.busy = false → s.seq.mode = .off → s.rx.alive = true → s.tx.alive = true →
    (Gap s u → s.coreFresh = true → ∃ t, exec .macEnable s = .next t ∧
      Accessed u t s.priv { u.regs with macEn := true } u.hw [0]) ∧
    (s.coreFresh = false → exec .macEnable s = .fault .staleMacEnable)

/-! ### Façade (spec/46_facade.md) -/

/-- R189, R190: GET_MAC answers the context's address and reads no register, PRINT_DIAG reports the stored link settings and
the MIB value, in Running and in Halted. -/
def Obligations.ContextReports : Prop :=
  ∀ s : State, s.seq.busy = false → s.seq.mode = .running ∨ s.seq.mode = .halted → s.ctx.alive = true →
    exec .getMac s = .next (s.setOut [0, s.ctx.mac.b0 ++ s.ctx.mac.b1 ++ s.ctx.mac.b2 ++ s.ctx.mac.b3,
      s.ctx.mac.b4 ++ s.ctx.mac.b5 ++ 0#16]) ∧
    (s.quiet → ∃ t, exec .printDiag s = .next t ∧
      Became s t s.priv s.regs s.hw [.diagSink s.link.speed s.link.duplex s.regs.mib] [0])

/-! ### The DMA engine (spec/47_dma_engine.md) -/

/-- R200, R203: H samples the status word of its next slot and changes nothing else. -/
def Obligations.SampleReads : Prop :=
  ∀ s : State, s.regs.macEn = true → s.coreFresh = true →
    (s.regs.rxEn = true → s.hw.rxSample = none → s.rx.alive = true → s.rx.base = some s.regs.rxbase →
      s.hw.rxIdx < s.rx.cap →
      exec .hRxSample s = .next (s.setHw { s.hw with rxSample := some (BitVec.ofNat 16 (memRead s.params.endian s.mem
        (s.regs.rxbase.toNat + 8 * s.hw.rxIdx + fieldOff s.params.endian .stat) 2)) })) ∧
    (s.regs.txEn = true → s.hw.txSample = none → s.tx.alive = true → s.tx.base = some s.regs.txbase →
      s.hw.txIdx < s.tx.cap →
      exec .hTxSample s = .next (s.setHw { s.hw with txSample := some (BitVec.ofNat 16 (memRead s.params.endian s.mem
        (s.regs.txbase.toNat + 8 * s.hw.txIdx + fieldOff s.params.endian .stat) 2)) }))

/-- R201, R208, with 20_memory R87: H completes a receive slot that is still its own: the frame at the buffer's address and
whatever it writes behind it within the buffer (any value where another buffer in flight lies there, 60_exceptions R224 row
6a), the length, the status word that hands the slot back with its wrap bit kept,
the next index, the event. -/
def Obligations.RxDoneCompletes : Prop :=
  ∀ (s : State) (w len flags : Half) (p x : Nat), Memory.wf s.mem = true → s.params.wf = true → s.regs.macEn = true →
    s.regs.rxEn = true → s.hw.rxSample = some w → w.getLsbD s.params.rxdEmpty = true →
    len.toNat ≤ s.regs.bufsz.toNat → flags.getLsbD s.params.rxdEmpty = false → flags.getLsbD s.params.rxdWrap = false →
    s.coreFresh = true → s.rx.alive = true → s.rx.base = some s.regs.rxbase → s.hw.rxIdx < s.rx.cap →
    x = s.regs.rxbase.toNat + 8 * s.hw.rxIdx →
    (BitVec.ofNat 16 (memRead s.params.endian s.mem (fieldAddr s.params.endian x .stat) 2)).getLsbD s.params.rxdEmpty = true →
    p = memRead s.params.endian s.mem (fieldAddr s.params.endian x .phys) 4 →
    bufferReal s p s.regs.bufsz.toNat = true →
    ∃ t, exec (.hRxDone len flags) s = .next t ∧ t.owned = s.owned ∧ t.pend = s.pend ∧ t.early = s.early ∧
      t.regs = { s.regs with event := s.regs.event ||| evRxf s.params } ∧
      t.hw = { s.hw with rxIdx := if w.getLsbD s.params.rxdWrap then 0 else s.hw.rxIdx + 1, rxSample := none } ∧
      (∀ k b, k < s.regs.bufsz.toNat → s.shared s.hw.rxIdx (p + k) = false →
        (s.env.answers.frames.headD [])[k]? = some b → Memory.read (p + k) t.mem = b) ∧
      memRead s.params.endian t.mem (fieldAddr s.params.endian x .len) 2 = len.toNat ∧
      memRead s.params.endian t.mem (fieldAddr s.params.endian x .stat) 2 =
        ((w &&& bit16 s.params.rxdWrap) ||| flags).toNat ∧
      (∀ a, a < p ∨ p + s.regs.bufsz.toNat ≤ a → a < x ∨ x + 4 ≤ a → Memory.read a t.mem = Memory.read a s.mem)

/-- R204, R208: H completes a transmit slot that is still its own: only the ownership bit of its status word changes; the
event is raised on the fragment marked last. -/
def Obligations.TxDoneCompletes : Prop :=
  ∀ (s : State) (w : Half) (p l x : Nat), Memory.wf s.mem = true → s.regs.macEn = true → s.regs.txEn = true →
    s.hw.txSample = some w → w.getLsbD s.params.txdReady = true → s.coreFresh = true → s.tx.alive = true →
    s.tx.base = some s.regs.txbase → s.hw.txIdx < s.tx.cap → x = s.regs.txbase.toNat + 8 * s.hw.txIdx →
    (BitVec.ofNat 16 (memRead s.params.endian s.mem (fieldAddr s.params.endian x .stat) 2)).getLsbD s.params.txdReady = true →
    p = memRead s.params.endian s.mem (fieldAddr s.params.endian x .phys) 4 →
    l = memRead s.params.endian s.mem (fieldAddr s.params.endian x .len) 2 → bufferReal s p l = true →
    ∃ t, exec .hTxDone s = .next t ∧ t.owned = s.owned ∧ t.pend = s.pend ∧ t.early = s.early ∧ t.env = s.env ∧
      t.regs = { s.regs with
        event := if w.getLsbD s.params.txdLast then s.regs.event ||| evTxf s.params else s.regs.event } ∧
      t.hw = { s.hw with txIdx := if w.getLsbD s.params.txdWrap then 0 else s.hw.txIdx + 1, txSample := none } ∧
      memRead s.params.endian t.mem (fieldAddr s.params.endian x .stat) 2 =
        (w &&& ~~~(bit16 s.params.txdReady)).toNat ∧
      (∀ a, a < fieldAddr s.params.endian x .stat ∨ fieldAddr s.params.endian x .stat + 2 ≤ a →
        Memory.read a t.mem = Memory.read a s.mem)

/-- R202, R205, R206: H stalls on a slot that is not its own, disabling its path; a bus error raises its event. -/
def Obligations.StallAndBusError : Prop :=
  ∀ s : State, s.regs.macEn = true →
    (∀ w, s.regs.rxEn = true → s.hw.rxSample = some w → w.getLsbD s.params.rxdEmpty = false →
      exec .hRxStall s = .next ((s.setRegs { s.regs with rxEn := false }).setHw { s.hw with rxSample := none })) ∧
    (∀ w, s.regs.txEn = true → s.hw.txSample = some w → w.getLsbD s.params.txdReady = false →
      exec .hTxStall s = .next ((s.setRegs { s.regs with txEn := false }).setHw { s.hw with txSample := none })) ∧
    exec .hBusError s = .next (s.setRegs { s.regs with event := s.regs.event ||| evBerr s.params })

/-- R196: H takes no step while the MAC is disabled, and none on a path that is. -/
def Obligations.EngineEnabledOnly : Prop :=
  ∀ (s : State) (i : Instr), i.agent = .engine →
    (s.regs.macEn = false → exec i s = .refused .stepNotEnabled) ∧
    (s.regs.rxEn = false → i = .hRxSample ∨ i = .hRxStall ∨ (∃ l f, i = .hRxDone l f) →
      exec i s = .refused .stepNotEnabled) ∧
    (s.regs.txEn = false → i = .hTxSample ∨ i = .hTxStall ∨ i = .hTxDone → exec i s = .refused .stepNotEnabled)

/-- R207, with 70_reset_and_hazards R240: a step of H that reads or writes descriptor memory of a ring that is not alive, or
of rings laid out since the core was initialised, is a fault of the model; so is a completion of a slot whose ownership bit
memory no longer holds (R208 (a), 20_memory R87), whose buffer its owner has taken back. -/
def Obligations.EngineFaultsOnReleased : Prop :=
  ∀ s : State, s.regs.macEn = true →
    (s.regs.rxEn = true → s.rx.alive = false ∨ s.coreFresh = false →
      (s.hw.rxSample = none → exec .hRxSample s = .fault .hOutsideLiveRing) ∧
      (∀ (w l f : Half), s.hw.rxSample = some w → w.getLsbD s.params.rxdEmpty = true → l.toNat ≤ s.regs.bufsz.toNat →
        rxFlagsAdmissible s.params f = true → exec (.hRxDone l f) s = .fault .hOutsideLiveRing)) ∧
    (s.regs.txEn = true → s.tx.alive = false ∨ s.coreFresh = false →
      (s.hw.txSample = none → exec .hTxSample s = .fault .hOutsideLiveRing) ∧
      (∀ w, s.hw.txSample = some w → w.getLsbD s.params.txdReady = true → exec .hTxDone s = .fault .hOutsideLiveRing)) ∧
    (∀ (w l f : Half) (x : Nat), s.regs.rxEn = true → hwSlot s .rx = some x → s.hw.rxSample = some w →
      w.getLsbD s.params.rxdEmpty = true → l.toNat ≤ s.regs.bufsz.toNat → rxFlagsAdmissible s.params f = true →
      (BitVec.ofNat 16 (memRead s.params.endian s.mem (fieldAddr s.params.endian x .stat) 2)).getLsbD s.params.rxdEmpty = false →
      exec (.hRxDone l f) s = .fault .hSlotTakenBack) ∧
    (∀ (w : Half) (x : Nat), s.regs.txEn = true → hwSlot s .tx = some x → s.hw.txSample = some w →
      w.getLsbD s.params.txdReady = true →
      (BitVec.ofNat 16 (memRead s.params.endian s.mem (fieldAddr s.params.endian x .stat) 2)).getLsbD s.params.txdReady = false →
      exec .hTxDone s = .fault .hSlotTakenBack)

/-- R195, R208 (e): a step of H changes nothing that is C's, clears no event bit and enables no path. -/
def Obligations.EngineLeavesWhatIsC : Prop :=
  ∀ (i : Instr) (s t : State), i.agent = .engine → exec i s = .next t →
    t.owned = s.owned ∧ t.pend = s.pend ∧ clearBits s.regs.event t.regs.event = 0 ∧
      (t.regs.rxEn = true → s.regs.rxEn = true) ∧ (t.regs.txEn = true → s.regs.txEn = true)
end

