-- ==== Sys2Proof/Laws/State.lean ====
section
/-!
SUPPORT. Laws/State.lean: what each update of the state does to each field.
-/
namespace Sys2Proof.Machine

section
variable (s : State) (x : Ring)
@[simp] theorem State.setRx_params : (s.setRx x).params = s.params := rfl
@[simp] theorem State.setRx_rx : (s.setRx x).rx = x := rfl
@[simp] theorem State.setRx_tx : (s.setRx x).tx = s.tx := rfl
@[simp] theorem State.setRx_ndesc : (s.setRx x).ndesc = s.ndesc := rfl
@[simp] theorem State.setRx_ctx : (s.setRx x).ctx = s.ctx := rfl
@[simp] theorem State.setRx_link : (s.setRx x).link = s.link := rfl
@[simp] theorem State.setRx_seq : (s.setRx x).seq = s.seq := rfl
@[simp] theorem State.setRx_bring : (s.setRx x).bring = s.bring := rfl
@[simp] theorem State.setRx_regs : (s.setRx x).regs = s.regs := rfl
@[simp] theorem State.setRx_coreFresh : (s.setRx x).coreFresh = s.coreFresh := rfl
@[simp] theorem State.setRx_handing : (s.setRx x).handing = s.handing := rfl
@[simp] theorem State.setRx_hw : (s.setRx x).hw = s.hw := rfl
@[simp] theorem State.setRx_mem : (s.setRx x).mem = s.mem := rfl
@[simp] theorem State.setRx_pend : (s.setRx x).pend = s.pend := rfl
@[simp] theorem State.setRx_early : (s.setRx x).early = s.early := rfl
@[simp] theorem State.setRx_env : (s.setRx x).env = s.env := rfl
@[simp] theorem State.setRx_out : (s.setRx x).out = s.out := rfl
@[simp] theorem State.setRx_calls : (s.setRx x).calls = s.calls := rfl
end

section
variable (s : State) (x : Ring)
@[simp] theorem State.setTx_params : (s.setTx x).params = s.params := rfl
@[simp] theorem State.setTx_rx : (s.setTx x).rx = s.rx := rfl
@[simp] theorem State.setTx_tx : (s.setTx x).tx = x := rfl
@[simp] theorem State.setTx_ndesc : (s.setTx x).ndesc = s.ndesc := rfl
@[simp] theorem State.setTx_ctx : (s.setTx x).ctx = s.ctx := rfl
@[simp] theorem State.setTx_link : (s.setTx x).link = s.link := rfl
@[simp] theorem State.setTx_seq : (s.setTx x).seq = s.seq := rfl
@[simp] theorem State.setTx_bring : (s.setTx x).bring = s.bring := rfl
@[simp] theorem State.setTx_regs : (s.setTx x).regs = s.regs := rfl
@[simp] theorem State.setTx_coreFresh : (s.setTx x).coreFresh = s.coreFresh := rfl
@[simp] theorem State.setTx_handing : (s.setTx x).handing = s.handing := rfl
@[simp] theorem State.setTx_hw : (s.setTx x).hw = s.hw := rfl
@[simp] theorem State.setTx_mem : (s.setTx x).mem = s.mem := rfl
@[simp] theorem State.setTx_pend : (s.setTx x).pend = s.pend := rfl
@[simp] theorem State.setTx_early : (s.setTx x).early = s.early := rfl
@[simp] theorem State.setTx_env : (s.setTx x).env = s.env := rfl
@[simp] theorem State.setTx_out : (s.setTx x).out = s.out := rfl
@[simp] theorem State.setTx_calls : (s.setTx x).calls = s.calls := rfl
end

section
variable (s : State) (x : List Nat)
@[simp] theorem State.setNdesc_params : (s.setNdesc x).params = s.params := rfl
@[simp] theorem State.setNdesc_rx : (s.setNdesc x).rx = s.rx := rfl
@[simp] theorem State.setNdesc_tx : (s.setNdesc x).tx = s.tx := rfl
@[simp] theorem State.setNdesc_ndesc : (s.setNdesc x).ndesc = x := rfl
@[simp] theorem State.setNdesc_ctx : (s.setNdesc x).ctx = s.ctx := rfl
@[simp] theorem State.setNdesc_link : (s.setNdesc x).link = s.link := rfl
@[simp] theorem State.setNdesc_seq : (s.setNdesc x).seq = s.seq := rfl
@[simp] theorem State.setNdesc_bring : (s.setNdesc x).bring = s.bring := rfl
@[simp] theorem State.setNdesc_regs : (s.setNdesc x).regs = s.regs := rfl
@[simp] theorem State.setNdesc_coreFresh : (s.setNdesc x).coreFresh = s.coreFresh := rfl
@[simp] theorem State.setNdesc_handing : (s.setNdesc x).handing = s.handing := rfl
@[simp] theorem State.setNdesc_hw : (s.setNdesc x).hw = s.hw := rfl
@[simp] theorem State.setNdesc_mem : (s.setNdesc x).mem = s.mem := rfl
@[simp] theorem State.setNdesc_pend : (s.setNdesc x).pend = s.pend := rfl
@[simp] theorem State.setNdesc_early : (s.setNdesc x).early = s.early := rfl
@[simp] theorem State.setNdesc_env : (s.setNdesc x).env = s.env := rfl
@[simp] theorem State.setNdesc_out : (s.setNdesc x).out = s.out := rfl
@[simp] theorem State.setNdesc_calls : (s.setNdesc x).calls = s.calls := rfl
end

section
variable (s : State) (x : Ctx)
@[simp] theorem State.setCtx_params : (s.setCtx x).params = s.params := rfl
@[simp] theorem State.setCtx_rx : (s.setCtx x).rx = s.rx := rfl
@[simp] theorem State.setCtx_tx : (s.setCtx x).tx = s.tx := rfl
@[simp] theorem State.setCtx_ndesc : (s.setCtx x).ndesc = s.ndesc := rfl
@[simp] theorem State.setCtx_ctx : (s.setCtx x).ctx = x := rfl
@[simp] theorem State.setCtx_link : (s.setCtx x).link = s.link := rfl
@[simp] theorem State.setCtx_seq : (s.setCtx x).seq = s.seq := rfl
@[simp] theorem State.setCtx_bring : (s.setCtx x).bring = s.bring := rfl
@[simp] theorem State.setCtx_regs : (s.setCtx x).regs = s.regs := rfl
@[simp] theorem State.setCtx_coreFresh : (s.setCtx x).coreFresh = s.coreFresh := rfl
@[simp] theorem State.setCtx_handing : (s.setCtx x).handing = s.handing := rfl
@[simp] theorem State.setCtx_hw : (s.setCtx x).hw = s.hw := rfl
@[simp] theorem State.setCtx_mem : (s.setCtx x).mem = s.mem := rfl
@[simp] theorem State.setCtx_pend : (s.setCtx x).pend = s.pend := rfl
@[simp] theorem State.setCtx_early : (s.setCtx x).early = s.early := rfl
@[simp] theorem State.setCtx_env : (s.setCtx x).env = s.env := rfl
@[simp] theorem State.setCtx_out : (s.setCtx x).out = s.out := rfl
@[simp] theorem State.setCtx_calls : (s.setCtx x).calls = s.calls := rfl
end

section
variable (s : State) (x : Link)
@[simp] theorem State.setLink_params : (s.setLink x).params = s.params := rfl
@[simp] theorem State.setLink_rx : (s.setLink x).rx = s.rx := rfl
@[simp] theorem State.setLink_tx : (s.setLink x).tx = s.tx := rfl
@[simp] theorem State.setLink_ndesc : (s.setLink x).ndesc = s.ndesc := rfl
@[simp] theorem State.setLink_ctx : (s.setLink x).ctx = s.ctx := rfl
@[simp] theorem State.setLink_link : (s.setLink x).link = x := rfl
@[simp] theorem State.setLink_seq : (s.setLink x).seq = s.seq := rfl
@[simp] theorem State.setLink_bring : (s.setLink x).bring = s.bring := rfl
@[simp] theorem State.setLink_regs : (s.setLink x).regs = s.regs := rfl
@[simp] theorem State.setLink_coreFresh : (s.setLink x).coreFresh = s.coreFresh := rfl
@[simp] theorem State.setLink_handing : (s.setLink x).handing = s.handing := rfl
@[simp] theorem State.setLink_hw : (s.setLink x).hw = s.hw := rfl
@[simp] theorem State.setLink_mem : (s.setLink x).mem = s.mem := rfl
@[simp] theorem State.setLink_pend : (s.setLink x).pend = s.pend := rfl
@[simp] theorem State.setLink_early : (s.setLink x).early = s.early := rfl
@[simp] theorem State.setLink_env : (s.setLink x).env = s.env := rfl
@[simp] theorem State.setLink_out : (s.setLink x).out = s.out := rfl
@[simp] theorem State.setLink_calls : (s.setLink x).calls = s.calls := rfl
end

section
variable (s : State) (x : Seq)
@[simp] theorem State.setSeq_params : (s.setSeq x).params = s.params := rfl
@[simp] theorem State.setSeq_rx : (s.setSeq x).rx = s.rx := rfl
@[simp] theorem State.setSeq_tx : (s.setSeq x).tx = s.tx := rfl
@[simp] theorem State.setSeq_ndesc : (s.setSeq x).ndesc = s.ndesc := rfl
@[simp] theorem State.setSeq_ctx : (s.setSeq x).ctx = s.ctx := rfl
@[simp] theorem State.setSeq_link : (s.setSeq x).link = s.link := rfl
@[simp] theorem State.setSeq_seq : (s.setSeq x).seq = x := rfl
@[simp] theorem State.setSeq_bring : (s.setSeq x).bring = s.bring := rfl
@[simp] theorem State.setSeq_regs : (s.setSeq x).regs = s.regs := rfl
@[simp] theorem State.setSeq_coreFresh : (s.setSeq x).coreFresh = s.coreFresh := rfl
@[simp] theorem State.setSeq_handing : (s.setSeq x).handing = s.handing := rfl
@[simp] theorem State.setSeq_hw : (s.setSeq x).hw = s.hw := rfl
@[simp] theorem State.setSeq_mem : (s.setSeq x).mem = s.mem := rfl
@[simp] theorem State.setSeq_pend : (s.setSeq x).pend = s.pend := rfl
@[simp] theorem State.setSeq_early : (s.setSeq x).early = s.early := rfl
@[simp] theorem State.setSeq_env : (s.setSeq x).env = s.env := rfl
@[simp] theorem State.setSeq_out : (s.setSeq x).out = s.out := rfl
@[simp] theorem State.setSeq_calls : (s.setSeq x).calls = s.calls := rfl
end

section
variable (s : State) (x : BringUp)
@[simp] theorem State.setBring_params : (s.setBring x).params = s.params := rfl
@[simp] theorem State.setBring_rx : (s.setBring x).rx = s.rx := rfl
@[simp] theorem State.setBring_tx : (s.setBring x).tx = s.tx := rfl
@[simp] theorem State.setBring_ndesc : (s.setBring x).ndesc = s.ndesc := rfl
@[simp] theorem State.setBring_ctx : (s.setBring x).ctx = s.ctx := rfl
@[simp] theorem State.setBring_link : (s.setBring x).link = s.link := rfl
@[simp] theorem State.setBring_seq : (s.setBring x).seq = s.seq := rfl
@[simp] theorem State.setBring_bring : (s.setBring x).bring = x := rfl
@[simp] theorem State.setBring_regs : (s.setBring x).regs = s.regs := rfl
@[simp] theorem State.setBring_coreFresh : (s.setBring x).coreFresh = s.coreFresh := rfl
@[simp] theorem State.setBring_handing : (s.setBring x).handing = s.handing := rfl
@[simp] theorem State.setBring_hw : (s.setBring x).hw = s.hw := rfl
@[simp] theorem State.setBring_mem : (s.setBring x).mem = s.mem := rfl
@[simp] theorem State.setBring_pend : (s.setBring x).pend = s.pend := rfl
@[simp] theorem State.setBring_early : (s.setBring x).early = s.early := rfl
@[simp] theorem State.setBring_env : (s.setBring x).env = s.env := rfl
@[simp] theorem State.setBring_out : (s.setBring x).out = s.out := rfl
@[simp] theorem State.setBring_calls : (s.setBring x).calls = s.calls := rfl
end

section
variable (s : State) (x : Regs)
@[simp] theorem State.setRegs_params : (s.setRegs x).params = s.params := rfl
@[simp] theorem State.setRegs_rx : (s.setRegs x).rx = s.rx := rfl
@[simp] theorem State.setRegs_tx : (s.setRegs x).tx = s.tx := rfl
@[simp] theorem State.setRegs_ndesc : (s.setRegs x).ndesc = s.ndesc := rfl
@[simp] theorem State.setRegs_ctx : (s.setRegs x).ctx = s.ctx := rfl
@[simp] theorem State.setRegs_link : (s.setRegs x).link = s.link := rfl
@[simp] theorem State.setRegs_seq : (s.setRegs x).seq = s.seq := rfl
@[simp] theorem State.setRegs_bring : (s.setRegs x).bring = s.bring := rfl
@[simp] theorem State.setRegs_regs : (s.setRegs x).regs = x := rfl
@[simp] theorem State.setRegs_coreFresh : (s.setRegs x).coreFresh = s.coreFresh := rfl
@[simp] theorem State.setRegs_handing : (s.setRegs x).handing = s.handing := rfl
@[simp] theorem State.setRegs_hw : (s.setRegs x).hw = s.hw := rfl
@[simp] theorem State.setRegs_mem : (s.setRegs x).mem = s.mem := rfl
@[simp] theorem State.setRegs_pend : (s.setRegs x).pend = s.pend := rfl
@[simp] theorem State.setRegs_early : (s.setRegs x).early = s.early := rfl
@[simp] theorem State.setRegs_env : (s.setRegs x).env = s.env := rfl
@[simp] theorem State.setRegs_out : (s.setRegs x).out = s.out := rfl
@[simp] theorem State.setRegs_calls : (s.setRegs x).calls = s.calls := rfl
end

section
variable (s : State) (x : Bool)
@[simp] theorem State.setCoreFresh_params : (s.setCoreFresh x).params = s.params := rfl
@[simp] theorem State.setCoreFresh_rx : (s.setCoreFresh x).rx = s.rx := rfl
@[simp] theorem State.setCoreFresh_tx : (s.setCoreFresh x).tx = s.tx := rfl
@[simp] theorem State.setCoreFresh_ndesc : (s.setCoreFresh x).ndesc = s.ndesc := rfl
@[simp] theorem State.setCoreFresh_ctx : (s.setCoreFresh x).ctx = s.ctx := rfl
@[simp] theorem State.setCoreFresh_link : (s.setCoreFresh x).link = s.link := rfl
@[simp] theorem State.setCoreFresh_seq : (s.setCoreFresh x).seq = s.seq := rfl
@[simp] theorem State.setCoreFresh_bring : (s.setCoreFresh x).bring = s.bring := rfl
@[simp] theorem State.setCoreFresh_regs : (s.setCoreFresh x).regs = s.regs := rfl
@[simp] theorem State.setCoreFresh_coreFresh : (s.setCoreFresh x).coreFresh = x := rfl
@[simp] theorem State.setCoreFresh_handing : (s.setCoreFresh x).handing = s.handing := rfl
@[simp] theorem State.setCoreFresh_hw : (s.setCoreFresh x).hw = s.hw := rfl
@[simp] theorem State.setCoreFresh_mem : (s.setCoreFresh x).mem = s.mem := rfl
@[simp] theorem State.setCoreFresh_pend : (s.setCoreFresh x).pend = s.pend := rfl
@[simp] theorem State.setCoreFresh_early : (s.setCoreFresh x).early = s.early := rfl
@[simp] theorem State.setCoreFresh_env : (s.setCoreFresh x).env = s.env := rfl
@[simp] theorem State.setCoreFresh_out : (s.setCoreFresh x).out = s.out := rfl
@[simp] theorem State.setCoreFresh_calls : (s.setCoreFresh x).calls = s.calls := rfl
end

section
variable (s : State) (x : Nat)
@[simp] theorem State.setHanding_params : (s.setHanding x).params = s.params := rfl
@[simp] theorem State.setHanding_rx : (s.setHanding x).rx = s.rx := rfl
@[simp] theorem State.setHanding_tx : (s.setHanding x).tx = s.tx := rfl
@[simp] theorem State.setHanding_ndesc : (s.setHanding x).ndesc = s.ndesc := rfl
@[simp] theorem State.setHanding_ctx : (s.setHanding x).ctx = s.ctx := rfl
@[simp] theorem State.setHanding_link : (s.setHanding x).link = s.link := rfl
@[simp] theorem State.setHanding_seq : (s.setHanding x).seq = s.seq := rfl
@[simp] theorem State.setHanding_bring : (s.setHanding x).bring = s.bring := rfl
@[simp] theorem State.setHanding_regs : (s.setHanding x).regs = s.regs := rfl
@[simp] theorem State.setHanding_coreFresh : (s.setHanding x).coreFresh = s.coreFresh := rfl
@[simp] theorem State.setHanding_handing : (s.setHanding x).handing = x := rfl
@[simp] theorem State.setHanding_hw : (s.setHanding x).hw = s.hw := rfl
@[simp] theorem State.setHanding_mem : (s.setHanding x).mem = s.mem := rfl
@[simp] theorem State.setHanding_pend : (s.setHanding x).pend = s.pend := rfl
@[simp] theorem State.setHanding_early : (s.setHanding x).early = s.early := rfl
@[simp] theorem State.setHanding_env : (s.setHanding x).env = s.env := rfl
@[simp] theorem State.setHanding_out : (s.setHanding x).out = s.out := rfl
@[simp] theorem State.setHanding_calls : (s.setHanding x).calls = s.calls := rfl
end

section
variable (s : State) (x : Hw)
@[simp] theorem State.setHw_params : (s.setHw x).params = s.params := rfl
@[simp] theorem State.setHw_rx : (s.setHw x).rx = s.rx := rfl
@[simp] theorem State.setHw_tx : (s.setHw x).tx = s.tx := rfl
@[simp] theorem State.setHw_ndesc : (s.setHw x).ndesc = s.ndesc := rfl
@[simp] theorem State.setHw_ctx : (s.setHw x).ctx = s.ctx := rfl
@[simp] theorem State.setHw_link : (s.setHw x).link = s.link := rfl
@[simp] theorem State.setHw_seq : (s.setHw x).seq = s.seq := rfl
@[simp] theorem State.setHw_bring : (s.setHw x).bring = s.bring := rfl
@[simp] theorem State.setHw_regs : (s.setHw x).regs = s.regs := rfl
@[simp] theorem State.setHw_coreFresh : (s.setHw x).coreFresh = s.coreFresh := rfl
@[simp] theorem State.setHw_handing : (s.setHw x).handing = s.handing := rfl
@[simp] theorem State.setHw_hw : (s.setHw x).hw = x := rfl
@[simp] theorem State.setHw_mem : (s.setHw x).mem = s.mem := rfl
@[simp] theorem State.setHw_pend : (s.setHw x).pend = s.pend := rfl
@[simp] theorem State.setHw_early : (s.setHw x).early = s.early := rfl
@[simp] theorem State.setHw_env : (s.setHw x).env = s.env := rfl
@[simp] theorem State.setHw_out : (s.setHw x).out = s.out := rfl
@[simp] theorem State.setHw_calls : (s.setHw x).calls = s.calls := rfl
end

section
variable (s : State) (x : Memory)
@[simp] theorem State.setMem_params : (s.setMem x).params = s.params := rfl
@[simp] theorem State.setMem_rx : (s.setMem x).rx = s.rx := rfl
@[simp] theorem State.setMem_tx : (s.setMem x).tx = s.tx := rfl
@[simp] theorem State.setMem_ndesc : (s.setMem x).ndesc = s.ndesc := rfl
@[simp] theorem State.setMem_ctx : (s.setMem x).ctx = s.ctx := rfl
@[simp] theorem State.setMem_link : (s.setMem x).link = s.link := rfl
@[simp] theorem State.setMem_seq : (s.setMem x).seq = s.seq := rfl
@[simp] theorem State.setMem_bring : (s.setMem x).bring = s.bring := rfl
@[simp] theorem State.setMem_regs : (s.setMem x).regs = s.regs := rfl
@[simp] theorem State.setMem_coreFresh : (s.setMem x).coreFresh = s.coreFresh := rfl
@[simp] theorem State.setMem_handing : (s.setMem x).handing = s.handing := rfl
@[simp] theorem State.setMem_hw : (s.setMem x).hw = s.hw := rfl
@[simp] theorem State.setMem_mem : (s.setMem x).mem = x := rfl
@[simp] theorem State.setMem_pend : (s.setMem x).pend = s.pend := rfl
@[simp] theorem State.setMem_early : (s.setMem x).early = s.early := rfl
@[simp] theorem State.setMem_env : (s.setMem x).env = s.env := rfl
@[simp] theorem State.setMem_out : (s.setMem x).out = s.out := rfl
@[simp] theorem State.setMem_calls : (s.setMem x).calls = s.calls := rfl
end

section
variable (s : State) (x : List PendWrite)
@[simp] theorem State.setPend_params : (s.setPend x).params = s.params := rfl
@[simp] theorem State.setPend_rx : (s.setPend x).rx = s.rx := rfl
@[simp] theorem State.setPend_tx : (s.setPend x).tx = s.tx := rfl
@[simp] theorem State.setPend_ndesc : (s.setPend x).ndesc = s.ndesc := rfl
@[simp] theorem State.setPend_ctx : (s.setPend x).ctx = s.ctx := rfl
@[simp] theorem State.setPend_link : (s.setPend x).link = s.link := rfl
@[simp] theorem State.setPend_seq : (s.setPend x).seq = s.seq := rfl
@[simp] theorem State.setPend_bring : (s.setPend x).bring = s.bring := rfl
@[simp] theorem State.setPend_regs : (s.setPend x).regs = s.regs := rfl
@[simp] theorem State.setPend_coreFresh : (s.setPend x).coreFresh = s.coreFresh := rfl
@[simp] theorem State.setPend_handing : (s.setPend x).handing = s.handing := rfl
@[simp] theorem State.setPend_hw : (s.setPend x).hw = s.hw := rfl
@[simp] theorem State.setPend_mem : (s.setPend x).mem = s.mem := rfl
@[simp] theorem State.setPend_pend : (s.setPend x).pend = x := rfl
@[simp] theorem State.setPend_early : (s.setPend x).early = s.early := rfl
@[simp] theorem State.setPend_env : (s.setPend x).env = s.env := rfl
@[simp] theorem State.setPend_out : (s.setPend x).out = s.out := rfl
@[simp] theorem State.setPend_calls : (s.setPend x).calls = s.calls := rfl
end

section
variable (s : State) (x : List EarlyRead)
@[simp] theorem State.setEarly_params : (s.setEarly x).params = s.params := rfl
@[simp] theorem State.setEarly_rx : (s.setEarly x).rx = s.rx := rfl
@[simp] theorem State.setEarly_tx : (s.setEarly x).tx = s.tx := rfl
@[simp] theorem State.setEarly_ndesc : (s.setEarly x).ndesc = s.ndesc := rfl
@[simp] theorem State.setEarly_ctx : (s.setEarly x).ctx = s.ctx := rfl
@[simp] theorem State.setEarly_link : (s.setEarly x).link = s.link := rfl
@[simp] theorem State.setEarly_seq : (s.setEarly x).seq = s.seq := rfl
@[simp] theorem State.setEarly_bring : (s.setEarly x).bring = s.bring := rfl
@[simp] theorem State.setEarly_regs : (s.setEarly x).regs = s.regs := rfl
@[simp] theorem State.setEarly_coreFresh : (s.setEarly x).coreFresh = s.coreFresh := rfl
@[simp] theorem State.setEarly_handing : (s.setEarly x).handing = s.handing := rfl
@[simp] theorem State.setEarly_hw : (s.setEarly x).hw = s.hw := rfl
@[simp] theorem State.setEarly_mem : (s.setEarly x).mem = s.mem := rfl
@[simp] theorem State.setEarly_pend : (s.setEarly x).pend = s.pend := rfl
@[simp] theorem State.setEarly_early : (s.setEarly x).early = x := rfl
@[simp] theorem State.setEarly_env : (s.setEarly x).env = s.env := rfl
@[simp] theorem State.setEarly_out : (s.setEarly x).out = s.out := rfl
@[simp] theorem State.setEarly_calls : (s.setEarly x).calls = s.calls := rfl
end

section
variable (s : State) (x : Env)
@[simp] theorem State.setEnv_params : (s.setEnv x).params = s.params := rfl
@[simp] theorem State.setEnv_rx : (s.setEnv x).rx = s.rx := rfl
@[simp] theorem State.setEnv_tx : (s.setEnv x).tx = s.tx := rfl
@[simp] theorem State.setEnv_ndesc : (s.setEnv x).ndesc = s.ndesc := rfl
@[simp] theorem State.setEnv_ctx : (s.setEnv x).ctx = s.ctx := rfl
@[simp] theorem State.setEnv_link : (s.setEnv x).link = s.link := rfl
@[simp] theorem State.setEnv_seq : (s.setEnv x).seq = s.seq := rfl
@[simp] theorem State.setEnv_bring : (s.setEnv x).bring = s.bring := rfl
@[simp] theorem State.setEnv_regs : (s.setEnv x).regs = s.regs := rfl
@[simp] theorem State.setEnv_coreFresh : (s.setEnv x).coreFresh = s.coreFresh := rfl
@[simp] theorem State.setEnv_handing : (s.setEnv x).handing = s.handing := rfl
@[simp] theorem State.setEnv_hw : (s.setEnv x).hw = s.hw := rfl
@[simp] theorem State.setEnv_mem : (s.setEnv x).mem = s.mem := rfl
@[simp] theorem State.setEnv_pend : (s.setEnv x).pend = s.pend := rfl
@[simp] theorem State.setEnv_early : (s.setEnv x).early = s.early := rfl
@[simp] theorem State.setEnv_env : (s.setEnv x).env = x := rfl
@[simp] theorem State.setEnv_out : (s.setEnv x).out = s.out := rfl
@[simp] theorem State.setEnv_calls : (s.setEnv x).calls = s.calls := rfl
end

section
variable (s : State) (x : List Word)
@[simp] theorem State.setOut_params : (s.setOut x).params = s.params := rfl
@[simp] theorem State.setOut_rx : (s.setOut x).rx = s.rx := rfl
@[simp] theorem State.setOut_tx : (s.setOut x).tx = s.tx := rfl
@[simp] theorem State.setOut_ndesc : (s.setOut x).ndesc = s.ndesc := rfl
@[simp] theorem State.setOut_ctx : (s.setOut x).ctx = s.ctx := rfl
@[simp] theorem State.setOut_link : (s.setOut x).link = s.link := rfl
@[simp] theorem State.setOut_seq : (s.setOut x).seq = s.seq := rfl
@[simp] theorem State.setOut_bring : (s.setOut x).bring = s.bring := rfl
@[simp] theorem State.setOut_regs : (s.setOut x).regs = s.regs := rfl
@[simp] theorem State.setOut_coreFresh : (s.setOut x).coreFresh = s.coreFresh := rfl
@[simp] theorem State.setOut_handing : (s.setOut x).handing = s.handing := rfl
@[simp] theorem State.setOut_hw : (s.setOut x).hw = s.hw := rfl
@[simp] theorem State.setOut_mem : (s.setOut x).mem = s.mem := rfl
@[simp] theorem State.setOut_pend : (s.setOut x).pend = s.pend := rfl
@[simp] theorem State.setOut_early : (s.setOut x).early = s.early := rfl
@[simp] theorem State.setOut_env : (s.setOut x).env = s.env := rfl
@[simp] theorem State.setOut_out : (s.setOut x).out = x := rfl
@[simp] theorem State.setOut_calls : (s.setOut x).calls = s.calls := rfl
end

section
variable (s : State) (x : List Call)
@[simp] theorem State.setCalls_params : (s.setCalls x).params = s.params := rfl
@[simp] theorem State.setCalls_rx : (s.setCalls x).rx = s.rx := rfl
@[simp] theorem State.setCalls_tx : (s.setCalls x).tx = s.tx := rfl
@[simp] theorem State.setCalls_ndesc : (s.setCalls x).ndesc = s.ndesc := rfl
@[simp] theorem State.setCalls_ctx : (s.setCalls x).ctx = s.ctx := rfl
@[simp] theorem State.setCalls_link : (s.setCalls x).link = s.link := rfl
@[simp] theorem State.setCalls_seq : (s.setCalls x).seq = s.seq := rfl
@[simp] theorem State.setCalls_bring : (s.setCalls x).bring = s.bring := rfl
@[simp] theorem State.setCalls_regs : (s.setCalls x).regs = s.regs := rfl
@[simp] theorem State.setCalls_coreFresh : (s.setCalls x).coreFresh = s.coreFresh := rfl
@[simp] theorem State.setCalls_handing : (s.setCalls x).handing = s.handing := rfl
@[simp] theorem State.setCalls_hw : (s.setCalls x).hw = s.hw := rfl
@[simp] theorem State.setCalls_mem : (s.setCalls x).mem = s.mem := rfl
@[simp] theorem State.setCalls_pend : (s.setCalls x).pend = s.pend := rfl
@[simp] theorem State.setCalls_early : (s.setCalls x).early = s.early := rfl
@[simp] theorem State.setCalls_env : (s.setCalls x).env = s.env := rfl
@[simp] theorem State.setCalls_out : (s.setCalls x).out = s.out := rfl
@[simp] theorem State.setCalls_calls : (s.setCalls x).calls = x := rfl
end

section
variable (s : State) (r : Ring)
@[simp] theorem State.setRing_params (d : Dir) : (s.setRing d r).params = s.params := by cases d <;> rfl
@[simp] theorem State.setRing_ndesc (d : Dir) : (s.setRing d r).ndesc = s.ndesc := by cases d <;> rfl
@[simp] theorem State.setRing_ctx (d : Dir) : (s.setRing d r).ctx = s.ctx := by cases d <;> rfl
@[simp] theorem State.setRing_link (d : Dir) : (s.setRing d r).link = s.link := by cases d <;> rfl
@[simp] theorem State.setRing_seq (d : Dir) : (s.setRing d r).seq = s.seq := by cases d <;> rfl
@[simp] theorem State.setRing_bring (d : Dir) : (s.setRing d r).bring = s.bring := by cases d <;> rfl
@[simp] theorem State.setRing_regs (d : Dir) : (s.setRing d r).regs = s.regs := by cases d <;> rfl
@[simp] theorem State.setRing_coreFresh (d : Dir) : (s.setRing d r).coreFresh = s.coreFresh := by cases d <;> rfl
@[simp] theorem State.setRing_hw (d : Dir) : (s.setRing d r).hw = s.hw := by cases d <;> rfl
@[simp] theorem State.setRing_mem (d : Dir) : (s.setRing d r).mem = s.mem := by cases d <;> rfl
@[simp] theorem State.setRing_pend (d : Dir) : (s.setRing d r).pend = s.pend := by cases d <;> rfl
@[simp] theorem State.setRing_early (d : Dir) : (s.setRing d r).early = s.early := by cases d <;> rfl
@[simp] theorem State.setRing_env (d : Dir) : (s.setRing d r).env = s.env := by cases d <;> rfl
@[simp] theorem State.setRing_out (d : Dir) : (s.setRing d r).out = s.out := by cases d <;> rfl
@[simp] theorem State.setRing_calls (d : Dir) : (s.setRing d r).calls = s.calls := by cases d <;> rfl
@[simp] theorem State.setRing_rx_rx : (s.setRing .rx r).rx = r := rfl
@[simp] theorem State.setRing_rx_tx : (s.setRing .rx r).tx = s.tx := rfl
@[simp] theorem State.setRing_tx_tx : (s.setRing .tx r).tx = r := rfl
@[simp] theorem State.setRing_tx_rx : (s.setRing .tx r).rx = s.rx := rfl
@[simp] theorem State.ring_setRing (d : Dir) : (s.setRing d r).ring d = r := by cases d <;> rfl
@[simp] theorem State.ring_rx : s.ring .rx = s.rx := rfl
@[simp] theorem State.ring_tx : s.ring .tx = s.tx := rfl
end

end Sys2Proof.Machine
end

