-- ==== Sys2Proof/Laws/Memory.lean ====
section
/-!
SUPPORT. Laws/Memory.lean: every memory operation keeps the canonical form; a read after a write; what the two memory
primitives do to each other.
-/
namespace Sys2Proof.Machine

/-! ### The canonical form -/

theorem Memory.wf_nil : Memory.wf [] = true := rfl

theorem Memory.wf_cons {a : Nat} {b : Byte} {m : Memory} :
    Memory.wf ((a, b) :: m) = true ↔ b ≠ unlistedByte ∧ (∀ c ∈ m, a < c.1) ∧ Memory.wf m = true := by
  simp [Memory.wf, and_assoc]

theorem Memory.mem_write {a : Nat} {b : Byte} {m : Memory} {c : Host.Cell} (h : c ∈ Memory.write a b m) :
    c = (a, b) ∨ c ∈ m := by
  induction m with
  | nil =>
    unfold Memory.write at h
    split at h <;> simp_all
  | cons hd tl ih =>
    obtain ⟨k, v⟩ := hd
    unfold Memory.write at h
    split at h
    · split at h <;> simp_all
    · split at h
      · split at h
        · exact .inr (List.mem_cons_of_mem _ h)
        · rcases List.mem_cons.1 h with h | h
          · exact .inl h
          · exact .inr (List.mem_cons_of_mem _ h)
      · simp only [List.mem_cons] at h ⊢
        rcases h with h | h
        · exact .inr (.inl h)
        · rcases ih h with h | h
          · exact .inl h
          · exact .inr (.inr h)

/-- A write keeps the canonical form. -/
theorem Memory.wf_write (a : Nat) (b : Byte) {m : Memory} (h : Memory.wf m = true) :
    Memory.wf (Memory.write a b m) = true := by
  induction m with
  | nil =>
    unfold Memory.write
    split
    · rfl
    · next hb => exact Memory.wf_cons.2 ⟨hb, by simp, rfl⟩
  | cons hd tl ih =>
    obtain ⟨k, v⟩ := hd
    obtain ⟨hv, hk, hw⟩ := Memory.wf_cons.1 h
    unfold Memory.write
    split
    · next hak =>
      split
      · exact h
      · next hb =>
        refine Memory.wf_cons.2 ⟨hb, ?_, h⟩
        intro c hc
        rcases List.mem_cons.1 hc with rfl | hc
        · exact hak
        · exact Nat.lt_trans hak (hk c hc)
    · split
      · next hak =>
        subst hak
        split
        · exact hw
        · next hb => exact Memory.wf_cons.2 ⟨hb, hk, hw⟩
      · next h1 h2 =>
        refine Memory.wf_cons.2 ⟨hv, ?_, ih hw⟩
        intro c hc
        rcases Memory.mem_write hc with rfl | hc
        · exact Nat.lt_of_le_of_ne (Nat.le_of_not_lt h1) (fun e => h2 e.symm)
        · exact hk c hc

theorem Memory.wf_writeBytes (a : Nat) (bs : List Byte) {m : Memory} (h : Memory.wf m = true) :
    Memory.wf (Memory.writeBytes a bs m) = true := by
  induction bs generalizing a m with
  | nil => exact h
  | cons b bs ih => exact ih (a + 1) (Memory.wf_write a b h)

theorem wf_memWrite (e : Endian) (a n v : Nat) {m : Memory} (h : Memory.wf m = true) :
    Memory.wf (memWrite e m a n v) = true := Memory.wf_writeBytes _ _ h

theorem wf_performOne (w : PendWrite) {m : Memory} (h : Memory.wf m = true) :
    Memory.wf (performOne m w) = true := Memory.wf_writeBytes _ _ h

theorem wf_performAll (ws : List PendWrite) {m : Memory} (h : Memory.wf m = true) :
    Memory.wf (performAll m ws) = true := by
  induction ws generalizing m with
  | nil => exact h
  | cons w ws ih => exact ih (wf_performOne w h)

/-- Memory after reset lists nothing and so is in the canonical form. -/
theorem wf_reset : Memory.wf State.reset.mem = true := rfl

/-! ### Reading one byte -/

theorem Memory.read_unlisted {a : Nat} {m : Memory} (h : ∀ c ∈ m, a < c.1) : Memory.read a m = unlistedByte := by
  induction m with
  | nil => rfl
  | cons hd tl ih =>
    obtain ⟨k, v⟩ := hd
    have hk : a < k := h (k, v) (by simp)
    simp only [Memory.read, Nat.ne_of_lt hk, if_false]
    exact ih fun c hc => h c (by simp [hc])

/-- The byte just written, and every other byte as it was. -/
theorem Memory.read_write (a k : Nat) (b : Byte) {m : Memory} (h : Memory.wf m = true) :
    Memory.read k (Memory.write a b m) = if k = a then b else Memory.read k m := by
  induction m with
  | nil =>
    by_cases hb : b = unlistedByte <;> by_cases hk : k = a <;> simp_all [Memory.write, Memory.read]
  | cons hd tl ih =>
    obtain ⟨j, v⟩ := hd
    obtain ⟨-, hj, hw⟩ := Memory.wf_cons.1 h
    have hun : ∀ {x}, x ≤ j → Memory.read x tl = unlistedByte := fun hx =>
      Memory.read_unlisted fun c hc => Nat.lt_of_le_of_lt hx (hj c hc)
    unfold Memory.write
    split
    · next haj =>
      by_cases hk : k = a
      · subst hk
        by_cases hb : b = unlistedByte
        · simp [hb, Memory.read, Nat.ne_of_lt haj, hun (Nat.le_of_lt haj)]
        · simp [hb, Memory.read]
      · by_cases hb : b = unlistedByte <;> simp [hb, Memory.read, hk]
    · split
      · next haj =>
        subst haj
        by_cases hk : k = a
        · subst hk
          by_cases hb : b = unlistedByte
          · simp [hb, hun (Nat.le_refl k)]
          · simp [hb, Memory.read]
        · by_cases hb : b = unlistedByte <;> simp [hb, Memory.read, hk]
      · next haj haj' =>
        by_cases hkj : k = j
        · subst hkj
          have : k ≠ a := fun e => haj' e.symm
          simp [Memory.read, this]
        · simp [Memory.read, hkj, ih hw]

/-- A run of bytes just written, and every other byte as it was. -/
theorem Memory.read_writeBytes (a k : Nat) (bs : List Byte) {m : Memory} (h : Memory.wf m = true) :
    Memory.read k (Memory.writeBytes a bs m) =
      if a ≤ k ∧ k < a + bs.length then bs.getD (k - a) 0 else Memory.read k m := by
  induction bs generalizing a m with
  | nil =>
    have : ¬(a ≤ k ∧ k < a + 0) := by omega
    simp only [Memory.writeBytes, List.length_nil, this, if_false]
  | cons b bs ih =>
    rw [Memory.writeBytes, ih (a + 1) (Memory.wf_write a b h), Memory.read_write a k b h]
    by_cases h1 : k = a
    · subst h1
      simp
    · by_cases h2 : a + 1 ≤ k ∧ k < a + 1 + bs.length
      · have h3 : a ≤ k ∧ k < a + (b :: bs).length := by simp only [List.length_cons]; omega
        obtain ⟨d, rfl⟩ : ∃ d, k = a + 1 + d := ⟨k - (a + 1), by omega⟩
        have e1 : a + 1 + d - (a + 1) = d := by omega
        have e2 : a + 1 + d - a = d + 1 := by omega
        rw [if_pos h2, if_pos h3, e1, e2, List.getD_cons_succ]
      · have h3 : ¬(a ≤ k ∧ k < a + (b :: bs).length) := by simp only [List.length_cons]; omega
        rw [if_neg h2, if_neg h3, if_neg h1]

theorem Memory.read_writeBytes_of_outside {a k : Nat} {bs : List Byte} {m : Memory} (h : Memory.wf m = true)
    (hk : k < a ∨ a + bs.length ≤ k) : Memory.read k (Memory.writeBytes a bs m) = Memory.read k m := by
  rw [Memory.read_writeBytes a k bs h, if_neg (by omega)]

/-! ### Reading a run of bytes -/

@[simp] theorem Memory.length_readBytes (a n : Nat) (m : Memory) : (Memory.readBytes a n m).length = n := by
  simp [Memory.readBytes]

theorem Memory.readBytes_writeBytes (a : Nat) (bs : List Byte) {m : Memory} (h : Memory.wf m = true) :
    Memory.readBytes a bs.length (Memory.writeBytes a bs m) = bs := by
  apply List.ext_getElem
  · simp
  · intro k h1 h2
    simp only [Memory.readBytes, List.getElem_map, List.getElem_range]
    rw [Memory.read_writeBytes a (a + k) bs h, if_pos (by omega), Nat.add_sub_cancel_left]
    simp [h2]

theorem Memory.readBytes_congr {a n : Nat} {m m' : Memory}
    (h : ∀ k, a ≤ k → k < a + n → Memory.read k m' = Memory.read k m) :
    Memory.readBytes a n m' = Memory.readBytes a n m := by
  unfold Memory.readBytes
  apply List.map_congr_left
  intro k hk
  have := List.mem_range.1 hk
  exact h (a + k) (by omega) (by omega)

theorem Memory.readBytes_writeBytes_of_disjoint {a b n : Nat} {bs : List Byte} {m : Memory}
    (h : Memory.wf m = true) (hd : b + n ≤ a ∨ a + bs.length ≤ b) :
    Memory.readBytes b n (Memory.writeBytes a bs m) = Memory.readBytes b n m :=
  Memory.readBytes_congr fun k h1 h2 => Memory.read_writeBytes_of_outside h (by omega)

/-! ### Values and bytes (20_memory R62) -/

@[simp] theorem length_bytesLE (n v : Nat) : (bytesLE n v).length = n := by simp [bytesLE]
@[simp] theorem length_toBytes (e : Endian) (n v : Nat) : (toBytes e n v).length = n := by
  cases e <;> simp [toBytes]

theorem valueLE_bytesLE (n v : Nat) : valueLE (bytesLE n v) = v % 2 ^ (8 * n) := by
  induction n generalizing v with
  | zero => simp [bytesLE, valueLE, Nat.mod_one]
  | succ n ih =>
    have hs : bytesLE (n + 1) v = BitVec.ofNat 8 v :: bytesLE n (v / 2 ^ 8) := by
      unfold bytesLE
      rw [List.range_succ_eq_map, List.map_cons, List.map_map]
      congr 1
      · simp
      · apply List.map_congr_left
        intro k _
        simp only [Function.comp_apply]
        rw [Nat.div_div_eq_div_mul, ← pow_add]
        congr 3
        omega
    rw [hs, valueLE, ih, BitVec.toNat_ofNat]
    have : 2 ^ (8 * (n + 1)) = 2 ^ 8 * 2 ^ (8 * n) := by rw [← pow_add]; congr 1; omega
    rw [this, Nat.mod_mul]
    norm_num

theorem ofBytes_toBytes (e : Endian) {n v : Nat} (h : v < 2 ^ (8 * n)) : ofBytes e (toBytes e n v) = v := by
  cases e <;> simp [ofBytes, toBytes, valueLE_bytesLE, Nat.mod_eq_of_lt h]

/-- Reading back what was written at the same place. -/
theorem memRead_memWrite (e : Endian) (a n v : Nat) {m : Memory} (h : Memory.wf m = true) (hv : v < 2 ^ (8 * n)) :
    memRead e (memWrite e m a n v) a n = v := by
  have := Memory.readBytes_writeBytes a (toBytes e n v) h
  rw [length_toBytes] at this
  rw [memRead, memWrite, this, ofBytes_toBytes e hv]

/-- A write elsewhere leaves what is read. -/
theorem memRead_memWrite_of_disjoint (e : Endian) {a n v b k : Nat} {m : Memory} (h : Memory.wf m = true)
    (hd : b + k ≤ a ∨ a + n ≤ b) : memRead e (memWrite e m a n v) b k = memRead e m b k := by
  rw [memRead, memWrite, Memory.readBytes_writeBytes_of_disjoint h (by rwa [length_toBytes]), memRead]

/-- A write issued last takes effect last. -/
theorem performAll_append (ws : List PendWrite) (w : PendWrite) (m : Memory) :
    performAll m (ws ++ [w]) = performOne (performAll m ws) w := by
  simp [performAll, List.foldl_append]

/-! ### Bytes of which some are any value -/

@[simp] theorem blur_length (f : Nat → Bool) (k a : Nat) (bs : List Byte) : (blur f k a bs).length = bs.length := by
  simp [blur]

/-- A byte the host may rely on is the byte written. -/
theorem blur_getElem? {f : Nat → Bool} {k a i : Nat} {bs : List Byte} (h : f (a + i) = false) :
    (blur f k a bs)[i]? = bs[i]? := by
  simp [blur, List.getElem?_mapIdx, h]

/-- Where the host may rely on every byte, all are the bytes written. -/
theorem blur_none {f : Nat → Bool} {k a : Nat} {bs : List Byte} (h : ∀ i, i < bs.length → f (a + i) = false) :
    blur f k a bs = bs := by
  refine List.ext_getElem? fun i => ?_
  by_cases hi : i < bs.length
  · exact blur_getElem? (h i hi)
  · rw [List.getElem?_eq_none (by simpa using Nat.le_of_not_lt hi), List.getElem?_eq_none (Nat.le_of_not_lt hi)]

end Sys2Proof.Machine
end

