-- ==== Sys2Proof/Laws/Op.lean ====
section
/-!
SUPPORT. Laws/Op.lean: how a piece of an operation runs, and the two judgements every law about one is stated in: what
holds where it ends (`Ensures`), and that it ends (`Runs`).
-/
namespace Sys2Proof.Machine

variable {α β : Type}

@[simp] theorem run_pure (a : α) (s : State) : (pure a : Op α) s = .ok (a, s) := rfl
@[simp] theorem run_here (s : State) : here s = .ok (s, s) := rfl
@[simp] theorem run_upd (f : State → State) (s : State) : upd f s = .ok ((), f s) := rfl
@[simp] theorem run_spoil (r : Fault) (s : State) : (spoil r : Op α) s = .error (.fault r) := rfl
@[simp] theorem run_refuse (r : Refusal) (s : State) : (refuse r : Op α) s = .error (.refused r) := rfl

theorem run_bind (x : Op α) (f : α → Op β) (s : State) :
    (x >>= f) s = match x s with | .ok (a, t) => f a t | .error e => .error e := by
  show (x s >>= fun p => f p.1 p.2) = _
  cases x s <;> rfl

theorem run_bind_ok {x : Op α} {f : α → Op β} {s t : State} {a : α} (h : x s = .ok (a, t)) :
    (x >>= f) s = f a t := by rw [run_bind, h]

theorem run_bind_error {x : Op α} {f : α → Op β} {s : State} {e : Stop} (h : x s = .error e) :
    (x >>= f) s = .error e := by rw [run_bind, h]

@[simp] theorem run_here_bind (f : State → Op β) (s : State) : (here >>= f) s = f s s := rfl
@[simp] theorem run_upd_bind (g : State → State) (f : Unit → Op β) (s : State) : (upd g >>= f) s = f () (g s) := rfl
@[simp] theorem run_pure_bind (a : α) (f : α → Op β) (s : State) : ((pure a : Op α) >>= f) s = f a s := rfl

theorem run_map (g : α → β) (x : Op α) (s : State) :
    (g <$> x) s = match x s with | .ok (a, t) => .ok (g a, t) | .error e => .error e := by
  rw [← bind_pure_comp, run_bind]
  rfl

@[simp] theorem run_upd_map (g : Unit → β) (f : State → State) (s : State) : (g <$> upd f) s = .ok (g (), f s) := rfl

/-- A sequence that ends: its first part ended, and then its second. -/
theorem bind_ok {x : Op α} {f : α → Op β} {s u : State} {b : β} (h : (x >>= f) s = .ok (b, u)) :
    ∃ a t, x s = .ok (a, t) ∧ f a t = .ok (b, u) := by
  rw [run_bind] at h
  cases hx : x s with
  | error e => rw [hx] at h; cases h
  | ok p => rw [hx] at h; exact ⟨p.1, p.2, rfl, h⟩

theorem require_ok {c : Bool} {r : Refusal} {s t : State} {u : Unit} (h : require c r s = .ok (u, t)) :
    c = true ∧ t = s := by
  cases c <;> simp [require] at h ⊢
  exact h.symm

theorem sound_ok {c : Bool} {r : Fault} {s t : State} {u : Unit} (h : sound c r s = .ok (u, t)) :
    c = true ∧ t = s := by
  cases c <;> simp [sound] at h ⊢
  exact h.symm

@[simp] theorem require_true (r : Refusal) (s : State) : require true r s = .ok ((), s) := rfl
@[simp] theorem sound_true (r : Fault) (s : State) : sound true r s = .ok ((), s) := rfl

/-- The outcome is a next state exactly where the work ends. -/
theorem outcome_next {x : Op α} {s t : State} : outcome x s = .next t ↔ ∃ a, x s = .ok (a, t) := by
  unfold outcome
  cases h : x s with
  | error e => cases e <;> simp
  | ok p => simp [Prod.ext_iff]

/-! ### What holds where a piece of work ends -/

/-- From `P`, wherever `x` ends, `Q` holds of its value and of the state. -/
def Ensures (P : State → Prop) (x : Op α) (Q : α → State → Prop) : Prop :=
  ∀ s a t, P s → x s = .ok (a, t) → Q a t

variable {P P' : State → Prop} {Q Q' : α → State → Prop} {R : β → State → Prop}

theorem Ensures.weaken {x : Op α} (h : Ensures P x Q) (hp : ∀ s, P' s → P s) (hq : ∀ a s, Q a s → Q' a s) :
    Ensures P' x Q' := fun s a t hs hx => hq a t (h s a t (hp s hs) hx)

theorem Ensures.post {x : Op α} (h : Ensures P x Q) (hq : ∀ a s, Q a s → Q' a s) : Ensures P x Q' :=
  fun s a t hs hx => hq a t (h s a t hs hx)

theorem Ensures.pre {x : Op α} (h : Ensures P x Q) (hp : ∀ s, P' s → P s) : Ensures P' x Q :=
  fun s a t hs hx => h s a t (hp s hs) hx

theorem Ensures.bind {x : Op α} {f : α → Op β} (hx : Ensures P x Q) (hf : ∀ a, Ensures (Q a) (f a) R) :
    Ensures P (x >>= f) R := by
  intro s b u hs h
  obtain ⟨a, t, h₁, h₂⟩ := bind_ok h
  exact hf a t b u (hx s a t hs h₁) h₂

theorem Ensures.pure {a : α} (h : ∀ s, P s → Q a s) : Ensures P (Pure.pure a : Op α) Q := by
  rintro s b t hs ⟨⟩
  exact h s hs

theorem Ensures.upd {f : State → State} {Q : Unit → State → Prop} (h : ∀ s, P s → Q () (f s)) :
    Ensures P (upd f) Q := by
  rintro s b t hs ⟨⟩
  exact h s hs

/-- Reading the state: what follows may be checked for each state it may be. -/
theorem Ensures.here {f : State → Op β} (h : ∀ s, P s → Ensures (· = s) (f s) R) : Ensures P (here >>= f) R :=
  fun s b u hs hx => h s hs s b u rfl hx

theorem Ensures.require {c : Bool} {r : Refusal} : Ensures P (require c r) (fun _ s => P s ∧ c = true) := by
  intro s u t hs h
  obtain ⟨hc, rfl⟩ := require_ok h
  exact ⟨hs, hc⟩

theorem Ensures.sound {c : Bool} {r : Fault} : Ensures P (sound c r) (fun _ s => P s ∧ c = true) := by
  intro s u t hs h
  obtain ⟨hc, rfl⟩ := sound_ok h
  exact ⟨hs, hc⟩

theorem Ensures.refuse {r : Refusal} : Ensures P (refuse r : Op α) Q := by intro s a t _ h; cases h
theorem Ensures.spoil {r : Fault} : Ensures P (spoil r : Op α) Q := by intro s a t _ h; cases h

theorem Ensures.ite {c : Prop} [Decidable c] {x y : Op α} (hx : c → Ensures P x Q) (hy : ¬c → Ensures P y Q) :
    Ensures P (if c then x else y) Q := by
  split
  · next h => exact hx h
  · next h => exact hy h

/-- `x` keeps `P`. -/
abbrev Keeps (P : State → Prop) (x : Op α) : Prop := Ensures P x (fun _ => P)

theorem Keeps.pure {a : α} : Keeps P (Pure.pure a : Op α) := Ensures.pure fun _ h => h
theorem Keeps.here : Keeps P here := by rintro s a t hs ⟨⟩; exact hs
theorem Keeps.upd {f : State → State} (h : ∀ s, P s → P (f s)) : Keeps P (upd f) := Ensures.upd h
theorem Keeps.refuse {r : Refusal} : Keeps P (refuse r : Op α) := Ensures.refuse
theorem Keeps.spoil {r : Fault} : Keeps P (spoil r : Op α) := Ensures.spoil
theorem Keeps.require {c : Bool} {r : Refusal} : Keeps P (require c r) := Ensures.require.post fun _ _ h => h.1
theorem Keeps.sound {c : Bool} {r : Fault} : Keeps P (sound c r) := Ensures.sound.post fun _ _ h => h.1
theorem Keeps.bind {x : Op α} {f : α → Op β} (hx : Keeps P x) (hf : ∀ a, Keeps P (f a)) : Keeps P (x >>= f) :=
  Ensures.bind hx hf
theorem Keeps.ite {c : Prop} [Decidable c] {x y : Op α} (hx : Keeps P x) (hy : Keeps P y) :
    Keeps P (if c then x else y) := by split <;> assumption

/-- `x` leaves a part of the state as it is. -/
def Leaves {γ : Type} (F : State → γ) (x : Op α) : Prop := ∀ s a t, x s = .ok (a, t) → F t = F s

section
variable {γ : Type} {F : State → γ}

theorem Leaves.keeps {x : Op α} (h : Leaves F x) (P : γ → Prop) : Keeps (fun s => P (F s)) x := by
  intro s a t hs hx
  simpa only [h s a t hx] using hs

theorem Leaves.pure {a : α} : Leaves F (Pure.pure a : Op α) := by rintro s b t ⟨⟩; rfl
theorem Leaves.here : Leaves F here := by rintro s b t ⟨⟩; rfl
theorem Leaves.upd {f : State → State} (h : ∀ s, F (f s) = F s) : Leaves F (upd f) := by
  rintro s b t ⟨⟩; exact h s
theorem Leaves.refuse {r : Refusal} : Leaves F (refuse r : Op α) := by intro s a t h; cases h
theorem Leaves.spoil {r : Fault} : Leaves F (spoil r : Op α) := by intro s a t h; cases h
theorem Leaves.require {c : Bool} {r : Refusal} : Leaves F (require c r) := by
  intro s u t h; rw [(require_ok h).2]
theorem Leaves.sound {c : Bool} {r : Fault} : Leaves F (sound c r) := by
  intro s u t h; rw [(sound_ok h).2]
theorem Leaves.bind {x : Op α} {f : α → Op β} (hx : Leaves F x) (hf : ∀ a, Leaves F (f a)) : Leaves F (x >>= f) := by
  intro s b u h
  obtain ⟨a, t, h₁, h₂⟩ := bind_ok h
  rw [hf a t b u h₂, hx s a t h₁]
theorem Leaves.ite {c : Prop} [Decidable c] {x y : Op α} (hx : Leaves F x) (hy : Leaves F y) :
    Leaves F (if c then x else y) := by split <;> assumption
end

/-! ### That a piece of work ends -/

/-- From `P`, `x` ends, and `Q` holds of its value and of the state. -/
def Runs (P : State → Prop) (x : Op α) (Q : α → State → Prop) : Prop :=
  ∀ s, P s → ∃ a t, x s = .ok (a, t) ∧ Q a t

theorem Runs.bind {x : Op α} {f : α → Op β} (hx : Runs P x Q) (hf : ∀ a, Runs (Q a) (f a) R) :
    Runs P (x >>= f) R := by
  intro s hs
  obtain ⟨a, t, h₁, ht⟩ := hx s hs
  obtain ⟨b, u, h₂, hu⟩ := hf a t ht
  exact ⟨b, u, by rw [run_bind_ok h₁, h₂], hu⟩

theorem Runs.pure {a : α} (h : ∀ s, P s → Q a s) : Runs P (Pure.pure a : Op α) Q := fun s hs => ⟨a, s, rfl, h s hs⟩

theorem Runs.upd {f : State → State} {Q : Unit → State → Prop} (h : ∀ s, P s → Q () (f s)) :
    Runs P (upd f) Q := fun s hs => ⟨(), f s, rfl, h s hs⟩

theorem Runs.here {f : State → Op β} (h : ∀ s, P s → Runs (· = s) (f s) R) : Runs P (here >>= f) R :=
  fun s hs => h s hs s rfl

theorem Runs.post {x : Op α} (h : Runs P x Q) (hq : ∀ a s, Q a s → Q' a s) : Runs P x Q' := by
  intro s hs
  obtain ⟨a, t, hx, ht⟩ := h s hs
  exact ⟨a, t, hx, hq a t ht⟩

end Sys2Proof.Machine
end

