-- ==== Sys2Proof/Laws/Env.lean ====
section
/-!
SUPPORT. Laws/Env.lean: what H, the memory system and the host can do between two events of C, said once (`Gapped`): a
property that their single updates keep is kept by the whole gap. What C owns (`State.owned`), memory's canonical form and the
width of EVENT are such properties; without a schedule nothing happens.
-/
namespace Sys2Proof.Machine

/-- Bits that EVENT has, whatever the parameters (30_encoding R99, R100). -/
def EventBits (bit : Params → Events) : Prop := ∀ p : Params, p.wf = true → bit p < 2 ^ p.evWidth

/-- The event bits served lie within the register's width. -/
theorem evBit_lt {bit : Params → Events} (h : bit = evRxf ∨ bit = evTxf ∨ bit = evBerr) : EventBits bit := by
  intro p hp
  simp only [Params.wf, Params.evBits, List.all_cons, List.all_nil, Bool.and_eq_true, decide_eq_true_eq] at hp
  obtain ⟨h1, h2, h3, -⟩ := hp.1.1.2
  rcases h with rfl | rfl | rfl
  · exact Nat.pow_lt_pow_right (by omega) h2
  · exact Nat.pow_lt_pow_right (by omega) h1
  · exact Nat.pow_lt_pow_right (by omega) h3

theorem clearBits_lt {e m n : Nat} (h : e < 2 ^ n) : clearBits e m < 2 ^ n :=
  Nat.xor_lt_two_pow h (Nat.lt_of_le_of_lt Nat.and_le_left h)

/-- So do the bits that are not served, -/
theorem otherEvents_lt (m : Events) : EventBits fun p => otherEvents p m :=
  fun _ _ => clearBits_lt (Nat.mod_lt _ (Nat.two_pow_pos _))

/-- none of which is in EV_ALL. -/
theorem otherEvents_apart (p : Params) (m : Events) : otherEvents p m &&& evAll p = 0 := by
  refine Nat.eq_of_testBit_eq fun i => ?_
  simp only [otherEvents, clearBits, Nat.testBit_and, Nat.testBit_xor, Nat.zero_testBit]
  cases Nat.testBit (evAll p) i <;> simp

/-- A property of states that everything done between two events of C keeps: updates of H's registers, of the environment but
for its inputs, event bits set, a path disabled, bytes written, issued writes taken away, early reads taken away or added. -/
structure Gapped (P : State → Prop) : Prop where
  hw    : ∀ s x, P s → P (s.setHw x)
  env   : ∀ s x, x.inputs = s.env.inputs → P s → P (s.setEnv x)
  event : ∀ s (bit : Params → Events), EventBits bit → P s →
    P (s.setRegs { s.regs with event := s.regs.event ||| bit s.params })
  rxOff : ∀ s, P s → P (s.setRegs { s.regs with rxEn := false })
  txOff : ∀ s, P s → P (s.setRegs { s.regs with txEn := false })
  bytes : ∀ s a bs, P s → P (s.setMem (Memory.writeBytes a bs s.mem))
  pend  : ∀ s x, (∀ w ∈ x, w ∈ s.pend) → P s → P (s.setPend x)
  early : ∀ s x, P s → P (s.setEarly x)

namespace Gapped

variable {P : State → Prop}

/-! ### Each step of H -/

theorem hSlot (d : Dir) : Keeps P (hSlot d) := by
  refine Keeps.bind Keeps.here fun s => ?_
  cases hwSlot s d
  · exact Keeps.spoil
  · exact Keeps.pure

theorem hRead (a : Nat) (f : Field) : Keeps P (hRead a f) := Keeps.bind Keeps.here fun _ => Keeps.pure

theorem hOwns (d : Dir) (a : Nat) : Keeps P (hOwns d a) :=
  Keeps.bind Keeps.here fun _ => Keeps.bind (hRead _ _) fun _ => Keeps.sound

variable (h : Gapped P)

include h

theorem hWrite (a : Nat) (f : Field) (v : Nat) : Keeps P (hWrite a f v) := Keeps.upd fun s hs => h.bytes s _ _ hs

theorem setSample (d : Dir) (x : Option Half) : Keeps P (setSample d x) := by
  cases d <;> exact Keeps.upd fun s hs => h.hw s _ hs

theorem hAdvance (d : Dir) (w : Half) : Keeps P (hAdvance d w) := by
  cases d <;> exact Keeps.upd fun s hs => h.hw s _ hs

theorem hEvent {bit : Params → Events} (hb : EventBits bit) : Keeps P (hEvent bit) :=
  Keeps.upd fun s hs => h.event s bit hb hs

theorem sampleStep (d : Dir) : Keeps P (sampleStep d) :=
  Keeps.bind (hSlot d) fun _ => Keeps.bind (hRead _ .stat) fun _ => h.setSample d _

theorem drawFrame (n k : Nat) : Keeps P (drawFrame n k) :=
  Keeps.bind Keeps.here fun _ => Keeps.bind (Keeps.upd fun s hs => h.env s _ rfl hs) fun _ => Keeps.pure

theorem rxDoneStep (l f : Half) : Keeps P (rxDoneStep l f) := by
  refine Keeps.bind Keeps.here fun s => ?_
  cases s.hw.rxSample with
  | none => exact Keeps.pure
  | some w =>
    exact Keeps.bind (hSlot _) fun _ => Keeps.bind (hOwns _ _) fun _ => Keeps.bind (hRead _ _) fun _ =>
      Keeps.bind (h.drawFrame _ _) fun _ => Keeps.bind Keeps.sound fun _ => Keeps.bind (Keeps.upd fun s hs => h.bytes s _ _ hs)
      fun _ => Keeps.bind (h.hWrite _ _ _) fun _ => Keeps.bind (h.hWrite _ _ _) fun _ => Keeps.bind (h.hAdvance _ _) fun _ =>
      h.hEvent (evBit_lt (.inl rfl))

theorem txDoneStep : Keeps P txDoneStep := by
  refine Keeps.bind Keeps.here fun s => ?_
  cases s.hw.txSample with
  | none => exact Keeps.pure
  | some w =>
    exact Keeps.bind (hSlot _) fun _ => Keeps.bind (hOwns _ _) fun _ => Keeps.bind (hRead _ _) fun _ =>
      Keeps.bind (hRead _ _) fun _ => Keeps.bind Keeps.sound fun _ => Keeps.bind (h.hWrite _ _ _) fun _ =>
      Keeps.bind (h.hAdvance _ _) fun _ => Keeps.ite (h.hEvent (evBit_lt (.inr (.inl rfl)))) Keeps.pure

theorem stallStep (d : Dir) : Keeps P (stallStep d) := by
  cases d
  · exact Keeps.bind (Keeps.upd fun s hs => h.rxOff s hs) fun _ => h.setSample _ _
  · exact Keeps.bind (Keeps.upd fun s hs => h.txOff s hs) fun _ => h.setSample _ _

theorem busErrorStep : Keeps P busErrorStep := h.hEvent (evBit_lt (.inr (.inr rfl)))

theorem otherEventsStep (m : Events) : Keeps P (otherEventsStep m) := h.hEvent (otherEvents_lt m)

theorem freshDraw : Keeps P freshDraw :=
  Keeps.bind Keeps.here fun _ => Keeps.bind (Keeps.upd fun s hs => h.env s _ rfl hs) fun _ => Keeps.pure

theorem hostAct (a : HostAct) : Keeps P (hostAct a) := by
  cases a
  · exact Keeps.bind Keeps.here fun _ => Keeps.bind Keeps.sound fun _ => Keeps.bind h.freshDraw fun _ =>
      Keeps.upd fun s hs => h.bytes s _ _ hs
  · exact Keeps.spoil

/-! ### The memory system -/

/-- Issued writes take effect. -/
theorem performs (ws : List PendWrite) (s : State) (hs : P s) : P (s.setMem (performAll s.mem ws)) := by
  induction ws generalizing s with
  | nil => exact hs
  | cons w ws ih => exact ih (s.setMem (performOne s.mem w)) (h.bytes s _ _ hs)

theorem performNth (k : Nat) (s : State) (hs : P s) : P (performNth k s) := by
  unfold Machine.performNth
  split
  · exact hs
  · split
    · exact hs
    · exact h.pend _ _ (fun w hw => List.mem_of_mem_eraseIdx hw) (h.bytes s _ _ hs)

theorem prefetchAt (a n : Nat) (s : State) (hs : P s) : P (prefetchAt a n s) := by
  unfold Machine.prefetchAt
  split
  · exact hs
  · exact h.early s _ hs

/-- A barrier's effect is more of the same. -/
theorem flush (s : State) (hs : P s) : P (flush s) := h.early _ _ (h.pend _ _ nofun (h.performs _ s hs))

theorem issueRead (a n : Nat) : Keeps P (issueRead a n) :=
  Keeps.bind (Keeps.upd fun s hs => h.pend _ _ (fun _ hw => List.mem_of_mem_filter hw) (h.performs _ s hs)) fun _ =>
    Keeps.bind Keeps.here fun _ =>
    Keeps.bind (Keeps.upd fun s hs => h.early s _ hs) fun _ => Keeps.pure

/-! ### Between two events of C -/

omit h in
theorem takeIf (c : State → Bool) {x : Op Unit} (hx : Keeps P x) : Keeps P (takeIf c x) :=
  Keeps.bind Keeps.here fun _ => Keeps.ite hx Keeps.pure

theorem envStep (e : EnvStep) : Keeps P (envStep e) := by
  cases e with
  | rxSample => exact takeIf _ (h.sampleStep _)
  | rxDone l f => exact takeIf _ (h.rxDoneStep l f)
  | rxStall => exact takeIf _ (h.stallStep _)
  | txSample => exact takeIf _ (h.sampleStep _)
  | txDone => exact takeIf _ h.txDoneStep
  | txStall => exact takeIf _ (h.stallStep _)
  | busError => exact takeIf _ h.busErrorStep
  | perform k => exact Keeps.upd (h.performNth k)
  | prefetch a n => exact Keeps.upd (h.prefetchAt a n)
  | host a => exact h.hostAct a
  | otherEvents m => exact h.otherEventsStep m

theorem envSteps (es : List EnvStep) : Keeps P (envSteps es) := by
  induction es with
  | nil => exact Keeps.pure
  | cons e es ih => exact Keeps.bind (h.envStep e) fun _ => ih

theorem tick : Keeps P tick := by
  refine Keeps.bind Keeps.here fun s => ?_
  cases s.env.sched with
  | nil => exact Keeps.pure
  | cons es rest => exact Keeps.bind (Keeps.upd fun s hs => h.env s _ rfl hs) fun _ => h.envSteps es

end Gapped

/-! ### What C owns -/

theorem gapped_owned (o : Owned) : Gapped fun s => s.owned = o where
  hw _ _ h := h
  env s x hx h := by
    rw [← h]
    simp [State.owned, State.setEnv, State.priv, hx]
  event _ _ _ h := h
  rxOff _ h := h
  txOff _ h := h
  bytes _ _ _ h := h
  pend _ _ _ h := h
  early _ _ h := h

/-- What keeps every value of a part of the state leaves it. -/
theorem Leaves.of_keeps {α γ : Type} {F : State → γ} {x : Op α} (h : ∀ c, Keeps (fun s => F s = c) x) : Leaves F x :=
  fun s a t ht => h (F s) s a t rfl ht

theorem setSample_owned (d : Dir) (x : Option Half) : Leaves State.owned (setSample d x) :=
  .of_keeps fun o => (gapped_owned o).setSample d x
theorem sampleStep_owned (d : Dir) : Leaves State.owned (sampleStep d) := .of_keeps fun o => (gapped_owned o).sampleStep d
theorem rxDoneStep_owned (l f : Half) : Leaves State.owned (rxDoneStep l f) :=
  .of_keeps fun o => (gapped_owned o).rxDoneStep l f
theorem txDoneStep_owned : Leaves State.owned txDoneStep := .of_keeps fun o => (gapped_owned o).txDoneStep
theorem stallStep_owned (d : Dir) : Leaves State.owned (stallStep d) := .of_keeps fun o => (gapped_owned o).stallStep d
theorem busErrorStep_owned : Leaves State.owned busErrorStep := .of_keeps fun o => (gapped_owned o).busErrorStep
theorem freshDraw_owned : Leaves State.owned freshDraw := .of_keeps fun o => (gapped_owned o).freshDraw
theorem hostAct_owned (a : HostAct) : Leaves State.owned (hostAct a) := .of_keeps fun o => (gapped_owned o).hostAct a

/-- Whatever happens between two events of C leaves what C owns. -/
theorem tick_owned : Leaves State.owned tick := .of_keeps fun o => (gapped_owned o).tick

/-- Without a schedule nothing happens between two events of C. -/
theorem tick_quiet {s : State} (h : s.quiet) : tick s = .ok ((), s) := by
  simp [tick, h.1]

/-! ### Memory stays in its canonical form -/

/-- Memory is in its canonical form. -/
abbrev MemOk (s : State) : Prop := Memory.wf s.mem = true

theorem gapped_memOk : Gapped MemOk where
  hw _ _ h := h
  env _ _ _ h := h
  event _ _ _ h := h
  rxOff _ h := h
  txOff _ h := h
  bytes _ _ _ h := Memory.wf_writeBytes _ _ h
  pend _ _ _ h := h
  early _ _ h := h

theorem setSample_memOk (d : Dir) (x : Option Half) : Keeps MemOk (setSample d x) := gapped_memOk.setSample d x
theorem tick_memOk : Keeps MemOk tick := gapped_memOk.tick

/-! ### EVENT stays within its width -/

/-- EVENT within its width, on admissible parameters (30_encoding R99, R100). -/
abbrev EventOk (s : State) : Prop := s.params.wf = true → s.regs.event < 2 ^ s.params.evWidth

/-- The event bits lie within EV_ALL: taking EV_ALL first loses none of them. -/
theorem evAll_and {p : Params} {bit : Params → Events} (h : bit = evRxf ∨ bit = evTxf ∨ bit = evBerr) (e : Events) :
    (e &&& evAll p) &&& bit p = e &&& bit p := by
  rw [Nat.and_assoc]
  refine congrArg (e &&& ·) (Nat.eq_of_testBit_eq fun i => ?_)
  simp only [evAll, Nat.testBit_and, Nat.testBit_or]
  rcases h with rfl | rfl | rfl
  · cases Nat.testBit (evRxf p) i <;> simp
  · cases Nat.testBit (evTxf p) i <;> simp
  · cases Nat.testBit (evBerr p) i <;> simp

/-- Clearing the bits that are set in a mask clears the mask. -/
theorem clearBits_and (e m : Nat) : clearBits e (e &&& m) = clearBits e m := by
  simp only [clearBits, ← Nat.and_assoc, Nat.and_self]

/-- Bits taken from within `m` are cleared by clearing `m`. -/
theorem clearBits_and_self (e m : Nat) : clearBits (e &&& m) m = 0 := by
  simp [clearBits]

theorem gapped_eventOk : Gapped EventOk where
  hw _ _ h := h
  env _ _ _ h := h
  event _ _ hb h hp := Nat.or_lt_two_pow (h hp) (hb _ hp)
  rxOff _ h := h
  txOff _ h := h
  bytes _ _ _ h := h
  pend _ _ _ h := h
  early _ _ h := h

/-! ### No event is cleared and no path enabled -/

/-- No event of `e` is missing, and no path is enabled that `a` and `b` do not say. -/
def Grown (e : Events) (a b : Bool) (s : State) : Prop :=
  clearBits e s.regs.event = 0 ∧ (s.regs.rxEn = true → a = true) ∧ (s.regs.txEn = true → b = true)

theorem clearBits_eq_zero {e m : Events} : clearBits e m = 0 ↔ e &&& m = e := by
  simp only [clearBits, Nat.xor_eq_zero_iff, eq_comm]

theorem clearBits_or {e m b : Events} (h : clearBits e m = 0) : clearBits e (m ||| b) = 0 := by
  rw [clearBits_eq_zero] at *
  refine Nat.eq_of_testBit_eq fun i => ?_
  have := congrArg (fun n => Nat.testBit n i) h
  simp only [Nat.testBit_and, Nat.testBit_or] at *
  cases h1 : Nat.testBit e i <;> simp_all

theorem gapped_grown (e : Events) (a b : Bool) : Gapped (Grown e a b) where
  hw _ _ h := h
  env _ _ _ h := h
  event _ _ _ h := ⟨clearBits_or h.1, h.2⟩
  rxOff _ h := ⟨h.1, nofun, h.2.2⟩
  txOff _ h := ⟨h.1, h.2.1, nofun⟩
  bytes _ _ _ h := h
  pend _ _ _ h := h
  early _ _ h := h

theorem grown_refl (s : State) : Grown s.regs.event s.regs.rxEn s.regs.txEn s :=
  ⟨by rw [clearBits_eq_zero]; exact Nat.and_self _, id, id⟩

end Sys2Proof.Machine
end

