-- ==== Sys2Proof/Laws/Frame.lean ====
section
/-!
SUPPORT. Laws/Frame.lean: what the larger updates of the state do to each field: the begin and the end of an operation, a
barrier's effect, an issued write, the input that is used up.
-/
namespace Sys2Proof.Machine

section
variable (s : State)
@[simp] theorem State.begun_params : (s.begun).params = s.params := rfl
@[simp] theorem State.begun_rx : (s.begun).rx = s.rx := rfl
@[simp] theorem State.begun_tx : (s.begun).tx = s.tx := rfl
@[simp] theorem State.begun_ndesc : (s.begun).ndesc = s.ndesc := rfl
@[simp] theorem State.begun_ctx : (s.begun).ctx = s.ctx := rfl
@[simp] theorem State.begun_link : (s.begun).link = s.link := rfl
@[simp] theorem State.begun_seq : (s.begun).seq = { s.seq with busy := true } := rfl
@[simp] theorem State.begun_bring : (s.begun).bring = s.bring := rfl
@[simp] theorem State.begun_regs : (s.begun).regs = s.regs := rfl
@[simp] theorem State.begun_coreFresh : (s.begun).coreFresh = s.coreFresh := rfl
@[simp] theorem State.begun_handing : (s.begun).handing = s.handing := rfl
@[simp] theorem State.begun_hw : (s.begun).hw = s.hw := rfl
@[simp] theorem State.begun_mem : (s.begun).mem = s.mem := rfl
@[simp] theorem State.begun_pend : (s.begun).pend = s.pend := rfl
@[simp] theorem State.begun_early : (s.begun).early = s.early := rfl
@[simp] theorem State.begun_env : (s.begun).env = s.env := rfl
@[simp] theorem State.begun_out : (s.begun).out = s.out := rfl
@[simp] theorem State.begun_calls : (s.begun).calls = s.calls := rfl
@[simp] theorem State.begun_settled : s.begun.settled = s.settled := rfl
@[simp] theorem State.begun_ring (d : Dir) : s.begun.ring d = s.ring d := by cases d <;> rfl
end

section
variable (s : State) (ws : List Word)
@[simp] theorem State.ended_params : (s.ended ws).params = s.params := rfl
@[simp] theorem State.ended_rx : (s.ended ws).rx = s.rx := rfl
@[simp] theorem State.ended_tx : (s.ended ws).tx = s.tx := rfl
@[simp] theorem State.ended_ndesc : (s.ended ws).ndesc = s.ndesc := rfl
@[simp] theorem State.ended_ctx : (s.ended ws).ctx = s.ctx := rfl
@[simp] theorem State.ended_link : (s.ended ws).link = s.link := rfl
@[simp] theorem State.ended_seq : (s.ended ws).seq = { s.seq with busy := false } := rfl
@[simp] theorem State.ended_bring : (s.ended ws).bring = s.bring := rfl
@[simp] theorem State.ended_regs : (s.ended ws).regs = s.regs := rfl
@[simp] theorem State.ended_coreFresh : (s.ended ws).coreFresh = s.coreFresh := rfl
@[simp] theorem State.ended_handing : (s.ended ws).handing = s.handing := rfl
@[simp] theorem State.ended_hw : (s.ended ws).hw = s.hw := rfl
@[simp] theorem State.ended_mem : (s.ended ws).mem = s.mem := rfl
@[simp] theorem State.ended_pend : (s.ended ws).pend = s.pend := rfl
@[simp] theorem State.ended_early : (s.ended ws).early = s.early := rfl
@[simp] theorem State.ended_env : (s.ended ws).env = s.env := rfl
@[simp] theorem State.ended_out : (s.ended ws).out = ws := rfl
@[simp] theorem State.ended_calls : (s.ended ws).calls = s.calls := rfl
@[simp] theorem State.ended_settled : (s.ended ws).settled = s.settled := rfl
end

section
variable (s : State)
@[simp] theorem flush_params : (flush s).params = s.params := rfl
@[simp] theorem flush_rx : (flush s).rx = s.rx := rfl
@[simp] theorem flush_tx : (flush s).tx = s.tx := rfl
@[simp] theorem flush_ndesc : (flush s).ndesc = s.ndesc := rfl
@[simp] theorem flush_ctx : (flush s).ctx = s.ctx := rfl
@[simp] theorem flush_link : (flush s).link = s.link := rfl
@[simp] theorem flush_seq : (flush s).seq = s.seq := rfl
@[simp] theorem flush_bring : (flush s).bring = s.bring := rfl
@[simp] theorem flush_regs : (flush s).regs = s.regs := rfl
@[simp] theorem flush_coreFresh : (flush s).coreFresh = s.coreFresh := rfl
@[simp] theorem flush_handing : (flush s).handing = s.handing := rfl
@[simp] theorem flush_hw : (flush s).hw = s.hw := rfl
@[simp] theorem flush_mem : (flush s).mem = s.settled := rfl
@[simp] theorem flush_pend : (flush s).pend = [] := rfl
@[simp] theorem flush_early : (flush s).early = [] := rfl
@[simp] theorem flush_env : (flush s).env = s.env := rfl
@[simp] theorem flush_out : (flush s).out = s.out := rfl
@[simp] theorem flush_calls : (flush s).calls = s.calls := rfl
@[simp] theorem flush_settled : (flush s).settled = s.settled := rfl
@[simp] theorem flush_priv : (flush s).priv = s.priv := rfl
@[simp] theorem flush_owned : (flush s).owned = s.owned := rfl
end

section
variable (s : State) (a : Nat) (bs : List Byte)
@[simp] theorem issueWrite_params : (issueWrite a bs s).params = s.params := rfl
@[simp] theorem issueWrite_rx : (issueWrite a bs s).rx = s.rx := rfl
@[simp] theorem issueWrite_tx : (issueWrite a bs s).tx = s.tx := rfl
@[simp] theorem issueWrite_ndesc : (issueWrite a bs s).ndesc = s.ndesc := rfl
@[simp] theorem issueWrite_ctx : (issueWrite a bs s).ctx = s.ctx := rfl
@[simp] theorem issueWrite_link : (issueWrite a bs s).link = s.link := rfl
@[simp] theorem issueWrite_seq : (issueWrite a bs s).seq = s.seq := rfl
@[simp] theorem issueWrite_bring : (issueWrite a bs s).bring = s.bring := rfl
@[simp] theorem issueWrite_regs : (issueWrite a bs s).regs = s.regs := rfl
@[simp] theorem issueWrite_coreFresh : (issueWrite a bs s).coreFresh = s.coreFresh := rfl
@[simp] theorem issueWrite_handing : (issueWrite a bs s).handing = s.handing := rfl
@[simp] theorem issueWrite_hw : (issueWrite a bs s).hw = s.hw := rfl
@[simp] theorem issueWrite_mem : (issueWrite a bs s).mem = s.mem := rfl
@[simp] theorem issueWrite_pend : (issueWrite a bs s).pend = s.pend ++ [⟨a, bs⟩] := rfl
@[simp] theorem issueWrite_env : (issueWrite a bs s).env = s.env := rfl
@[simp] theorem issueWrite_out : (issueWrite a bs s).out = s.out := rfl
@[simp] theorem issueWrite_calls : (issueWrite a bs s).calls = s.calls := rfl
@[simp] theorem issueWrite_priv : (issueWrite a bs s).priv = s.priv := rfl
end

section
variable (s : State)
@[simp] theorem State.popInput_params : (s.popInput).params = s.params := rfl
@[simp] theorem State.popInput_rx : (s.popInput).rx = s.rx := rfl
@[simp] theorem State.popInput_tx : (s.popInput).tx = s.tx := rfl
@[simp] theorem State.popInput_ndesc : (s.popInput).ndesc = s.ndesc := rfl
@[simp] theorem State.popInput_ctx : (s.popInput).ctx = s.ctx := rfl
@[simp] theorem State.popInput_link : (s.popInput).link = s.link := rfl
@[simp] theorem State.popInput_seq : (s.popInput).seq = s.seq := rfl
@[simp] theorem State.popInput_bring : (s.popInput).bring = s.bring := rfl
@[simp] theorem State.popInput_regs : (s.popInput).regs = s.regs := rfl
@[simp] theorem State.popInput_coreFresh : (s.popInput).coreFresh = s.coreFresh := rfl
@[simp] theorem State.popInput_handing : (s.popInput).handing = s.handing := rfl
@[simp] theorem State.popInput_hw : (s.popInput).hw = s.hw := rfl
@[simp] theorem State.popInput_mem : (s.popInput).mem = s.mem := rfl
@[simp] theorem State.popInput_pend : (s.popInput).pend = s.pend := rfl
@[simp] theorem State.popInput_early : (s.popInput).early = s.early := rfl
@[simp] theorem State.popInput_env : (s.popInput).env = { s.env with inputs := s.env.inputs.tail } := rfl
@[simp] theorem State.popInput_out : (s.popInput).out = s.out := rfl
@[simp] theorem State.popInput_calls : (s.popInput).calls = s.calls := rfl
@[simp] theorem State.popInput_settled : s.popInput.settled = s.settled := rfl
@[simp] theorem State.popInput_priv : s.popInput.priv = s.priv := rfl
end

/-! ### The updates of one field, seen through `settled` and `priv` -/

@[simp] theorem State.setRx_settled (s : State) (x : Ring) : (s.setRx x).settled = s.settled := rfl
@[simp] theorem State.setTx_settled (s : State) (x : Ring) : (s.setTx x).settled = s.settled := rfl
@[simp] theorem State.setNdesc_settled (s : State) (x : List Nat) : (s.setNdesc x).settled = s.settled := rfl
@[simp] theorem State.setCtx_settled (s : State) (x : Ctx) : (s.setCtx x).settled = s.settled := rfl
@[simp] theorem State.setLink_settled (s : State) (x : Link) : (s.setLink x).settled = s.settled := rfl
@[simp] theorem State.setSeq_settled (s : State) (x : Seq) : (s.setSeq x).settled = s.settled := rfl
@[simp] theorem State.setBring_settled (s : State) (x : BringUp) : (s.setBring x).settled = s.settled := rfl
@[simp] theorem State.setRegs_settled (s : State) (x : Regs) : (s.setRegs x).settled = s.settled := rfl
@[simp] theorem State.setCoreFresh_settled (s : State) (x : Bool) : (s.setCoreFresh x).settled = s.settled := rfl
@[simp] theorem State.setHanding_settled (s : State) (x : Nat) : (s.setHanding x).settled = s.settled := rfl
@[simp] theorem State.setHw_settled (s : State) (x : Hw) : (s.setHw x).settled = s.settled := rfl
@[simp] theorem State.setEarly_settled (s : State) (x : List EarlyRead) : (s.setEarly x).settled = s.settled := rfl
@[simp] theorem State.setEnv_settled (s : State) (x : Env) : (s.setEnv x).settled = s.settled := rfl
@[simp] theorem State.setOut_settled (s : State) (x : List Word) : (s.setOut x).settled = s.settled := rfl
@[simp] theorem State.setCalls_settled (s : State) (x : List Call) : (s.setCalls x).settled = s.settled := rfl
@[simp] theorem State.setRx_priv (s : State) (x : Ring) : (s.setRx x).priv = { s.priv with rx := x } := rfl
@[simp] theorem State.setTx_priv (s : State) (x : Ring) : (s.setTx x).priv = { s.priv with tx := x } := rfl
@[simp] theorem State.setNdesc_priv (s : State) (x : List Nat) : (s.setNdesc x).priv = { s.priv with ndesc := x } := rfl
@[simp] theorem State.setCtx_priv (s : State) (x : Ctx) : (s.setCtx x).priv = { s.priv with ctx := x } := rfl
@[simp] theorem State.setLink_priv (s : State) (x : Link) : (s.setLink x).priv = { s.priv with link := x } := rfl
@[simp] theorem State.setSeq_priv (s : State) (x : Seq) : (s.setSeq x).priv = { s.priv with seq := x } := rfl
@[simp] theorem State.setBring_priv (s : State) (x : BringUp) : (s.setBring x).priv = { s.priv with bring := x } := rfl
@[simp] theorem State.setRegs_priv (s : State) (x : Regs) : (s.setRegs x).priv = s.priv := rfl
@[simp] theorem State.setCoreFresh_priv (s : State) (x : Bool) : (s.setCoreFresh x).priv = { s.priv with coreFresh := x } := rfl
@[simp] theorem State.setHanding_priv (s : State) (x : Nat) : (s.setHanding x).priv = s.priv := rfl
@[simp] theorem State.setHw_priv (s : State) (x : Hw) : (s.setHw x).priv = s.priv := rfl
@[simp] theorem State.setEarly_priv (s : State) (x : List EarlyRead) : (s.setEarly x).priv = s.priv := rfl
@[simp] theorem State.setEnv_priv (s : State) (x : Env) : (s.setEnv x).priv = s.priv := rfl
@[simp] theorem State.setOut_priv (s : State) (x : List Word) : (s.setOut x).priv = s.priv := rfl
@[simp] theorem State.setCalls_priv (s : State) (x : List Call) : (s.setCalls x).priv = s.priv := rfl
@[simp] theorem State.setMem_priv (s : State) (x : Memory) : (s.setMem x).priv = s.priv := rfl
@[simp] theorem State.setPend_priv (s : State) (x : List PendWrite) : (s.setPend x).priv = s.priv := rfl

theorem State.begun_priv (s : State) : s.begun.priv = { s.priv with seq := { s.seq with busy := true } } := rfl
theorem State.ended_priv (s : State) (ws : List Word) :
    (s.ended ws).priv = { s.priv with seq := { s.seq with busy := false } } := rfl

end Sys2Proof.Machine
end

