-- ==== Sys2Proof/Laws/Ops.lean ====
section
/-!
SUPPORT. Laws/Ops.lean: what each primitive of C's operations can do (00_scope R20 to R22): which part of what C owns it
changes, that it keeps memory in its canonical form, and what it answers where nothing happens in its gap.
-/
namespace Sys2Proof.Machine

/-! ### Accesses of C to memory: nothing C owns changes -/

theorem issueRead_owned (a n : Nat) : Leaves State.owned (issueRead a n) :=
  Leaves.bind (Leaves.upd fun _ => rfl) fun _ => Leaves.bind Leaves.here fun _ => Leaves.bind (Leaves.upd fun _ => rfl)
    fun _ => Leaves.pure

theorem descField_owned (d : Dir) (i : Nat) (f : Field) : Leaves State.owned (descField d i f) := by
  refine Leaves.bind Leaves.here fun s => ?_
  cases descAddr s d i f
  · exact Leaves.refuse
  · exact Leaves.pure

theorem descWrite_owned (d : Dir) (i : Nat) (f : Field) (v : Nat) : Leaves State.owned (descWrite d i f v) :=
  tick_owned.bind fun _ => Leaves.bind Leaves.here fun _ => (descField_owned d i f).bind fun _ => Leaves.upd fun _ => rfl

theorem descRead_owned (d : Dir) (i : Nat) (f : Field) : Leaves State.owned (descRead d i f) :=
  tick_owned.bind fun _ => Leaves.bind Leaves.here fun _ => (descField_owned d i f).bind fun a =>
    (issueRead_owned a _).bind fun _ => Leaves.pure

theorem barrier_owned : Leaves State.owned barrier := tick_owned.bind fun _ => Leaves.upd fun _ => rfl

theorem regRead_owned {α : Type} (get : Regs → α) : Leaves State.owned (regRead get) :=
  tick_owned.bind fun _ => Leaves.bind (Leaves.upd fun _ => rfl) fun _ => Leaves.bind Leaves.here fun _ => Leaves.pure

/-! ### Register writes: only the register block changes -/

theorem regWrite_priv (set : Regs → Regs) : Leaves State.priv (regWrite set) := by
  intro s a t h
  obtain ⟨_, u, h₁, h₂⟩ := bind_ok h
  cases h₂
  exact congrArg Owned.priv (tick_owned s _ u h₁)

/-- A write that keeps the registers only C writes. -/
theorem regWrite_owned {set : Regs → Regs} (h : ∀ r, (set r).ofC = r.ofC) : Leaves State.owned (regWrite set) := by
  refine tick_owned.bind fun _ => Leaves.bind (Leaves.upd fun _ => rfl) fun _ => Leaves.upd fun s => ?_
  simp only [State.owned, State.setRegs_regs, h]
  rfl

theorem writeRxEn_owned (v : Bool) : Leaves State.owned (writeRxEn v) :=
  (regWrite_owned (set := fun r => { r with rxEn := v }) fun _ => rfl).bind fun _ => setSample_owned _ _

theorem writeTxEn_owned (v : Bool) : Leaves State.owned (writeTxEn v) :=
  (regWrite_owned (set := fun r => { r with txEn := v }) fun _ => rfl).bind fun _ => setSample_owned _ _

theorem eventClear_owned (m : Events) : Leaves State.owned (eventClear m) := regWrite_owned fun _ => rfl

theorem regReadClear_owned (m : Events) : Leaves State.owned (regReadClear m) :=
  tick_owned.bind fun _ => Leaves.bind (Leaves.upd fun _ => rfl) fun _ => Leaves.bind Leaves.here fun _ =>
    Leaves.bind (Leaves.upd fun _ => rfl) fun _ => Leaves.pure

/-! ### Calls: only the record of calls grows -/

theorem owned_priv {α : Type} {x : Op α} (h : Leaves State.owned x) : Leaves State.priv x :=
  fun s a t hx => congrArg Owned.priv (h s a t hx)

theorem owned_regs {α : Type} {x : Op α} (h : Leaves State.owned x) : Leaves (fun s => s.regs.ofC) x :=
  fun s a t hx => congrArg Owned.regs (h s a t hx)

theorem call_priv (c : Call) : Leaves State.priv (call c) :=
  (owned_priv tick_owned).bind fun _ => Leaves.upd fun _ => rfl

theorem call_regs (c : Call) : Leaves (fun s => s.regs.ofC) (call c) :=
  (owned_regs tick_owned).bind fun _ => Leaves.upd fun _ => rfl

/-- A delivery leaves what tick, the record of calls and `f` leave. -/
theorem deliver_leaves {γ : Type} {F : State → γ} {f : State → State} (ht : Leaves F tick) (hf : ∀ s, F (f s) = F s)
    (hc : ∀ s x, F (s.setCalls x) = F s) (c : Call) : Leaves F (deliver f c) :=
  ht.bind fun _ => Leaves.bind (Leaves.upd hf) fun _ => Leaves.upd fun s => hc s _

theorem call_calls (c : Call) {s t : State} {u : Unit} (h : call c s = .ok (u, t)) : t.calls = s.calls ++ [c] := by
  obtain ⟨_, v, h₁, h₂⟩ := bind_ok h
  cases h₂
  exact congrArg (· ++ [c]) (congrArg Owned.calls (tick_owned s _ v h₁))

section
variable {α : Type} (c : Call) (get : Answers → List α) (put : Answers → List α → Answers) (free : Nat → α)

theorem ask_priv : Leaves State.priv (ask c get put free) := by
  refine (call_priv c).bind fun _ => Leaves.bind Leaves.here fun s => ?_
  cases get s.env.answers with
  | nil => exact (owned_priv freshDraw_owned).bind fun _ => Leaves.pure
  | cons a rest => exact Leaves.bind (Leaves.upd fun _ => rfl) fun _ => Leaves.pure

theorem ask_regs : Leaves (fun s => s.regs.ofC) (ask c get put free) := by
  refine (call_regs c).bind fun _ => Leaves.bind Leaves.here fun s => ?_
  cases get s.env.answers with
  | nil => exact (owned_regs freshDraw_owned).bind fun _ => Leaves.pure
  | cons a rest => exact Leaves.bind (Leaves.upd fun _ => rfl) fun _ => Leaves.pure
end

theorem drawCoreWrites_owned : Leaves State.owned drawCoreWrites := by
  refine Leaves.bind Leaves.here fun s => ?_
  cases s.env.answers.coreWrites with
  | nil => exact freshDraw_owned.bind fun _ => Leaves.pure
  | cons a rest => exact Leaves.bind (Leaves.upd fun _ => rfl) fun _ => Leaves.pure

/-! ### Memory stays in its canonical form -/

theorem flush_memOk (s : State) (h : MemOk s) : MemOk (flush s) := wf_performAll s.pend h

theorem issueRead_memOk (a n : Nat) : Keeps MemOk (issueRead a n) :=
  Keeps.bind (Keeps.upd fun _ h => wf_performAll _ h) fun _ => Keeps.bind Keeps.here fun _ =>
    Keeps.bind (Keeps.upd fun _ h => h) fun _ => Keeps.pure

theorem descField_memOk (d : Dir) (i : Nat) (f : Field) : Keeps MemOk (descField d i f) := by
  refine Keeps.bind Keeps.here fun s => ?_
  cases descAddr s d i f
  · exact Keeps.refuse
  · exact Keeps.pure

theorem descWrite_memOk (d : Dir) (i : Nat) (f : Field) (v : Nat) : Keeps MemOk (descWrite d i f v) :=
  Keeps.bind tick_memOk fun _ => Keeps.bind Keeps.here fun _ => Keeps.bind (descField_memOk d i f) fun _ =>
    Keeps.upd fun _ h => h

theorem descRead_memOk (d : Dir) (i : Nat) (f : Field) : Keeps MemOk (descRead d i f) :=
  Keeps.bind tick_memOk fun _ => Keeps.bind Keeps.here fun _ => Keeps.bind (descField_memOk d i f) fun a =>
    Keeps.bind (issueRead_memOk a _) fun _ => Keeps.pure

theorem barrier_memOk : Keeps MemOk barrier := Keeps.bind tick_memOk fun _ => Keeps.upd flush_memOk

theorem regRead_memOk {α : Type} (get : Regs → α) : Keeps MemOk (regRead get) :=
  Keeps.bind tick_memOk fun _ => Keeps.bind (Keeps.upd flush_memOk) fun _ => Keeps.bind Keeps.here fun _ => Keeps.pure

theorem regWrite_memOk (set : Regs → Regs) : Keeps MemOk (regWrite set) :=
  Keeps.bind tick_memOk fun _ => Keeps.bind (Keeps.upd flush_memOk) fun _ => Keeps.upd fun _ h => h

theorem writeRxEn_memOk (v : Bool) : Keeps MemOk (writeRxEn v) :=
  Keeps.bind (regWrite_memOk _) fun _ => setSample_memOk _ _

theorem writeTxEn_memOk (v : Bool) : Keeps MemOk (writeTxEn v) :=
  Keeps.bind (regWrite_memOk _) fun _ => setSample_memOk _ _

theorem regReadClear_memOk (m : Events) : Keeps MemOk (regReadClear m) :=
  Keeps.bind tick_memOk fun _ => Keeps.bind (Keeps.upd flush_memOk) fun _ => Keeps.bind Keeps.here fun _ =>
    Keeps.bind (Keeps.upd fun _ h => h) fun _ => Keeps.pure

theorem call_memOk (c : Call) : Keeps MemOk (call c) := Keeps.bind tick_memOk fun _ => Keeps.upd fun _ h => h

theorem deliver_memOk {f : State → State} (hf : ∀ s, MemOk s → MemOk (f s)) (c : Call) : Keeps MemOk (deliver f c) :=
  Keeps.bind tick_memOk fun _ => Keeps.bind (Keeps.upd hf) fun _ => Keeps.upd fun _ h => h

theorem freshDraw_memOk : Keeps MemOk freshDraw :=
  Keeps.bind Keeps.here fun _ => Keeps.bind (Keeps.upd fun _ h => h) fun _ => Keeps.pure

theorem ask_memOk {α : Type} (c : Call) (get : Answers → List α) (put : Answers → List α → Answers) (free : Nat → α) :
    Keeps MemOk (ask c get put free) := by
  refine Keeps.bind (call_memOk c) fun _ => Keeps.bind Keeps.here fun s => ?_
  cases get s.env.answers with
  | nil => exact Keeps.bind freshDraw_memOk fun _ => Keeps.pure
  | cons a rest => exact Keeps.bind (Keeps.upd fun _ h => h) fun _ => Keeps.pure

theorem drawCoreWrites_memOk : Keeps MemOk drawCoreWrites := by
  refine Keeps.bind Keeps.here fun s => ?_
  cases s.env.answers.coreWrites with
  | nil => exact Keeps.bind freshDraw_memOk fun _ => Keeps.pure
  | cons a rest => exact Keeps.bind (Keeps.upd fun _ h => h) fun _ => Keeps.pure

/-! ### Where nothing happens between two events -/

theorem flush_rested {s : State} (h : s.quiet) : (flush s).rested := ⟨⟨h.1, rfl⟩, rfl⟩

theorem regRead_quiet {α : Type} (get : Regs → α) {s : State} (h : s.quiet) :
    regRead get s = .ok (get s.regs, flush s) := by
  simp only [regRead]
  rw [run_bind_ok (tick_quiet h)]
  rfl

theorem regWrite_quiet (set : Regs → Regs) {s : State} (h : s.quiet) :
    regWrite set s = .ok ((), (flush s).setRegs (set s.regs)) := by
  simp only [regWrite]
  rw [run_bind_ok (tick_quiet h)]
  rfl

theorem regReadClear_quiet (m : Events) {s : State} (h : s.quiet) :
    regReadClear m s =
      .ok (s.regs.event &&& m, (flush s).setRegs { s.regs with event := clearBits s.regs.event (s.regs.event &&& m) }) := by
  simp only [regReadClear]
  rw [run_bind_ok (tick_quiet h)]
  rfl

theorem barrier_quiet {s : State} (h : s.quiet) : barrier s = .ok ((), flush s) := by
  simp only [barrier]
  rw [run_bind_ok (tick_quiet h)]
  rfl

theorem deliver_gap (f : State → State) (c : Call) {s u : State} (h : tick s = .ok ((), u)) :
    deliver f c s = .ok ((), (f u).setCalls ((f u).calls ++ [c])) := by
  simp only [deliver]; rw [run_bind_ok h]; rfl

theorem call_quiet (c : Call) {s : State} (h : s.quiet) : call c s = .ok ((), s.setCalls (s.calls ++ [c])) := by
  simp only [call]
  rw [run_bind_ok (tick_quiet h)]
  rfl

/-- A call whose next answer is listed. -/
theorem ask_quiet {α : Type} (c : Call) {get : Answers → List α} (put : Answers → List α → Answers) (free : Nat → α)
    {s : State} {a : α} {rest : List α} (h : s.quiet) (ha : get s.env.answers = a :: rest) :
    ask c get put free s = .ok (a, (s.setCalls (s.calls ++ [c])).setEnv
      { s.env with answers := put s.env.answers rest }) := by
  simp only [ask]
  rw [run_bind_ok (call_quiet c h)]
  simp [ha]

/-- A descriptor write to a slot the ring has. -/
theorem descWrite_quiet {d : Dir} {i : Nat} {f : Field} (v : Nat) {s : State} {a : Nat} (h : s.quiet)
    (ha : descAddr s d i f = some a) :
    descWrite d i f v s = .ok ((), issueWrite a (toBytes s.params.endian (fieldWidth f) v) s) := by
  simp only [descWrite]
  rw [run_bind_ok (tick_quiet h)]
  simp [descField, ha, run_bind]

/-- A descriptor read of a slot the ring has. -/
theorem descRead_quiet {d : Dir} {i : Nat} {f : Field} {s : State} {a : Nat} (h : s.quiet)
    (ha : descAddr s d i f = some a) :
    descRead d i f s = .ok (ofBytes s.params.endian (readValue a (fieldWidth f) (flushTouching a (fieldWidth f) s)),
      (flushTouching a (fieldWidth f) s).setEarly
        ((flushTouching a (fieldWidth f) s).early.filter fun e => !overlaps e.addr e.bytes.length a (fieldWidth f))) := by
  simp only [descRead]
  rw [run_bind_ok (tick_quiet h)]
  simp [descField, ha, run_bind, issueRead]

end Sys2Proof.Machine
end

