-- ==== Sys2Proof/Laws/Ring.lean ====
section
/-!
SUPPORT. Laws/Ring.lean: the arithmetic of ring indices (00_scope R23, 10_state R30, R38): handing slots over and taking
them back move units between the counter and the slots in flight.
-/
namespace Sys2Proof.Machine

theorem mod_once {x c : Nat} (h : x < 2 * c) : x % c = if x < c then x else x - c := by
  split
  · next hx => exact Nat.mod_eq_of_lt hx
  · next hx =>
    rw [Nat.mod_eq_sub_mod (by omega)]
    exact Nat.mod_eq_of_lt (by omega)

variable {r : Ring}

theorem Ring.inflight_lt (hc : 0 < r.cap) : r.inflight < r.cap := Nat.mod_lt _ hc

/-- The slots in flight, without the modulus. -/
theorem Ring.inflight_eq (hh : r.head < r.cap) (ht : r.tail < r.cap) :
    r.inflight = if r.head ≤ r.tail then r.tail - r.head else r.tail + r.cap - r.head := by
  unfold Ring.inflight
  rw [mod_once (by omega)]
  split <;> split <;> omega

theorem Ring.pending_iff (hh : r.head < r.cap) (ht : r.tail < r.cap) : r.pending = true ↔ 0 < r.inflight := by
  rw [Ring.inflight_eq hh ht]
  simp only [Ring.pending, bne_iff_ne]
  split <;> omega

/-- The tail is the slot after the last one in flight. -/
theorem Ring.tail_eq (hh : r.head < r.cap) (ht : r.tail < r.cap) : (r.head + r.inflight) % r.cap = r.tail := by
  rw [Ring.inflight_eq hh ht]
  rw [mod_once (by split <;> omega)]
  split <;> split <;> omega

/-- `n` more slots in flight. -/
theorem Ring.inflight_give {r' : Ring} {n : Nat} (hc : r'.cap = r.cap) (hh : r'.head = r.head)
    (ht : r'.tail = (r.tail + n) % r.cap) (h1 : r.head < r.cap) (h2 : r.tail < r.cap)
    (h3 : r.inflight + n < r.cap) : r'.inflight = r.inflight + n := by
  have hn : n < r.cap := by omega
  have e : r'.tail = if r.tail + n < r.cap then r.tail + n else r.tail + n - r.cap := by
    rw [ht, mod_once (by omega)]
  rw [Ring.inflight_eq h1 h2] at h3 ⊢
  rw [Ring.inflight_eq (by omega) (by rw [e]; split <;> omega), e, hc, hh]
  split_ifs at h3 ⊢ <;> omega

/-- `n` slots in flight taken back. -/
theorem Ring.inflight_take {r' : Ring} {n : Nat} (hc : r'.cap = r.cap) (ht : r'.tail = r.tail)
    (hh : r'.head = (r.head + n) % r.cap) (h1 : r.head < r.cap) (h2 : r.tail < r.cap)
    (h3 : n ≤ r.inflight) : r'.inflight = r.inflight - n := by
  have hl := Ring.inflight_lt (r := r) (by omega)
  have hn : n < r.cap := by omega
  have e : r'.head = if r.head + n < r.cap then r.head + n else r.head + n - r.cap := by
    rw [hh, mod_once (by omega)]
  rw [Ring.inflight_eq h1 h2] at h3 ⊢
  rw [Ring.inflight_eq (by rw [e]; split <;> omega) (by omega), e, hc, ht]
  split_ifs at h3 ⊢ <;> omega

/-! ### Sound rings -/

theorem Ring.give_inflight {n : Nat} {x : Handle} (h1 : r.head < r.cap) (h2 : r.tail < r.cap)
    (h3 : r.inflight + n < r.cap) : (r.give n x).inflight = r.inflight + n := Ring.inflight_give rfl rfl rfl h1 h2 h3

theorem Ring.take_inflight {n : Nat} (h1 : r.head < r.cap) (h2 : r.tail < r.cap) (h3 : n ≤ r.inflight) :
    (r.take n).inflight = r.inflight - n := Ring.inflight_take rfl rfl rfl h1 h2 h3

/-- Handing `n` slots over keeps a ring sound. -/
theorem Ring.Sound.give {al n : Nat} (h : r.Sound al) (ha : r.alive = true) (hn : n ≤ r.remain) (x : Handle) :
    Ring.Sound al (r.give n x) := by
  have h1 := h.head ha
  have h2 := h.tail ha
  have h3 := h.reserve ha
  have e := Ring.give_inflight (r := r) (n := n) (x := x) h1 h2 (by omega)
  refine ⟨h.cap, h.head, fun _ => ?_, fun _ => ?_, fun _ => ?_, h.base, h.gone⟩
  · exact Nat.mod_lt _ (by omega)
  · rw [e]
    show r.remain - n + (r.inflight + n) + 2 = r.cap
    omega
  · exact (List.length_set ..).trans (h.handles ha)

/-- Taking `n` slots back keeps a ring sound. -/
theorem Ring.Sound.take {al n : Nat} (h : r.Sound al) (ha : r.alive = true) (hn : n ≤ r.inflight) :
    Ring.Sound al (r.take n) := by
  have h1 := h.head ha
  have h2 := h.tail ha
  have h3 := h.reserve ha
  have e := Ring.take_inflight (r := r) (n := n) h1 h2 hn
  refine ⟨h.cap, fun _ => ?_, h.tail, fun _ => ?_, h.handles, h.base, h.gone⟩
  · exact Nat.mod_lt _ (by omega)
  · rw [e]
    show r.remain + n + (r.inflight - n) + 2 = r.cap
    omega

/-- The slots in flight are fewer than the capacity by at least two. -/
theorem Ring.Sound.inflight_le {al : Nat} (h : r.Sound al) (ha : r.alive = true) : r.inflight + 2 ≤ r.cap := by
  have := h.reserve ha
  omega

/-- A ring as RING_INIT leaves it is sound. -/
theorem Ring.Sound.fresh {al : Nat} (hc : 2 ≤ r.cap) (hh : r.head = 0) (ht : r.tail = 0) (hr : r.remain = r.cap - 2)
    (hl : r.handle.length = r.cap)
    (hb : ∃ b, r.base = some b ∧ b.toNat % al = 0 ∧ b.toNat + descSize * r.cap ≤ 2 ^ 32) (ha : r.alive = true) :
    r.Sound al := by
  have e : r.inflight = 0 := by rw [Ring.inflight_eq (by omega) (by omega), hh, ht]; simp
  exact ⟨fun _ => hc, fun _ => by omega, fun _ => by omega, fun _ => by omega, fun _ => hl, fun _ => hb, by simp [ha]⟩

/-- A ring that is not alive and has no base is sound. -/
theorem Ring.Sound.dead {al : Nat} (ha : r.alive = false) (hb : r.base = none) : r.Sound al := by
  constructor <;> simp [ha, hb]

/-! ### Groups -/

section
variable {cap : Nat} {nd : List Nat}

/-- The first group of a range that is not empty. -/
theorem Groups.first {h m : Nat} (hg : Groups cap nd h m) (hm : 0 < m) :
    1 ≤ nd.getD h 0 ∧ nd.getD h 0 ≤ m ∧ Groups cap nd ((h + nd.getD h 0) % cap) (m - nd.getD h 0) := by
  cases hg with
  | nil => omega
  | cons _ g n e h1 h2 =>
    subst e
    refine ⟨h1, by omega, ?_⟩
    simpa using h2

/-- A group after a range. -/
theorem Groups.append {h m : Nat} (hg : Groups cap nd h m) (hh : h < cap) {g : Nat}
    (e : nd.getD ((h + m) % cap) 0 = g) (h1 : 1 ≤ g) : Groups cap nd h (m + g) := by
  induction hg with
  | nil h =>
    rw [Nat.add_zero, Nat.mod_eq_of_lt hh] at e
    have := Groups.cons (cap := cap) (ndesc := nd) h g 0 e h1 (.nil _)
    simpa using this
  | cons h k n ek hk _ ih =>
    rw [Nat.add_assoc]
    refine .cons h k (n + g) ek hk (ih (Nat.mod_lt _ (by omega)) ?_)
    rw [Nat.mod_add_mod, Nat.add_assoc]
    exact e

/-- A count written outside a range does not touch its groups. -/
theorem Groups.set {h m t x : Nat} (hg : Groups cap nd h m) (hh : h < cap)
    (ht : ∀ j, j < m → (h + j) % cap ≠ t) : Groups cap (nd.set t x) h m := by
  induction hg with
  | nil h => exact .nil h
  | cons h g n e h1 _ ih =>
    have h0 : h ≠ t := by
      have := ht 0 (by omega)
      rwa [Nat.add_zero, Nat.mod_eq_of_lt hh] at this
    refine .cons h g n ?_ h1 (ih (Nat.mod_lt _ (by omega)) ?_)
    · rw [← e]
      simp only [List.getD_eq_getElem?_getD]
      rw [List.getElem?_set_ne (fun c => h0 c.symm)]
    · intro j hj
      rw [Nat.mod_add_mod, Nat.add_assoc]
      exact ht (g + j) (by omega)
end

end Sys2Proof.Machine
end

