-- ==== Sys2Proof/Laws/Desc.lean ====
section
/-!
SUPPORT. Laws/Desc.lean: descriptors in memory (20_memory R67, 30_encoding R89): where slots and fields lie, and what
reading a field gives after fields are written, with the issued writes performed.
-/
namespace Sys2Proof.Machine

/-! ### Where slots and fields lie -/

theorem slotAddr_some {r : Ring} {i x : Nat} :
    r.slotAddr i = some x ↔ ∃ b, r.base = some b ∧ i < r.cap ∧ x = b.toNat + descSize * i := by
  unfold Ring.slotAddr
  cases r.base with
  | none => simp
  | some b =>
    by_cases h : i < r.cap
    · simp [h, eq_comm]
    · simp [h]

/-- A slot of a live ring has an address. -/
theorem Ring.Sound.slot {al : Nat} {r : Ring} (h : r.Sound al) (ha : r.alive = true) {i : Nat} (hi : i < r.cap) :
    ∃ x, r.slotAddr i = some x := by
  obtain ⟨b, hb, -⟩ := h.base ha
  exact ⟨_, slotAddr_some.2 ⟨b, hb, hi, rfl⟩⟩

/-- Two slots of a ring do not overlap. -/
theorem slots_apart {r : Ring} {i j x y : Nat} (hx : r.slotAddr i = some x) (hy : r.slotAddr j = some y) (h : i ≠ j) :
    x + descSize ≤ y ∨ y + descSize ≤ x := by
  obtain ⟨b, hb, -, rfl⟩ := slotAddr_some.1 hx
  obtain ⟨c, hc, -, rfl⟩ := slotAddr_some.1 hy
  obtain rfl : b = c := by simpa [hb] using hc
  simp only [descSize]
  omega

theorem fieldOff_le (e : Endian) (f : Field) : fieldOff e f + fieldWidth f ≤ descSize := by
  cases e <;> cases f <;> decide

/-- Two fields of a descriptor do not overlap. -/
theorem fields_apart (e : Endian) {f g : Field} (h : f ≠ g) :
    fieldOff e f + fieldWidth f ≤ fieldOff e g ∨ fieldOff e g + fieldWidth g ≤ fieldOff e f := by
  cases e <;> cases f <;> cases g <;> first | exact absurd rfl h | decide

theorem descAddr_of_slot {s : State} {d : Dir} {i x : Nat} (h : (s.ring d).slotAddr i = some x) (f : Field) :
    descAddr s d i f = some (fieldAddr s.params.endian x f) := by
  unfold descAddr
  rw [h]

theorem field_of_slot {s : State} {d : Dir} {i x : Nat} (h : (s.ring d).slotAddr i = some x) (f : Field) :
    s.field d i f = some (memRead s.params.endian s.settled (fieldAddr s.params.endian x f) (fieldWidth f)) := by
  unfold State.field
  rw [descAddr_of_slot h]

/-! ### Memory with the issued writes performed -/

theorem settled_wf {s : State} (h : MemOk s) : Memory.wf s.settled = true := wf_performAll s.pend h

@[simp] theorem issueWrite_settled (a : Nat) (bs : List Byte) (s : State) :
    (issueWrite a bs s).settled = Memory.writeBytes a bs s.settled := performAll_append s.pend ⟨a, bs⟩ s.mem

theorem issueWrite_quiet {a : Nat} {bs : List Byte} {s : State} (h : s.quiet) : (issueWrite a bs s).quiet :=
  ⟨h.1, by show List.filter _ s.early = []; rw [h.2]; rfl⟩

/-- A descriptor write of a field of a slot the ring has. -/
theorem descWrite_slot {d : Dir} {i x : Nat} {f : Field} (v : Nat) {s : State} (h : s.quiet)
    (hx : (s.ring d).slotAddr i = some x) :
    descWrite d i f v s = .ok ((), issueWrite (fieldAddr s.params.endian x f)
      (toBytes s.params.endian (fieldWidth f) v) s) := descWrite_quiet v h (descAddr_of_slot hx f)

/-! ### A descriptor written whole -/

/-- The three fields of the descriptor at `x`, written address first and status last (20_memory R79). -/
def slotWrite (e : Endian) (x stat len phys : Nat) (m : Memory) : Memory :=
  memWrite e (memWrite e (memWrite e m (fieldAddr e x .phys) 4 phys) (fieldAddr e x .len) 2 len) (fieldAddr e x .stat) 2 stat

section
variable {e : Endian} {x stat len phys : Nat} {m : Memory}

theorem slotWrite_wf (h : Memory.wf m = true) : Memory.wf (slotWrite e x stat len phys m) = true :=
  wf_memWrite _ _ _ _ (wf_memWrite _ _ _ _ (wf_memWrite _ _ _ _ h))

/-- The value a field was given. -/
def fieldValue (stat len phys : Nat) : Field → Nat
  | .stat => stat
  | .len => len
  | .phys => phys

theorem slotWrite_field (h : Memory.wf m = true) (hs : stat < 2 ^ 16) (hl : len < 2 ^ 16) (hp : phys < 2 ^ 32) (f : Field) :
    memRead e (slotWrite e x stat len phys m) (fieldAddr e x f) (fieldWidth f) = fieldValue stat len phys f := by
  have h1 := wf_memWrite e (fieldAddr e x .phys) 4 phys h
  have h2 := wf_memWrite e (fieldAddr e x .len) 2 len h1
  have sep : ∀ {f g : Field}, f ≠ g → fieldAddr e x f + fieldWidth f ≤ fieldAddr e x g ∨
      fieldAddr e x g + fieldWidth g ≤ fieldAddr e x f := by
    intro f g hfg
    have := fields_apart e hfg
    simp only [fieldAddr]
    omega
  cases f with
  | stat => exact memRead_memWrite e _ 2 _ h2 hs
  | len =>
    have h3 := sep (f := .len) (g := .stat) (by decide)
    refine (memRead_memWrite_of_disjoint e h2 h3).trans ?_
    exact memRead_memWrite e _ 2 _ h1 hl
  | phys =>
    have h3 := sep (f := .phys) (g := .stat) (by decide)
    have h4 := sep (f := .phys) (g := .len) (by decide)
    refine (memRead_memWrite_of_disjoint e h2 h3).trans ?_
    refine (memRead_memWrite_of_disjoint e h1 h4).trans ?_
    exact memRead_memWrite e _ 4 _ h hp

/-- A byte outside the fields written is as it was. -/
theorem read_memWrite_outside {a n v k : Nat} (h : Memory.wf m = true) (hk : k < a ∨ a + n ≤ k) :
    Memory.read k (memWrite e m a n v) = Memory.read k m :=
  Memory.read_writeBytes_of_outside h (by rwa [length_toBytes])

theorem slotWrite_outside {k : Nat} (h : Memory.wf m = true) (hk : k < x ∨ x + descSize ≤ k) :
    Memory.read k (slotWrite e x stat len phys m) = Memory.read k m := by
  have h1 := wf_memWrite e (fieldAddr e x .phys) 4 phys h
  have h2 := wf_memWrite e (fieldAddr e x .len) 2 len h1
  have hf : ∀ f : Field, k < fieldAddr e x f ∨ fieldAddr e x f + fieldWidth f ≤ k := by
    intro f
    have := fieldOff_le e f
    simp only [fieldAddr]
    omega
  exact (read_memWrite_outside h2 (hf .stat)).trans
    ((read_memWrite_outside h1 (hf .len)).trans (read_memWrite_outside h (hf .phys)))
end

/-- What a field reads as depends on the bytes of its slot only. -/
theorem memRead_congr {e : Endian} {m m' : Memory} {a n : Nat}
    (h : ∀ k, a ≤ k → k < a + n → Memory.read k m' = Memory.read k m) : memRead e m' a n = memRead e m a n := by
  unfold memRead
  rw [Memory.readBytes_congr h]

theorem memRead_slot_congr {e : Endian} {m m' : Memory} {x : Nat} (f : Field)
    (h : ∀ k, x ≤ k → k < x + descSize → Memory.read k m' = Memory.read k m) :
    memRead e m' (fieldAddr e x f) (fieldWidth f) = memRead e m (fieldAddr e x f) (fieldWidth f) := by
  refine memRead_congr fun k h1 h2 => h k ?_ ?_
  · simp only [fieldAddr] at h1
    omega
  · have := fieldOff_le e f
    simp only [fieldAddr] at h2
    omega

/-! ### Reading back -/

/-- With the memory system at rest, a descriptor read yields what memory holds and changes nothing. -/
theorem descRead_rested {d : Dir} {i x : Nat} {f : Field} {s : State} (h : s.rested)
    (hx : (s.ring d).slotAddr i = some x) :
    descRead d i f s = .ok (memRead s.params.endian s.mem (fieldAddr s.params.endian x f) (fieldWidth f), s) := by
  rw [descRead_quiet h.1 (descAddr_of_slot hx f)]
  obtain ⟨⟨h1, h2⟩, h3⟩ := h
  have e1 : flushTouching (fieldAddr s.params.endian x f) (fieldWidth f) s = s := by
    unfold flushTouching
    rw [h3]
    simp only [List.filter_nil]
    cases s
    simp only at h3
    subst h3
    rfl
  rw [e1]
  simp only [readValue, h2, List.find?_nil, List.filter_nil]
  congr 2
  cases s
  simp only at h2
  subst h2
  rfl

theorem settled_rested {s : State} (h : s.rested) : s.settled = s.mem := by
  unfold State.settled
  rw [h.2]
  rfl

theorem flush_of_rested {s : State} (h : s.rested) : flush s = s := by
  obtain ⟨⟨-, h2⟩, h3⟩ := h
  cases s
  simp only at h2 h3
  subst h2 h3
  rfl

/-! ### Path enables, where nothing happens between two events -/

/-- The state after a path enable was written. -/
def State.enabled (s : State) (d : Dir) (v : Bool) : State :=
  match d with
  | .rx => ((flush s).setRegs { s.regs with rxEn := v }).setHw { s.hw with rxSample := none }
  | .tx => ((flush s).setRegs { s.regs with txEn := v }).setHw { s.hw with txSample := none }

theorem writeRxEn_quiet (v : Bool) {s : State} (h : s.quiet) : writeRxEn v s = .ok ((), s.enabled .rx v) := by
  simp only [writeRxEn]
  rw [run_bind_ok (regWrite_quiet _ h)]
  rfl

theorem writeTxEn_quiet (v : Bool) {s : State} (h : s.quiet) : writeTxEn v s = .ok ((), s.enabled .tx v) := by
  simp only [writeTxEn]
  rw [run_bind_ok (regWrite_quiet _ h)]
  rfl

theorem flush_flush (s : State) : flush (flush s) = flush s := by
  show (((flush s).setMem (flush s).settled).setPend []).setEarly [] = flush s
  rw [flush_settled]
  rfl

theorem flush_enabled (s : State) (d : Dir) (v : Bool) : (flush s).enabled d v = s.enabled d v := by
  unfold State.enabled
  simp only [flush_flush, flush_regs, flush_hw]

/-- The state after a path was enabled where it was not. -/
def State.enabledIfOff (s : State) (d : Dir) : State := if pathEnabled s d then flush s else s.enabled d true

theorem enableTx_quiet {s : State} (h : s.quiet) : enableTx s = .ok ((), s.enabledIfOff .tx) := by
  simp only [enableTx]
  rw [run_bind_ok (regRead_quiet _ h)]
  cases hen : s.regs.txEn
  · simp only [State.enabledIfOff, pathEnabled, hen, Bool.false_eq_true, if_false]
    rw [writeTxEn_quiet true (flush_rested h).1, flush_enabled]
  · simp only [State.enabledIfOff, pathEnabled, hen, if_true, run_pure]

/-- The re-enable test (41_buffer_supply R120, 42_completion_reaper R135, R139). -/
theorem reenable_quiet (d : Dir) {s : State} (h : s.quiet) :
    reenable d s = .ok ((), if (s.ring d).pending then s.enabledIfOff d else s) := by
  simp only [reenable, run_here_bind]
  split
  · rw [run_bind_ok (regRead_quiet _ h)]
    cases d
    · cases hen : s.regs.rxEn
      · simp only [State.enabledIfOff, pathEnabled, hen, Bool.false_eq_true, if_false]
        rw [writeRxEn_quiet true (flush_rested h).1, flush_enabled]
      · simp only [State.enabledIfOff, pathEnabled, hen, if_true, run_pure]
    · cases hen : s.regs.txEn
      · simp only [State.enabledIfOff, pathEnabled, hen, Bool.false_eq_true, if_false]
        rw [writeTxEn_quiet true (flush_rested h).1, flush_enabled]
      · simp only [State.enabledIfOff, pathEnabled, hen, if_true, run_pure]
  · rfl

section
variable (s : State) (d : Dir)
@[simp] theorem State.enabled_priv (v : Bool) : (s.enabled d v).priv = s.priv := by
  cases d <;> simp [State.enabled, State.priv, flush]
@[simp] theorem State.enabled_settled (v : Bool) : (s.enabled d v).settled = s.settled := by
  cases d <;> exact flush_settled s
@[simp] theorem State.enabled_env (v : Bool) : (s.enabled d v).env = s.env := by
  cases d <;> simp [State.enabled, flush]
@[simp] theorem State.enabled_out (v : Bool) : (s.enabled d v).out = s.out := by
  cases d <;> simp [State.enabled, flush]
@[simp] theorem State.enabled_calls (v : Bool) : (s.enabled d v).calls = s.calls := by
  cases d <;> simp [State.enabled, flush]
@[simp] theorem State.enabled_mem (v : Bool) : (s.enabled d v).mem = s.settled := by
  cases d <;> simp [State.enabled, flush]
@[simp] theorem State.enabled_pend (v : Bool) : (s.enabled d v).pend = [] := by
  cases d <;> simp [State.enabled, flush]
@[simp] theorem State.enabled_early (v : Bool) : (s.enabled d v).early = [] := by
  cases d <;> simp [State.enabled, flush]

@[simp] theorem State.enabledIfOff_priv : (s.enabledIfOff d).priv = s.priv := by
  unfold State.enabledIfOff; split <;> simp
@[simp] theorem State.enabledIfOff_settled : (s.enabledIfOff d).settled = s.settled := by
  unfold State.enabledIfOff; split <;> simp
@[simp] theorem State.enabledIfOff_env : (s.enabledIfOff d).env = s.env := by
  unfold State.enabledIfOff
  split
  · simp [flush]
  · simp
@[simp] theorem State.enabledIfOff_out : (s.enabledIfOff d).out = s.out := by
  unfold State.enabledIfOff
  split
  · simp [flush]
  · simp
@[simp] theorem State.enabledIfOff_calls : (s.enabledIfOff d).calls = s.calls := by
  unfold State.enabledIfOff
  split
  · simp [flush]
  · simp
@[simp] theorem State.enabledIfOff_mem : (s.enabledIfOff d).mem = s.settled := by
  unfold State.enabledIfOff
  split
  · simp [flush]
  · simp
@[simp] theorem State.enabledIfOff_pend : (s.enabledIfOff d).pend = [] := by
  unfold State.enabledIfOff
  split
  · simp [flush]
  · simp
@[simp] theorem State.enabledIfOff_early : (s.enabledIfOff d).early = [] := by
  unfold State.enabledIfOff
  split
  · simp [flush]
  · simp

theorem State.enabledIfOff_rested {s : State} (h : s.quiet) : (s.enabledIfOff d).rested :=
  ⟨⟨by simpa using h.1, by simp⟩, by simp⟩

theorem State.enabledIfOff_memOk {s : State} (h : MemOk s) : MemOk (s.enabledIfOff d) := by
  show Memory.wf (s.enabledIfOff d).mem = true
  rw [State.enabledIfOff_mem]
  exact settled_wf h

theorem State.enabledIfOff_tx_regs : (s.enabledIfOff .tx).regs = { s.regs with txEn := true } := by
  unfold State.enabledIfOff
  split
  · next h =>
    have h : s.regs.txEn = true := h
    show s.regs = _
    rw [← h]
  · rfl

theorem State.enabledIfOff_rx_regs : (s.enabledIfOff .rx).regs = { s.regs with rxEn := true } := by
  unfold State.enabledIfOff
  split
  · next h =>
    have h : s.regs.rxEn = true := h
    show s.regs = _
    rw [← h]
  · rfl

theorem State.enabledIfOff_tx_hw :
    (s.enabledIfOff .tx).hw = if s.regs.txEn then s.hw else { s.hw with txSample := none } := by
  cases hen : s.regs.txEn <;> simp only [State.enabledIfOff, pathEnabled, hen] <;> rfl

theorem State.enabledIfOff_rx_hw :
    (s.enabledIfOff .rx).hw = if s.regs.rxEn then s.hw else { s.hw with rxSample := none } := by
  cases hen : s.regs.rxEn <;> simp only [State.enabledIfOff, pathEnabled, hen] <;> rfl
end

end Sys2Proof.Machine
end

