-- ==== Sys2Proof/Laws/Answer.lean ====
section
/-!
SUPPORT. Laws/Answer.lean: an operation of C from its issue to its answer. Where it is admitted and its body runs to the
end, it answers a next state (60_exceptions R209, R221); a primitive takes effect on the state its gap leaves (20_memory R73).
-/
namespace Sys2Proof.Machine

/-! ### From the issue to the answer -/

theorem issue_next {adm : State → Option Refusal} {body : Op (List Word)} {s t : State} {ws : List Word}
    (hb : s.seq.busy = false) (ha : adm s = none) (h : body s.begun = .ok (ws, t)) :
    issue adm body s = .next (t.ended ws) := by
  simp only [issue, hb, ha, Bool.false_eq_true, if_false, outcome_next]
  exact ⟨(), by simp only [whole, run_upd_bind]; rw [run_bind_ok h]; rfl⟩

/-- An operation that ended in a next state: its body ran to the end, and its answer words stand there. -/
theorem issue_ok {adm : State → Option Refusal} {body : Op (List Word)} {s t : State} (h : issue adm body s = .next t) :
    ∃ ws u, body s.begun = .ok (ws, u) ∧ t = u.ended ws := by
  unfold issue at h
  split at h
  · cases h
  · split at h
    · cases h
    · obtain ⟨_, ha⟩ := outcome_next.1 h
      obtain ⟨_, u, h1, h2⟩ := bind_ok ha
      cases h1
      obtain ⟨ws, v, h3, h4⟩ := bind_ok h2
      cases h4
      exact ⟨ws, v, h3, rfl⟩

theorem issue_refused {adm : State → Option Refusal} {body : Op (List Word)} {s : State} {r : Refusal}
    (hb : s.seq.busy = false) (ha : adm s = some r) : issue adm body s = .refused r := by
  simp only [issue, hb, ha, Bool.false_eq_true, if_false]

theorem issue_busy {adm : State → Option Refusal} {body : Op (List Word)} {s : State} (hb : s.seq.busy = true) :
    issue adm body s = .refused .busy := by
  simp only [issue, hb, if_true]

theorem issue_stop {adm : State → Option Refusal} {body : Op (List Word)} {s : State} {r : Refusal}
    (hb : s.seq.busy = false) (ha : adm s = none) (h : body s.begun = .error (.refused r)) :
    issue adm body s = .refused r := by
  simp only [issue, hb, ha, Bool.false_eq_true, if_false, outcome, whole, run_upd_bind]
  rw [run_bind_error h]

theorem sequencer_next {k : Nat} {body : Op (Option Err)} {s t : State} (h : s.atStep k) (hk : k ≠ 10)
    (hx : body s = .ok (none, t)) : sequencerStep k body s = .next t := by
  rw [sequencerStep, if_pos (show _ ∧ _ from h), outcome_next]
  exact ⟨(), by rw [run_bind_ok hx]; simp only [hk, if_false]; rfl⟩

theorem sequencer_stop {k : Nat} {body : Op (Option Err)} {s t : State} {e : Err} (h : s.atStep k)
    (hx : body s = .ok (some e, t)) : sequencerStep k body s = .next (t.ended [e.code]) := by
  rw [sequencerStep, if_pos (show _ ∧ _ from h), outcome_next]
  exact ⟨(), by rw [run_bind_ok hx]; rfl⟩

theorem sequencer_last {body : Op (Option Err)} {s t : State} (h : s.atStep 10) (hx : body s = .ok (none, t)) :
    sequencerStep 10 body s = .next ((t.setSeq { t.seq with mode := .running }).ended [0]) := by
  rw [sequencerStep, if_pos (show _ ∧ _ from h), outcome_next]
  exact ⟨(), by rw [run_bind_ok hx]; rfl⟩

/-! ### Admission -/

theorem State.ready.register {s : State} (h : s.ready) : admitRegister s = none := by
  unfold admitRegister
  rcases h.2 with h | h <;> simp [h]

theorem State.ready.ring {s : State} {d : Dir} (h : s.ready) (ha : (s.ring d).alive = true) : admitRing d s = none := by
  unfold admitRing
  rcases h.2 with h | h <;> simp [h, ha]

theorem State.running.admitted {s : State} (h : s.running) : admitRunning s = none := by simp [admitRunning, h.2]

theorem admitCore_none {s : State} (hm : s.seq.mode = .off) (h1 : s.rx.alive = true) (h2 : s.tx.alive = true) :
    admitCore s = none := by simp [admitCore, hm, h1, h2]

/-! ### What a gap leaves, and the primitives after it -/

theorem Gap.owned {s u : State} (h : Gap s u) : u.owned = s.begun.owned := tick_owned _ _ _ h
theorem Gap.priv {s u : State} (h : Gap s u) : u.priv = s.begun.priv := congrArg Owned.priv h.owned

theorem regRead_gap {α : Type} (get : Regs → α) {s u : State} (h : tick s = .ok ((), u)) :
    regRead get s = .ok (get u.regs, flush u) := by
  simp only [regRead]; rw [run_bind_ok h]; rfl

theorem regWrite_gap (set : Regs → Regs) {s u : State} (h : tick s = .ok ((), u)) :
    regWrite set s = .ok ((), (flush u).setRegs (set u.regs)) := by
  simp only [regWrite]; rw [run_bind_ok h]; rfl

theorem regReadClear_gap (m : Events) {s u : State} (h : tick s = .ok ((), u)) :
    regReadClear m s =
      .ok (u.regs.event &&& m, (flush u).setRegs { u.regs with event := clearBits u.regs.event (u.regs.event &&& m) }) := by
  simp only [regReadClear]; rw [run_bind_ok h]; rfl

theorem writeRxEn_gap (v : Bool) {s u : State} (h : tick s = .ok ((), u)) : writeRxEn v s = .ok ((), u.enabled .rx v) := by
  simp only [writeRxEn]; rw [run_bind_ok (regWrite_gap _ h)]; rfl

theorem writeTxEn_gap (v : Bool) {s u : State} (h : tick s = .ok ((), u)) : writeTxEn v s = .ok ((), u.enabled .tx v) := by
  simp only [writeTxEn]; rw [run_bind_ok (regWrite_gap _ h)]; rfl

theorem call_gap (c : Call) {s u : State} (h : tick s = .ok ((), u)) :
    call c s = .ok ((), u.setCalls (u.calls ++ [c])) := by
  simp only [call]; rw [run_bind_ok h]; rfl

/-- An answered call: its answer is the listed one where one is listed. -/
theorem ask_gap {α : Type} (c : Call) (get : Answers → List α) (put : Answers → List α → Answers) (free : Nat → α)
    {s u : State} (h : tick s = .ok ((), u)) :
    ∃ x e, ask c get put free s = .ok (x, (u.setCalls (u.calls ++ [c])).setEnv e) ∧
      (∀ y l, get u.env.answers = y :: l → x = y) ∧ e.inputs = u.env.inputs ∧ e.sched = u.env.sched := by
  simp only [ask]; rw [run_bind_ok (call_gap c h)]
  simp only [run_here_bind, State.setCalls_env]
  cases hg : get u.env.answers with
  | nil => exact ⟨_, { u.env with draws := u.env.draws + 1 }, rfl, by simp, rfl, rfl⟩
  | cons a r => exact ⟨a, _, rfl, by intro y l h; cases h; rfl, rfl, rfl⟩

/-! ### What an operation without a store left -/

theorem SameBytes.of_settled {s t : State} (h : t.settled = s.settled) : SameBytes s t := fun a => by rw [h]

/-- `busy` rises at the begin of an operation and falls at its end; the rest of C's private registers is as the body
left it. -/
theorem ended_priv {s u : State} (ws : List Word) (hb : s.seq.busy = false) (h : u.priv = s.begun.priv) :
    (u.ended ws).priv = s.priv := by
  simp only [State.priv, Private.mk.injEq, State.ended_params, State.ended_rx, State.ended_tx, State.ended_ndesc,
    State.ended_ctx, State.ended_link, State.ended_seq, State.ended_bring, State.ended_coreFresh, State.begun_params,
    State.begun_rx, State.begun_tx, State.begun_ndesc, State.begun_ctx, State.begun_link, State.begun_seq,
    State.begun_bring, State.begun_coreFresh] at h ⊢
  rw [h.2.2.2.2.2.2.1]
  refine ⟨h.1, h.2.1, h.2.2.1, h.2.2.2.1, h.2.2.2.2.1, h.2.2.2.2.2.1, ?_, h.2.2.2.2.2.2.2⟩
  cases hs : s.seq
  simp [hs] at hb
  simp [hb]

/-- The same where the body changed the rings. -/
theorem ended_rings {s t : State} {r q : Ring} {n : List Nat} (ws : List Word) (hb : s.seq.busy = false)
    (h : t.priv = { s.begun.priv with rx := r, tx := q, ndesc := n }) :
    (t.ended ws).priv = { s.priv with rx := r, tx := q, ndesc := n } := by
  have e : (t.ended ws).priv = { t.priv with seq := { t.priv.seq with busy := false } } := rfl
  have e2 : ({ s.seq with busy := false } : Seq) = s.seq := by
    cases hs : s.seq
    simp [hs] at hb
    simp [hb]
  rw [e, h]
  simp [State.priv, e2]

/-- An access to the register block ends an operation. -/
theorem accessed_ended {s u v : State} {r : Regs} {w : Hw} (ws : List Word) (hb : s.seq.busy = false)
    (hp : u.priv = s.begun.priv) (e : v = ((flush u).setRegs r).setHw w) : Accessed u (v.ended ws) s.priv r w ws := by
  subst e
  exact ⟨⟨ended_priv ws hb (by simpa using hp), by simp, by simp, by simp, by simp, .of_settled (by simp), by simp,
    fun h => ⟨by simpa using h.1, by simp⟩⟩, by simp⟩

/-- Calls and their answers end an operation. -/
theorem called_ended {s u v : State} {c : List Call} {e : Env} (ws : List Word) (hb : s.seq.busy = false)
    (hp : u.priv = s.begun.priv) (hv : v = (u.setCalls (u.calls ++ c)).setEnv e) (h1 : e.inputs = u.env.inputs)
    (h2 : e.sched = u.env.sched) : Became u (v.ended ws) s.priv u.regs u.hw c ws := by
  subst hv
  exact ⟨ended_priv ws hb (by simpa using hp), by simp, by simp, by simp, by simp, .of_settled (by simp), by simpa using h1,
    fun h => ⟨by simpa [h2] using h.1, by simpa using h.2⟩⟩

end Sys2Proof.Machine
end

