-- ==== Sys2Proof/Laws/Stable.lean ====
section
/-!
SUPPORT. Laws/Stable.lean: a property that every primitive keeps is kept by every operation (`exec_stable`); memory's
canonical form, EVENT within its width, the interrupt mask within EV_ALL, the machine's parameters and that no group is being
handed over are such properties. What the reapers and the supply keep needs less (`Served`): that no event is lost is such.
-/
namespace Sys2Proof.Machine

/-- Where an update of the register block by C may lead: the mask as it was or within EV_ALL, the events within the width they
were within. -/
def CWrites (p : Params) (r r' : Regs) : Prop :=
  (r'.evmask = r.evmask ∨ clearBits r'.evmask (evAll p) = 0) ∧ ∀ n, r.event < 2 ^ n → r'.event < 2 ^ n

/-- A property of states that the gap, the issued writes and path enables of C and its updates of the rings and the record of
calls keep: the reapers and the supply keep it. -/
structure Served (P : State → Prop) : Prop where
  gap   : Gapped P
  wrote : ∀ s w, P s → P (s.setPend (s.pend ++ [w]))
  path  : ∀ s r, r.event = s.regs.event → r.evmask = s.regs.evmask → P s → P (s.setRegs r)
  rx    : ∀ s x, P s → P (s.setRx x)
  tx    : ∀ s x, P s → P (s.setTx x)
  ndesc : ∀ s x, P s → P (s.setNdesc x)
  calls : ∀ s x, P s → P (s.setCalls x)

namespace Served

variable {P : State → Prop} (h : Served P)

include h

/-! ### The primitives -/

theorem issueWrite (a : Nat) (bs : List Byte) (s : State) (hs : P s) : P (issueWrite a bs s) :=
  h.gap.early _ _ (h.wrote s _ hs)

omit h in
theorem descField (d : Dir) (i : Nat) (f : Field) : Keeps P (descField d i f) := by
  refine Keeps.bind Keeps.here fun s => ?_
  cases descAddr s d i f
  · exact Keeps.refuse
  · exact Keeps.pure

theorem descWrite (d : Dir) (i : Nat) (f : Field) (v : Nat) : Keeps P (descWrite d i f v) :=
  Keeps.bind h.gap.tick fun _ => Keeps.bind Keeps.here fun _ => Keeps.bind (Served.descField d i f) fun _ =>
    Keeps.upd (h.issueWrite _ _)

theorem descRead (d : Dir) (i : Nat) (f : Field) : Keeps P (descRead d i f) :=
  Keeps.bind h.gap.tick fun _ => Keeps.bind Keeps.here fun _ => Keeps.bind (Served.descField d i f) fun _ =>
    Keeps.bind (h.gap.issueRead _ _) fun _ => Keeps.pure

theorem barrier : Keeps P barrier := Keeps.bind h.gap.tick fun _ => Keeps.upd h.gap.flush

theorem regRead {α : Type} (get : Regs → α) : Keeps P (regRead get) :=
  Keeps.bind h.gap.tick fun _ => Keeps.bind (Keeps.upd h.gap.flush) fun _ => Keeps.bind Keeps.here fun _ => Keeps.pure

theorem pathWrite {set : Regs → Regs} (hset : ∀ r, (set r).event = r.event ∧ (set r).evmask = r.evmask) :
    Keeps P (Machine.regWrite set) :=
  Keeps.bind h.gap.tick fun _ => Keeps.bind (Keeps.upd h.gap.flush) fun _ =>
    Keeps.upd fun s hs => h.path s _ (hset _).1 (hset _).2 hs

theorem writeRxEn (v : Bool) : Keeps P (writeRxEn v) :=
  Keeps.bind (h.pathWrite fun _ => ⟨rfl, rfl⟩) fun _ => h.gap.setSample _ _

theorem writeTxEn (v : Bool) : Keeps P (writeTxEn v) :=
  Keeps.bind (h.pathWrite fun _ => ⟨rfl, rfl⟩) fun _ => h.gap.setSample _ _

theorem call (c : Call) : Keeps P (call c) := Keeps.bind h.gap.tick fun _ => Keeps.upd fun s hs => h.calls s _ hs

theorem deliver {f : State → State} (hf : ∀ s, P s → P (f s)) (c : Call) : Keeps P (deliver f c) :=
  Keeps.bind h.gap.tick fun _ => Keeps.bind (Keeps.upd hf) fun _ => Keeps.upd fun s hs => h.calls s _ hs

theorem freshDraw : Keeps P freshDraw := h.gap.freshDraw

theorem ask {α : Type} (c : Call) (get : Answers → List α) (put : Answers → List α → Answers) (free : Nat → α) :
    Keeps P (ask c get put free) := by
  refine Keeps.bind (h.call c) fun _ => Keeps.bind Keeps.here fun s => ?_
  cases get s.env.answers with
  | nil => exact Keeps.bind h.freshDraw fun _ => Keeps.pure
  | cons a rest => exact Keeps.bind (Keeps.upd fun s hs => h.gap.env s _ rfl hs) fun _ => Keeps.pure

theorem askPhyStartup (phy : Nat) : Keeps P (askPhyStartup phy) := Keeps.bind Keeps.here fun _ => h.ask _ _ _ _
theorem askMdioRead (phy reg : BitVec 5) : Keeps P (askMdioRead phy reg) :=
  Keeps.bind Keeps.here fun _ => h.ask _ _ _ _
theorem askMdioWrite (phy reg : BitVec 5) (v : Half) : Keeps P (askMdioWrite phy reg v) :=
  Keeps.bind Keeps.here fun _ => h.ask _ _ _ _

theorem drawCoreWrites : Keeps P drawCoreWrites := by
  refine Keeps.bind Keeps.here fun s => ?_
  cases s.env.answers.coreWrites with
  | nil => exact Keeps.bind h.freshDraw fun _ => Keeps.pure
  | cons a rest => exact Keeps.bind (Keeps.upd fun s hs => h.gap.env s _ rfl hs) fun _ => Keeps.pure

/-! ### Reaper and supply -/

theorem reenable (d : Dir) : Keeps P (reenable d) := by
  refine Keeps.bind Keeps.here fun _ => Keeps.ite (Keeps.bind (h.regRead _) fun _ => Keeps.ite Keeps.pure ?_) Keeps.pure
  cases d
  · exact h.writeRxEn _
  · exact h.writeTxEn _

theorem reapRxLoop (n : Nat) : Keeps P (reapRxLoop n) := by
  induction n with
  | zero => exact Keeps.pure
  | succ n ih =>
    exact Keeps.bind Keeps.here fun _ => Keeps.ite (Keeps.bind (h.descRead _ _ _) fun _ => Keeps.bind h.barrier fun _ =>
      Keeps.ite Keeps.pure (Keeps.bind (h.descRead _ _ _) fun _ =>
      Keeps.bind (h.deliver (fun s hs => h.rx s _ hs) _) fun _ => ih)) Keeps.pure

theorem reapRx : Keeps P reapRx :=
  Keeps.bind Keeps.here fun _ => Keeps.bind Keeps.require fun _ => Keeps.bind (h.reapRxLoop _) fun _ => h.reenable _

theorem groupBusy (t n : Nat) : Keeps P (groupBusy t n) := by
  induction n with
  | zero => exact Keeps.pure
  | succ n ih =>
    exact Keeps.bind ih fun _ => Keeps.bind Keeps.here fun _ => Keeps.bind (h.descRead _ _ _) fun _ => Keeps.pure

theorem reapTxLoop (k : Nat) : Keeps P (reapTxLoop k) := by
  induction k with
  | zero => exact Keeps.pure
  | succ k ih =>
    exact Keeps.bind Keeps.here fun _ => Keeps.ite (Keeps.bind (h.groupBusy _ _) fun _ => Keeps.ite Keeps.pure
      (Keeps.bind h.barrier fun _ => Keeps.bind (h.deliver (fun s hs => h.tx s _ hs) _) fun _ => ih)) Keeps.pure

theorem reapTx : Keeps P reapTx :=
  Keeps.bind Keeps.here fun _ => Keeps.bind Keeps.require fun _ => Keeps.bind (h.reapTxLoop _) fun _ => h.reenable _

omit h in
theorem acceptBuffer (pa : Nat) : Keeps P (acceptBuffer pa) :=
  Keeps.bind Keeps.require fun _ => Keeps.bind Keeps.here fun _ => Keeps.sound

theorem handOverRx (pa : Nat) (b : Handle) : Keeps P (handOverRx pa b) :=
  Keeps.bind Keeps.here fun _ => Keeps.bind (h.descWrite _ _ _ _) fun _ => Keeps.bind (h.descWrite _ _ _ _) fun _ =>
    Keeps.bind h.barrier fun _ => Keeps.bind (h.descWrite _ _ _ _) fun _ => Keeps.upd fun s hs => h.rx s _ hs

theorem fillLoop (n : Nat) : Keeps P (fillLoop n) := by
  induction n with
  | zero => exact Keeps.pure
  | succ n ih =>
    refine Keeps.bind Keeps.here fun _ => Keeps.bind (h.ask _ _ _ _) fun b => ?_
    cases b with
    | none => exact Keeps.pure
    | some b => exact Keeps.bind (acceptBuffer _) fun _ => Keeps.bind (h.handOverRx _ _) fun _ => ih

theorem fillRx : Keeps P fillRx :=
  Keeps.bind Keeps.here fun _ => Keeps.bind Keeps.require fun _ => Keeps.bind (h.fillLoop _) fun _ => h.reenable _

theorem writeFrags (t k : Nat) (fs : List Frag) : Keeps P (writeFrags t k fs) := by
  induction fs generalizing k with
  | nil => exact Keeps.pure
  | cons f fs ih =>
    exact Keeps.bind Keeps.here fun _ => Keeps.bind (h.descWrite _ _ _ _) fun _ => Keeps.bind (h.descWrite _ _ _ _)
      fun _ => ih _

/-- Counting the slots handed over is an update of the model's own field, which not every property of this kind survives. -/
theorem writeStats (hh : ∀ s x, P s → P (s.setHanding x)) (t n k : Nat) (fs : List Frag) :
    Keeps P (writeStats t n k fs) := by
  induction fs generalizing k with
  | nil => exact Keeps.pure
  | cons f fs ih =>
    exact Keeps.bind Keeps.here fun _ => Keeps.bind (h.descWrite _ _ _ _) fun _ =>
      Keeps.bind (Keeps.upd fun s hs => hh s _ hs) fun _ => ih _

theorem layGroup (t : Nat) (fs : List Frag) : Keeps P (layGroup t fs) :=
  Keeps.bind (h.writeFrags _ _ _) fun _ => h.barrier

theorem recordGroup (hh : ∀ s, P s → P (s.setHanding 0)) (t n : Nat) (b : Handle) : Keeps P (recordGroup t n b) :=
  Keeps.bind (Keeps.upd fun s hs => h.ndesc s _ hs) fun _ => Keeps.bind (Keeps.upd fun s hs => h.tx s _ hs) fun _ =>
    Keeps.upd hh

theorem enableTx : Keeps P enableTx := Keeps.bind (h.regRead _) fun _ => Keeps.ite Keeps.pure (h.writeTxEn _)

theorem handOverTx (hh : ∀ s x, P s → P (s.setHanding x)) (fs : List Frag) (b : Handle) :
    Keeps P (handOverTx fs b) :=
  Keeps.bind Keeps.here fun _ => Keeps.bind Keeps.sound fun _ => Keeps.bind (h.layGroup _ _) fun _ =>
    Keeps.bind (h.writeStats hh _ _ _ _) fun _ => Keeps.bind (h.recordGroup (fun s => hh s 0) _ _ _) fun _ => h.enableTx

/-- ENQ_TX keeps what its hand-over keeps. -/
theorem enqTx {fs : List Frag} {b : Handle} (ho : Keeps P (Machine.handOverTx fs b)) : Keeps P (enqTx fs b) :=
  Keeps.bind Keeps.require fun _ => Keeps.bind Keeps.here fun _ => Keeps.bind Keeps.require fun _ =>
    Keeps.ite (Keeps.bind h.reapTx fun _ => Keeps.bind Keeps.here fun _ => Keeps.ite Keeps.pure
      (Keeps.bind ho fun _ => Keeps.pure)) (Keeps.bind ho fun _ => Keeps.pure)

theorem serveTx (e : Events) : Keeps P (serveTx e) := Keeps.bind Keeps.here fun _ => Keeps.ite h.reapTx Keeps.pure
theorem serveRx (e : Events) : Keeps P (serveRx e) :=
  Keeps.bind Keeps.here fun _ => Keeps.ite (Keeps.bind h.reapRx fun _ => h.fillRx) Keeps.pure

end Served

/-- Besides, every register write of C and every update of C's own registers keep it: every operation keeps it. -/
structure Stable (P : State → Prop) : Prop extends Served P where
  regs  : ∀ s r, CWrites s.params s.regs r → P s → P (s.setRegs r)
  ctx   : ∀ s x, P s → P (s.setCtx x)
  link  : ∀ s x, P s → P (s.setLink x)
  seq   : ∀ s x, P s → P (s.setSeq x)
  bring : ∀ s x, P s → P (s.setBring x)
  fresh : ∀ s x, P s → P (s.setCoreFresh x)
  out   : ∀ s x, P s → P (s.setOut x)

namespace Stable

variable {P : State → Prop} (h : Stable P)

include h

theorem setRing (s : State) (d : Dir) (r : Ring) (hs : P s) : P (s.setRing d r) := by
  cases d
  · exact h.rx s r hs
  · exact h.tx s r hs

/-! ### Register writes, the frame of an operation -/

theorem regWrite {set : Regs → Regs} (hset : ∀ r, (set r).evmask = r.evmask ∧ ∀ n, r.event < 2 ^ n → (set r).event < 2 ^ n) : Keeps P (regWrite set) :=
  Keeps.bind h.gap.tick fun _ => Keeps.bind (Keeps.upd h.gap.flush) fun _ =>
    Keeps.upd fun s hs => h.regs s _ ⟨.inl (hset _).1, (hset _).2⟩ hs

theorem eventClear (m : Events) : Keeps P (eventClear m) := h.regWrite fun _ => ⟨rfl, fun _ => clearBits_lt⟩

theorem regReadClear (m : Events) : Keeps P (regReadClear m) :=
  Keeps.bind h.gap.tick fun _ => Keeps.bind (Keeps.upd h.gap.flush) fun _ => Keeps.bind Keeps.here fun _ =>
    Keeps.bind (Keeps.upd fun s hs => h.regs s _ ⟨.inl rfl, fun _ => clearBits_lt⟩ hs) fun _ => Keeps.pure

omit h in
theorem raise (e : Err) (info : List Word) : Keeps P (raise e info) := Keeps.pure
omit h in
theorem returnOk (ws : List Word) : Keeps P (returnOk ws) := Keeps.pure

theorem whole {body : Op (List Word)} (hb : Keeps P body) : Keeps P (whole body) :=
  Keeps.bind (Keeps.upd fun s hs => h.seq s _ hs) fun _ => Keeps.bind hb fun _ =>
    Keeps.upd fun s hs => h.out _ _ (h.seq s _ hs)

theorem issue {adm : State → Option Refusal} {body : Op (List Word)} (hb : Keeps P body) {s t : State} (hs : P s)
    (ht : issue adm body s = .next t) : P t := by
  unfold Machine.issue at ht
  split at ht
  · cases ht
  · split at ht
    · cases ht
    · obtain ⟨a, ha⟩ := outcome_next.1 ht
      exact h.whole hb s a t hs ha

omit h in
theorem engine {c : State → Bool} {x : Op Unit} (hx : Keeps P x) {s t : State} (hs : P s)
    (ht : engineStep c x s = .next t) : P t := by
  unfold engineStep at ht
  split at ht
  · obtain ⟨a, ha⟩ := outcome_next.1 ht
    exact hx s a t hs ha
  · cases ht

/-! ### Rings -/

theorem initSlots (d : Dir) (n : Nat) : Keeps P (initSlots d n) := by
  induction n with
  | zero => exact Keeps.pure
  | succ n ih =>
    exact Keeps.bind ih fun _ => Keeps.bind (h.descWrite _ _ _ _) fun _ => Keeps.bind (h.descWrite _ _ _ _) fun _ =>
      Keeps.bind Keeps.here fun _ => h.descWrite _ _ _ _

theorem layRing (d : Dir) (cap : Nat) : Keeps P (layRing d cap) :=
  Keeps.bind (h.initSlots d cap) fun _ => Keeps.upd fun s hs => h.setRing s d _ hs

theorem freshMeta (a b : Nat) : Keeps P (freshMeta a b) :=
  Keeps.bind h.freshDraw fun _ => Keeps.bind h.freshDraw fun _ => Keeps.bind (Keeps.upd fun s hs => h.rx s _ hs) fun _ =>
    Keeps.bind (Keeps.upd fun s hs => h.tx s _ hs) fun _ => Keeps.upd fun s hs => h.ndesc s _ hs

theorem releaseDma (a : Option Word) (n : Nat) : Keeps P (releaseDma a n) := by
  cases a
  · exact Keeps.pure
  · exact h.call _

theorem releaseMeta (m : Bool) : Keeps P (releaseMeta m) := by
  cases m
  · exact Keeps.pure
  · exact Keeps.bind (h.call _) fun _ => h.call _

theorem ringInit (a b : Nat) : Keeps P (ringInit a b) := by
  refine Keeps.bind Keeps.require fun _ => Keeps.bind Keeps.here fun _ => Keeps.bind Keeps.require fun _ =>
    Keeps.bind (h.ask _ _ _ _) fun x => Keeps.bind (h.ask _ _ _ _) fun y => Keeps.bind (h.ask _ _ _ _) fun m => ?_
  have hfail : Keeps P (do
      Machine.releaseDma x (descSize * a)
      Machine.releaseDma y (descSize * b)
      Machine.releaseMeta m
      Pure.pure false : Op Bool) :=
    Keeps.bind (h.releaseDma _ _) fun _ => Keeps.bind (h.releaseDma _ _) fun _ => Keeps.bind (h.releaseMeta _) fun _ =>
      Keeps.pure
  cases x with
  | none => exact hfail
  | some x =>
    cases y with
    | none => exact hfail
    | some y =>
      cases m with
      | false => exact hfail
      | true =>
        exact Keeps.bind Keeps.require fun _ => Keeps.bind (Keeps.upd fun s hs => h.setRing s _ _ hs) fun _ =>
          Keeps.bind (Keeps.upd fun s hs => h.setRing s _ _ hs) fun _ => Keeps.bind (h.freshMeta _ _) fun _ =>
          Keeps.bind (Keeps.upd fun s hs => h.fresh s _ hs) fun _ => Keeps.bind (h.layRing _ _) fun _ =>
          Keeps.bind (h.layRing _ _) fun _ => Keeps.pure

theorem closeRing (d : Dir) : Keeps P (closeRing d) := by
  refine Keeps.bind Keeps.here fun s => Keeps.ite ?_ Keeps.pure
  have hend : Keeps P (do
      Machine.call (.metaFree d)
      let k ← Machine.freshDraw
      upd fun s => s.setRing d
        { cap := Config.freeRingReg k 0, base := none, head := Config.freeRingReg k 1, tail := Config.freeRingReg k 2,
          remain := Config.freeRingReg k 3, alive := false, handle := [] }) :=
    Keeps.bind (h.call _) fun _ => Keeps.bind h.freshDraw fun _ => Keeps.upd fun s hs => h.setRing s d _ hs
  cases (s.ring d).base with
  | none => exact hend
  | some b => exact Keeps.bind (h.call _) fun _ => hend

theorem closeNdesc : Keeps P closeNdesc :=
  Keeps.bind Keeps.here fun _ => Keeps.ite (Keeps.upd fun s hs => h.ndesc s _ hs) Keeps.pure

theorem ringTeardown : Keeps P ringTeardown :=
  Keeps.bind (h.closeRing _) fun _ => Keeps.bind h.closeNdesc fun _ => Keeps.bind (h.closeRing _) fun _ =>
    Keeps.upd fun s hs => h.fresh s _ hs

/-! ### Interrupts and registers -/

theorem handleIrq : Keeps P handleIrq :=
  Keeps.bind Keeps.here fun _ => Keeps.bind (h.regReadClear _) fun _ => Keeps.ite
    (Keeps.bind (Keeps.upd fun s hs => h.seq s _ hs) fun _ => Keeps.pure)
    (Keeps.bind (h.serveTx _) fun _ => Keeps.bind (h.serveRx _) fun _ => Keeps.pure)

/-- The mask written lies within the EV_ALL of the state the operation began in, so the parameters must be known not to
change: `tick` keeps them. -/
theorem setEventMask (m : Events) : Keeps P (setEventMask m) := by
  intro s a t hs ht
  obtain ⟨s', _, h₁, ht⟩ := bind_ok ht
  cases h₁
  obtain ⟨_, u, h₁, h₂⟩ := bind_ok ht
  cases h₂
  have hu : u.params = s.params := congrArg (fun o => o.priv.params) (tick_owned s _ u h₁)
  refine h.regs (Machine.flush u) _ ⟨.inr ?_, fun _ h => h⟩ (h.gap.flush _ (h.gap.tick s _ u hs h₁))
  show clearBits (m &&& evAll s.params) (evAll u.params) = 0
  rw [hu]
  exact clearBits_and_self _ _

theorem setSpeedDuplex (v : Nat) (d : Duplex) : Keeps P (setSpeedDuplex v d) :=
  Keeps.bind Keeps.here fun _ => Keeps.bind Keeps.require fun _ => h.regWrite fun _ => ⟨rfl, fun _ h => h⟩

theorem setPromisc (v : Bool) : Keeps P (setPromisc v) := h.regWrite fun _ => ⟨rfl, fun _ h => h⟩

theorem clearMask : Keeps P (Machine.regWrite fun r => { r with evmask := 0 }) :=
  Keeps.bind h.gap.tick fun _ => Keeps.bind (Keeps.upd h.gap.flush) fun _ =>
    Keeps.upd fun s hs => h.regs s _ ⟨.inr (by simp [clearBits]), fun _ h => h⟩ hs

omit h in
theorem onBit (m : BitVec 9) (k : Nat) {x : Op Unit} (hx : Keeps P x) : Keeps P (onBit m k x) :=
  Keeps.ite hx Keeps.pure

theorem coreWrites (m : BitVec 9) (a b c : Word) (mac : Mac) : Keeps P (coreWrites m a b c mac) :=
  Keeps.bind (onBit _ _ (h.regWrite fun _ => ⟨rfl, fun _ h => h⟩)) fun _ => Keeps.bind (onBit _ _ (h.writeRxEn _)) fun _ =>
    Keeps.bind (onBit _ _ (h.writeTxEn _)) fun _ => Keeps.bind (onBit _ _ h.clearMask) fun _ =>
    Keeps.bind (onBit _ _ (h.regWrite fun _ => ⟨rfl, fun _ h => h⟩)) fun _ => Keeps.bind (onBit _ _ (h.regWrite fun _ => ⟨rfl, fun _ h => h⟩)) fun _ =>
    Keeps.bind (onBit _ _ (h.regWrite fun _ => ⟨rfl, fun _ h => h⟩)) fun _ => Keeps.bind (onBit _ _ (h.regWrite fun _ => ⟨rfl, fun _ h => h⟩)) fun _ =>
    onBit _ _ (Keeps.upd fun s hs => h.gap.hw s _ hs)

theorem macCoreInit (a b c : Word) (mac : Mac) : Keeps P (macCoreInit a b c mac) :=
  Keeps.bind Keeps.here fun _ => Keeps.bind Keeps.require fun _ => Keeps.bind (h.ask _ _ _ _) fun _ => Keeps.ite
    (Keeps.bind (h.coreWrites _ _ _ _ _) fun _ => Keeps.bind (Keeps.upd fun s hs => h.fresh s _ hs) fun _ => Keeps.pure)
    (Keeps.bind h.drawCoreWrites fun _ => Keeps.bind (h.coreWrites _ _ _ _ _) fun _ => Keeps.pure)

theorem macEnable : Keeps P macEnable :=
  Keeps.bind Keeps.here fun _ => Keeps.bind Keeps.sound fun _ => h.regWrite fun _ => ⟨rfl, fun _ h => h⟩

/-! ### Bring-up -/

theorem setBstep (k : Nat) : Keeps P (setBstep k) := Keeps.upd fun s hs => h.seq s _ hs
theorem goTo (k : Nat) : Keeps P (goTo k) := Keeps.bind (h.setBstep k) fun _ => Keeps.pure
theorem leaveBringUp (m : Mode) : Keeps P (leaveBringUp m) := Keeps.upd fun s hs => h.seq s _ hs
theorem failEarly (e : Err) : Keeps P (failEarly e) := Keeps.bind (h.leaveBringUp _) fun _ => Keeps.pure

theorem abort (e : Err) : Keeps P (abort e) :=
  Keeps.bind h.ringTeardown fun _ => Keeps.bind (h.call _) fun _ => Keeps.bind (Keeps.upd fun s hs => h.ctx s _ hs)
    fun _ => Keeps.bind (h.leaveBringUp _) fun _ => Keeps.pure

theorem bu1 : Keeps P bu1 := by
  refine Keeps.bind Keeps.here fun s => Keeps.ite (Keeps.bind (Keeps.upd fun s hs => h.bring s _ hs) fun _ => h.goTo _)
    (Keeps.bind (h.ask _ _ _ _) fun f => ?_)
  cases f with
  | none => exact h.failEarly _
  | some m => exact Keeps.bind (Keeps.upd fun s hs => h.bring s _ hs) fun _ => h.goTo _

theorem bu2 : Keeps P bu2 :=
  Keeps.bind (h.ask _ _ _ _) fun _ => Keeps.ite
    (Keeps.bind (Keeps.upd fun s hs => h.ctx s _ hs) fun _ => Keeps.bind Keeps.here fun _ =>
      Keeps.bind (h.ringInit _ _) fun _ => Keeps.ite (h.goTo _) (h.abort _))
    (h.failEarly _)

theorem bu3 : Keeps P bu3 :=
  Keeps.bind Keeps.here fun _ => Keeps.ite (h.abort _)
    (Keeps.bind (h.ask _ _ _ _) fun _ => Keeps.ite (h.goTo _) (h.abort _))

theorem bu4 : Keeps P bu4 := by
  refine Keeps.bind (h.ask _ _ _ _) fun m => ?_
  cases m with
  | none => exact h.abort _
  | some r => exact Keeps.bind (Keeps.upd fun s hs => h.ctx s _ hs) fun _ => h.goTo _

theorem bu5 : Keeps P bu5 :=
  Keeps.bind Keeps.here fun _ => Keeps.bind (h.macCoreInit _ _ _ _) fun _ => Keeps.ite (h.goTo _)
    (Keeps.bind (h.leaveBringUp _) fun _ => Keeps.pure)

theorem bu6 : Keeps P bu6 :=
  Keeps.bind Keeps.here fun _ => Keeps.bind (h.setPromisc _) fun _ => h.goTo _

theorem bu7 : Keeps P bu7 := by
  refine Keeps.bind Keeps.here fun _ => Keeps.ite (h.abort _)
    (Keeps.bind (h.ask _ _ _ _) fun _ => Keeps.ite (Keeps.bind (h.ask _ _ _ _) fun p => ?_) (h.abort _))
  cases p with
  | none => exact h.abort _
  | some phy => exact Keeps.bind (Keeps.upd fun s hs => h.bring s _ hs) fun _ => h.goTo _

theorem bu8 : Keeps P bu8 := by
  refine Keeps.bind Keeps.here fun _ => Keeps.bind (h.ask _ _ _ _) fun _ => Keeps.ite
    (Keeps.bind (h.askPhyStartup _) fun r => ?_) (h.abort _)
  cases r with
  | none => exact h.abort _
  | some r => exact Keeps.bind (Keeps.upd fun s hs => h.link s _ hs) fun _ => h.goTo _

theorem bu9 : Keeps P bu9 :=
  Keeps.bind Keeps.here fun _ => Keeps.bind (h.setSpeedDuplex _ _) fun _ => h.goTo _

theorem bu10 : Keeps P bu10 :=
  Keeps.bind h.macEnable fun _ => Keeps.bind h.fillRx fun _ => Keeps.bind Keeps.here fun _ =>
    Keeps.bind (h.setEventMask _) fun _ => h.goTo _

theorem buStep (k : Nat) : Keeps P (buStep k) := by
  unfold Machine.buStep
  split
  · exact h.bu1
  · exact h.bu2
  · exact h.bu3
  · exact h.bu4
  · exact h.bu5
  · exact h.bu6
  · exact h.bu7
  · exact h.bu8
  · exact h.bu9
  · exact h.bu10
  · exact Keeps.pure

theorem runSteps (n : Nat) : Keeps P (runSteps n) := by
  induction n with
  | zero => exact Keeps.pure
  | succ n ih =>
    refine Keeps.bind Keeps.here fun _ => Keeps.ite (Keeps.bind (h.buStep _) fun r => ?_) Keeps.pure
    cases r with
    | none => exact ih
    | some e => exact Keeps.pure

theorem endInit (r : Option Err) : Keeps P (endInit r) := by
  cases r with
  | none => exact Keeps.bind (Keeps.upd fun s hs => h.seq s _ hs) fun _ => Keeps.pure
  | some e => exact Keeps.pure

theorem initAll (c : PlatformCfg) : Keeps P (initAll c) :=
  Keeps.bind (Keeps.upd fun s hs => h.bring s _ hs) fun _ => Keeps.bind (Keeps.upd fun s hs => h.seq s _ hs) fun _ =>
    Keeps.bind (h.runSteps _) fun _ => h.endInit _

theorem closeInit (r : Option Err) : Keeps P (closeInit r) :=
  Keeps.bind (h.endInit r) fun _ => Keeps.upd fun s hs => h.out _ _ (h.seq s _ hs)

theorem sequencer {k : Nat} {body : Op (Option Err)} (hb : Keeps P body) {s t : State} (hs : P s)
    (ht : sequencerStep k body s = .next t) : P t := by
  unfold sequencerStep at ht
  split at ht
  · obtain ⟨a, ha⟩ := outcome_next.1 ht
    refine Keeps.bind hb (fun r => ?_) s a t hs ha
    cases r with
    | none => exact Keeps.ite (h.closeInit _) Keeps.pure
    | some e => exact h.closeInit _
  · cases ht

end Stable

/-- A stable property that a hand-over keeps is kept by every operation. -/
theorem exec_stable {P : State → Prop} (h : Stable P) (he : ∀ fs b, Keeps P (handOverTx fs b)) (i : Instr) {s t : State}
    (hs : P s) (ht : exec i s = .next t) : P t := by
  cases i with
  | ringInit a b =>
    exact h.issue (Keeps.bind (h.ringInit _ _) fun _ => Keeps.ite (Stable.returnOk _) (Stable.raise _ _)) hs ht
  | ringTeardown =>
    exact h.issue (Keeps.bind Keeps.here fun _ => Keeps.bind Keeps.sound fun _ => Keeps.bind h.ringTeardown fun _ =>
      Stable.returnOk _) hs ht
  | fillRx => exact h.issue (Keeps.bind h.fillRx fun _ => Stable.returnOk _) hs ht
  | enqTx fs b => exact h.issue (Keeps.bind (h.toServed.enqTx (he _ _)) fun _ => Keeps.ite (Stable.returnOk _) (Stable.raise _ _)) hs ht
  | reapRx => exact h.issue (Keeps.bind h.reapRx fun _ => Stable.returnOk _) hs ht
  | reapTx => exact h.issue (Keeps.bind h.reapTx fun _ => Stable.returnOk _) hs ht
  | handleIrq => exact h.issue h.handleIrq hs ht
  | poll =>
    exact h.issue (Keeps.bind h.reapRx fun _ => Keeps.bind h.reapTx fun _ => Keeps.bind h.fillRx fun _ =>
      Stable.returnOk _) hs ht
  | init c => exact h.issue (h.initAll c) hs ht
  | bu1 => exact h.sequencer h.bu1 hs ht
  | bu2 => exact h.sequencer h.bu2 hs ht
  | bu3 => exact h.sequencer h.bu3 hs ht
  | bu4 => exact h.sequencer h.bu4 hs ht
  | bu5 => exact h.sequencer h.bu5 hs ht
  | bu6 => exact h.sequencer h.bu6 hs ht
  | bu7 => exact h.sequencer h.bu7 hs ht
  | bu8 => exact h.sequencer h.bu8 hs ht
  | bu9 => exact h.sequencer h.bu9 hs ht
  | bu10 => exact h.sequencer h.bu10 hs ht
  | rxEnable => exact h.issue (Keeps.bind (h.writeRxEn _) fun _ => Stable.returnOk _) hs ht
  | rxDisable => exact h.issue (Keeps.bind (h.writeRxEn _) fun _ => Stable.returnOk _) hs ht
  | txEnable => exact h.issue (Keeps.bind (h.writeTxEn _) fun _ => Stable.returnOk _) hs ht
  | txDisable => exact h.issue (Keeps.bind (h.writeTxEn _) fun _ => Stable.returnOk _) hs ht
  | rxEnabled => exact h.issue (Keeps.bind (h.regRead _) fun _ => Stable.returnOk _) hs ht
  | txEnabled => exact h.issue (Keeps.bind (h.regRead _) fun _ => Stable.returnOk _) hs ht
  | evRead => exact h.issue (Keeps.bind Keeps.here fun _ => Keeps.bind (h.regRead _) fun _ => Stable.returnOk _) hs ht
  | evClear m =>
    exact h.issue (Keeps.bind Keeps.here fun _ => Keeps.bind (h.eventClear _) fun _ => Stable.returnOk _) hs ht
  | evReadClear =>
    exact h.issue (Keeps.bind Keeps.here fun _ => Keeps.bind (h.regReadClear _) fun _ => Stable.returnOk _) hs ht
  | evSetMask m => exact h.issue (Keeps.bind (h.setEventMask _) fun _ => Stable.returnOk _) hs ht
  | setSpeedDuplex v d => exact h.issue (Keeps.bind (h.setSpeedDuplex _ _) fun _ => Stable.returnOk _) hs ht
  | promiscSet => exact h.issue (Keeps.bind (h.setPromisc _) fun _ => Stable.returnOk _) hs ht
  | promiscClear => exact h.issue (Keeps.bind (h.setPromisc _) fun _ => Stable.returnOk _) hs ht
  | mdioRead phy reg =>
    refine h.issue (Keeps.bind (h.askMdioRead _ _) fun v => ?_) hs ht
    cases v
    · exact Stable.raise _ _
    · exact Stable.returnOk _
  | mdioWrite phy reg v =>
    exact h.issue (Keeps.bind (h.askMdioWrite _ _ _) fun _ => Keeps.ite (Stable.returnOk _) (Stable.raise _ _)) hs ht
  | macCoreInit a b c m =>
    exact h.issue (Keeps.bind (h.macCoreInit _ _ _ _) fun _ => Keeps.ite (Stable.returnOk _) (Stable.raise _ _)) hs ht
  | macEnable => exact h.issue (Keeps.bind h.macEnable fun _ => Stable.returnOk _) hs ht
  | transmit fs b =>
    exact h.issue (Keeps.bind (h.toServed.enqTx (he _ _)) fun _ => Keeps.ite (Stable.returnOk _) (Stable.raise _ _)) hs ht
  | getMac => exact h.issue (Keeps.bind Keeps.here fun _ => Stable.returnOk _) hs ht
  | printDiag =>
    exact h.issue (Keeps.bind Keeps.here fun _ => Keeps.bind (h.regRead _) fun _ => Keeps.bind (h.call _) fun _ =>
      Stable.returnOk _) hs ht
  | hRxSample => exact Stable.engine (c := fun s => sampleEnabled s .rx) (h.gap.sampleStep .rx) hs ht
  | hRxDone l f => exact Stable.engine (c := fun s => rxDoneEnabled s l f) (h.gap.rxDoneStep l f) hs ht
  | hRxStall => exact Stable.engine (c := fun s => stallEnabled s .rx) (h.gap.stallStep .rx) hs ht
  | hTxSample => exact Stable.engine (c := fun s => sampleEnabled s .tx) (h.gap.sampleStep .tx) hs ht
  | hTxDone => exact Stable.engine h.gap.txDoneStep hs ht
  | hTxStall => exact Stable.engine (c := fun s => stallEnabled s .tx) (h.gap.stallStep .tx) hs ht
  | hBusError => exact Stable.engine h.gap.busErrorStep hs ht

/-! ### Stable properties -/

theorem stable_memOk : Stable MemOk where
  gap := gapped_memOk
  wrote _ _ h := h
  path _ _ _ _ h := h
  regs _ _ _ h := h
  rx _ _ h := h
  tx _ _ h := h
  ndesc _ _ h := h
  ctx _ _ h := h
  link _ _ h := h
  seq _ _ h := h
  bring _ _ h := h
  fresh _ _ h := h
  out _ _ h := h
  calls _ _ h := h

theorem stable_eventOk : Stable EventOk where
  gap := gapped_eventOk
  wrote _ _ h := h
  path s r hr _ h hp := by
    show r.event < _
    rw [hr]
    exact h hp
  regs _ _ hr h hp := hr.2 _ (h hp)
  rx _ _ h := h
  tx _ _ h := h
  ndesc _ _ h := h
  ctx _ _ h := h
  link _ _ h := h
  seq _ _ h := h
  bring _ _ h := h
  fresh _ _ h := h
  out _ _ h := h
  calls _ _ h := h

/-- No event outside EV_ALL is unmasked. -/
abbrev MaskOk (s : State) : Prop := clearBits s.regs.evmask (evAll s.params) = 0

theorem stable_maskOk : Stable MaskOk where
  gap := { hw := fun _ _ h => h, env := fun _ _ _ h => h, event := fun _ _ _ h => h, rxOff := fun _ h => h
           txOff := fun _ h => h, bytes := fun _ _ _ h => h, pend := fun _ _ _ h => h, early := fun _ _ h => h }
  wrote _ _ h := h
  path s r _ hr h := by
    show clearBits r.evmask _ = 0
    rw [hr]
    exact h
  regs s r hr h := by
    rcases hr.1 with hr | hr
    · show clearBits r.evmask _ = 0
      rw [hr]
      exact h
    · exact hr
  rx _ _ h := h
  tx _ _ h := h
  ndesc _ _ h := h
  ctx _ _ h := h
  link _ _ h := h
  seq _ _ h := h
  bring _ _ h := h
  fresh _ _ h := h
  out _ _ h := h
  calls _ _ h := h

theorem stable_params (p : Params) : Stable fun s => s.params = p where
  gap := { hw := fun _ _ h => h, env := fun _ _ _ h => h, event := fun _ _ _ h => h, rxOff := fun _ h => h
           txOff := fun _ h => h, bytes := fun _ _ _ h => h, pend := fun _ _ _ h => h, early := fun _ _ h => h }
  wrote _ _ h := h
  path _ _ _ _ h := h
  regs _ _ _ h := h
  rx _ _ h := h
  tx _ _ h := h
  ndesc _ _ h := h
  ctx _ _ h := h
  link _ _ h := h
  seq _ _ h := h
  bring _ _ h := h
  fresh _ _ h := h
  out _ _ h := h
  calls _ _ h := h

theorem stable_handing (k : Nat) : Stable fun s => s.handing = k where
  gap := { hw := fun _ _ h => h, env := fun _ _ _ h => h, event := fun _ _ _ h => h, rxOff := fun _ h => h
           txOff := fun _ h => h, bytes := fun _ _ _ h => h, pend := fun _ _ _ h => h, early := fun _ _ h => h }
  wrote _ _ h := h
  path _ _ _ _ h := h
  regs _ _ _ h := h
  rx _ _ h := h
  tx _ _ h := h
  ndesc _ _ h := h
  ctx _ _ h := h
  link _ _ h := h
  seq _ _ h := h
  bring _ _ h := h
  fresh _ _ h := h
  out _ _ h := h
  calls _ _ h := h

/-- A hand-over ends with the group recorded: nothing is being handed over any more. -/
theorem handOverTx_handing (fs : List Frag) (b : Handle) :
    Ensures (fun _ => True) (handOverTx fs b) (fun _ s => s.handing = 0) := by
  intro s u t _ ht
  obtain ⟨_, _, -, ht⟩ := bind_ok ht
  obtain ⟨_, _, -, ht⟩ := bind_ok ht
  obtain ⟨_, _, -, ht⟩ := bind_ok ht
  obtain ⟨_, _, -, ht⟩ := bind_ok ht
  obtain ⟨_, v, hv, ht⟩ := bind_ok ht
  cases hv
  exact (stable_handing 0).enableTx _ u t rfl ht

/-- Between two operations no group is being handed over. -/
theorem exec_handing (i : Instr) {s t : State} (hs : s.handing = 0) (ht : exec i s = .next t) : t.handing = 0 :=
  exec_stable (stable_handing 0) (fun fs b => (handOverTx_handing fs b).pre fun _ _ => trivial) i hs ht

/-- No event of `e` is missing: the reapers and the supply clear none. -/
theorem served_events (e : Events) : Served fun s => clearBits e s.regs.event = 0 where
  gap := { hw := fun _ _ h => h, env := fun _ _ _ h => h, event := fun _ _ _ h => clearBits_or h, rxOff := fun _ h => h
           txOff := fun _ h => h, bytes := fun _ _ _ h => h, pend := fun _ _ _ h => h, early := fun _ _ h => h }
  wrote _ _ h := h
  path s r hr _ h := by
    show clearBits e r.event = 0
    rw [hr]
    exact h
  rx _ _ h := h
  tx _ _ h := h
  ndesc _ _ h := h
  calls _ _ h := h

end Sys2Proof.Machine
end

