-- ==== Sys2Proof/Laws/Sound.lean ====
section
/-!
SUPPORT. Laws/Sound.lean: what the ring operations do to C's private registers, and that they leave the rings sound
(10_state R30 to R38).
-/
namespace Sys2Proof.Machine

/-- The part of the private registers that reaping and supplying leave alone. -/
structure Rest where
  params    : Params
  rxAlive   : Bool
  txAlive   : Bool
  ctx       : Ctx
  link      : Link
  seq       : Seq
  bring     : BringUp
  coreFresh : Bool

def Private.rest (p : Private) : Rest := ⟨p.params, p.rx.alive, p.tx.alive, p.ctx, p.link, p.seq, p.bring, p.coreFresh⟩
def State.rest (s : State) : Rest := s.priv.rest

theorem priv_rest {α : Type} {x : Op α} (h : Leaves State.priv x) : Leaves State.rest x :=
  fun s a t hx => congrArg Private.rest (h s a t hx)

theorem owned_rest {α : Type} {x : Op α} (h : Leaves State.owned x) : Leaves State.rest x := priv_rest (owned_priv h)

/-- The sequencing side of a sound state depends on the rest only. -/
theorem SeqSound.congr {p q : Private} (h : SeqSound p) (e : q.rest = p.rest) : SeqSound q := by
  obtain ⟨h1, h2, h3, h4, h5, h6, h7, h8, h9⟩ := h
  simp only [Private.rest, Rest.mk.injEq] at e
  obtain ⟨e1, e2, e3, e4, e5, e6, e7, e8⟩ := e
  constructor <;> simpa only [e1, e2, e3, e4, e5, e6, e7, e8]

theorem Private.Sound.congr {p q : Private} (h : p.Sound) (e : q.rest = p.rest) (hr : RingsSound q) : q.Sound := by
  refine ⟨hr, ?_, ?_, h.seq.congr e⟩
  · have := h.core
    simp only [Private.rest, Rest.mk.injEq] at e
    simpa only [e] using this
  · have := h.ctx
    simp only [Private.rest, Rest.mk.injEq] at e
    simpa only [e] using this

/-- A property of the private registers that a piece of work leaves alone stays. -/
theorem Leaves.ensures {α γ : Type} {F : State → γ} {x : Op α} (h : Leaves F x) (v : γ) :
    Ensures (fun s => F s = v) x (fun _ s => F s = v) := fun s a t hs hx => (h s a t hx).trans hs

theorem Leaves.ensures_at {α γ : Type} {F : State → γ} {x : Op α} (h : Leaves F x) (s : State) :
    Ensures (· = s) x (fun _ t => F t = F s) := by
  rintro _ a t rfl hx
  exact h _ a t hx

/-! ### Soundness of the rings after a change of one ring -/

theorem RingsSound.setRx {p : Private} (h : RingsSound p) {r : Ring} (hr : r.Sound p.params.dmaAlign)
    (ha : r.alive = p.rx.alive) (hc : r.cap = p.rx.cap) (hb : r.base = p.rx.base) :
    RingsSound { p with rx := r } := by
  refine ⟨h.params, hr, h.tx, ha.trans h.both, ?_, h.counts, h.groups⟩
  intro a b m n h1 h2
  refine h.apart a b m n ?_ h2
  simpa only [Ring.block, ha, hc, hb] using h1

theorem RingsSound.setTx {p : Private} (h : RingsSound p) {r : Ring} {nd : List Nat} (hr : r.Sound p.params.dmaAlign)
    (ha : r.alive = p.tx.alive) (hc : r.cap = p.tx.cap) (hb : r.base = p.tx.base) (hn : nd.length = p.ndesc.length)
    (hg : r.alive = true → Groups r.cap nd r.head r.inflight) :
    RingsSound { p with tx := r, ndesc := nd } := by
  refine ⟨h.params, h.rx, hr, h.both.trans ha.symm, ?_, ?_, hg⟩
  · intro a b m n h1 h2
    refine h.apart a b m n h1 ?_
    simpa only [Ring.block, ha, hc, hb] using h2
  · intro h1
    exact (hn.trans (h.counts (ha ▸ h1))).trans hc.symm

/-! ### Sound rings -/

/-- The rings are sound, and the receive ring is alive. -/
def RxReady (s : State) : Prop := RingsSound s.priv ∧ s.rx.alive = true
def TxReady (s : State) : Prop := RingsSound s.priv ∧ s.tx.alive = true

theorem reenable_owned (d : Dir) : Leaves State.owned (reenable d) := by
  refine Leaves.bind Leaves.here fun _ => Leaves.ite ((regRead_owned _).bind fun _ => Leaves.ite Leaves.pure ?_)
    Leaves.pure
  cases d
  · exact writeRxEn_owned _
  · exact writeTxEn_owned _

theorem enableTx_owned : Leaves State.owned enableTx :=
  (regRead_owned _).bind fun _ => Leaves.ite Leaves.pure (writeTxEn_owned _)

/-- Work that keeps what C owns keeps any property of the private registers. -/
theorem keeps_priv {α : Type} {x : Op α} (h : Leaves State.priv x) (P : Private → Prop) :
    Keeps (fun s => P s.priv) x := h.keeps P

theorem rxReady_iff {s : State} : RxReady s ↔ RingsSound s.priv ∧ s.priv.rx.alive = true := Iff.rfl
theorem txReady_iff {s : State} : TxReady s ↔ RingsSound s.priv ∧ s.priv.tx.alive = true := Iff.rfl

/-! ### Reaping -/

/-- One turn of the receive reaper takes back the slot at the head. -/
theorem RxReady.take {s : State} (h : RxReady s) (hp : s.rx.pending = true) :
    RxReady (s.setRx (s.rx.take 1)) := by
  obtain ⟨hr, ha⟩ := h
  have hs := hr.rx
  have h1 := (Ring.pending_iff (hs.head ha) (hs.tail ha)).1 hp
  exact ⟨hr.setRx (hs.take ha (n := 1) h1) rfl rfl rfl, ha⟩

/-- A delivery updates what C owns by `f` after the gap and records the call. -/
theorem deliver_ensures {f : State → State} {p : Private} {Q : State → Prop} (hf : ∀ t, t.priv = p → Q (f t))
    (hc : ∀ t x, Q t → Q (t.setCalls x)) (c : Call) : Ensures (fun s => s.priv = p) (deliver f c) fun _ => Q :=
  ((owned_priv tick_owned).ensures p).bind fun _ => (Ensures.upd (Q := fun _ => Q) hf).bind fun _ =>
    Ensures.upd fun t ht => hc t _ ht

theorem reapRxLoop_ready (n : Nat) : Keeps RxReady (reapRxLoop n) := by
  induction n with
  | zero => exact Keeps.pure
  | succ n ih =>
    refine Ensures.here fun s hs => ?_
    split
    · next hp =>
      refine ((owned_priv (descRead_owned _ _ _)).ensures_at s).bind fun w =>
        ((owned_priv barrier_owned).ensures s.priv).bind fun _ => ?_
      split
      · exact Ensures.pure fun t ht => rxReady_iff.2 (ht ▸ rxReady_iff.1 hs)
      · refine ((owned_priv (descRead_owned _ _ _)).ensures s.priv).bind fun l => ?_
        refine (deliver_ensures (Q := RxReady) (fun t ht => ?_) (fun _ _ h => h) _).bind fun _ => ih
        have hrx : t.rx = s.rx := congrArg Private.rx ht
        have := RxReady.take (s := t) (rxReady_iff.2 (ht ▸ rxReady_iff.1 hs)) (hrx ▸ hp)
        rwa [hrx] at this ⊢
    · exact Ensures.pure fun t ht => ht ▸ hs

theorem reapRxLoop_rest (n : Nat) : Leaves (fun s => (s.rest, s.tx, s.ndesc)) (reapRxLoop n) := by
  have ho : ∀ {α : Type} {x : Op α}, Leaves State.priv x → Leaves (fun s => (s.rest, s.tx, s.ndesc)) x :=
    fun h s a t hx => congrArg (fun p : Private => (p.rest, p.tx, p.ndesc)) (h s a t hx)
  induction n with
  | zero => exact Leaves.pure
  | succ n ih =>
    exact Leaves.bind Leaves.here fun _ => Leaves.ite ((ho (owned_priv (descRead_owned _ _ _))).bind fun w =>
      (ho (owned_priv barrier_owned)).bind fun _ => Leaves.ite Leaves.pure
      ((ho (owned_priv (descRead_owned _ _ _))).bind fun l => (deliver_leaves (f := fun s => s.setRx (s.rx.take 1))
      (ho (owned_priv tick_owned)) (fun _ => rfl) (fun _ _ => rfl) _).bind fun _ => ih)) Leaves.pure

theorem groupBusy_owned (t n : Nat) : Leaves State.owned (groupBusy t n) := by
  induction n with
  | zero => exact Leaves.pure
  | succ n ih => exact ih.bind fun _ => Leaves.bind Leaves.here fun _ => (descRead_owned _ _ _).bind fun _ => Leaves.pure

/-- One turn of the transmit reaper takes back the group at the head. -/
theorem TxReady.take {s : State} (h : TxReady s) (hp : s.tx.pending = true) :
    TxReady (s.setTx (s.tx.take (s.ndesc.getD s.tx.head 0))) := by
  obtain ⟨hr, ha⟩ := h
  have hs := hr.tx
  have h1 := (Ring.pending_iff (hs.head ha) (hs.tail ha)).1 hp
  obtain ⟨h2, h3, h4⟩ := (hr.groups ha).first h1
  refine ⟨hr.setTx (hs.take ha h3) rfl rfl rfl rfl fun _ => ?_, ha⟩
  have e : (s.tx.take (s.ndesc.getD s.tx.head 0)).inflight = _ := Ring.take_inflight (hs.head ha) (hs.tail ha) h3
  show Groups s.tx.cap s.ndesc (s.tx.take (s.ndesc.getD s.tx.head 0)).head (s.tx.take (s.ndesc.getD s.tx.head 0)).inflight
  rw [e]
  exact h4

theorem reapTxLoop_ready (k : Nat) : Keeps TxReady (reapTxLoop k) := by
  induction k with
  | zero => exact Keeps.pure
  | succ k ih =>
    refine Ensures.here fun s hs => ?_
    split
    · next hp =>
      refine ((owned_priv (groupBusy_owned _ _)).ensures_at s).bind fun b => ?_
      split
      · exact Ensures.pure fun t ht => txReady_iff.2 (ht ▸ txReady_iff.1 hs)
      · refine ((owned_priv barrier_owned).ensures s.priv).bind fun _ => ?_
        refine (deliver_ensures (Q := TxReady) (fun t ht => ?_) (fun _ _ h => h) _).bind fun _ => ih
        have htx : t.tx = s.tx := congrArg Private.tx ht
        have hnd : t.ndesc = s.ndesc := congrArg Private.ndesc ht
        have := TxReady.take (s := t) (txReady_iff.2 (ht ▸ txReady_iff.1 hs)) (htx ▸ hp)
        rw [htx, hnd] at this
        rw [htx]
        exact this
    · exact Ensures.pure fun t ht => ht ▸ hs

theorem reapTxLoop_rest (k : Nat) : Leaves (fun s => (s.rest, s.rx, s.ndesc)) (reapTxLoop k) := by
  have ho : ∀ {α : Type} {x : Op α}, Leaves State.priv x → Leaves (fun s => (s.rest, s.rx, s.ndesc)) x :=
    fun h s a t hx => congrArg (fun p : Private => (p.rest, p.rx, p.ndesc)) (h s a t hx)
  induction k with
  | zero => exact Leaves.pure
  | succ k ih =>
    exact Leaves.bind Leaves.here fun _ => Leaves.ite ((ho (owned_priv (groupBusy_owned _ _))).bind fun b =>
      Leaves.ite Leaves.pure ((ho (owned_priv barrier_owned)).bind fun _ => (deliver_leaves (f := fun s => s.setTx (s.tx.take _))
      (ho (owned_priv tick_owned)) (fun _ => rfl) (fun _ _ => rfl) _).bind fun _ => ih)) Leaves.pure

theorem reapRx_ready : Keeps RxReady reapRx :=
  Keeps.bind Keeps.here fun _ => Keeps.bind Keeps.require fun _ => Keeps.bind (reapRxLoop_ready _) fun _ =>
    (owned_priv (reenable_owned _)).keeps fun p => RingsSound p ∧ p.rx.alive = true

theorem reapTx_ready : Keeps TxReady reapTx :=
  Keeps.bind Keeps.here fun _ => Keeps.bind Keeps.require fun _ => Keeps.bind (reapTxLoop_ready _) fun _ =>
    (owned_priv (reenable_owned _)).keeps fun p => RingsSound p ∧ p.tx.alive = true

theorem reapRx_rest : Leaves (fun s => (s.rest, s.tx, s.ndesc)) reapRx :=
  Leaves.bind Leaves.here fun _ => Leaves.require.bind fun _ => (reapRxLoop_rest _).bind fun _ => fun s a t hx =>
    congrArg (fun o : Owned => (o.priv.rest, o.priv.tx, o.priv.ndesc)) (reenable_owned _ s a t hx)

theorem reapTx_rest : Leaves (fun s => (s.rest, s.rx, s.ndesc)) reapTx :=
  Leaves.bind Leaves.here fun _ => Leaves.require.bind fun _ => (reapTxLoop_rest _).bind fun _ => fun s a t hx =>
    congrArg (fun o : Owned => (o.priv.rest, o.priv.rx, o.priv.ndesc)) (reenable_owned _ s a t hx)

/-! ### Supplying -/

/-- One slot of the receive ring handed over. -/
theorem RxReady.give {s : State} (h : RxReady s) (hn : 1 ≤ s.rx.remain) (b : Handle) :
    RxReady (s.setRx (s.rx.give 1 b)) := by
  obtain ⟨hr, ha⟩ := h
  exact ⟨hr.setRx (hr.rx.give ha (n := 1) hn b) rfl rfl rfl, ha⟩

theorem handOverRx_ready (pa : Nat) (b : Handle) (k : Nat) :
    Ensures (fun s => RxReady s ∧ k + 1 ≤ s.rx.remain) (handOverRx pa b) (fun _ s => RxReady s ∧ k ≤ s.rx.remain) := by
  refine Ensures.here fun s hs => ?_
  refine ((owned_priv (descWrite_owned _ _ _ _)).ensures_at s).bind fun _ =>
    ((owned_priv (descWrite_owned _ _ _ _)).ensures s.priv).bind fun _ =>
    ((owned_priv barrier_owned).ensures s.priv).bind fun _ =>
    ((owned_priv (descWrite_owned _ _ _ _)).ensures s.priv).bind fun _ => Ensures.upd fun t ht => ?_
  have hrx : t.rx = s.rx := congrArg Private.rx ht
  have := RxReady.give (s := t) (rxReady_iff.2 (ht ▸ rxReady_iff.1 hs.1)) (by rw [hrx]; omega) b
  refine ⟨?_, ?_⟩
  · rwa [hrx] at this ⊢
  · show k ≤ t.rx.remain - 1
    rw [hrx]
    omega

theorem acceptBuffer_owned (pa : Nat) : Leaves State.owned (acceptBuffer pa) :=
  Leaves.require.bind fun _ => Leaves.bind Leaves.here fun _ => Leaves.sound

theorem fillLoop_ready (n : Nat) :
    Ensures (fun s => RxReady s ∧ n ≤ s.rx.remain) (fillLoop n) (fun _ => RxReady) := by
  induction n with
  | zero => exact Ensures.pure fun _ h => h.1
  | succ n ih =>
    have hk : ∀ {α : Type} {x : Op α}, Leaves State.priv x → Keeps (fun s => RxReady s ∧ n + 1 ≤ s.rx.remain) x :=
      fun h => h.keeps fun p => (RingsSound p ∧ p.rx.alive = true) ∧ n + 1 ≤ p.rx.remain
    refine Ensures.bind (Q := fun _ s => RxReady s ∧ n + 1 ≤ s.rx.remain) Keeps.here fun _ =>
      Ensures.bind (hk (ask_priv _ _ _ _)) fun b => ?_
    cases b with
    | none => exact Ensures.pure fun _ h => h.1
    | some b =>
      exact Ensures.bind (hk (owned_priv (acceptBuffer_owned _))) fun _ => (handOverRx_ready _ _ n).bind fun _ => ih

theorem handOverRx_rest (pa : Nat) (b : Handle) : Leaves (fun s => (s.rest, s.tx, s.ndesc)) (handOverRx pa b) := by
  have ho : ∀ {α : Type} {x : Op α}, Leaves State.owned x → Leaves (fun s => (s.rest, s.tx, s.ndesc)) x :=
    fun h s a t hx => congrArg (fun o : Owned => (o.priv.rest, o.priv.tx, o.priv.ndesc)) (h s a t hx)
  exact Leaves.bind Leaves.here fun _ => (ho (descWrite_owned _ _ _ _)).bind fun _ => (ho (descWrite_owned _ _ _ _)).bind
    fun _ => (ho barrier_owned).bind fun _ => (ho (descWrite_owned _ _ _ _)).bind fun _ => Leaves.upd fun _ => rfl

theorem fillLoop_rest (n : Nat) : Leaves (fun s => (s.rest, s.tx, s.ndesc)) (fillLoop n) := by
  induction n with
  | zero => exact Leaves.pure
  | succ n ih =>
    refine Leaves.bind Leaves.here fun _ => Leaves.bind
      (fun s a t hx => congrArg (fun p : Private => (p.rest, p.tx, p.ndesc)) (ask_priv _ _ _ _ s a t hx)) fun b => ?_
    cases b with
    | none => exact Leaves.pure
    | some b =>
      exact Leaves.bind (fun s a t hx => congrArg (fun o : Owned => (o.priv.rest, o.priv.tx, o.priv.ndesc))
        (acceptBuffer_owned _ s a t hx)) fun _ => (handOverRx_rest _ _).bind fun _ => ih

theorem fillRx_ready : Keeps RxReady fillRx := by
  refine Ensures.here fun s hs => Ensures.bind (Q := fun _ t => t = s) ?_ fun _ =>
    ((fillLoop_ready s.rx.remain).pre ?_).bind fun _ =>
    (owned_priv (reenable_owned _)).keeps fun p => RingsSound p ∧ p.rx.alive = true
  · exact Ensures.require.post fun _ _ h => h.1
  · rintro t rfl
    exact ⟨hs, Nat.le_refl _⟩

theorem fillRx_rest : Leaves (fun s => (s.rest, s.tx, s.ndesc)) fillRx :=
  Leaves.bind Leaves.here fun _ => Leaves.require.bind fun _ => (fillLoop_rest _).bind fun _ => fun s a t hx =>
    congrArg (fun o : Owned => (o.priv.rest, o.priv.tx, o.priv.ndesc)) (reenable_owned _ s a t hx)

/-! ### Enqueueing -/

theorem writeFrags_owned (t k : Nat) (fs : List Frag) : Leaves State.owned (writeFrags t k fs) := by
  induction fs generalizing k with
  | nil => exact Leaves.pure
  | cons f fs ih =>
    exact Leaves.bind Leaves.here fun _ => (descWrite_owned _ _ _ _).bind fun _ => (descWrite_owned _ _ _ _).bind fun _ =>
      ih _

theorem writeStats_owned (t n k : Nat) (fs : List Frag) : Leaves State.owned (writeStats t n k fs) := by
  induction fs generalizing k with
  | nil => exact Leaves.pure
  | cons f fs ih =>
    exact Leaves.bind Leaves.here fun _ => (descWrite_owned _ _ _ _).bind fun _ => Leaves.bind (Leaves.upd fun _ => rfl)
      fun _ => ih _

/-- A group of `n` slots of the transmit ring handed over. -/
theorem TxReady.give {s : State} (h : TxReady s) {n : Nat} (h1 : 1 ≤ n) (hn : n ≤ s.tx.remain) (b : Handle) :
    TxReady ((s.setNdesc (s.ndesc.set s.tx.tail n)).setTx (s.tx.give n b)) := by
  obtain ⟨hr, ha⟩ := h
  have hs : s.tx.Sound s.params.dmaAlign := hr.tx
  have hh : s.tx.head < s.tx.cap := hs.head ha
  have ht : s.tx.tail < s.tx.cap := hs.tail ha
  have hv : s.tx.remain + s.tx.inflight + 2 = s.tx.cap := hs.reserve ha
  refine ⟨hr.setTx (hs.give ha hn b) rfl rfl rfl (by simp [State.priv]) fun _ => ?_, ha⟩
  have e : (s.tx.give n b).inflight = s.tx.inflight + n := Ring.give_inflight hh ht (by omega)
  show Groups s.tx.cap (s.ndesc.set s.tx.tail n) s.tx.head (s.tx.give n b).inflight
  rw [e]
  have hg := (hr.groups ha).set (t := s.tx.tail) (x := n) hh ?_
  · refine hg.append hh ?_ h1
    have hl : s.ndesc.length = s.tx.cap := hr.counts ha
    show (s.ndesc.set s.tx.tail n).getD ((s.tx.head + s.tx.inflight) % s.tx.cap) 0 = n
    rw [Ring.tail_eq hh ht, List.getD_eq_getElem?_getD, List.getElem?_set_self (by omega)]
    rfl
  · intro j hj
    show (s.tx.head + j) % s.tx.cap ≠ s.tx.tail
    have hj' : j < s.tx.inflight := hj
    rw [Ring.inflight_eq hh ht] at hj'
    rw [mod_once (by split at hj' <;> omega)]
    split at hj' <;> split <;> omega

theorem layGroup_owned (t : Nat) (fs : List Frag) : Leaves State.owned (layGroup t fs) :=
  (writeFrags_owned _ _ _).bind fun _ => barrier_owned

theorem handOverTx_ready (fs : List Frag) (b : Handle) :
    Ensures (fun s => TxReady s ∧ 1 ≤ fs.length ∧ fs.length ≤ s.tx.remain) (handOverTx fs b) (fun _ => TxReady) := by
  refine Ensures.here fun s hs => ?_
  refine Ensures.bind (Q := fun _ t => t.priv = s.priv) (Ensures.sound.post fun _ _ h => h.1 ▸ rfl) fun _ =>
    ((owned_priv (layGroup_owned _ _)).ensures s.priv).bind fun _ =>
    ((owned_priv (writeStats_owned _ _ _ _)).ensures s.priv).bind fun _ => Ensures.bind (Q := fun _ => TxReady) ?_ fun _ =>
    (owned_priv enableTx_owned).keeps fun p => RingsSound p ∧ p.tx.alive = true
  rintro t a u ht ⟨⟩
  have htx : t.tx = s.tx := congrArg Private.tx ht
  have := TxReady.give (s := t) (txReady_iff.2 (ht ▸ txReady_iff.1 hs.1)) (n := fs.length) hs.2.1
    (by rw [htx]; exact hs.2.2) b
  rw [htx] at this
  show TxReady ((t.setNdesc _).setTx (t.tx.give _ _))
  rw [htx]
  exact this

theorem handOverTx_rest (fs : List Frag) (b : Handle) : Leaves (fun s => (s.rest, s.rx)) (handOverTx fs b) := by
  have ho : ∀ {α : Type} {x : Op α}, Leaves State.owned x → Leaves (fun s => (s.rest, s.rx)) x :=
    fun h s a t hx => congrArg (fun o : Owned => (o.priv.rest, o.priv.rx)) (h s a t hx)
  exact Leaves.bind Leaves.here fun _ => Leaves.sound.bind fun _ => (ho (layGroup_owned _ _)).bind fun _ =>
    (ho (writeStats_owned _ _ _ _)).bind fun _ =>
    Leaves.bind (Leaves.bind (Leaves.upd fun _ => rfl) fun _ => Leaves.bind (Leaves.upd fun _ => rfl) fun _ =>
      Leaves.upd fun _ => rfl) fun _ => ho enableTx_owned

theorem enqTx_ready (fs : List Frag) (b : Handle) : Keeps TxReady (enqTx fs b) := by
  refine Ensures.bind (Q := fun _ s => TxReady s ∧ 1 ≤ fs.length) (Ensures.require.post fun _ s h => ⟨h.1, ?_⟩) fun _ => ?_
  · have := h.2
    cases fs with
    | nil => cases this
    | cons f fs => simp
  · refine Ensures.here fun s hs => Ensures.bind (Q := fun _ t => t = s) (Ensures.require.post fun _ _ h => h.1) fun _ => ?_
    split
    · refine Ensures.bind (Q := fun _ => TxReady) (reapTx_ready.pre fun t ht => ht ▸ hs.1) fun _ =>
        Ensures.here fun u hu => ?_
      split
      · exact Ensures.pure fun t ht => ht ▸ hu
      · next hlt =>
        refine Ensures.bind (Q := fun _ => TxReady) ((handOverTx_ready fs b).pre ?_) fun _ => Ensures.pure fun _ h => h
        rintro t rfl
        exact ⟨hu, hs.2, Nat.le_of_not_lt hlt⟩
    · next hlt =>
      refine Ensures.bind (Q := fun _ => TxReady) ((handOverTx_ready fs b).pre ?_) fun _ => Ensures.pure fun _ h => h
      rintro t rfl
      exact ⟨hs.1, hs.2, Nat.le_of_not_lt hlt⟩

theorem enqTx_rest (fs : List Frag) (b : Handle) : Leaves (fun s => (s.rest, s.rx)) (enqTx fs b) := by
  have hr : Leaves (fun s => (s.rest, s.rx)) reapTx := fun s a t hx =>
    congrArg (fun p : Rest × Ring × List Nat => (p.1, p.2.1)) (reapTx_rest s a t hx)
  exact Leaves.require.bind fun _ => Leaves.bind Leaves.here fun _ => Leaves.require.bind fun _ => Leaves.ite
    (hr.bind fun _ => Leaves.bind Leaves.here fun _ => Leaves.ite Leaves.pure
      ((handOverTx_rest _ _).bind fun _ => Leaves.pure)) ((handOverTx_rest _ _).bind fun _ => Leaves.pure)

end Sys2Proof.Machine
end

