-- ==== Sys2Proof/Laws/Life.lean ====
section
/-!
SUPPORT. Laws/Life.lean: what RING_INIT and RING_TEARDOWN do to C's private registers (40_ring_lifecycle R111, R112, R115)
and what the steps of bring-up do to the sequencer (44_link_bringup R150 to R165).
-/
namespace Sys2Proof.Machine

/-! ### RING_INIT -/

/-- The private registers once both rings stand; `k` and `j` number the free contents of the metadata arrays. -/
def Private.laid (p : Private) (capRx capTx : Nat) (a b : Word) (k j : Nat) : Private :=
  { p with
    rx := ⟨capRx, some a, 0, 0, capRx - 2, true, (List.range capRx).map (Config.freeHandle k)⟩
    tx := ⟨capTx, some b, 0, 0, capTx - 2, true, (List.range capTx).map (Config.freeHandle j)⟩
    ndesc := (List.range capTx).map (Config.freeNdesc k)
    coreFresh := false }

theorem initSlots_owned (d : Dir) (n : Nat) : Leaves State.owned (initSlots d n) := by
  induction n with
  | zero => exact Leaves.pure
  | succ n ih =>
    exact ih.bind fun _ => (descWrite_owned _ _ _ _).bind fun _ => (descWrite_owned _ _ _ _).bind fun _ =>
      Leaves.bind Leaves.here fun _ => descWrite_owned _ _ _ _

/-- An update whose effect on the private registers is `g`. -/
theorem Ensures.updPriv {f : State → State} {p : Private} (g : Private → Private) (h : ∀ s, (f s).priv = g s.priv) :
    Ensures (fun s => s.priv = p) (Machine.upd f) (fun _ s => s.priv = g p) :=
  Ensures.upd fun s hs => by rw [h, hs]

theorem freshMeta_priv (capRx capTx : Nat) (p : Private) :
    Ensures (fun s => s.priv = p) (freshMeta capRx capTx) (fun _ s => ∃ k j, s.priv = { p with
      rx := { p.rx with handle := (List.range capRx).map (Config.freeHandle k) }
      tx := { p.tx with handle := (List.range capTx).map (Config.freeHandle j) }
      ndesc := (List.range capTx).map (Config.freeNdesc k) }) := by
  refine ((owned_priv freshDraw_owned).ensures p).bind fun k => ((owned_priv freshDraw_owned).ensures p).bind fun j => ?_
  refine (Ensures.updPriv (fun p => { p with rx := { p.rx with handle := (List.range capRx).map (Config.freeHandle k) } })
    fun _ => rfl).bind fun _ => (Ensures.updPriv (fun p => { p with
      tx := { p.tx with handle := (List.range capTx).map (Config.freeHandle j) } }) fun _ => rfl).bind fun _ => ?_
  refine (Ensures.updPriv (fun p => { p with ndesc := (List.range capTx).map (Config.freeNdesc k) }) fun _ => rfl).post ?_
  exact fun _ s hs => ⟨k, j, hs⟩

theorem releaseDma_priv (a : Option Word) (n : Nat) : Leaves State.priv (releaseDma a n) := by
  cases a
  · exact Leaves.pure
  · exact call_priv _

theorem releaseMeta_priv (m : Bool) : Leaves State.priv (releaseMeta m) := by
  cases m
  · exact Leaves.pure
  · exact (call_priv _).bind fun _ => call_priv _

/-- RING_INIT as a whole: where it answers false, C's private registers are as they were; where it answers true, no ring
was alive, the blocks are within the allocator's contract, and both rings stand. -/
theorem ringInit_priv (capRx capTx : Nat) (p : Private) :
    Ensures (fun s => s.priv = p) (ringInit capRx capTx) (fun ok s =>
      (ok = false → s.priv = p) ∧
      (ok = true → 2 ≤ capRx ∧ 2 ≤ capTx ∧ p.rx.alive = false ∧ p.tx.alive = false ∧
        ∃ a b k j, allocOk p.params.dmaAlign a.toNat capRx b.toNat capTx = true ∧
          s.priv = p.laid capRx capTx a b k j)) := by
  refine Ensures.bind (Q := fun _ s => s.priv = p ∧ 2 ≤ capRx ∧ 2 ≤ capTx)
    (Ensures.require.post fun _ s h => ⟨h.1, by simpa using h.2⟩) fun _ => Ensures.here fun s hs => ?_
  obtain ⟨hp, hc1, hc2⟩ := hs
  have hpar : s.params = p.params := congrArg Private.params hp
  refine Ensures.bind (Q := fun _ t => t.priv = p ∧ p.rx.alive = false ∧ p.tx.alive = false)
    (Ensures.require.post fun _ t h => ?_) fun _ => ?_
  · obtain ⟨h1, h2⟩ := h
    subst h1
    subst hp
    simpa [State.priv] using h2
  have hk : ∀ {α : Type} {x : Op α}, Leaves State.priv x →
      Keeps (fun t => t.priv = p ∧ p.rx.alive = false ∧ p.tx.alive = false) x :=
    fun h => h.keeps fun q => q = p ∧ p.rx.alive = false ∧ p.tx.alive = false
  refine Ensures.bind (hk (ask_priv _ _ _ _)) fun x => Ensures.bind (hk (ask_priv _ _ _ _)) fun y =>
    Ensures.bind (hk (ask_priv _ _ _ _)) fun m => ?_
  have hfail : Ensures (fun t => t.priv = p ∧ p.rx.alive = false ∧ p.tx.alive = false) (do
      releaseDma x (descSize * capRx)
      releaseDma y (descSize * capTx)
      releaseMeta m
      pure false : Op Bool) (fun ok s =>
      (ok = false → s.priv = p) ∧
      (ok = true → 2 ≤ capRx ∧ 2 ≤ capTx ∧ p.rx.alive = false ∧ p.tx.alive = false ∧
        ∃ a b k j, allocOk p.params.dmaAlign a.toNat capRx b.toNat capTx = true ∧
          s.priv = p.laid capRx capTx a b k j)) :=
    Ensures.bind (hk (releaseDma_priv _ _)) fun _ => Ensures.bind (hk (releaseDma_priv _ _)) fun _ =>
      Ensures.bind (hk (releaseMeta_priv _)) fun _ => Ensures.pure fun t ht => ⟨fun _ => ht.1, by simp⟩
  cases x with
  | none => exact hfail
  | some a =>
    cases y with
    | none => exact hfail
    | some b =>
      cases m with
      | false => exact hfail
      | true =>
        refine Ensures.bind (Q := fun _ t => t.priv = p ∧ p.rx.alive = false ∧ p.tx.alive = false ∧
            allocOk p.params.dmaAlign a.toNat capRx b.toNat capTx = true)
          (Ensures.require.post fun _ t h => ⟨h.1.1, h.1.2.1, h.1.2.2, hpar ▸ h.2⟩) fun _ => ?_
        intro t ok u ⟨ht, hr1, hr2, hal⟩ hu
        refine Ensures.bind (Q := fun _ s => s.priv = { p with rx := { p.rx with base := some a, cap := capRx } })
          (Ensures.updPriv (p := p) (fun p => { p with rx := { p.rx with base := some a, cap := capRx } }) fun _ => rfl)
          (R := fun ok s => (ok = false → s.priv = p) ∧
            (ok = true → 2 ≤ capRx ∧ 2 ≤ capTx ∧ p.rx.alive = false ∧ p.tx.alive = false ∧
            ∃ a b k j, allocOk p.params.dmaAlign a.toNat capRx b.toNat capTx = true ∧
            s.priv = p.laid capRx capTx a b k j)) (fun _ => ?_) t ok u ht hu
        refine (Ensures.updPriv (fun p => { p with tx := { p.tx with base := some b, cap := capTx } }) fun _ => rfl).bind
          fun _ => (freshMeta_priv capRx capTx _).bind fun _ => ?_
        intro t ok u ⟨k, j, ht⟩ hu
        refine Ensures.bind (Ensures.updPriv (fun p => { p with coreFresh := false }) fun _ => rfl)
          (R := fun ok s => (ok = false → s.priv = p) ∧
            (ok = true → 2 ≤ capRx ∧ 2 ≤ capTx ∧ p.rx.alive = false ∧ p.tx.alive = false ∧
            ∃ a b k j, allocOk p.params.dmaAlign a.toNat capRx b.toNat capTx = true ∧
            s.priv = p.laid capRx capTx a b k j)) (fun _ => ?_) t ok u ht hu
        refine Ensures.bind (((owned_priv (initSlots_owned _ _)).ensures _).bind fun _ =>
          Ensures.updPriv (fun p => { p with rx := p.rx.opened }) fun _ => rfl) fun _ => ?_
        refine Ensures.bind (((owned_priv (initSlots_owned _ _)).ensures _).bind fun _ =>
          Ensures.updPriv (fun p => { p with tx := p.tx.opened }) fun _ => rfl) fun _ => ?_
        exact Ensures.pure fun v hv => ⟨by simp, fun _ => ⟨hc1, hc2, hr1, hr2, a, b, k, j, hal, hv⟩⟩

/-- Rings just laid are sound. -/
theorem RingsSound.laid {p : Private} {capRx capTx k j : Nat} {a b : Word} (hp : p.params.wf = true)
    (h1 : 2 ≤ capRx) (h2 : 2 ≤ capTx) (hal : allocOk p.params.dmaAlign a.toNat capRx b.toNat capTx = true) :
    RingsSound (p.laid capRx capTx a b k j) := by
  simp only [allocOk, Bool.and_eq_true, decide_eq_true_eq, Bool.not_eq_true'] at hal
  obtain ⟨⟨⟨⟨ha, hb⟩, ha'⟩, hb'⟩, hd⟩ := hal
  refine ⟨hp, ?_, ?_, rfl, ?_, fun _ => by simp [Private.laid], fun _ => ?_⟩
  · exact Ring.Sound.fresh h1 rfl rfl rfl (by simp [Private.laid]) ⟨a, rfl, ha, ha'⟩ rfl
  · exact Ring.Sound.fresh h2 rfl rfl rfl (by simp [Private.laid]) ⟨b, rfl, hb, hb'⟩ rfl
  · intro x y m n hx hy
    simp only [Private.laid, Ring.block, Option.some.injEq, Prod.mk.injEq] at hx hy
    obtain ⟨rfl, rfl⟩ := hx
    obtain ⟨rfl, rfl⟩ := hy
    exact hd
  · have e : (p.laid capRx capTx a b k j).tx.inflight = 0 := by
      simp [Private.laid, Ring.inflight]
    rw [e]
    exact .nil _

/-! ### RING_TEARDOWN -/

/-- After RING_TEARDOWN no ring is alive and none has a base; the other private registers are as they were, but the MAC
core must be initialised anew before the MAC is enabled (70_reset_and_hazards R240). -/
structure Released (p q : Private) : Prop where
  rx     : q.rx.alive = false
  tx     : q.tx.alive = false
  rxBase : p.rx.alive = true ∨ p.rx.base = none → q.rx.base = none
  txBase : p.tx.alive = true ∨ p.tx.base = none → q.tx.base = none
  params : q.params = p.params
  ctx    : q.ctx = p.ctx
  link   : q.link = p.link
  seq    : q.seq = p.seq
  bring  : q.bring = p.bring
  fresh  : q.coreFresh = false

/-- One ring is not alive any more, and nothing else private is changed. -/
def Closed (d : Dir) (p : Private) (s : State) : Prop :=
  match d with
  | .rx => s.priv = { p with rx := s.rx } ∧ s.rx.alive = false ∧ (p.rx.alive = true ∨ p.rx.base = none → s.rx.base = none)
  | .tx => s.priv = { p with tx := s.tx } ∧ s.tx.alive = false ∧ (p.tx.alive = true ∨ p.tx.base = none → s.tx.base = none)

theorem closeRing_priv (d : Dir) (p : Private) :
    Ensures (fun s => s.priv = p) (closeRing d) (fun _ s => Closed d p s) := by
  refine Ensures.here fun s hs => ?_
  have hend : Ensures (fun t => t.priv = p) (do
      call (.metaFree d)
      let k ← freshDraw
      upd fun s => s.setRing d
        { cap := Config.freeRingReg k 0, base := none, head := Config.freeRingReg k 1, tail := Config.freeRingReg k 2,
          remain := Config.freeRingReg k 3, alive := false, handle := [] }) (fun _ s => Closed d p s) := by
    refine ((call_priv _).ensures p).bind fun _ => ((owned_priv freshDraw_owned).ensures p).bind fun k =>
      Ensures.upd fun t ht => ?_
    subst ht
    cases d
    · exact ⟨rfl, rfl, fun _ => rfl⟩
    · exact ⟨rfl, rfl, fun _ => rfl⟩
  refine Ensures.ite (fun _ => ?_) fun hal => Ensures.pure fun t ht => ?_
  · cases hb : (s.ring d).base with
    | none =>
      refine Ensures.pre hend ?_
      rintro t rfl
      exact hs
    | some b => exact (((call_priv _).ensures_at s).post fun _ t ht => ht.trans hs).bind fun _ => hend
  · subst ht
    subst hs
    cases d
    · exact ⟨rfl, by simpa using hal, fun h => h.resolve_left (by simpa [State.priv] using hal)⟩
    · exact ⟨rfl, by simpa using hal, fun h => h.resolve_left (by simpa [State.priv] using hal)⟩

theorem ringTeardown_priv (p : Private) : Ensures (fun s => s.priv = p) ringTeardown (fun _ s => Released p s.priv) := by
  intro s u t hs ht
  obtain ⟨_, s1, h1, ht⟩ := bind_ok ht
  obtain ⟨e1, a1, b1⟩ := closeRing_priv .rx p s _ s1 hs h1
  obtain ⟨_, s2, h2, ht⟩ := bind_ok ht
  obtain ⟨s1', _, hh, h2⟩ := bind_ok h2
  cases hh
  have e2 : s2.priv = { s1.priv with ndesc := s2.ndesc } := by
    split at h2 <;> cases h2 <;> rfl
  obtain ⟨_, s3, h3, ht⟩ := bind_ok ht
  obtain ⟨e3, a3, b3⟩ := closeRing_priv .tx s2.priv s2 _ s3 rfl h3
  cases ht
  have hp : (s3.setCoreFresh false).priv = { s3.priv with coreFresh := false } := rfl
  rw [hp, e3, e2, e1]
  refine ⟨?_, a3, ?_, ?_, rfl, rfl, rfl, rfl, rfl, rfl⟩
  · exact a1
  · exact b1
  · intro h
    refine b3 ?_
    rw [e2, e1]
    exact h

/-- Rings just released are sound. -/
theorem RingsSound.released {p q : Private} (h : RingsSound p) (r : Released p q) : RingsSound q := by
  have hrx : q.rx.base = none := r.rxBase (by
    cases ha : p.rx.alive
    · exact .inr (h.rx.gone ha)
    · exact .inl rfl)
  have htx : q.tx.base = none := r.txBase (by
    cases ha : p.tx.alive
    · exact .inr (h.tx.gone ha)
    · exact .inl rfl)
  refine ⟨r.params ▸ h.params, .dead r.rx hrx, .dead r.tx htx, r.rx.trans r.tx.symm, ?_, ?_, ?_⟩
  · intro a b m n ha
    simp [Ring.block, hrx] at ha
  · intro hx
    rw [r.tx] at hx
    cases hx
  · intro hx
    rw [r.tx] at hx
    cases hx

end Sys2Proof.Machine
end

