-- ==== Sys2Proof/Laws/Bringup.lean ====
section
/-!
SUPPORT. Laws/Bringup.lean: the steps of bring-up run in order, and an error leaves nothing half built but after a failed
MAC-core initialisation (44_link_bringup R150 to R165).
-/
namespace Sys2Proof.Machine

/-- C's private registers while bring-up stands before step `k` (`k = 0`: after step 10). -/
structure AtStep (k : Nat) (p : Private) : Prop where
  rings : RingsSound p
  mode  : p.seq.mode = .bringUp
  step  : p.seq.bstep = k
  busy  : p.seq.busy = true
  core  : p.coreFresh = true → p.rx.alive = true
  ctx   : p.ctx.alive = false → p.ctx.regs = none
  early : 1 ≤ k → k ≤ 2 → p.ctx.alive = false ∧ p.rx.alive = false
  late  : k = 0 ∨ 3 ≤ k → p.ctx.alive = true ∧ p.rx.alive = true
  fresh : k = 0 ∨ 6 ≤ k → p.coreFresh = true
  link  : k = 0 ∨ k = 10 → p.params.speedSet.contains p.link.speed = true

/-- C's private registers after the error `e` ended bring-up, before the operation ends: released, or dead with nothing released
(R164, R165). -/
structure Ended (e : Err) (p : Private) : Prop where
  rings : RingsSound p
  step  : p.seq.bstep = 0
  core  : p.coreFresh = true → p.rx.alive = true
  ctx   : p.ctx.alive = false → p.ctx.regs = none
  mode  : p.seq.mode = .off ∧ e.code ∈ abortCodes ∧ p.ctx.alive = false ∧ p.rx.alive = false ∨
    p.seq.mode = .dead ∧ e = .macCoreInitFailed ∧ p.ctx.alive = true ∧ p.rx.alive = true

/-- Where a step leaves C's private registers: before step `k`, or ended by an error. -/
def After (k : Nat) (r : Option Err) (s : State) : Prop :=
  match r with
  | none => AtStep k s.priv
  | some e => Ended e s.priv

/-- What bring-up keeps while it goes on: everything but where the sequencer stands. -/
theorem AtStep.move {k j : Nat} {p q : Private} (h : AtStep k p) (hk : 1 ≤ k) (hj : j = k + 1 ∨ j = 0 ∧ k = 10)
    (e : q = { p with seq := { p.seq with bstep := j } }) (h2 : k ≤ 2 → j ≤ 2) (h5 : j ≠ 6)
    (h9 : j ≠ 10) : AtStep j q := by
  subst e
  obtain ⟨hr, hm, hs, hb, hc, hx, he, hl, hf, hn⟩ := h
  refine ⟨⟨hr.params, hr.rx, hr.tx, hr.both, hr.apart, hr.counts, hr.groups⟩, hm, rfl, hb, hc, hx, ?_, ?_, ?_, ?_⟩
  · intro h1 h2; exact he hk (by omega)
  · intro h1; exact hl (by omega)
  · intro h1; exact hf (by omega)
  · intro h1; exact hn (by omega)

theorem goTo_priv (j : Nat) (p : Private) : Ensures (fun s => s.priv = p) (goTo j)
    (fun r s => r = none ∧ s.priv = { p with seq := { p.seq with bstep := j } }) :=
  (Ensures.updPriv (fun p => { p with seq := { p.seq with bstep := j } }) fun _ => rfl).bind fun _ =>
    Ensures.pure fun _ h => ⟨rfl, h⟩

/-- The last act of a step that went well and changed nothing the sequencer cares about. -/
theorem goTo_move {k j : Nat} (hk : 1 ≤ k) (hj : j = k + 1 ∨ j = 0 ∧ k = 10) (h2 : k ≤ 2 → j ≤ 2) (h5 : j ≠ 6)
    (h9 : j ≠ 10) : Ensures (fun s => AtStep k s.priv) (goTo j) (After j) := by
  intro s r t hs ht
  obtain ⟨rfl, e⟩ := goTo_priv j s.priv s r t rfl ht
  exact hs.move hk hj e h2 h5 h9

theorem failEarly_after (e : Err) (k j : Nat) (h1 : 1 ≤ j) (h2 : j ≤ 2) (h : e.code ∈ abortCodes := by decide) :
    Ensures (fun s => AtStep j s.priv) (failEarly e) (After k) := by
  refine Ensures.bind (Q := fun _ s => Ended e s.priv) (Ensures.upd fun s hs => ?_) fun _ => Ensures.pure fun _ h => h
  obtain ⟨hr, hm, hst, hb, hc, hx, he, -, -, -⟩ := hs
  exact ⟨⟨hr.params, hr.rx, hr.tx, hr.both, hr.apart, hr.counts, hr.groups⟩, rfl, hc, hx, .inl ⟨rfl, h, he h1 h2⟩⟩

/-- `abort` releases rings and context and leaves the machine off. -/
theorem abort_after (e : Err) (k : Nat) (h : e.code ∈ abortCodes := by decide) :
    Ensures (fun s => RingsSound s.priv) (abort e) (After k) := by
  intro s r t hs ht
  obtain ⟨_, s1, h1, ht⟩ := bind_ok ht
  have hr := ringTeardown_priv s.priv s _ s1 rfl h1
  obtain ⟨_, s2, h2, ht⟩ := bind_ok ht
  have e2 := call_priv _ s1 _ s2 h2
  cases ht
  have hg := (hs.released hr)
  have e3 : ∀ (c : Ctx) (q : Seq), ((s2.setCtx c).setSeq q).priv = { s1.priv with ctx := c, seq := q } := by
    intro c q
    rw [← e2]
    rfl
  show Ended e _
  rw [e3]
  exact ⟨⟨hg.params, hg.rx, hg.tx, hg.both, hg.apart, hg.counts, hg.groups⟩, rfl,
    fun h => Bool.noConfusion (hr.fresh.symm.trans h), fun _ => rfl, .inl ⟨rfl, h, rfl, hr.rx⟩⟩

theorem keeps_atStep {α : Type} {x : Op α} (h : Leaves State.priv x) (k : Nat) :
    Ensures (fun s => AtStep k s.priv) x (fun _ s => AtStep k s.priv) := h.keeps (AtStep k)

theorem atStep_rings {k : Nat} {s : State} (h : AtStep k s.priv) : RingsSound s.priv := h.rings

theorem abort_at (e : Err) (k j : Nat) (h : e.code ∈ abortCodes := by decide) :
    Ensures (fun s => AtStep k s.priv) (abort e) (After j) :=
  (abort_after e j h).pre fun _ => atStep_rings

theorem setBring_atStep {k : Nat} (f : State → BringUp) :
    Ensures (fun s => AtStep k s.priv) (upd fun s => s.setBring (f s)) (fun _ s => AtStep k s.priv) := by
  refine Keeps.upd fun s h => ?_
  obtain ⟨hr, hm, hst, hb, hc, hx, he, hl, hf, hn⟩ := h
  exact ⟨⟨hr.params, hr.rx, hr.tx, hr.both, hr.apart, hr.counts, hr.groups⟩, hm, hst, hb, hc, hx, he, hl, hf, hn⟩

/-! ### The ten steps -/

theorem bu1_after : Ensures (fun s => AtStep 1 s.priv) bu1 (After 2) := by
  have hgo := goTo_move (k := 1) (j := 2) (by omega) (by omega) (by omega) (by omega) (by omega)
  refine Ensures.bind (Q := fun _ s => AtStep 1 s.priv) Keeps.here fun s => Ensures.ite
    (fun _ => (setBring_atStep _).bind fun _ => hgo)
    (fun _ => (keeps_atStep (ask_priv _ _ _ _) 1).bind fun f => ?_)
  cases f with
  | none => exact failEarly_after _ 2 1 (by omega) (by omega)
  | some m => exact (setBring_atStep _).bind fun _ => hgo

theorem bu2_after : Ensures (fun s => AtStep 2 s.priv) bu2 (After 3) := by
  refine (keeps_atStep (ask_priv _ _ _ _) 2).bind fun got => Ensures.ite (fun _ => ?_)
    (fun _ => failEarly_after _ 3 2 (by omega) (by omega))
  intro s r t hs ht
  obtain ⟨hr, hm, hst, hb, hc, hx, he, -, -, -⟩ := hs
  have hx' := he (by omega) (by omega)
  obtain ⟨_, s1, h1, ht⟩ := bind_ok ht
  cases h1
  obtain ⟨s1, _, h1, ht⟩ := bind_ok ht
  cases h1
  obtain ⟨ok, s2, h2, ht⟩ := bind_ok ht
  obtain ⟨hf, hk⟩ := ringInit_priv _ _ _ _ ok s2 rfl h2
  cases ok with
  | false =>
    have e := hf rfl
    refine abort_after .ringInitFailed 3 (by decide) s2 r t ?_ ht
    show RingsSound s2.priv
    rw [e]
    exact ⟨hr.params, hr.rx, hr.tx, hr.both, hr.apart, hr.counts, hr.groups⟩
  | true =>
    obtain ⟨c1, c2, -, -, a, b, k, j, hal, e⟩ := hk rfl
    obtain ⟨rfl, e'⟩ := goTo_priv 3 s2.priv s2 r t rfl ht
    have hg := RingsSound.laid (p := s.priv) (k := k) (j := j) hr.params c1 c2 hal
    show AtStep 3 t.priv
    rw [e', e]
    exact ⟨⟨hg.params, hg.rx, hg.tx, hg.both, hg.apart, hg.counts, hg.groups⟩, hm, rfl, hb, fun _ => rfl,
      fun h => (by cases h), fun _ h => absurd h (by omega), fun _ => ⟨rfl, rfl⟩, fun h => absurd h (by omega),
      fun h => absurd h (by omega)⟩

theorem bu3_after : Ensures (fun s => AtStep 3 s.priv) bu3 (After 4) :=
  Ensures.bind (Q := fun _ s => AtStep 3 s.priv) Keeps.here fun _ => Ensures.ite (fun _ => abort_at _ 3 4) fun _ =>
    (keeps_atStep (ask_priv _ _ _ _) 3).bind fun _ => Ensures.ite
      (fun _ => goTo_move (by omega) (by omega) (by omega) (by omega) (by omega)) (fun _ => abort_at _ 3 4)

theorem bu4_after : Ensures (fun s => AtStep 4 s.priv) bu4 (After 5) := by
  refine (keeps_atStep (ask_priv _ _ _ _) 4).bind fun m => ?_
  cases m with
  | none => exact abort_at _ 4 5
  | some h =>
    refine Ensures.bind (Q := fun _ s => AtStep 4 s.priv) (Ensures.upd fun s hs => ?_) fun _ =>
      goTo_move (by omega) (by omega) (by omega) (by omega) (by omega)
    obtain ⟨hr, hm, hst, hb, hc, hx, he, hl, hf, hn⟩ := hs
    have hl' := hl (by omega)
    exact ⟨⟨hr.params, hr.rx, hr.tx, hr.both, hr.apart, hr.counts, hr.groups⟩, hm, hst, hb, hc,
      fun h => Bool.noConfusion (hl'.1.symm.trans h), he, hl, hf, hn⟩

theorem onBit_priv (m : BitVec 9) (k : Nat) {x : Op Unit} (h : Leaves State.priv x) : Leaves State.priv (onBit m k x) :=
  Leaves.ite h Leaves.pure

theorem coreWrites_priv (m : BitVec 9) (a b c : Word) (mac : Mac) : Leaves State.priv (coreWrites m a b c mac) :=
  (onBit_priv _ _ (regWrite_priv _)).bind fun _ => (onBit_priv _ _ (owned_priv (writeRxEn_owned _))).bind fun _ =>
    (onBit_priv _ _ (owned_priv (writeTxEn_owned _))).bind fun _ => (onBit_priv _ _ (regWrite_priv _)).bind fun _ =>
    (onBit_priv _ _ (regWrite_priv _)).bind fun _ => (onBit_priv _ _ (regWrite_priv _)).bind fun _ =>
    (onBit_priv _ _ (regWrite_priv _)).bind fun _ => (onBit_priv _ _ (regWrite_priv _)).bind fun _ =>
    onBit_priv _ _ (Leaves.upd fun _ => rfl)

/-- MAC_CORE_INIT marks the core as freshly initialised where it succeeds, and needs both rings alive. -/
theorem macCoreInit_priv (a b c : Word) (mac : Mac) (p : Private) :
    Ensures (fun s => s.priv = p) (macCoreInit a b c mac) (fun ok s => p.rx.alive = true ∧ p.tx.alive = true ∧
      (ok = true → s.priv = { p with coreFresh := true }) ∧ (ok = false → s.priv = p)) := by
  refine Ensures.here fun s hs => ?_
  refine Ensures.bind (Q := fun _ t => t.priv = p ∧ p.rx.alive = true ∧ p.tx.alive = true)
    (Ensures.require.post fun _ t h => ?_) fun _ => ?_
  · obtain ⟨h1, h2⟩ := h
    subst h1
    subst hs
    simpa [State.priv] using h2
  have hk : ∀ {α : Type} {x : Op α}, Leaves State.priv x →
      Keeps (fun t => t.priv = p ∧ p.rx.alive = true ∧ p.tx.alive = true) x :=
    fun h => h.keeps fun q => q = p ∧ p.rx.alive = true ∧ p.tx.alive = true
  refine Ensures.bind (hk (ask_priv _ _ _ _)) fun ok => Ensures.ite (fun _ => ?_) (fun _ => ?_)
  · refine Ensures.bind (hk (coreWrites_priv _ _ _ _ _)) fun _ => Ensures.bind
      (Q := fun _ t => t.priv = { p with coreFresh := true } ∧ p.rx.alive = true ∧ p.tx.alive = true)
      (Ensures.upd fun t ht => ⟨?_, ht.2⟩) fun _ => Ensures.pure fun t ht => ⟨ht.2.1, ht.2.2, fun _ => ht.1, by simp⟩
    rw [← ht.1]
    rfl
  · exact Ensures.bind (hk (owned_priv drawCoreWrites_owned)) fun _ => Ensures.bind (hk (coreWrites_priv _ _ _ _ _))
      fun _ => Ensures.pure fun t ht => ⟨ht.2.1, ht.2.2, by simp, fun _ => ht.1⟩

theorem bu5_after : Ensures (fun s => AtStep 5 s.priv) bu5 (After 6) := by
  intro s r t hs ht
  obtain ⟨s0, _, h0, ht⟩ := bind_ok ht
  cases h0
  obtain ⟨ok, s1, h1, ht⟩ := bind_ok ht
  obtain ⟨-, -, hk, hf⟩ := macCoreInit_priv _ _ _ _ s.priv s ok s1 rfl h1
  obtain ⟨hr, hm, hst, hb, hc, hx, he, hl, hf', hn⟩ := hs
  have hl' := hl (by omega)
  cases ok with
  | true =>
    obtain ⟨rfl, e'⟩ := goTo_priv 6 s1.priv s1 r t rfl ht
    show AtStep 6 t.priv
    rw [e', hk rfl]
    exact ⟨⟨hr.params, hr.rx, hr.tx, hr.both, hr.apart, hr.counts, hr.groups⟩, hm, rfl, hb, fun _ => hl'.2, hx,
      fun _ h => absurd h (by omega), fun _ => hl', fun _ => rfl, fun h => absurd h (by omega)⟩
  | false =>
    have e := hf rfl
    cases ht
    have e3 : ∀ (q : Seq), (s1.setSeq q).priv = { s.priv with seq := q } := by
      intro q
      rw [← e]
      rfl
    show Ended .macCoreInitFailed _
    rw [e3]
    exact ⟨⟨hr.params, hr.rx, hr.tx, hr.both, hr.apart, hr.counts, hr.groups⟩, rfl, hc, hx, .inr ⟨rfl, rfl, hl'⟩⟩

theorem bu6_after : Ensures (fun s => AtStep 6 s.priv) bu6 (After 7) :=
  Ensures.bind (Q := fun _ s => AtStep 6 s.priv) Keeps.here fun _ => (keeps_atStep (regWrite_priv _) 6).bind fun _ =>
    goTo_move (by omega) (by omega) (by omega) (by omega) (by omega)

theorem bu7_after : Ensures (fun s => AtStep 7 s.priv) bu7 (After 8) := by
  refine Ensures.bind (Q := fun _ s => AtStep 7 s.priv) Keeps.here fun _ => Ensures.ite (fun _ => abort_at _ 7 8) fun _ =>
    (keeps_atStep (ask_priv _ _ _ _) 7).bind fun _ => Ensures.ite (fun _ =>
      (keeps_atStep (ask_priv _ _ _ _) 7).bind fun q => ?_) (fun _ => abort_at _ 7 8)
  cases q with
  | none => exact abort_at _ 7 8
  | some phy =>
    exact (setBring_atStep _).bind fun _ => goTo_move (by omega) (by omega) (by omega) (by omega) (by omega)

theorem bu8_after : Ensures (fun s => AtStep 8 s.priv) bu8 (After 9) := by
  refine Ensures.bind (Q := fun _ s => AtStep 8 s.priv) Keeps.here fun _ => (keeps_atStep (ask_priv _ _ _ _) 8).bind
    fun _ => Ensures.ite (fun _ => ?_) (fun _ => abort_at _ 8 9)
  refine Ensures.bind (Q := fun _ s => AtStep 8 s.priv) (keeps_atStep (Leaves.bind Leaves.here fun _ => ask_priv _ _ _ _) 8)
    fun q => ?_
  cases q with
  | none => exact abort_at _ 8 9
  | some q =>
    refine Ensures.bind (Q := fun _ s => AtStep 8 s.priv) (Ensures.upd fun s hs => ?_) fun _ =>
      goTo_move (by omega) (by omega) (by omega) (by omega) (by omega)
    obtain ⟨hr, hm, hst, hb, hc, hx, he, hl, hf, -⟩ := hs
    exact ⟨⟨hr.params, hr.rx, hr.tx, hr.both, hr.apart, hr.counts, hr.groups⟩, hm, hst, hb, hc, hx, he, hl, hf,
      fun h => absurd h (by omega)⟩

theorem setSpeedDuplex_priv (v : Nat) (d : Duplex) (p : Private) :
    Ensures (fun s => s.priv = p) (setSpeedDuplex v d) (fun _ s => s.priv = p ∧ p.params.speedSet.contains v = true) := by
  refine Ensures.here fun s hs => ?_
  refine Ensures.bind (Q := fun _ t => t.priv = p ∧ p.params.speedSet.contains v = true)
    (Ensures.require.post fun _ t h => ?_) fun _ =>
    (regWrite_priv _).keeps fun q => q = p ∧ p.params.speedSet.contains v = true
  obtain ⟨h1, h2⟩ := h
  subst h1
  subst hs
  exact ⟨rfl, h2⟩

theorem bu9_after : Ensures (fun s => AtStep 9 s.priv) bu9 (After 10) := by
  intro s r t hs ht
  obtain ⟨s0, _, h0, ht⟩ := bind_ok ht
  cases h0
  obtain ⟨_, s1, h1, ht⟩ := bind_ok ht
  obtain ⟨e, hsp⟩ := setSpeedDuplex_priv _ _ s.priv s _ s1 rfl h1
  obtain ⟨rfl, e'⟩ := goTo_priv 10 s1.priv s1 r t rfl ht
  obtain ⟨hr, hm, hst, hb, hc, hx, he, hl, hf, hn⟩ := hs
  show AtStep 10 t.priv
  rw [e', e]
  exact ⟨⟨hr.params, hr.rx, hr.tx, hr.both, hr.apart, hr.counts, hr.groups⟩, hm, rfl, hb, hc, hx,
    fun _ h => absurd h (by omega), fun _ => hl (by omega), fun _ => hf (by omega), fun _ => hsp⟩

theorem setEventMask_priv (m : Events) : Leaves State.priv (setEventMask m) := Leaves.bind Leaves.here fun _ => regWrite_priv _

theorem macEnable_priv : Leaves State.priv macEnable :=
  Leaves.bind Leaves.here fun _ => Leaves.sound.bind fun _ => regWrite_priv _

/-- Reaping or supplying leaves where bring-up stands. -/
theorem AtStep.congr {k : Nat} {p q : Private} (h : AtStep k p) (e : q.rest = p.rest) (hr : RingsSound q) : AtStep k q := by
  obtain ⟨-, hm, hst, hb, hc, hx, he, hl, hf, hn⟩ := h
  simp only [Private.rest, Rest.mk.injEq] at e
  obtain ⟨e1, e2, e3, e4, e5, e6, e7, e8⟩ := e
  constructor
  · exact hr
  all_goals simpa only [e1, e2, e3, e4, e5, e6, e7, e8]

theorem bu10_after : Ensures (fun s => AtStep 10 s.priv) bu10 (After 0) := by
  refine (keeps_atStep macEnable_priv 10).bind fun _ => Ensures.bind (Q := fun _ s => AtStep 10 s.priv) ?_ fun _ =>
    Ensures.bind (Q := fun _ s => AtStep 10 s.priv) Keeps.here fun _ => (keeps_atStep (setEventMask_priv _) 10).bind fun _ =>
    goTo_move (by omega) (by omega) (by omega) (by omega) (by omega)
  intro s a t hs ht
  have hrd := fillRx_ready s a t ⟨hs.rings, (hs.late (by omega)).2⟩ ht
  have e := congrArg (fun p : Rest × Ring × List Nat => p.1) (fillRx_rest s a t ht)
  exact hs.congr e hrd.1

/-- Step `k` leads before step `k + 1`, step 10 to the end, and an error ends bring-up. -/
theorem buStep_after (k : Nat) (h1 : 1 ≤ k) (h2 : k ≤ 10) :
    Ensures (fun s => AtStep k s.priv) (buStep k) (After (if k = 10 then 0 else k + 1)) := by
  have : k = 1 ∨ k = 2 ∨ k = 3 ∨ k = 4 ∨ k = 5 ∨ k = 6 ∨ k = 7 ∨ k = 8 ∨ k = 9 ∨ k = 10 := by omega
  rcases this with rfl | rfl | rfl | rfl | rfl | rfl | rfl | rfl | rfl | rfl
  · exact bu1_after
  · exact bu2_after
  · exact bu3_after
  · exact bu4_after
  · exact bu5_after
  · exact bu6_after
  · exact bu7_after
  · exact bu8_after
  · exact bu9_after
  · exact bu10_after

/-- `n` turns of INIT's loop from before step `k`. -/
theorem runSteps_after (n k : Nat) (hk : k ≤ 10) (hn : k = 0 ∨ k + n ≥ 11) :
    Ensures (fun s => AtStep k s.priv) (runSteps n) (After 0) := by
  induction n generalizing k with
  | zero =>
    refine Ensures.pure fun s hs => ?_
    have : k = 0 := by omega
    exact this ▸ hs
  | succ n ih =>
    refine Ensures.here fun s hs => Ensures.ite (fun hb => ?_) (fun hb => ?_)
    · have hs' : s.seq.bstep = k := hs.step
      rw [hs'] at hb ⊢
      refine Ensures.bind ((buStep_after k hb.1 hb.2).pre fun t ht => ht ▸ hs) fun r => ?_
      cases r with
      | some e => exact Ensures.pure fun _ h => h
      | none =>
        refine Ensures.pre (ih (if k = 10 then 0 else k + 1) ?_ ?_) fun _ h => h
        · split <;> omega
        · split <;> omega
    · have hs' : s.seq.bstep = k := hs.step
      rw [hs'] at hb
      refine Ensures.pure fun t ht => ?_
      have : k = 0 := by omega
      subst this
      subst ht
      exact hs

end Sys2Proof.Machine
end

