-- ==== Sys2Proof/Laws/Supply.lean ====
section
/-!
SUPPORT. Laws/Supply.lean: what FILL_RX and the enqueue part of ENQ_TX do where nothing happens between C's events
(41_buffer_supply R117 to R123).
-/
namespace Sys2Proof.Machine

/-- What a hand-over leaves alone: registers, hidden registers of H, environment, answers and calls. -/
structure Apart (s t : State) : Prop where
  regs  : t.regs = s.regs
  hw    : t.hw = s.hw
  env   : t.env = s.env
  out   : t.out = s.out
  calls : t.calls = s.calls

theorem Apart.rfl' {s : State} : Apart s s := ⟨rfl, rfl, rfl, rfl, rfl⟩
theorem Apart.trans {s t u : State} (h : Apart s t) (k : Apart t u) : Apart s u :=
  ⟨k.regs.trans h.regs, k.hw.trans h.hw, k.env.trans h.env, k.out.trans h.out, k.calls.trans h.calls⟩
theorem Apart.quiet {s t : State} (h : Apart s t) (hq : s.quiet) (he : t.early = []) : t.quiet :=
  ⟨h.env ▸ hq.1, he⟩

theorem issueWrite_apart (a : Nat) (bs : List Byte) (s : State) : Apart s (issueWrite a bs s) := ⟨rfl, rfl, rfl, rfl, rfl⟩
theorem flush_apart (s : State) : Apart s (flush s) := ⟨rfl, rfl, rfl, rfl, rfl⟩

/-- The slots from `i` on without the first are the slots from the next one on. -/
theorem adv_succ {r : Ring} (i k : Nat) : r.adv (r.adv i 1) k = r.adv i (k + 1) := by
  simp only [Ring.adv, Nat.mod_add_mod]
  congr 1
  omega

theorem adv_zero {r : Ring} {i : Nat} (h : i < r.cap) : r.adv i 0 = i := Nat.mod_eq_of_lt h

theorem adv_lt {r : Ring} (i k : Nat) (h : 0 < r.cap) : r.adv i k < r.cap := Nat.mod_lt _ h

/-- Slots that are fewer than the capacity apart are different slots. -/
theorem adv_ne {r : Ring} {i k : Nat} (h0 : 0 < k) (hk : k < r.cap) : r.adv i k ≠ i := by
  intro e
  have h1 : i < r.cap := by
    rw [← e]
    exact Nat.mod_lt _ (by omega)
  unfold Ring.adv at e
  rw [mod_once (by omega)] at e
  split at e <;> omega

theorem adv_inj {r : Ring} {i j k : Nat} (hi : i < r.cap) (hj : j < r.cap) (hk : k < r.cap)
    (e : r.adv i j = r.adv i k) : j = k := by
  unfold Ring.adv at e
  rw [mod_once (by omega), mod_once (by omega)] at e
  split at e <;> split at e <;> omega

theorem half_lt (w : Half) : w.toNat < 2 ^ 16 := w.isLt

/-! ### FILL_RX -/

/-- One buffer handed over. -/
theorem handOverRx_quiet {s : State} {x pa : Nat} (b : Handle) (h : s.quiet) (hm : MemOk s)
    (hx : s.rx.slotAddr s.rx.tail = some x) :
    ∃ t, handOverRx pa b s = .ok ((), t) ∧ t.quiet ∧ MemOk t ∧ Apart s t ∧
      t.priv = { s.priv with rx := s.rx.give 1 b } ∧
      t.settled = slotWrite s.params.endian x (rxHandover s.params s.rx s.rx.tail).toNat 0 pa s.settled := by
  have e1 := descWrite_slot (d := .rx) (f := .phys) pa h hx
  generalize hs1 : issueWrite _ _ s = s1 at e1
  have q1 : s1.quiet := hs1 ▸ issueWrite_quiet h
  have x1 : s1.rx.slotAddr s.rx.tail = some x := by rw [← hs1]; exact hx
  have e2 := descWrite_slot (d := .rx) (f := .len) 0 q1 x1
  generalize hs2 : issueWrite _ _ s1 = s2 at e2
  have q2 : s2.quiet := hs2 ▸ issueWrite_quiet q1
  have e3 := barrier_quiet q2
  have q3 : (flush s2).quiet := (flush_rested q2).1
  have x3 : (flush s2).rx.slotAddr s.rx.tail = some x := by rw [← hs2]; exact x1
  have e4 := descWrite_slot (d := .rx) (f := .stat) (rxHandover s.params s.rx s.rx.tail).toNat q3 x3
  generalize hs4 : issueWrite _ _ (flush s2) = s4 at e4
  have q4 : s4.quiet := hs4 ▸ issueWrite_quiet q3
  have p1 : s1.priv = s.priv := by rw [← hs1, issueWrite_priv]
  have p2 : s2.priv = s.priv := by rw [← hs2, issueWrite_priv, p1]
  have p4 : s4.priv = s.priv := by rw [← hs4, issueWrite_priv, flush_priv, p2]
  have k1 : s1.params = s.params := congrArg Private.params p1
  have k3 : (flush s2).params = s.params := congrArg Private.params p2
  have a4 : Apart s s4 := by
    have h1 : Apart s s1 := hs1 ▸ issueWrite_apart _ _ s
    have h2 : Apart s1 s2 := hs2 ▸ issueWrite_apart _ _ s1
    have h4 : Apart (flush s2) s4 := hs4 ▸ issueWrite_apart _ _ (flush s2)
    exact h1.trans (h2.trans ((flush_apart s2).trans h4))
  have m4 : MemOk s4 := by
    have h1 : MemOk s1 := hs1 ▸ hm
    have h2 : MemOk s2 := hs2 ▸ h1
    have h3 : MemOk (flush s2) := flush_memOk _ h2
    exact hs4 ▸ h3
  refine ⟨s4.setRx (s4.rx.give 1 b), ?_, q4, m4, ⟨a4.regs, a4.hw, a4.env, a4.out, a4.calls⟩, ?_, ?_⟩
  · simp only [handOverRx, run_here_bind]
    rw [run_bind_ok e1, run_bind_ok e2, run_bind_ok e3, run_bind_ok e4]
    rfl
  · have : s4.rx = s.rx := congrArg Private.rx p4
    rw [← p4, ← this]
    rfl
  · show s4.settled = _
    rw [k1] at hs2
    rw [k3] at hs4
    rw [← hs4, issueWrite_settled, flush_settled, ← hs2, issueWrite_settled, ← hs1, issueWrite_settled]
    rfl

/-- The state after the buffers `bs` were handed over in FILL_RX. -/
structure Filled (s t : State) (bs : List (Nat × Handle)) : Prop where
  quiet   : t.quiet
  mem     : MemOk t
  ready   : RxReady t
  regs    : t.regs = s.regs
  hw      : t.hw = s.hw
  out     : t.out = s.out
  sched   : t.env.inputs = s.env.inputs
  rest    : (t.rest, t.tx, t.ndesc) = (s.rest, s.tx, s.ndesc)
  cap     : t.rx.cap = s.rx.cap
  base    : t.rx.base = s.rx.base
  head    : t.rx.head = s.rx.head
  tail    : t.rx.tail = s.rx.adv s.rx.tail bs.length
  remain  : t.rx.remain = s.rx.remain - bs.length
  handles : ∀ k (h : k < bs.length), t.rx.handle[s.rx.adv s.rx.tail k]? = some bs[k].2
  others  : ∀ i, (∀ k, k < bs.length → s.rx.adv s.rx.tail k ≠ i) → t.rx.handle[i]? = s.rx.handle[i]?
  calls   : ∃ n, (n = bs.length ∨ n = bs.length + 1 ∧ n ≤ s.rx.remain) ∧
    t.calls = s.calls ++ List.replicate n (.allocateReceiveBuffer s.params.bufSize)
  phys    : ∀ k (h : k < bs.length), t.field .rx (s.rx.adv s.rx.tail k) .phys = some bs[k].1
  len     : ∀ k, k < bs.length → t.field .rx (s.rx.adv s.rx.tail k) .len = some 0
  stat    : ∀ k, k < bs.length → t.field .rx (s.rx.adv s.rx.tail k) .stat =
    some (rxHandover s.params s.rx (s.rx.adv s.rx.tail k)).toNat
  outside : ∀ a, ¬inSlots s.rx s.rx.tail bs.length a → Memory.read a t.settled = Memory.read a s.settled

theorem inSlots_zero {r : Ring} {i a : Nat} : ¬inSlots r i 0 a := by
  rintro ⟨k, x, hk, -⟩
  omega

/-- Fields of a slot, in two states whose rings have the same base and capacity and whose memory agrees there. -/
theorem field_congr {s t : State} {d : Dir} {i : Nat} (hb : (t.ring d).base = (s.ring d).base)
    (hc : (t.ring d).cap = (s.ring d).cap) (hp : t.params = s.params)
    (h : ∀ x k, (s.ring d).slotAddr i = some x → x ≤ k → k < x + descSize →
      Memory.read k t.settled = Memory.read k s.settled) (f : Field) : t.field d i f = s.field d i f := by
  have e : (t.ring d).slotAddr i = (s.ring d).slotAddr i := by
    unfold Ring.slotAddr
    rw [hb, hc]
  cases hx : (s.ring d).slotAddr i with
  | none => simp [State.field, descAddr, e, hx]
  | some x =>
    rw [field_of_slot (e.trans hx), field_of_slot hx, hp, memRead_slot_congr f (h x · hx)]

theorem fillLoop_quiet (bs : List (Nat × Handle)) (n : Nat) (rest : List (Option (Nat × Handle))) (s : State)
    (h : s.quiet) (hm : MemOk s) (hr : RxReady s) (hn : n ≤ s.rx.remain) (hb : bs.length ≤ n)
    (he : bs.length = n ∨ ∃ r, rest = none :: r) (ha : s.env.answers.buffers = bs.map some ++ rest)
    (hgood : ∀ b ∈ bs, b.1 < 2 ^ 32 ∧ bufferReal s b.1 s.params.bufSize = true) :
    ∃ t, fillLoop n s = .ok ((), t) ∧ Filled s t bs := by
  induction bs generalizing n s with
  | nil =>
    have base : ∀ t : State, t.quiet → t.mem = s.mem → t.pend = s.pend → t.regs = s.regs → t.hw = s.hw → t.out = s.out →
        t.env.inputs = s.env.inputs → t.priv = s.priv →
        (∃ n, (n = 0 ∨ n = 0 + 1 ∧ n ≤ s.rx.remain) ∧
          t.calls = s.calls ++ List.replicate n (.allocateReceiveBuffer s.params.bufSize)) → Filled s t [] := by
      intro t hq hmem hpend h1 h2 h3 h4 hp hc
      have hrx : t.rx = s.rx := congrArg Private.rx hp
      have hst : t.settled = s.settled := by unfold State.settled; rw [hmem, hpend]
      have htail : s.rx.adv s.rx.tail 0 = s.rx.tail := adv_zero (hr.1.rx.tail hr.2)
      exact {
        quiet := hq, mem := by show Memory.wf t.mem = true; rw [hmem]; exact hm
        ready := rxReady_iff.2 (hp ▸ rxReady_iff.1 hr), regs := h1, hw := h2, out := h3, sched := h4
        rest := congrArg (fun p : Private => (p.rest, p.tx, p.ndesc)) hp
        cap := by rw [hrx], base := by rw [hrx], head := by rw [hrx], tail := by rw [hrx]; exact htail.symm
        remain := by rw [hrx]; rfl
        handles := fun k hk => absurd hk (by simp), others := fun i _ => by rw [hrx], calls := hc
        phys := fun k hk => absurd hk (by simp), len := fun k hk => absurd hk (by simp)
        stat := fun k hk => absurd hk (by simp), outside := fun a _ => by rw [hst] }
    cases n with
    | zero => exact ⟨s, rfl, base s h rfl rfl rfl rfl rfl rfl rfl ⟨0, .inl rfl, by simp⟩⟩
    | succ n =>
      obtain ⟨r, rfl⟩ := he.resolve_left (by simp)
      have e := ask_quiet (.allocateReceiveBuffer s.params.bufSize) (get := (·.buffers))
        (fun a x => { a with buffers := x }) freeBufferAnswer h ha
      generalize hs1 : (s.setCalls _).setEnv _ = s1 at e
      have hc : s1.calls = s.calls ++ List.replicate 1 (.allocateReceiveBuffer s.params.bufSize) := by rw [← hs1]; rfl
      refine ⟨s1, ?_, base s1 ?_ ?_ ?_ ?_ ?_ ?_ ?_ ?_ ⟨1, .inr ⟨rfl, by omega⟩, hc⟩⟩
      · simp only [fillLoop, run_here_bind, askBuffer]
        rw [run_bind_ok e]
        rfl
      all_goals rw [← hs1]
      · exact h
      all_goals rfl
  | cons b bs ih =>
    obtain ⟨n, rfl⟩ : ∃ m, n = m + 1 := ⟨n - 1, by simp only [List.length_cons] at hb; omega⟩
    have hal := hr.2
    have hsnd := hr.1.rx
    have htl : s.rx.tail < s.rx.cap := hsnd.tail hal
    have hcap : 2 ≤ s.rx.cap := hsnd.cap hal
    have hres : s.rx.remain + s.rx.inflight + 2 = s.rx.cap := hsnd.reserve hal
    obtain ⟨x, hx⟩ := hsnd.slot hal htl
    have e := ask_quiet (.allocateReceiveBuffer s.params.bufSize) (get := (·.buffers))
      (fun a x => { a with buffers := x }) freeBufferAnswer h ha
    generalize hs1 : (s.setCalls _).setEnv _ = s1 at e
    have q1 : s1.quiet := by rw [← hs1]; exact h
    have hg := hgood b (by simp)
    have e2 : acceptBuffer b.1 s1 = .ok ((), s1) := by
      have hbr : bufferReal s1 b.1 s1.params.bufSize = true := by rw [← hs1]; exact hg.2
      simp only [acceptBuffer, decide_eq_true hg.1, run_bind_ok (require_true _ _), run_here_bind, hbr, sound_true]
    have m1 : MemOk s1 := by rw [← hs1]; exact hm
    have x1 : s1.rx.slotAddr s1.rx.tail = some x := by rw [← hs1]; exact hx
    have p1 : s1.priv = s.priv := by rw [← hs1]; rfl
    obtain ⟨s2, e3, q2, m2, ap, p2, st2⟩ := handOverRx_quiet (pa := b.1) b.2 q1 m1 x1
    have r1 : s1.rx = s.rx := congrArg Private.rx p1
    have k1 : s1.params = s.params := congrArg Private.params p1
    have hp2 : s2.priv = { s.priv with rx := s.rx.give 1 b.2 } := by rw [p2, p1, r1]
    have r2 : s2.rx = s.rx.give 1 b.2 := congrArg Private.rx hp2
    have k2 : s2.params = s.params := congrArg Private.params hp2
    have t2 : s2.tx = s.tx := congrArg Private.tx hp2
    have hr2 : RxReady s2 := by
      have := hr.give (by omega : 1 ≤ s.rx.remain) b.2
      exact rxReady_iff.2 (by rw [hp2]; exact rxReady_iff.1 this)
    have st2' : s2.settled = slotWrite s.params.endian x (rxHandover s.params s.rx s.rx.tail).toNat 0 b.1 s.settled := by
      rw [st2, k1, r1, ← hs1]
      rfl
    have hans : s2.env.answers.buffers = bs.map some ++ rest := by
      rw [ap.env, ← hs1]
      rfl
    have hreal : ∀ c ∈ bs, c.1 < 2 ^ 32 ∧ bufferReal s2 c.1 s2.params.bufSize = true := by
      intro c hc
      have := hgood c (by simp [hc])
      refine ⟨this.1, ?_⟩
      rw [← this.2]
      simp only [bufferReal, r2, t2, k2, Ring.touches, Ring.block, Ring.give]
    obtain ⟨t, et, ft⟩ := ih n s2 q2 m2 hr2 (by rw [r2]; show n ≤ s.rx.remain - 1; omega)
      (by simpa using hb) (by simpa using he) hans hreal
    have adv2 : ∀ k, s2.rx.adv s2.rx.tail k = s.rx.adv s.rx.tail (k + 1) := by
      intro k
      rw [r2]
      exact adv_succ (r := s.rx) s.rx.tail k
    have hlen : bs.length + 1 < s.rx.cap := by simp only [List.length_cons] at hb; omega
    have adv0 : s.rx.adv s.rx.tail 0 = s.rx.tail := adv_zero htl
    have ne : ∀ k, k < bs.length → s2.rx.adv s2.rx.tail k ≠ s.rx.tail := fun k hk => by
      rw [adv2]
      exact adv_ne (by omega) (by omega)
    -- the bytes of the first slot are not written again
    have keep : ∀ k, x ≤ k → k < x + descSize → Memory.read k t.settled = Memory.read k s2.settled := by
      intro k hk1 hk2
      refine ft.outside k ?_
      rintro ⟨j, y, hj, hy, hy1, hy2⟩
      rw [r2] at hy
      have hy' : s.rx.slotAddr (s2.rx.adv s2.rx.tail j) = some y := by rw [r2]; exact hy
      have := slots_apart hx hy' (fun c => ne j hj c.symm)
      simp only [descSize] at *
      omega
    have first : ∀ f, t.field .rx s.rx.tail f =
        some (fieldValue (rxHandover s.params s.rx s.rx.tail).toNat 0 b.1 f) := by
      intro f
      have hxt : t.rx.slotAddr s.rx.tail = some x := by
        rw [← hx]
        unfold Ring.slotAddr
        rw [ft.base, ft.cap, r2]
        rfl
      have kt : t.params = s.params := by
        have := congrArg (fun p : Rest × Ring × List Nat => p.1.params) ft.rest
        exact this.trans k2
      rw [field_of_slot (d := .rx) hxt f, kt, memRead_slot_congr f keep, st2',
        slotWrite_field (settled_wf hm) (half_lt _) (by decide) hg.1]
    refine ⟨t, ?_, ?_⟩
    · simp only [fillLoop, run_here_bind, askBuffer]
      rw [run_bind_ok e]
      simp only
      rw [run_bind_ok e2, run_bind_ok e3, et]
    · have hcalls : s2.calls = s.calls ++ [.allocateReceiveBuffer s.params.bufSize] := by
        rw [ap.calls, ← hs1]
        rfl
      constructor
      · exact ft.quiet
      · exact ft.mem
      · exact ft.ready
      · rw [ft.regs, ap.regs, ← hs1]; rfl
      · rw [ft.hw, ap.hw, ← hs1]; rfl
      · rw [ft.out, ap.out, ← hs1]; rfl
      · rw [ft.sched, ap.env, ← hs1]; rfl
      · rw [ft.rest]
        simp only [State.rest, Private.rest, hp2, t2, Ring.give]
        have : s2.ndesc = s.ndesc := congrArg Private.ndesc hp2
        rw [this]
        rfl
      · rw [ft.cap, r2]; rfl
      · rw [ft.base, r2]; rfl
      · rw [ft.head, r2]; rfl
      · rw [ft.tail, adv2]; rfl
      · rw [ft.remain, r2]
        show s.rx.remain - 1 - bs.length = s.rx.remain - (bs.length + 1)
        omega
      · intro k hk
        cases k with
        | zero =>
          rw [adv0, ft.others s.rx.tail ne, r2]
          show (s.rx.handle.set s.rx.tail b.2)[s.rx.tail]? = some b.2
          have : s.rx.handle.length = s.rx.cap := hsnd.handles hal
          rw [List.getElem?_set_self (by omega)]
        | succ k =>
          rw [← adv2]
          exact ft.handles k (by simpa using hk)
      · intro i hi
        have h0 : s.rx.tail ≠ i := by
          have := hi 0 (by simp)
          rwa [adv0] at this
        rw [ft.others i (fun k hk => by rw [adv2]; exact hi (k + 1) (by simpa using hk)), r2]
        show (s.rx.handle.set s.rx.tail b.2)[i]? = s.rx.handle[i]?
        rw [List.getElem?_set_ne h0]
      · obtain ⟨m, hm1, hm'⟩ := ft.calls
        have hrem : s2.rx.remain = s.rx.remain - 1 := by rw [r2]; rfl
        refine ⟨m + 1, by simp only [List.length_cons] at *; omega, ?_⟩
        rw [hm', hcalls, k2, List.append_assoc]
        rfl
      · intro k hk
        cases k with
        | zero =>
          rw [adv0, first]
          rfl
        | succ k =>
          rw [← adv2]
          exact ft.phys k (by simpa using hk)
      · intro k hk
        cases k with
        | zero =>
          rw [adv0, first]
          rfl
        | succ k =>
          rw [← adv2]
          exact ft.len k (by simpa using hk)
      · intro k hk
        cases k with
        | zero =>
          rw [adv0, first]
          rfl
        | succ k =>
          rw [← adv2, ft.stat k (by simpa using hk), k2, r2]
          rfl
      · intro a hout
        rw [ft.outside a ?_, st2']
        · refine slotWrite_outside (settled_wf hm) ?_
          by_contra hc
          exact hout ⟨0, x, by simp, by rw [adv0]; exact hx, by omega, by omega⟩
        · rintro ⟨j, y, hj, hy, hy1, hy2⟩
          refine hout ⟨j + 1, y, by simpa using hj, ?_, hy1, hy2⟩
          rw [adv2, r2] at hy
          exact hy

/-! ### The enqueue part of ENQ_TX -/

/-- What writing descriptor fields changes: memory only. -/
structure Wrote (s t : State) : Prop where
  quiet : t.quiet
  mem   : MemOk t
  apart : Apart s t
  priv  : t.priv = s.priv

theorem Wrote.rfl' {s : State} (h : s.quiet) (hm : MemOk s) : Wrote s s := ⟨h, hm, .rfl', rfl⟩
theorem Wrote.trans {s t u : State} (h : Wrote s t) (k : Wrote t u) : Wrote s u :=
  ⟨k.quiet, k.mem, h.apart.trans k.apart, k.priv.trans h.priv⟩

/-- Counting a slot as handed over writes nothing. -/
theorem Wrote.counted {s t : State} (h : Wrote s t) {x : Nat} : Wrote t (t.setHanding x) :=
  ⟨h.quiet, h.mem, ⟨rfl, rfl, rfl, rfl, rfl⟩, rfl⟩

theorem Wrote.flush {s t : State} (h : Wrote s t) : Wrote s (flush t) :=
  ⟨(flush_rested h.quiet).1, flush_memOk _ h.mem, h.apart.trans (flush_apart t), h.priv⟩

/-- One field written: it holds the value, and every byte outside it is as it was. -/
theorem descWrite_wrote {d : Dir} {i x v : Nat} {f : Field} {s : State} (h : s.quiet) (hm : MemOk s)
    (hx : (s.ring d).slotAddr i = some x) :
    ∃ t, descWrite d i f v s = .ok ((), t) ∧ Wrote s t ∧
      t.settled = memWrite s.params.endian s.settled (fieldAddr s.params.endian x f) (fieldWidth f) v := by
  refine ⟨_, descWrite_slot v h hx, ⟨issueWrite_quiet h, hm, issueWrite_apart _ _ _, issueWrite_priv _ _ _⟩, ?_⟩
  rw [issueWrite_settled]
  rfl

theorem adv_adv {r : Ring} (i j k : Nat) : r.adv (r.adv i j) k = r.adv i (j + k) := by
  simp only [Ring.adv, Nat.mod_add_mod]
  congr 1
  omega

/-- Two fields of two slots of a ring do not overlap, unless both are the same. -/
theorem slot_fields_apart {r : Ring} {e : Endian} {i j x y : Nat} {f g : Field} (hx : r.slotAddr i = some x)
    (hy : r.slotAddr j = some y) (h : i ≠ j ∨ f ≠ g) :
    fieldAddr e x f + fieldWidth f ≤ fieldAddr e y g ∨ fieldAddr e y g + fieldWidth g ≤ fieldAddr e x f := by
  have hf := fieldOff_le e f
  have hg := fieldOff_le e g
  by_cases hij : i = j
  · subst hij
    have := fields_apart e (h.resolve_left (by simp))
    obtain rfl : x = y := by simpa [hx] using hy
    simp only [fieldAddr]
    omega
  · have := slots_apart hx hy hij
    simp only [fieldAddr]
    omega

theorem fieldWidth_mul (f : Field) : 8 * fieldWidth f = 16 ∨ 8 * fieldWidth f = 32 := by cases f <;> decide

/-- Writing a field of a slot leaves every other field of that ring as it was. -/
theorem field_of_write {s t : State} {d : Dir} {i j x v : Nat} {f g : Field} (hm : MemOk s)
    (hx : (s.ring d).slotAddr i = some x) (hp : t.priv = s.priv)
    (ht : t.settled = memWrite s.params.endian s.settled (fieldAddr s.params.endian x f) (fieldWidth f) v)
    (h : j ≠ i ∨ g ≠ f) : t.field d j g = s.field d j g := by
  have hr : t.ring d = s.ring d := by
    cases d
    · exact congrArg Private.rx hp
    · exact congrArg Private.tx hp
  have hk : t.params = s.params := congrArg Private.params hp
  cases hy : (s.ring d).slotAddr j with
  | none => simp [State.field, descAddr, hr, hy]
  | some y =>
    rw [field_of_slot (d := d) (hr ▸ hy) g, field_of_slot hy g, hk, ht]
    congr 1
    exact memRead_memWrite_of_disjoint _ (settled_wf hm) (slot_fields_apart hy hx h)

theorem field_of_write_same {s t : State} {d : Dir} {i x v : Nat} {f : Field} (hm : MemOk s)
    (hx : (s.ring d).slotAddr i = some x) (hp : t.priv = s.priv)
    (ht : t.settled = memWrite s.params.endian s.settled (fieldAddr s.params.endian x f) (fieldWidth f) v)
    (hv : v < 2 ^ (8 * fieldWidth f)) : t.field d i f = some v := by
  have hr : t.ring d = s.ring d := by
    cases d
    · exact congrArg Private.rx hp
    · exact congrArg Private.tx hp
  have hk : t.params = s.params := congrArg Private.params hp
  rw [field_of_slot (d := d) (hr ▸ hx) f, hk, ht, memRead_memWrite _ _ _ _ (settled_wf hm) hv]

theorem read_of_write {s t : State} {x v a : Nat} {f : Field} (hm : MemOk s)
    (ht : t.settled = memWrite s.params.endian s.settled (fieldAddr s.params.endian x f) (fieldWidth f) v)
    (h : a < x ∨ x + descSize ≤ a) : Memory.read a t.settled = Memory.read a s.settled := by
  rw [ht]
  refine read_memWrite_outside (settled_wf hm) ?_
  have := fieldOff_le s.params.endian f
  simp only [fieldAddr]
  omega

/-- Address and length of every fragment written. -/
theorem writeFrags_quiet (t0 : Nat) (fs : List Frag) (k : Nat) (s : State) (h : s.quiet) (hm : MemOk s)
    (hs : RingsSound s.priv) (ha : s.tx.alive = true) (ht : t0 < s.tx.cap) (hk : k + fs.length ≤ s.tx.cap) :
    ∃ t, writeFrags t0 k fs s = .ok ((), t) ∧ Wrote s t ∧
      (∀ j (hj : j < fs.length), t.field .tx (s.tx.adv t0 (k + j)) .phys = some fs[j].phys.toNat ∧
        t.field .tx (s.tx.adv t0 (k + j)) .len = some fs[j].len.toNat) ∧
      (∀ a, ¬inSlots s.tx (s.tx.adv t0 k) fs.length a → Memory.read a t.settled = Memory.read a s.settled) ∧
      (∀ i f, (∀ j, j < fs.length → s.tx.adv t0 (k + j) ≠ i) → t.field .tx i f = s.field .tx i f) := by
  induction fs generalizing k s with
  | nil =>
    exact ⟨s, rfl, .rfl' h hm, fun j hj => absurd hj (by simp), fun _ _ => rfl, fun _ _ _ => rfl⟩
  | cons f fs ih =>
    simp only [List.length_cons] at hk
    have hc : 0 < s.tx.cap := by omega
    obtain ⟨x, hx⟩ := hs.tx.slot ha (i := s.tx.adv t0 k) (adv_lt _ _ hc)
    have hx0 : (s.ring .tx).slotAddr (s.tx.adv t0 k) = some x := hx
    obtain ⟨s1, e1, w1, m1⟩ := descWrite_wrote (f := .phys) (v := f.phys.toNat) h hm hx0
    have r1 : s1.tx = s.tx := congrArg Private.tx w1.priv
    have k1 : s1.params = s.params := congrArg Private.params w1.priv
    have hx1 : (s1.ring .tx).slotAddr (s.tx.adv t0 k) = some x := by
      show s1.tx.slotAddr _ = _
      rw [r1]
      exact hx
    obtain ⟨s2, e2, w2, m2⟩ := descWrite_wrote (f := .len) (v := f.len.toNat) w1.quiet w1.mem hx1
    have w12 := w1.trans w2
    have r2 : s2.tx = s.tx := congrArg Private.tx w12.priv
    obtain ⟨t, et, wt, ft, ot, nt⟩ := ih (k + 1) s2 w2.quiet w2.mem (by rw [w12.priv]; exact hs)
      (by rw [r2]; exact ha) (by rw [r2]; exact ht) (by rw [r2]; omega)
    rw [r2] at ft ot nt
    have hne : ∀ j, j < fs.length → s.tx.adv t0 (k + 1 + j) ≠ s.tx.adv t0 k := by
      intro j hj e
      have := adv_inj (r := s.tx) ht (by omega) (by omega) e
      omega
    have hnow : ∀ g, t.field .tx (s.tx.adv t0 k) g = s2.field .tx (s.tx.adv t0 k) g := fun g => nt _ g hne
    refine ⟨t, ?_, w12.trans wt, ?_, ?_, ?_⟩
    · simp only [writeFrags, run_here_bind]
      rw [run_bind_ok e1, run_bind_ok e2, et]
    · intro j hj
      cases j with
      | zero =>
        refine ⟨?_, ?_⟩
        · show t.field .tx (s.tx.adv t0 k) .phys = some f.phys.toNat
          rw [hnow, field_of_write (d := .tx) w1.mem hx1 w2.priv m2 (.inr (by decide)),
            field_of_write_same (d := .tx) hm hx0 w1.priv m1 f.phys.isLt]
        · show t.field .tx (s.tx.adv t0 k) .len = some f.len.toNat
          rw [hnow, field_of_write_same (d := .tx) w1.mem hx1 w2.priv m2 f.len.isLt]
      | succ j =>
        have := ft j (by simpa using hj)
        rw [show k + 1 + j = k + (j + 1) by omega] at this
        exact this
    · intro a hout
      have hfirst : a < x ∨ x + descSize ≤ a := by
        by_contra hc'
        exact hout ⟨0, x, by simp, by rw [adv_adv]; exact hx, by omega, by omega⟩
      rw [ot a ?_, read_of_write w1.mem m2 hfirst, read_of_write hm m1 hfirst]
      rintro ⟨j, y, hj, hy, hy1, hy2⟩
      refine hout ⟨j + 1, y, by simpa using hj, ?_, hy1, hy2⟩
      rw [adv_adv] at hy ⊢
      rwa [show k + 1 + j = k + (j + 1) by omega] at hy
    · intro i g hi
      have hi0 : i ≠ s.tx.adv t0 k := fun e => hi 0 (by simp) e.symm
      rw [nt i g ?_, field_of_write (d := .tx) w1.mem hx1 w2.priv m2 (.inl hi0),
        field_of_write (d := .tx) hm hx0 w1.priv m1 (.inl hi0)]
      intro j hj
      have := hi (j + 1) (by simpa using hj)
      rwa [show k + 1 + j = k + (j + 1) by omega]

/-- The status word of every fragment written. -/
theorem writeStats_quiet (t0 n : Nat) (fs : List Frag) (k : Nat) (s : State) (h : s.quiet) (hm : MemOk s)
    (hs : RingsSound s.priv) (ha : s.tx.alive = true) (ht : t0 < s.tx.cap) (hk : k + fs.length ≤ s.tx.cap) :
    ∃ t, writeStats t0 n k fs s = .ok ((), t) ∧ Wrote s t ∧
      (∀ j, j < fs.length → t.field .tx (s.tx.adv t0 (k + j)) .stat =
        some (txHandover s.params s.tx (s.tx.adv t0 (k + j)) (k + j) n).toNat) ∧
      (∀ a, ¬inSlots s.tx (s.tx.adv t0 k) fs.length a → Memory.read a t.settled = Memory.read a s.settled) ∧
      (∀ i f, (f ≠ .stat ∨ ∀ j, j < fs.length → s.tx.adv t0 (k + j) ≠ i) → t.field .tx i f = s.field .tx i f) := by
  induction fs generalizing k s with
  | nil => exact ⟨s, rfl, .rfl' h hm, fun j hj => absurd hj (by simp), fun _ _ => rfl, fun _ _ _ => rfl⟩
  | cons f fs ih =>
    simp only [List.length_cons] at hk
    have hc : 0 < s.tx.cap := by omega
    obtain ⟨x, hx⟩ := hs.tx.slot ha (i := s.tx.adv t0 k) (adv_lt _ _ hc)
    have hx0 : (s.ring .tx).slotAddr (s.tx.adv t0 k) = some x := hx
    obtain ⟨s1, e1, w1, m1⟩ := descWrite_wrote (f := .stat)
      (v := (txHandover s.params s.tx (s.tx.adv t0 k) k n).toNat) h hm hx0
    have r1 : s1.tx = s.tx := congrArg Private.tx w1.priv
    have k1 : s1.params = s.params := congrArg Private.params w1.priv
    -- the slot is counted as handed over, which neither memory nor what C owns shows
    obtain ⟨t, et, wt, ft, ot, nt⟩ := ih (k + 1) (s1.setHanding (k + 1)) w1.quiet w1.mem
      (by rw [State.setHanding_priv, w1.priv]; exact hs) (by rw [State.setHanding_tx, r1]; exact ha)
      (by rw [State.setHanding_tx, r1]; exact ht) (by rw [State.setHanding_tx, r1]; omega)
    rw [State.setHanding_tx, r1] at ft ot nt
    rw [State.setHanding_params, k1] at ft
    have wt : Wrote s1 t := w1.counted.trans wt
    have ot : ∀ a, _ → Memory.read a t.settled = Memory.read a s1.settled := ot
    have nt : ∀ i f, _ → t.field .tx i f = s1.field .tx i f := nt
    have hne : ∀ j, j < fs.length → s.tx.adv t0 (k + 1 + j) ≠ s.tx.adv t0 k := by
      intro j hj e
      have := adv_inj (r := s.tx) ht (by omega) (by omega) e
      omega
    refine ⟨t, ?_, w1.trans wt, ?_, ?_, ?_⟩
    · simp only [writeStats, run_here_bind]
      rw [run_bind_ok e1, run_upd_bind, et]
    · intro j hj
      cases j with
      | zero =>
        show t.field .tx (s.tx.adv t0 k) .stat = _
        rw [nt _ _ (.inr hne), field_of_write_same (d := .tx) hm hx0 w1.priv m1 (half_lt _)]
        rfl
      | succ j =>
        have := ft j (by simpa using hj)
        rw [show k + 1 + j = k + (j + 1) by omega] at this
        exact this
    · intro a hout
      have hfirst : a < x ∨ x + descSize ≤ a := by
        by_contra hc'
        exact hout ⟨0, x, by simp, by rw [adv_adv]; exact hx, by omega, by omega⟩
      rw [ot a ?_, read_of_write hm m1 hfirst]
      rintro ⟨j, y, hj, hy, hy1, hy2⟩
      refine hout ⟨j + 1, y, by simpa using hj, ?_, hy1, hy2⟩
      rw [adv_adv] at hy ⊢
      rwa [show k + 1 + j = k + (j + 1) by omega] at hy
    · intro i g hi
      have hi' : g ≠ .stat ∨ ∀ j, j < fs.length → s.tx.adv t0 (k + 1 + j) ≠ i := by
        rcases hi with hi | hi
        · exact .inl hi
        · refine .inr fun j hj => ?_
          have := hi (j + 1) (by simpa using hj)
          rwa [show k + 1 + j = k + (j + 1) by omega]
      have h0 : i ≠ s.tx.adv t0 k ∨ g ≠ .stat := by
        rcases hi with hi | hi
        · exact .inr hi
        · exact .inl fun e => hi 0 (by simp) e.symm
      rw [nt i g hi', field_of_write (d := .tx) hm hx0 w1.priv m1 h0]

/-- The state after a fragment group was handed over. -/
structure Enqueued (s t : State) (fs : List Frag) (b : Handle) : Prop where
  rested  : t.rested
  mem     : MemOk t
  regs    : t.regs = { s.regs with txEn := true }
  hw      : t.hw = if s.regs.txEn then s.hw else { s.hw with txSample := none }
  env     : t.env = s.env
  out     : t.out = s.out
  calls   : t.calls = s.calls
  priv    : t.priv = { s.priv with tx := s.tx.give fs.length b, ndesc := s.ndesc.set s.tx.tail fs.length }
  frags   : ∀ j (hj : j < fs.length),
    t.field .tx (s.tx.adv s.tx.tail j) .phys = some fs[j].phys.toNat ∧
    t.field .tx (s.tx.adv s.tx.tail j) .len = some fs[j].len.toNat ∧
    t.field .tx (s.tx.adv s.tx.tail j) .stat =
      some (txHandover s.params s.tx (s.tx.adv s.tx.tail j) j fs.length).toNat
  outside : ∀ a, ¬inSlots s.tx s.tx.tail fs.length a → Memory.read a t.settled = Memory.read a s.settled

theorem handOverTx_quiet {fs : List Frag} {s : State} (b : Handle) (h : s.quiet) (hm : MemOk s) (hr : TxReady s)
    (hn : fs.length ≤ s.tx.remain) (hreal : fragsReal s fs = true) :
    ∃ t, handOverTx fs b s = .ok ((), t) ∧ Enqueued s t fs b := by
  obtain ⟨hs, ha⟩ := hr
  have htl : s.tx.tail < s.tx.cap := hs.tx.tail ha
  have hres : s.tx.remain + s.tx.inflight + 2 = s.tx.cap := hs.tx.reserve ha
  have hadv0 : s.tx.adv s.tx.tail 0 = s.tx.tail := adv_zero htl
  obtain ⟨s1, e1, w1, f1, o1, n1⟩ := writeFrags_quiet s.tx.tail fs 0 s h hm hs ha htl (by omega)
  have e2 := barrier_quiet w1.quiet
  have w2 := w1.flush
  have r2 : (flush s1).tx = s.tx := congrArg Private.tx w1.priv
  have k2 : (flush s1).params = s.params := congrArg Private.params w1.priv
  obtain ⟨s3, e3, w3, f3, o3, n3⟩ := writeStats_quiet s.tx.tail fs.length fs 0 (flush s1) w2.quiet w2.mem
    (by rw [w2.priv]; exact hs) (by rw [r2]; exact ha) (by rw [r2]; exact htl) (by rw [r2]; omega)
  rw [r2] at f3 o3 n3
  rw [k2] at f3
  have w := w2.trans w3
  have r3 : s3.tx = s.tx := congrArg Private.tx w.priv
  have d3 : s3.ndesc = s.ndesc := congrArg Private.ndesc w.priv
  generalize hs4 : ((s3.setNdesc (s3.ndesc.set s.tx.tail fs.length)).setTx (s3.tx.give fs.length b)).setHanding 0 = s4
  have e4 : recordGroup s.tx.tail fs.length b s3 = .ok ((), s4) := by rw [← hs4]; rfl
  have q4 : s4.quiet := by rw [← hs4]; exact w3.quiet
  have m4 : MemOk s4 := by rw [← hs4]; exact w3.mem
  have g4 : s4.regs = s.regs := by rw [← hs4]; exact w.apart.regs
  have p4 : s4.priv = { s.priv with tx := s.tx.give fs.length b, ndesc := s.ndesc.set s.tx.tail fs.length } := by
    have : s4.priv = { s3.priv with tx := s3.tx.give fs.length b, ndesc := s3.ndesc.set s.tx.tail fs.length } := by
      rw [← hs4]
      rfl
    rw [this, w.priv, r3, d3]
  have hw4 : s4.hw = s.hw := by rw [← hs4]; exact w.apart.hw
  have en4 : s4.env = s.env := by rw [← hs4]; exact w.apart.env
  have ou4 : s4.out = s.out := by rw [← hs4]; exact w.apart.out
  have ca4 : s4.calls = s.calls := by rw [← hs4]; exact w.apart.calls
  have st4 : s4.settled = s3.settled := by rw [← hs4]; rfl
  -- fields after the path was enabled
  have fld : ∀ t : State, t.settled = s3.settled → t.priv = s4.priv → ∀ i f, t.field .tx i f = s3.field .tx i f := by
    intro t ht hp i f
    have hrt : t.tx = s.tx.give fs.length b := by
      have := congrArg Private.tx (hp.trans p4)
      exact this
    have hkt : t.params = s3.params := by
      have h1 : t.params = s.params := congrArg Private.params (hp.trans p4)
      have h2 : s3.params = s.params := congrArg Private.params w.priv
      exact h1.trans h2.symm
    refine field_congr (d := .tx) ?_ ?_ hkt (fun _ k _ _ _ => by rw [ht]) f
    · show t.tx.base = s3.tx.base
      rw [hrt, r3]
      rfl
    · show t.tx.cap = s3.tx.cap
      rw [hrt, r3]
      rfl
  have fin : ∀ t : State, t.rested → MemOk t → t.settled = s3.settled → t.priv = s4.priv →
      t.regs = { s.regs with txEn := true } → t.hw = (if s.regs.txEn then s.hw else { s.hw with txSample := none }) →
      t.env = s.env → t.out = s.out → t.calls = s.calls → Enqueued s t fs b := by
    intro t h1 h2 h3 h4 h5 h6 h7 h8 h9
    refine ⟨h1, h2, h5, h6, h7, h8, h9, h4.trans p4, ?_, ?_⟩
    · intro j hj
      have a1 := f1 j hj
      have a3 := f3 j hj
      rw [Nat.zero_add] at a1 a3
      have hfl : ∀ i f, (flush s1).field .tx i f = s1.field .tx i f := fun i f => rfl
      refine ⟨?_, ?_, ?_⟩
      · rw [fld t h3 h4, n3 _ _ (.inl (by decide)), hfl]
        exact a1.1
      · rw [fld t h3 h4, n3 _ _ (.inl (by decide)), hfl]
        exact a1.2
      · rw [fld t h3 h4]
        exact a3
    · intro a hout
      rw [h3, o3 a (by rwa [hadv0]), flush_settled, o1 a (by rwa [hadv0])]
  refine ⟨s4.enabledIfOff .tx, ?_, fin _ (State.enabledIfOff_rested .tx q4) (State.enabledIfOff_memOk .tx m4) ?_ ?_ ?_ ?_
    ?_ ?_ ?_⟩
  · simp only [handOverTx, run_here_bind, hreal]
    have e12 : layGroup s.tx.tail fs s = .ok ((), flush s1) := by
      simp only [layGroup]
      rw [run_bind_ok e1, e2]
    rw [run_bind_ok (sound_true _ _), run_bind_ok e12, run_bind_ok e3, run_bind_ok e4,
      enableTx_quiet q4]
  · rw [State.enabledIfOff_settled, st4]
  · rw [State.enabledIfOff_priv]
  · rw [State.enabledIfOff_tx_regs, g4]
  · rw [State.enabledIfOff_tx_hw, g4, hw4]
  · rw [State.enabledIfOff_env, en4]
  · rw [State.enabledIfOff_out, ou4]
  · rw [State.enabledIfOff_calls, ca4]

end Sys2Proof.Machine
end

