-- ==== Sys2Proof/Laws/Layout.lean ====
section
/-!
SUPPORT. Laws/Layout.lean: what RING_INIT does where nothing happens between C's events (40_ring_lifecycle R111, R112).
-/
namespace Sys2Proof.Machine

theorem ring_of_priv {s t : State} (h : t.priv = s.priv) (d : Dir) : t.ring d = s.ring d := by
  cases d
  · exact congrArg Private.rx h
  · exact congrArg Private.tx h

/-- The first `n` slots of a ring laid out. -/
theorem initSlots_quiet (d : Dir) (n : Nat) (b : Word) (s : State) (h : s.quiet) (hm : MemOk s)
    (hb : (s.ring d).base = some b) (hn : n ≤ (s.ring d).cap) :
    ∃ t, initSlots d n s = .ok ((), t) ∧ Wrote s t ∧
      (∀ i, i < n → t.field d i .phys = some 0 ∧ t.field d i .len = some 0 ∧
        t.field d i .stat = some (statInit s.params d (s.ring d) i).toNat) ∧
      (∀ a, a < b.toNat ∨ b.toNat + descSize * n ≤ a → Memory.read a t.settled = Memory.read a s.settled) := by
  induction n with
  | zero => exact ⟨s, rfl, .rfl' h hm, fun i hi => absurd hi (by omega), fun _ _ => rfl⟩
  | succ n ih =>
    obtain ⟨s1, e1, w1, f1, o1⟩ := ih (by omega)
    have hx : (s.ring d).slotAddr n = some (b.toNat + descSize * n) := slotAddr_some.2 ⟨b, hb, by omega, rfl⟩
    have hx1 : (s1.ring d).slotAddr n = some (b.toNat + descSize * n) := by rw [ring_of_priv w1.priv]; exact hx
    obtain ⟨s2, e2, w2, m2⟩ := descWrite_wrote (f := .phys) (v := 0) w1.quiet w1.mem hx1
    have w12 := w1.trans w2
    have hx2 : (s2.ring d).slotAddr n = some (b.toNat + descSize * n) := by rw [ring_of_priv w12.priv]; exact hx
    obtain ⟨s3, e3, w3, m3⟩ := descWrite_wrote (f := .len) (v := 0) w2.quiet w2.mem hx2
    have w13 := w12.trans w3
    have hx3 : (s3.ring d).slotAddr n = some (b.toNat + descSize * n) := by rw [ring_of_priv w13.priv]; exact hx
    have k3 : s3.params = s.params := congrArg Private.params w13.priv
    obtain ⟨s4, e4, w4, m4⟩ := descWrite_wrote (f := .stat)
      (v := (statInit s3.params d (s3.ring d) n).toNat) w3.quiet w3.mem hx3
    refine ⟨s4, ?_, w13.trans w4, ?_, ?_⟩
    · simp only [initSlots]
      rw [run_bind_ok e1, run_bind_ok e2, run_bind_ok e3]
      exact e4
    · intro i hi
      have step : ∀ g, (i ≠ n) → s4.field d i g = s1.field d i g := fun g hne => by
        rw [field_of_write w3.mem hx3 w4.priv m4 (.inl hne), field_of_write w2.mem hx2 w3.priv m3 (.inl hne),
          field_of_write w1.mem hx1 w2.priv m2 (.inl hne)]
      by_cases hne : i = n
      · subst hne
        refine ⟨?_, ?_, ?_⟩
        · rw [field_of_write w3.mem hx3 w4.priv m4 (.inr (by decide)),
            field_of_write w2.mem hx2 w3.priv m3 (.inr (by decide)),
            field_of_write_same w1.mem hx1 w2.priv m2 (by decide)]
        · rw [field_of_write w3.mem hx3 w4.priv m4 (.inr (by decide)),
            field_of_write_same w2.mem hx2 w3.priv m3 (by decide)]
        · rw [field_of_write_same w3.mem hx3 w4.priv m4 (half_lt _), k3, ring_of_priv w13.priv]
      · rw [step _ hne, step _ hne, step _ hne]
        exact f1 i (by omega)
    · intro a ha
      have hd : descSize * (n + 1) = descSize * n + descSize := by rw [Nat.mul_succ]
      have ha' : a < b.toNat + descSize * n ∨ b.toNat + descSize * n + descSize ≤ a := by omega
      rw [read_of_write w3.mem m4 ha', read_of_write w2.mem m3 ha', read_of_write w1.mem m2 ha']
      have hz : 0 ≤ descSize := by decide
      exact o1 a (by omega)

/-- A ring laid out and opened. -/
theorem layRing_quiet (d : Dir) (b : Word) (s : State) (h : s.quiet) (hm : MemOk s) (hb : (s.ring d).base = some b) :
    ∃ t, layRing d (s.ring d).cap s = .ok ((), t) ∧ t.quiet ∧ MemOk t ∧ Apart s t ∧
      t.priv = (s.setRing d (s.ring d).opened).priv ∧
      (∀ i, i < (s.ring d).cap → t.field d i .phys = some 0 ∧ t.field d i .len = some 0 ∧
        t.field d i .stat = some (statInit s.params d (s.ring d) i).toNat) ∧
      (∀ a, a < b.toNat ∨ b.toNat + descSize * (s.ring d).cap ≤ a → Memory.read a t.settled = Memory.read a s.settled) := by
  obtain ⟨u, e, w, f, o⟩ := initSlots_quiet d (s.ring d).cap b s h hm hb (Nat.le_refl _)
  have hr : u.ring d = s.ring d := ring_of_priv w.priv d
  have hf : ∀ i g, (u.setRing d (u.ring d).opened).field d i g = u.field d i g := by
    intro i g
    refine field_congr ?_ ?_ (by simp) ?_ g
    · rw [State.ring_setRing]; rfl
    · rw [State.ring_setRing]; rfl
    · intro x k _ _ _
      have : (u.setRing d (u.ring d).opened).settled = u.settled := by simp [State.settled]
      rw [this]
  refine ⟨u.setRing d (u.ring d).opened, ?_, ?_, ?_, ?_, ?_, ?_, ?_⟩
  · simp only [layRing]
    rw [run_bind_ok e]
    rfl
  · exact ⟨by simpa using w.quiet.1, by simpa using w.quiet.2⟩
  · show Memory.wf _ = true
    rw [State.setRing_mem]
    exact w.mem
  · exact w.apart.trans ⟨by simp, by simp, by simp, by simp, by simp⟩
  · have hp := w.priv
    simp only [State.priv, Private.mk.injEq] at hp
    cases d <;> simp [State.priv, hp]
  · intro i hi
    rw [hf, hf, hf]
    exact f i hi
  · intro a ha
    have : (u.setRing d (u.ring d).opened).settled = u.settled := by simp [State.settled]
    rw [this]
    exact o a ha

/-- The fields of a ring depend on its base, its capacity and the bytes of its block. -/
theorem field_block {s t : State} {d : Dir} {b : Word} (hb : (s.ring d).base = some b)
    (hb' : (t.ring d).base = some b) (hc : (t.ring d).cap = (s.ring d).cap) (hp : t.params = s.params)
    (h : ∀ a, b.toNat ≤ a → a < b.toNat + descSize * (s.ring d).cap → Memory.read a t.settled = Memory.read a s.settled)
    (i : Nat) (f : Field) : t.field d i f = s.field d i f := by
  refine field_congr (hb'.trans hb.symm) hc hp ?_ f
  intro x k hx h1 h2
  obtain ⟨c, hc', hi, rfl⟩ := slotAddr_some.1 hx
  obtain rfl : b = c := by simpa [hb] using hc'
  simp only [descSize] at *
  exact h k (by omega) (by omega)

/-- The state after RING_INIT's own part, from the state with the three answers given. -/
structure Laid (s t : State) (capRx capTx : Nat) (a b : Word) : Prop where
  quiet   : t.quiet
  mem     : MemOk t
  regs    : t.regs = s.regs
  hw      : t.hw = s.hw
  out     : t.out = s.out
  inputs  : t.env.inputs = s.env.inputs
  answers : t.env.answers = s.env.answers
  calls   : t.calls = s.calls
  priv    : ∃ k j, t.priv = s.priv.laid capRx capTx a b k j
  rxSlots : ∀ i, i < capRx → t.field .rx i .phys = some 0 ∧ t.field .rx i .len = some 0 ∧
    t.field .rx i .stat = some (if i + 1 = capRx then bit16 s.params.rxdWrap else 0).toNat
  txSlots : ∀ i, i < capTx → t.field .tx i .phys = some 0 ∧ t.field .tx i .len = some 0 ∧
    t.field .tx i .stat = some (if i + 1 = capTx then bit16 s.params.txdWrap else 0).toNat
  outside : ∀ x, (x < a.toNat ∨ a.toNat + descSize * capRx ≤ x) → (x < b.toNat ∨ b.toNat + descSize * capTx ≤ x) →
    Memory.read x t.settled = Memory.read x s.settled

/-- RING_INIT's part after its three answers. -/
def layBoth (capRx capTx : Nat) (a b : Word) : Op Unit := do
  setBlock .rx a capRx
  setBlock .tx b capTx
  freshMeta capRx capTx
  upd fun s => s.setCoreFresh false
  layRing .rx capRx
  layRing .tx capTx

theorem overlaps_false {a n b k : Nat} (h : overlaps a n b k = false) (hn : 0 < n) (hk : 0 < k) :
    a + n ≤ b ∨ b + k ≤ a := by
  simp only [overlaps, Bool.and_eq_false_iff, decide_eq_false_iff_not] at h
  omega

theorem layBoth_quiet {capRx capTx : Nat} {a b : Word} {s : State} (h : s.quiet) (hm : MemOk s) (h1 : 2 ≤ capRx)
    (h2 : 2 ≤ capTx) (hal : allocOk s.params.dmaAlign a.toNat capRx b.toNat capTx = true) :
    ∃ t, layBoth capRx capTx a b s = .ok ((), t) ∧ Laid s t capRx capTx a b := by
  have hd : a.toNat + descSize * capRx ≤ b.toNat ∨ b.toNat + descSize * capTx ≤ a.toNat := by
    simp only [allocOk, Bool.and_eq_true, decide_eq_true_eq, Bool.not_eq_true'] at hal
    exact overlaps_false hal.2 (by simp only [descSize]; omega) (by simp only [descSize]; omega)
  -- the state with the blocks, the metadata and the mark set
  obtain ⟨s1, e1, q1, m1, a1, p1, st1⟩ : ∃ s1, (do
      setBlock .rx a capRx
      setBlock .tx b capTx
      freshMeta capRx capTx
      upd fun s => s.setCoreFresh false : Op Unit) s = .ok ((), s1) ∧ s1.quiet ∧ MemOk s1 ∧
      (s1.regs = s.regs ∧ s1.hw = s.hw ∧ s1.out = s.out ∧ s1.env.inputs = s.env.inputs ∧
        s1.env.answers = s.env.answers ∧ s1.calls = s.calls) ∧
      (∃ k j, s1.priv = { s.priv with
        rx := { s.rx with base := some a, cap := capRx, handle := (List.range capRx).map (Config.freeHandle k) }
        tx := { s.tx with base := some b, cap := capTx, handle := (List.range capTx).map (Config.freeHandle j) }
        ndesc := (List.range capTx).map (Config.freeNdesc k), coreFresh := false }) ∧ s1.settled = s.settled :=
    ⟨_, rfl, h, hm, ⟨rfl, rfl, rfl, rfl, rfl, rfl⟩, ⟨_, _, rfl⟩, rfl⟩
  obtain ⟨k, j, p1⟩ := p1
  have rx1 : s1.rx = { s.rx with base := some a, cap := capRx, handle := (List.range capRx).map (Config.freeHandle k) } :=
    congrArg Private.rx p1
  have tx1 : s1.tx = { s.tx with base := some b, cap := capTx, handle := (List.range capTx).map (Config.freeHandle j) } :=
    congrArg Private.tx p1
  have k1 : s1.params = s.params := congrArg Private.params p1
  obtain ⟨s2, e2, q2, m2, a2, p2, f2, o2⟩ := layRing_quiet .rx a s1 q1 m1 (by show s1.rx.base = _; rw [rx1])
  have c1 : (s1.ring .rx).cap = capRx := by show s1.rx.cap = _; rw [rx1]
  rw [c1] at e2 f2 o2
  have tx2 : s2.tx = s1.tx := congrArg Private.tx p2
  have rx2 : s2.rx = s1.rx.opened := congrArg Private.rx p2
  have k2 : s2.params = s1.params := congrArg Private.params p2
  obtain ⟨s3, e3, q3, m3, a3, p3, f3, o3⟩ := layRing_quiet .tx b s2 q2 m2 (by show s2.tx.base = _; rw [tx2, tx1])
  have c2 : (s2.ring .tx).cap = capTx := by show s2.tx.cap = _; rw [tx2, tx1]
  rw [c2] at e3 f3 o3
  have rx3 : s3.rx = s2.rx := congrArg Private.rx p3
  have k3 : s3.params = s2.params := congrArg Private.params p3
  refine ⟨s3, ?_, ?_⟩
  · have : layBoth capRx capTx a b s = ((do
        layRing .rx capRx
        layRing .tx capTx : Op Unit)) s1 := by
      have h0 := e1
      simp only [setBlock, run_upd_bind] at h0
      simp only [layBoth, setBlock, run_upd_bind]
      obtain ⟨_, u, hu, hv⟩ := bind_ok h0
      rw [run_bind_ok hu]
      simp only [run_upd, Except.ok.injEq, Prod.mk.injEq, true_and] at hv
      rw [run_upd_bind, hv]
    rw [this, run_bind_ok e2, e3]
  · constructor
    · exact q3
    · exact m3
    · rw [a3.regs, a2.regs, a1.1]
    · rw [a3.hw, a2.hw, a1.2.1]
    · rw [a3.out, a2.out, a1.2.2.1]
    · rw [a3.env, a2.env, a1.2.2.2.1]
    · rw [a3.env, a2.env, a1.2.2.2.2.1]
    · rw [a3.calls, a2.calls, a1.2.2.2.2.2]
    · refine ⟨k, j, ?_⟩
      have e3 : s3.priv = { s2.priv with tx := s2.tx.opened } := p3
      have e2 : s2.priv = { s1.priv with rx := s1.rx.opened } := p2
      rw [e3, e2, tx2, p1, rx1, tx1]
      rfl
    · intro i hi
      have keep : ∀ g, s3.field .rx i g = s2.field .rx i g := fun g =>
        field_block (b := a) (d := .rx) (by show s2.rx.base = _; rw [rx2, rx1]; rfl)
          (by show s3.rx.base = _; rw [rx3, rx2, rx1]; rfl) (by show s3.rx.cap = s2.rx.cap; rw [rx3]) k3
          (fun x hx1 hx2 => o3 x (by
            have : s2.rx.cap = capRx := by rw [rx2, rx1]; rfl
            have hx2' : x < a.toNat + descSize * s2.rx.cap := hx2
            rw [this] at hx2'
            omega)) i g
      have := f2 i hi
      rw [keep, keep, keep]
      refine ⟨this.1, this.2.1, this.2.2.trans ?_⟩
      have hl : s1.rx.isLast i = (i + 1 == capRx) := by rw [rx1]; rfl
      show some (if s1.rx.isLast i then bit16 (wrapBit s1.params .rx) else 0 : Half).toNat = _
      rw [hl, k1]
      simp [wrapBit]
    · intro i hi
      have := f3 i hi
      refine ⟨this.1, this.2.1, this.2.2.trans ?_⟩
      have hl : s2.tx.isLast i = (i + 1 == capTx) := by rw [tx2, tx1]; rfl
      show some (if s2.tx.isLast i then bit16 (wrapBit s2.params .tx) else 0 : Half).toNat = _
      rw [hl, k2, k1]
      simp [wrapBit]
    · intro x h1 h2
      rw [o3 x h2, o2 x h1, st1]

/-- RING_INIT with its three answers listed: it is refused nowhere and both rings stand. -/
theorem ringInit_quiet {capRx capTx : Nat} {a b : Word} {s : State} {ra rm} (h : s.quiet) (hm : MemOk s) (h1 : 2 ≤ capRx)
    (h2 : 2 ≤ capTx) (hrx : s.rx.alive = false) (htx : s.tx.alive = false)
    (hal : allocOk s.params.dmaAlign a.toNat capRx b.toNat capTx = true)
    (hda : s.env.answers.dmaAlloc = some a :: some b :: ra) (hma : s.env.answers.metaAlloc = true :: rm) :
    ∃ t, ringInit capRx capTx s = .ok (true, t) ∧
      Laid ((s.setCalls (s.calls ++ [.dmaAlloc (descSize * capRx) s.params.dmaAlign,
        .dmaAlloc (descSize * capTx) s.params.dmaAlign, .metaAlloc capRx capTx])).setEnv { s.env with
          answers := { s.env.answers with dmaAlloc := ra, metaAlloc := rm } }) t capRx capTx a b := by
  have e1 := ask_quiet (.dmaAlloc (descSize * capRx) s.params.dmaAlign) (get := (·.dmaAlloc))
    (fun a x => { a with dmaAlloc := x }) Config.freeDma h hda
  generalize hs1 : (s.setCalls _).setEnv _ = s1 at e1
  have q1 : s1.quiet := by rw [← hs1]; exact h
  have hda1 : s1.env.answers.dmaAlloc = some b :: ra := by rw [← hs1]; rfl
  have e2 := ask_quiet (.dmaAlloc (descSize * capTx) s.params.dmaAlign) (get := (·.dmaAlloc))
    (fun a x => { a with dmaAlloc := x }) Config.freeDma q1 hda1
  generalize hs2 : (s1.setCalls _).setEnv _ = s2 at e2
  have q2 : s2.quiet := by rw [← hs2]; exact q1
  have hma2 : s2.env.answers.metaAlloc = true :: rm := by rw [← hs2, ← hs1]; exact hma
  have e3 := ask_quiet (.metaAlloc capRx capTx) (get := (·.metaAlloc))
    (fun a x => { a with metaAlloc := x }) Config.freeOk q2 hma2
  generalize hs3 : (s2.setCalls _).setEnv _ = s3 at e3
  have q3 : s3.quiet := by rw [← hs3]; exact q2
  have e : s3 = (s.setCalls (s.calls ++ [.dmaAlloc (descSize * capRx) s.params.dmaAlign,
        .dmaAlloc (descSize * capTx) s.params.dmaAlign, .metaAlloc capRx capTx])).setEnv { s.env with
          answers := { s.env.answers with dmaAlloc := ra, metaAlloc := rm } } := by
    rw [← hs3, ← hs2, ← hs1]
    simp [State.setCalls, State.setEnv]
  have m3 : MemOk s3 := by rw [e]; exact hm
  have k3 : s3.params = s.params := by rw [e]; rfl
  obtain ⟨t, et, lt⟩ := layBoth_quiet (s := s3) q3 m3 h1 h2 (k3 ▸ hal)
  refine ⟨t, ?_, e ▸ lt⟩
  have e0 : ringInit capRx capTx s = (do
      layBoth capRx capTx a b
      pure true : Op Bool) s3 := by
    simp only [ringInit, decide_eq_true h1, decide_eq_true h2, Bool.and_self]
    rw [run_bind_ok (require_true _ _)]
    simp only [run_here_bind, hrx, htx, Bool.not_false, Bool.and_self]
    rw [run_bind_ok (require_true _ _)]
    simp only [askDma, askMeta]
    rw [run_bind_ok e1, run_bind_ok e2, run_bind_ok e3]
    simp only [hal]
    rw [run_bind_ok (require_true _ _)]
    simp only [layBoth, bind_assoc]
  rw [e0, run_bind_ok et]
  rfl

end Sys2Proof.Machine
end

