-- ==== Sys2Proof/Laws/Release.lean ====
section
/-!
SUPPORT. Laws/Release.lean: a RING_INIT that fails (40_ring_lifecycle R112), RING_TEARDOWN (R115, R116) and the abort of
bring-up (44_link_bringup R164), where nothing happens between C's events.
-/
namespace Sys2Proof.Machine

/-! ### RING_INIT with an allocation that fails -/

theorem releaseDma_quiet (a : Option Word) (n : Nat) {s : State} (h : s.quiet) :
    releaseDma a n s = .ok ((), s.setCalls (s.calls ++ match a with | some x => [.dmaFree x n] | none => [])) := by
  cases a with
  | none => simp [releaseDma, State.setCalls]
  | some x => exact call_quiet _ h

theorem releaseMeta_quiet (m : Bool) {s : State} (h : s.quiet) :
    releaseMeta m s = .ok ((), s.setCalls (s.calls ++ if m then [.metaFree .rx, .metaFree .tx] else [])) := by
  cases m with
  | false => simp [releaseMeta, State.setCalls]
  | true =>
    have h1 : (s.setCalls (s.calls ++ [.metaFree .rx])).quiet := h
    simp only [releaseMeta, if_true]
    rw [run_bind_ok (call_quiet _ h), call_quiet _ h1]
    simp [State.setCalls]

theorem ringInit_fails {capRx capTx : Nat} {x y : Option Word} {m : Bool} {s : State} {rd : List (Option Word)}
    {rm : List Bool} (h : s.quiet) (h1 : 2 ≤ capRx) (h2 : 2 ≤ capTx) (hrx : s.rx.alive = false) (htx : s.tx.alive = false)
    (hda : s.env.answers.dmaAlloc = x :: y :: rd) (hma : s.env.answers.metaAlloc = m :: rm)
    (hf : x = none ∨ y = none ∨ m = false) :
    ringInit capRx capTx s = .ok (false, (s.setCalls (s.calls ++ (allocCalls s.params capRx capTx ++
      unwindCalls capRx capTx x y m))).setEnv { s.env with
        answers := { s.env.answers with dmaAlloc := rd, metaAlloc := rm } }) := by
  have e1 := ask_quiet (.dmaAlloc (descSize * capRx) s.params.dmaAlign) (get := (·.dmaAlloc))
    (fun a x => { a with dmaAlloc := x }) Config.freeDma h hda
  generalize hs1 : (s.setCalls _).setEnv _ = s1 at e1
  have q1 : s1.quiet := by rw [← hs1]; exact h
  have hda1 : s1.env.answers.dmaAlloc = y :: rd := by rw [← hs1]; rfl
  have e2 := ask_quiet (.dmaAlloc (descSize * capTx) s.params.dmaAlign) (get := (·.dmaAlloc))
    (fun a x => { a with dmaAlloc := x }) Config.freeDma q1 hda1
  generalize hs2 : (s1.setCalls _).setEnv _ = s2 at e2
  have q2 : s2.quiet := by rw [← hs2]; exact q1
  have hma2 : s2.env.answers.metaAlloc = m :: rm := by rw [← hs2, ← hs1]; exact hma
  have e3 := ask_quiet (.metaAlloc capRx capTx) (get := (·.metaAlloc))
    (fun a x => { a with metaAlloc := x }) Config.freeOk q2 hma2
  generalize hs3 : (s2.setCalls _).setEnv _ = s3 at e3
  have q3 : s3.quiet := by rw [← hs3]; exact q2
  simp only [ringInit, decide_eq_true h1, decide_eq_true h2, Bool.and_self]
  rw [run_bind_ok (require_true _ _)]
  simp only [run_here_bind, hrx, htx, Bool.not_false, Bool.and_self]
  rw [run_bind_ok (require_true _ _)]
  simp only [askDma, askMeta]
  rw [run_bind_ok e1, run_bind_ok e2, run_bind_ok e3]
  have e : ∀ z : Word → Word → Op Bool, (match x, y, m with
      | some a, some b, true => z a b
      | a, b, m => (do
        releaseDma a (descSize * capRx)
        releaseDma b (descSize * capTx)
        releaseMeta m
        pure false)) = (do
        releaseDma x (descSize * capRx)
        releaseDma y (descSize * capTx)
        releaseMeta m
        pure false) := by
    intro z
    rcases x with _ | x <;> rcases y with _ | y <;> rcases m <;> first | rfl | simp at hf
  have q4 : (s3.setCalls (s3.calls ++ match x with | some x => [.dmaFree x (descSize * capRx)] | none => [])).quiet := q3
  generalize hs4 : s3.setCalls (s3.calls ++ match x with | some x => [.dmaFree x (descSize * capRx)] | none => []) = s4 at q4
  have q5 : (s4.setCalls (s4.calls ++ match y with | some x => [.dmaFree x (descSize * capTx)] | none => [])).quiet := q4
  generalize hs5 : s4.setCalls (s4.calls ++ match y with | some x => [.dmaFree x (descSize * capTx)] | none => []) = s5 at q5
  refine (congrFun (e _) s3).trans ?_
  rw [run_bind_ok (releaseDma_quiet x _ q3), hs4, run_bind_ok (releaseDma_quiet y _ q4), hs5,
    run_bind_ok (releaseMeta_quiet m q5), run_pure, ← hs5, ← hs4, ← hs3, ← hs2, ← hs1]
  cases x <;> cases y <;> simp only [State.setCalls, State.setEnv, allocCalls, unwindCalls, List.append_assoc,
    List.cons_append, List.nil_append]

/-! ### RING_TEARDOWN -/

/-- One ring is released, or left as it is where it is not alive. -/
theorem closeRing_quiet (d : Dir) {s : State} (h : s.quiet) :
    ∃ r n, closeRing d s = .ok ((), (((s.setCalls (s.calls ++ freeCalls d (s.ring d))).setEnv
        { s.env with draws := n })).setRing d r) ∧ r.alive = false ∧
      ((s.ring d).alive = true → r.base = none) ∧ ((s.ring d).alive = false → r = s.ring d) := by
  unfold closeRing
  by_cases ha : (s.ring d).alive = true
  · simp only [run_here_bind, ha, if_true]
    have key : ∀ t : State, t.quiet → ∃ r n, ((do
        call (.metaFree d)
        let k ← freshDraw
        upd fun s => s.setRing d { cap := Config.freeRingReg k 0, base := none, head := Config.freeRingReg k 1,
                                    tail := Config.freeRingReg k 2, remain := Config.freeRingReg k 3, alive := false,
                                    handle := [] } : Op Unit)) t =
        .ok ((), ((t.setCalls (t.calls ++ [.metaFree d])).setEnv { t.env with draws := n }).setRing d r) ∧
        r.alive = false ∧ r.base = none := by
      intro t ht
      rw [run_bind_ok (call_quiet _ ht)]
      exact ⟨_, _, rfl, rfl, rfl⟩
    cases hb : (s.ring d).base with
    | none =>
      obtain ⟨r, n, e, h1, h2⟩ := key s h
      refine ⟨r, n, ?_, h1, fun _ => h2, by simp⟩
      simpa [freeCalls, ha, hb] using e
    | some b =>
      obtain ⟨r, n, e, h1, h2⟩ := key (s.setCalls (s.calls ++ [.dmaFree b (descSize * (s.ring d).cap)])) h
      refine ⟨r, n, ?_, h1, fun _ => h2, by simp⟩
      simp only
      rw [run_bind_ok (call_quiet _ h), e]
      simp [State.setCalls, freeCalls, ha, hb]
  · simp only [Bool.not_eq_true] at ha
    refine ⟨s.ring d, s.env.draws, ?_, ha, by simp [ha], fun _ => rfl⟩
    simp only [run_here_bind, ha]
    have hf : freeCalls d (s.ring d) = [] := by simp [freeCalls, ha]
    rw [hf]
    cases d <;> simp [State.setCalls, State.setEnv, State.setRing, State.setRx, State.setTx, State.ring]

/-- The state RING_TEARDOWN leaves: `r` and `q` are the released rings, `k` counts the free values drawn. -/
def torn (s : State) (r q : Ring) (k : Nat) : State :=
  { s with
    rx := r
    tx := q
    ndesc := if s.tx.alive then [] else s.ndesc
    coreFresh := false
    env := { s.env with draws := k }
    calls := s.calls ++ freeCalls .rx s.rx ++ freeCalls .tx s.tx }

theorem ringTeardown_quiet {s : State} (h : s.quiet) :
    ∃ r q k, ringTeardown s = .ok ((), torn s r q k) ∧ r.alive = false ∧ q.alive = false ∧
      (s.rx.alive = true → r.base = none) ∧ (s.tx.alive = true → q.base = none) ∧
      (s.rx.alive = false → r = s.rx) ∧ (s.tx.alive = false → q = s.tx) := by
  obtain ⟨r, n, e1, r1, r2, r3⟩ := closeRing_quiet .rx h
  generalize hs1 : State.setRing _ .rx r = s1 at e1
  have q1 : s1.quiet := by rw [← hs1]; exact h
  have tx1 : s1.tx = s.tx := by rw [← hs1]; rfl
  have e2 : closeNdesc s1 = .ok ((), s1.setNdesc (if s.tx.alive then [] else s.ndesc)) := by
    have : s1.ndesc = s.ndesc := by rw [← hs1]; rfl
    simp only [closeNdesc, run_here_bind, tx1]
    cases s.tx.alive
    · simp [← this, State.setNdesc]
    · rfl
  generalize hs2 : s1.setNdesc _ = s2 at e2
  have q2 : s2.quiet := by rw [← hs2]; exact q1
  obtain ⟨q, k, e3, t1, t2, t3⟩ := closeRing_quiet .tx q2
  have tx2 : s2.ring .tx = s.tx := by rw [← hs2]; exact tx1
  rw [tx2] at t2 t3 e3
  refine ⟨r, q, k, ?_, r1, t1, r2, t2, r3, t3⟩
  unfold ringTeardown
  rw [run_bind_ok e1, run_bind_ok e2, run_bind_ok e3, run_upd, ← hs2, ← hs1]
  rfl

theorem tornDown_of {s u : State} {before after : List Call} {r q : Ring} (hs : RingsSound s.priv) (r1 : r.alive = false)
    (q1 : q.alive = false) (r2 : s.rx.alive = true → r.base = none) (q2 : s.tx.alive = true → q.base = none)
    (r3 : s.rx.alive = false → r = s.rx) (q3 : s.tx.alive = false → q = s.tx)
    (e : ∃ c m o n a, u = { s with
      rx := r, tx := q, ndesc := if s.tx.alive then [] else s.ndesc, coreFresh := false, ctx := c, seq := m, out := o
      env := { s.env with draws := n, answers := a }
      calls := s.calls ++ before ++ freeCalls .rx s.rx ++ freeCalls .tx s.tx ++ after }) :
    TornDown s u before after := by
  obtain ⟨c, m, o, n, a, rfl⟩ := e
  have base : ∀ (x y : Ring), x.Sound s.params.dmaAlign → (x.alive = true → y.base = none) →
      (x.alive = false → y = x) → y.base = none := by
    intro x y hx h1 h2
    cases ha : x.alive with
    | true => exact h1 ha
    | false => rw [h2 ha]; exact hx.gone ha
  exact ⟨⟨r1, q1⟩, ⟨base _ _ hs.rx r2 r3, base _ _ hs.tx q2 q3⟩, rfl, ⟨rfl, rfl, rfl⟩, rfl, rfl, fun _ => rfl, ⟨rfl, rfl⟩,
    rfl, rfl⟩

/-! ### The abort of bring-up -/

/-- `abort` after the calls `before`, which changed the context and the answers alone. -/
theorem abort_quiet {s t : State} {before : List Call} (e : Err) (hs : RingsSound s.priv) (h : t.quiet)
    (ht : ∃ c a, t = { s with ctx := c, env := { s.env with answers := a }, calls := s.calls ++ before }) :
    ∃ u, abort e t = .ok (some e, u) ∧ Aborted s (u.ended [e.code]) before e.code := by
  obtain ⟨r, q, k, e1, r1, q1, r2, q2, r3, q3⟩ := ringTeardown_quiet h
  have h1 : (torn t r q k).quiet := h
  refine ⟨_, by unfold abort; rw [run_bind_ok e1, run_bind_ok (call_quiet _ h1)]; rfl, ?_⟩
  obtain ⟨c, a, rfl⟩ := ht
  refine ⟨tornDown_of hs r1 q1 r2 q2 r3 q3 ⟨_, _, _, k, a, rfl⟩, ⟨rfl, rfl⟩, ?_, rfl⟩
  rfl

end Sys2Proof.Machine
end

