-- ==== Sys2Proof/Laws/Reap.lean ====
section
/-!
SUPPORT. Laws/Reap.lean: what REAP_RX and REAP_TX do where nothing happens between C's events and the memory system is at
rest (42_completion_reaper R130 to R141).
-/
namespace Sys2Proof.Machine

theorem take_zero {r : Ring} (h : r.head < r.cap) : r.take 0 = r := by
  cases r
  simp only [Ring.take, Ring.adv, Nat.add_zero] at *
  rw [Nat.mod_eq_of_lt h]

theorem take_take (r : Ring) (n m : Nat) : (r.take n).take m = r.take (n + m) := by
  simp only [Ring.take, Ring.adv, Nat.mod_add_mod, Nat.add_assoc]

/-- Reading a status word: whether the slot is hardware-owned, and nothing changes. -/
theorem descRead_stat {d : Dir} {i : Nat} {s : State} (h : s.rested) (hx : ∃ x, (s.ring d).slotAddr i = some x) :
    ∃ w, descRead d i .stat s = .ok (w, s) ∧ hwOwned s.params d (BitVec.ofNat 16 w) = s.slotOwned d i := by
  obtain ⟨x, hx⟩ := hx
  refine ⟨_, descRead_rested h hx, ?_⟩
  unfold State.slotOwned
  rw [field_of_slot hx, settled_rested h]

theorem descRead_len {i : Nat} {s : State} (h : s.rested) (hx : ∃ x, s.rx.slotAddr i = some x) :
    descRead .rx i .len s = .ok ((s.field .rx i .len).getD 0, s) := by
  obtain ⟨x, hx⟩ := hx
  rw [descRead_rested (d := .rx) h hx, field_of_slot (d := .rx) hx, settled_rested h]
  rfl

/-! ### REAP_RX -/

/-- A state in which only head, counter and calls differ has the same fields. -/
theorem field_setRx_take (s : State) (n : Nat) (c : List Call) (d : Dir) (i : Nat) (f : Field) :
    ((s.setRx (s.rx.take n)).setCalls c).field d i f = s.field d i f := by
  cases d <;> rfl

theorem reapRxLoop_rested (n : Nat) (s : State) (h : s.rested) (hr : RxReady s) (hd : RxDone s n) :
    reapRxLoop s.rx.inflight s =
      .ok ((), (s.setRx (s.rx.take n)).setCalls (s.calls ++ rxCalls s s.rx.head n)) := by
  obtain ⟨m, hm⟩ : ∃ m, m = s.rx.inflight := ⟨_, rfl⟩
  rw [← hm]
  induction m generalizing n s with
  | zero =>
    have : n = 0 := by have := hd.1; omega
    subst this
    have hh : s.rx.head < s.rx.cap := hr.1.rx.head hr.2
    rw [take_zero hh]
    simp [reapRxLoop, rxCalls, State.setRx, State.setCalls]
  | succ m ih =>
    obtain ⟨hle, hdone, hstop⟩ := hd
    have hal := hr.2
    have hh : s.rx.head < s.rx.cap := hr.1.rx.head hal
    have ht : s.rx.tail < s.rx.cap := hr.1.rx.tail hal
    have hp : s.rx.pending = true := (Ring.pending_iff hh ht).2 (by omega)
    have hx : ∃ x, (s.ring .rx).slotAddr s.rx.head = some x := hr.1.rx.slot hal hh
    obtain ⟨w, ew, how⟩ := descRead_stat h hx
    have eb : barrier s = .ok ((), s) := by rw [barrier_quiet h.1, flush_of_rested h]
    simp only [reapRxLoop, run_here_bind, hp, if_true]
    rw [run_bind_ok ew, run_bind_ok eb, how]
    cases n with
    | zero =>
      have hown : s.slotOwned .rx s.rx.head = true := by
        rcases hstop with h0 | h0
        · omega
        · rwa [adv_zero hh] at h0
      rw [hown, take_zero hh]
      simp [rxCalls, State.setRx, State.setCalls]
    | succ n =>
      have hown : s.slotOwned .rx s.rx.head = false := by
        have := hdone 0 (by omega)
        rwa [adv_zero hh] at this
      rw [hown]
      simp only [Bool.false_eq_true, if_false]
      rw [run_bind_ok (descRead_len h hx), run_bind_ok (deliver_gap _ _ (tick_quiet h.1))]
      generalize hs2 : (s.setRx (s.rx.take 1)).setCalls _ = s2
      have hs2' : s2 = (s.setRx (s.rx.take 1)).setCalls
          (s.calls ++ [.onReceiveComplete [handleAt s.rx s.rx.head] [(s.field .rx s.rx.head .len).getD 0]]) := by
        rw [← hs2]
        rfl
      have r2 : s2.rested := by rw [hs2']; exact h
      have rx2 : s2.rx = s.rx.take 1 := by rw [hs2']; rfl
      have hr2 : RxReady s2 := by
        have := hr.take hp
        rw [hs2']
        exact this
      have hinf : s2.rx.inflight = s.rx.inflight - 1 := by
        rw [rx2]
        exact Ring.take_inflight hh ht (by omega)
      have hadv : ∀ k, s2.rx.adv s2.rx.head k = s.rx.adv s.rx.head (k + 1) := by
        intro k
        rw [rx2]
        exact adv_succ (r := s.rx) s.rx.head k
      have hfld : ∀ i f, s2.field .rx i f = s.field .rx i f := by
        intro i f
        rw [hs2']
        exact field_setRx_take s 1 _ .rx i f
      have hso : ∀ i, s2.slotOwned .rx i = s.slotOwned .rx i := by
        intro i
        have : s2.params = s.params := by rw [hs2']; rfl
        simp only [State.slotOwned, hfld, this]
      have hd2 : RxDone s2 n := by
        refine ⟨by rw [hinf]; omega, fun k hk => ?_, ?_⟩
        · rw [hso, hadv]
          exact hdone (k + 1) (by omega)
        · rw [hso, hadv, hinf]
          rcases hstop with h0 | h0
          · exact .inl (by omega)
          · exact .inr h0
      rw [ih n s2 r2 hr2 hd2 (by rw [hinf]; omega)]
      have hcalls : s2.calls ++ rxCalls s2 s2.rx.head n = s.calls ++ rxCalls s s.rx.head (n + 1) := by
        have e1 : rxCalls s s.rx.head (n + 1) =
            .onReceiveComplete [handleAt s.rx s.rx.head] [(s.field .rx s.rx.head .len).getD 0] :: rxCalls s2 s2.rx.head n := by
          simp only [rxCalls, List.range_succ_eq_map, List.map_cons, List.map_map, adv_zero hh]
          congr 1
          apply List.map_congr_left
          intro k _
          simp only [Function.comp_apply, hadv, hfld]
          have : handleAt s2.rx = handleAt s.rx := by rw [rx2]; rfl
          rw [this]
        rw [e1, hs2']
        simp
      rw [hcalls, rx2, take_take, hs2', Nat.add_comm 1 n]
      rfl

/-! ### REAP_TX -/

theorem groupBusy_rested (t n : Nat) (s : State) (h : s.rested) (hx : ∀ i, i < s.tx.cap → ∃ x, s.tx.slotAddr i = some x)
    (hc : 0 < s.tx.cap) : groupBusy t n s = .ok (s.groupOwned t n, s) := by
  induction n with
  | zero => rfl
  | succ n ih =>
    obtain ⟨w, ew, how⟩ := descRead_stat (d := .tx) h (hx (s.tx.adv t n) (adv_lt _ _ hc))
    simp only [groupBusy]
    rw [run_bind_ok ih]
    simp only [run_here_bind]
    rw [run_bind_ok ew, how]
    simp [State.groupOwned, List.range_succ, List.any_append]

theorem reapTxLoop_rested (gs : List Nat) (m : Nat) (s : State) (h : s.rested) (hr : TxReady s)
    (hd : TxDone s s.tx.head s.tx.inflight gs) (hm : s.tx.inflight ≤ m) :
    reapTxLoop m s =
      .ok ((), (s.setTx (s.tx.take gs.sum)).setCalls (s.calls ++ txCalls s s.tx.head gs)) := by
  induction m generalizing gs s with
  | zero =>
    have h0 : s.tx.inflight = 0 := by omega
    cases gs with
    | nil =>
      have hh : s.tx.head < s.tx.cap := hr.1.tx.head hr.2
      show _ = Except.ok ((), (s.setTx (s.tx.take 0)).setCalls _)
      rw [take_zero hh]
      simp [reapTxLoop, txCalls, State.setTx, State.setCalls]
    | cons g gs =>
      have := hd.1
      omega
  | succ m ih =>
    have hal := hr.2
    have hh : s.tx.head < s.tx.cap := hr.1.tx.head hal
    have ht : s.tx.tail < s.tx.cap := hr.1.tx.tail hal
    have hslot : ∀ i, i < s.tx.cap → ∃ x, s.tx.slotAddr i = some x := fun i hi => hr.1.tx.slot hal hi
    simp only [reapTxLoop, run_here_bind]
    by_cases hp : s.tx.pending = true
    · have hpos : 0 < s.tx.inflight := (Ring.pending_iff hh ht).1 hp
      rw [if_pos hp, run_bind_ok (groupBusy_rested _ _ s h hslot (by omega))]
      cases gs with
      | nil =>
        have hown : s.groupOwned s.tx.head (s.ndesc.getD s.tx.head 0) = true := by
          rcases hd with h0 | h0
          · omega
          · exact h0
        rw [hown]
        show _ = Except.ok ((), (s.setTx (s.tx.take 0)).setCalls _)
        rw [take_zero hh]
        simp [txCalls, State.setTx, State.setCalls]
      | cons g gs =>
        obtain ⟨-, hg, hown, hrest⟩ := hd
        rw [← hg, hown]
        have eb : barrier s = .ok ((), s) := by rw [barrier_quiet h.1, flush_of_rested h]
        simp only [Bool.false_eq_true, if_false]
        rw [run_bind_ok eb, run_bind_ok (deliver_gap _ _ (tick_quiet h.1))]
        generalize hs2 : (s.setTx (s.tx.take g)).setCalls _ = s2
        have hs2' : s2 = (s.setTx (s.tx.take g)).setCalls (s.calls ++ [.onTransmitComplete (handleAt s.tx s.tx.head)]) := by
          rw [← hs2]
          rfl
        have r2 : s2.rested := by rw [hs2']; exact h
        have tx2 : s2.tx = s.tx.take g := by rw [hs2']; rfl
        have nd2 : s2.ndesc = s.ndesc := by rw [hs2']; rfl
        have hr2 : TxReady s2 := by
          have := hr.take hp
          rw [hs2', hg]
          exact this
        obtain ⟨g1, g2, -⟩ := (hr.1.groups hal).first hpos
        have g1 : 1 ≤ s.ndesc.getD s.tx.head 0 := g1
        have g2 : s.ndesc.getD s.tx.head 0 ≤ s.tx.inflight := g2
        rw [← hg] at g1 g2
        have hinf : s2.tx.inflight = s.tx.inflight - g := by
          rw [tx2]
          exact Ring.take_inflight hh ht g2
        have hfld : ∀ i f, s2.field .tx i f = s.field .tx i f := by
          intro i f
          rw [hs2']
          rfl
        have hgo : ∀ t n, s2.groupOwned t n = s.groupOwned t n := by
          intro t n
          have hpar : s2.params = s.params := by rw [hs2']; rfl
          have hadv : ∀ i k, s2.tx.adv i k = s.tx.adv i k := fun i k => by rw [tx2]; rfl
          simp only [State.groupOwned, State.slotOwned, hfld, hpar, hadv]
        have hadv : ∀ i k, s2.tx.adv i k = s.tx.adv i k := fun i k => by rw [tx2]; rfl
        have hmono : ∀ gs t left, TxDone s t left gs → TxDone s2 t left gs := by
          intro gs
          induction gs with
          | nil =>
            intro t left h0
            rcases h0 with h0 | h0
            · exact .inl h0
            · exact .inr (by rw [hgo, nd2]; exact h0)
          | cons k ks ihk =>
            intro t left h0
            obtain ⟨a1, a2, a3, a4⟩ := h0
            refine ⟨a1, by rw [nd2]; exact a2, by rw [hgo]; exact a3, ?_⟩
            rw [hadv]
            exact ihk _ _ a4
        have hcl : ∀ gs t, txCalls s2 t gs = txCalls s t gs := by
          intro gs
          induction gs with
          | nil => intro t; rfl
          | cons k ks ihk =>
            intro t
            have : handleAt s2.tx = handleAt s.tx := by rw [tx2]; rfl
            simp only [txCalls, this, hadv, ihk]
        have hhead : s2.tx.head = s.tx.adv s.tx.head g := by rw [tx2]; rfl
        have hd2 : TxDone s2 s2.tx.head s2.tx.inflight gs := by
          rw [hhead, hinf]
          exact hmono gs _ _ hrest
        rw [ih gs s2 r2 hr2 hd2 (by rw [hinf]; omega)]
        have hcalls : s2.calls ++ txCalls s2 s2.tx.head gs = s.calls ++ txCalls s s.tx.head (g :: gs) := by
          rw [hcl, hhead, hs2']
          simp [txCalls]
        rw [hcalls, tx2, take_take, hs2']
        rfl
    · have hz : s.tx.inflight = 0 := by
        by_contra h0
        exact hp ((Ring.pending_iff hh ht).2 (by omega))
      rw [if_neg hp]
      cases gs with
      | nil =>
        show _ = Except.ok ((), (s.setTx (s.tx.take 0)).setCalls _)
        rw [take_zero hh]
        simp [txCalls, State.setTx, State.setCalls]
      | cons g gs =>
        have := hd.1
        omega

end Sys2Proof.Machine
end

