-- ==== Sys2Proof/Laws/Whole.lean ====
section
/-!
SUPPORT. Laws/Whole.lean: the four ring operations whole, FILL_RX, REAP_RX, REAP_TX and ENQ_TX, where nothing happens
between C's events: what each leaves, said once for the operations that contain them (HANDLE_IRQ, POLL, TRANSMIT, INIT).
-/
namespace Sys2Proof.Machine

/-- The re-enable test of a path on a state `s`: what it leaves. -/
def State.reenabled (s : State) (d : Dir) : State := if (s.ring d).pending then s.enabledIfOff d else s

theorem reenable_run (d : Dir) {s : State} (h : s.quiet) : reenable d s = .ok ((), s.reenabled d) := reenable_quiet d h

section
variable (s : State) (d : Dir)
@[simp] theorem State.reenabled_priv : (s.reenabled d).priv = s.priv := by unfold State.reenabled; split <;> simp
@[simp] theorem State.reenabled_settled : (s.reenabled d).settled = s.settled := by
  unfold State.reenabled; split <;> simp
@[simp] theorem State.reenabled_env : (s.reenabled d).env = s.env := by unfold State.reenabled; split <;> simp
@[simp] theorem State.reenabled_out : (s.reenabled d).out = s.out := by unfold State.reenabled; split <;> simp
@[simp] theorem State.reenabled_calls : (s.reenabled d).calls = s.calls := by unfold State.reenabled; split <;> simp
end

theorem State.reenabled_quiet {s : State} (d : Dir) (h : s.quiet) : (s.reenabled d).quiet := by
  unfold State.reenabled
  split
  · exact (State.enabledIfOff_rested d h).1
  · exact h

theorem State.reenabled_rested {s : State} (d : Dir) (h : s.rested) : (s.reenabled d).rested := by
  unfold State.reenabled
  split
  · exact State.enabledIfOff_rested d h.1
  · exact h

theorem State.reenabled_memOk {s : State} (d : Dir) (h : MemOk s) : MemOk (s.reenabled d) := by
  unfold State.reenabled
  split
  · exact State.enabledIfOff_memOk d h
  · exact h

theorem State.reenabled_ring (s : State) (d : Dir) : (s.reenabled d).ring d = s.ring d := by
  have h := State.reenabled_priv s d
  cases d
  · exact congrArg Private.rx h
  · exact congrArg Private.tx h

theorem State.reenabled_rx_regs (s : State) :
    (s.reenabled .rx).regs = if s.rx.pending then { s.regs with rxEn := true } else s.regs := by
  unfold State.reenabled
  show (if s.rx.pending = true then _ else _ : State).regs = _
  split
  · exact State.enabledIfOff_rx_regs s
  · rfl

theorem State.reenabled_rx_hw (s : State) :
    (s.reenabled .rx).hw = if s.rx.pending && !s.regs.rxEn then { s.hw with rxSample := none } else s.hw := by
  unfold State.reenabled
  show (if s.rx.pending = true then _ else _ : State).hw = _
  cases s.rx.pending
  · simp
  · simp only [if_true, Bool.true_and]
    rw [State.enabledIfOff_rx_hw]
    cases s.regs.rxEn <;> rfl

theorem State.reenabled_tx_regs (s : State) :
    (s.reenabled .tx).regs = if s.tx.pending then { s.regs with txEn := true } else s.regs := by
  unfold State.reenabled
  show (if s.tx.pending = true then _ else _ : State).regs = _
  split
  · exact State.enabledIfOff_tx_regs s
  · rfl

theorem State.reenabled_tx_hw (s : State) :
    (s.reenabled .tx).hw = if s.tx.pending && !s.regs.txEn then { s.hw with txSample := none } else s.hw := by
  unfold State.reenabled
  show (if s.tx.pending = true then _ else _ : State).hw = _
  cases s.tx.pending
  · simp
  · simp only [if_true, Bool.true_and]
    rw [State.enabledIfOff_tx_hw]
    cases s.regs.txEn <;> rfl

/-! ### REAP_RX and REAP_TX -/

theorem reapRx_rested {s : State} {n : Nat} (h : s.rested) (hm : MemOk s) (hr : RxReady s) (hd : RxDone s n) :
    ∃ t, reapRx s = .ok ((), t) ∧ ReapedRx s n t ∧ MemOk t ∧ t.out = s.out := by
  generalize hu : (s.setRx (s.rx.take n)).setCalls (s.calls ++ rxCalls s s.rx.head n) = u
  have e1 : reapRxLoop s.rx.inflight s = .ok ((), u) := by rw [← hu]; exact reapRxLoop_rested n s h hr hd
  have ru : u.rested := by rw [← hu]; exact h
  have mu : MemOk u := by rw [← hu]; exact hm
  refine ⟨u.reenabled .rx, ?_, ⟨?_, ?_, ?_, ?_, ?_, ?_, State.reenabled_rested .rx ru⟩, State.reenabled_memOk .rx mu, ?_⟩
  · simp only [reapRx, run_here_bind, hr.2]
    rw [run_bind_ok (require_true _ _), run_bind_ok e1, reenable_run .rx ru.1]
  · rw [State.reenabled_priv, ← hu]; simp
  · have : (u.reenabled .rx).rx = u.rx := State.reenabled_ring u .rx
    rw [this, State.reenabled_rx_regs, ← hu]; simp
  · have : (u.reenabled .rx).rx = u.rx := State.reenabled_ring u .rx
    rw [this, State.reenabled_rx_hw, ← hu]; simp
  · rw [State.reenabled_calls, ← hu]; simp
  · rw [State.reenabled_env, ← hu]; simp
  · exact .of_settled (by rw [State.reenabled_settled, ← hu]; simp)
  · rw [State.reenabled_out, ← hu]; simp

theorem reapTx_rested {s : State} {gs : List Nat} (h : s.rested) (hm : MemOk s) (hr : TxReady s)
    (hd : TxDone s s.tx.head s.tx.inflight gs) :
    ∃ t, reapTx s = .ok ((), t) ∧ ReapedTx s gs t ∧ MemOk t ∧ t.out = s.out := by
  generalize hu : (s.setTx (s.tx.take gs.sum)).setCalls (s.calls ++ txCalls s s.tx.head gs) = u
  have e1 : reapTxLoop s.tx.inflight s = .ok ((), u) := by
    rw [← hu]; exact reapTxLoop_rested gs s.tx.inflight s h hr hd (Nat.le_refl _)
  have ru : u.rested := by rw [← hu]; exact h
  have mu : MemOk u := by rw [← hu]; exact hm
  refine ⟨u.reenabled .tx, ?_, ⟨?_, ?_, ?_, ?_, ?_, ?_, State.reenabled_rested .tx ru⟩, State.reenabled_memOk .tx mu, ?_⟩
  · simp only [reapTx, run_here_bind, hr.2]
    rw [run_bind_ok (require_true _ _), run_bind_ok e1, reenable_run .tx ru.1]
  · rw [State.reenabled_priv, ← hu]; simp
  · have : (u.reenabled .tx).tx = u.tx := State.reenabled_ring u .tx
    rw [this, State.reenabled_tx_regs, ← hu]; simp
  · have : (u.reenabled .tx).tx = u.tx := State.reenabled_ring u .tx
    rw [this, State.reenabled_tx_hw, ← hu]; simp
  · rw [State.reenabled_calls, ← hu]; simp
  · rw [State.reenabled_env, ← hu]; simp
  · exact .of_settled (by rw [State.reenabled_settled, ← hu]; simp)
  · rw [State.reenabled_out, ← hu]; simp

/-! ### FILL_RX -/

theorem fillRx_quiet {s : State} {bs : List (Nat × Handle)} (h : s.quiet) (hm : MemOk s) (hr : RxReady s)
    (hb : Supplies s s.rx.remain bs) :
    ∃ t, fillRx s = .ok ((), t) ∧ SuppliedRx s bs t ∧ MemOk t ∧ t.out = s.out := by
  obtain ⟨hle, hgood, rest, ha, he⟩ := hb
  obtain ⟨u, eu, fu⟩ := fillLoop_quiet bs s.rx.remain rest s h hm hr (Nat.le_refl _) hle he ha hgood
  have hrx : (u.reenabled .rx).rx = u.rx := State.reenabled_ring u .rx
  have hpar : u.params = s.params := congrArg (fun x : Rest × Ring × List Nat => x.1.params) fu.rest
  have hfld : ∀ i f, (u.reenabled .rx).field .rx i f = u.field .rx i f := fun i f =>
    field_congr (d := .rx) (by show (u.reenabled .rx).rx.base = _; rw [hrx]; rfl)
      (by show (u.reenabled .rx).rx.cap = _; rw [hrx]; rfl)
      (congrArg Private.params (State.reenabled_priv u .rx)) (fun _ k _ _ _ => by rw [State.reenabled_settled]) f
  refine ⟨u.reenabled .rx, ?_, ?_, State.reenabled_memOk .rx fu.mem, by rw [State.reenabled_out, fu.out]⟩
  · simp only [fillRx, run_here_bind, hr.2]
    rw [run_bind_ok (require_true _ _), run_bind_ok eu, reenable_run .rx fu.quiet]
  · have hal : u.rx.alive = s.rx.alive := congrArg (fun x : Rest × Ring × List Nat => x.1.rxAlive) fu.rest
    constructor
    · rw [State.reenabled_priv, hrx]
      have hx := fu.rest
      simp only [State.rest, Private.rest, Prod.mk.injEq, Rest.mk.injEq] at hx
      simp only [State.priv, Private.mk.injEq] at hx ⊢
      exact ⟨hx.1.1, trivial, hx.2.1, hx.2.2, hx.1.2.2.2.1, hx.1.2.2.2.2.1, hx.1.2.2.2.2.2.1, hx.1.2.2.2.2.2.2.1,
        hx.1.2.2.2.2.2.2.2⟩
    · rw [hrx, fu.cap]
    · rw [hrx, fu.base]
    · rw [hrx, fu.head]
    · rw [hrx, hal]
    · rw [hrx, fu.tail]
    · rw [hrx, fu.remain]; omega
    · intro k hk; rw [hrx]; exact fu.handles k hk
    · intro i hi; rw [hrx]; exact fu.others i hi
    · intro k hk; rw [hfld]; exact fu.phys k hk
    · intro k hk; rw [hfld]; exact fu.len k hk
    · intro k hk; rw [hfld]; exact fu.stat k hk
    · intro a hout; rw [State.reenabled_settled]; exact fu.outside a hout
    · rw [hrx, State.reenabled_rx_regs, fu.regs]
    · rw [hrx, State.reenabled_rx_hw, fu.regs, fu.hw]
    · obtain ⟨n, hn, hc⟩ := fu.calls
      exact ⟨n, hn, by rw [State.reenabled_calls, hc]⟩
    · rw [State.reenabled_env, fu.sched]
    · exact State.reenabled_quiet .rx fu.quiet

/-! ### ENQ_TX -/

theorem Enqueued.whole {s t : State} {fs : List Frag} {b : Handle} (h : Enqueued s t fs b) : EnqueuedTx s fs b t :=
  ⟨h.priv, fun k hk => (h.frags k hk).1, fun k hk => (h.frags k hk).2.1, fun k hk => (h.frags k hk).2.2, h.outside, h.regs,
    h.hw, h.calls, h.env, h.rested⟩

theorem enqTx_quiet {fs : List Frag} {s : State} (b : Handle) (h : s.quiet) (hm : MemOk s) (hr : TxReady s)
    (hf : fragsAdmitted fs = true) (hn : fs.length ≤ s.tx.remain) (hreal : fragsReal s fs = true) :
    ∃ t, enqTx fs b s = .ok (true, t) ∧ EnqueuedTx s fs b t ∧ t.out = s.out := by
  obtain ⟨t, et, h⟩ := handOverTx_quiet b h hm hr hn hreal
  refine ⟨t, ?_, h.whole, h.out⟩
  simp only [enqTx, hf]
  rw [run_bind_ok (require_true _ _)]
  simp only [run_here_bind, hr.2]
  rw [run_bind_ok (require_true _ _)]
  simp only [show ¬s.tx.remain < fs.length by omega, if_false]
  rw [run_bind_ok et]
  rfl

/-- A real buffer is real in every state whose rings have the same blocks. -/
theorem bufferReal_congr {s t : State} (h1 : t.rx.block = s.rx.block) (h2 : t.tx.block = s.tx.block) (a n : Nat) :
    bufferReal t a n = bufferReal s a n := by
  simp only [bufferReal, Ring.touches, h1, h2]

theorem enqTx_reaps {fs : List Frag} {s : State} {gs : List Nat} (b : Handle) (h : s.rested) (hm : MemOk s) (hr : TxReady s)
    (hf : fragsAdmitted fs = true) (hn : s.tx.remain < fs.length) (hd : TxDone s s.tx.head s.tx.inflight gs) :
    ∃ t, ReapedTx s gs t ∧ t.tx.remain = s.tx.remain + gs.sum ∧ t.out = s.out ∧
      (s.tx.remain + gs.sum < fs.length → enqTx fs b s = .ok (false, t)) ∧
      (fs.length ≤ s.tx.remain + gs.sum → fragsReal s fs = true →
        ∃ u, EnqueuedTx t fs b u ∧ u.out = s.out ∧ enqTx fs b s = .ok (true, u)) := by
  obtain ⟨t, et, rt, mt, ot⟩ := reapTx_rested h hm hr hd
  have htx : t.tx = s.tx.take gs.sum := congrArg Private.tx rt.priv
  have hrem : t.tx.remain = s.tx.remain + gs.sum := by rw [htx]; rfl
  have hrt : TxReady t := reapTx_ready s _ t hr et
  have e0 : ∀ x : Bool × State, (if t.tx.remain < fs.length then (pure false : Op Bool)
      else (do handOverTx fs b; pure true)) t = .ok x → enqTx fs b s = .ok x := by
    intro x hx
    simp only [enqTx, hf]
    rw [run_bind_ok (require_true _ _)]
    simp only [run_here_bind, hr.2]
    rw [run_bind_ok (require_true _ _)]
    simp only [hn, if_true]
    rw [run_bind_ok et, run_here_bind]
    exact hx
  refine ⟨t, rt, hrem, ot, fun hlt => e0 _ ?_, fun hle hreal => ?_⟩
  · rw [hrem, if_pos hlt]; rfl
  · have hreal' : fragsReal t fs = true := by
      have h1 : t.rx = s.rx := congrArg Private.rx rt.priv
      rw [← hreal]
      simp only [fragsReal, bufferReal_congr (s := s) (t := t) (by rw [h1]) (by rw [htx]; rfl)]
    obtain ⟨u, eu, hu⟩ := handOverTx_quiet b rt.rested.1 mt hrt (by rw [hrem]; exact hle) hreal'
    refine ⟨u, hu.whole, hu.out.trans ot, e0 _ ?_⟩
    rw [hrem, if_neg (by omega), run_bind_ok eu]
    rfl

/-! ### What is completed, and what is supplied, seen from a later state of the same operation -/

theorem field_same {s t : State} {d : Dir} (hr : (t.ring d).base = (s.ring d).base ∧ (t.ring d).cap = (s.ring d).cap)
    (hp : t.params = s.params) (hb : SameBytes s t) (i : Nat) (f : Field) : t.field d i f = s.field d i f :=
  field_congr hr.1 hr.2 hp (fun _ k _ _ _ => hb k) f

theorem slotOwned_same {s t : State} {d : Dir} (hr : (t.ring d).base = (s.ring d).base ∧ (t.ring d).cap = (s.ring d).cap)
    (hp : t.params = s.params) (hb : SameBytes s t) (i : Nat) : t.slotOwned d i = s.slotOwned d i := by
  simp only [State.slotOwned, field_same hr hp hb, hp]

theorem RxDone.same {s t : State} {n : Nat} (h : RxDone s n) (hr : t.rx = s.rx) (hp : t.params = s.params)
    (hb : SameBytes s t) : RxDone t n := by
  have e : ∀ i, t.slotOwned .rx i = s.slotOwned .rx i := slotOwned_same (d := .rx) (by rw [State.ring, State.ring, hr]; exact ⟨rfl, rfl⟩) hp hb
  simp only [RxDone, hr, e]
  exact h

theorem TxDone.same {s t : State} (hr : t.tx = s.tx) (hn : t.ndesc = s.ndesc) (hp : t.params = s.params)
    (hb : SameBytes s t) (gs : List Nat) : ∀ i n, TxDone s i n gs → TxDone t i n gs := by
  have e : ∀ i n, t.groupOwned i n = s.groupOwned i n := by
    intro i n
    simp only [State.groupOwned, hr, slotOwned_same (d := .tx) (by rw [State.ring, State.ring, hr]; exact ⟨rfl, rfl⟩) hp hb]
  induction gs with
  | nil => intro i n h; simpa only [TxDone, e, hn] using h
  | cons g gs ih =>
    intro i n h
    refine ⟨h.1, by rw [hn]; exact h.2.1, by rw [e]; exact h.2.2.1, ?_⟩
    rw [hr]
    exact ih _ _ h.2.2.2

theorem Supplies.same {s t : State} {room : Nat} {bs : List (Nat × Handle)} (h : Supplies s room bs)
    (h1 : t.rx.block = s.rx.block) (h2 : t.tx.block = s.tx.block) (hp : t.params = s.params)
    (ha : t.env.answers.buffers = s.env.answers.buffers) : Supplies t room bs := by
  refine ⟨h.1, fun b hb => ?_, by rw [ha]; exact h.2.2⟩
  rw [bufferReal_congr h1 h2, hp]
  exact h.2.1 b hb

/-! ### Interrupt dispatch -/

theorem serveTx_none {s : State} {e : Events} (h : e &&& evTxf s.params = 0) : serveTx e s = .ok ((), s) := by
  have hc : ((e &&& evTxf s.params) != 0) = false := by rw [h]; rfl
  show (if ((e &&& evTxf s.params) != 0) = true then reapTx else pure ()) s = _
  rw [if_neg (by rw [hc]; exact Bool.false_ne_true)]
  rfl

theorem serveTx_some {s : State} {e : Events} (h : e &&& evTxf s.params ≠ 0) : serveTx e s = reapTx s := by
  have hc : ((e &&& evTxf s.params) != 0) = true := by simpa using h
  show (if ((e &&& evTxf s.params) != 0) = true then reapTx else pure ()) s = _
  rw [if_pos hc]

theorem serveRx_none {s : State} {e : Events} (h : e &&& evRxf s.params = 0) : serveRx e s = .ok ((), s) := by
  have hc : ((e &&& evRxf s.params) != 0) = false := by rw [h]; rfl
  show (if ((e &&& evRxf s.params) != 0) = true then (do reapRx; fillRx) else pure () : Op Unit) s = _
  rw [if_neg (by rw [hc]; exact Bool.false_ne_true)]
  rfl

theorem serveRx_some {s : State} {e : Events} (h : e &&& evRxf s.params ≠ 0) :
    serveRx e s = (do reapRx; fillRx : Op Unit) s := by
  have hc : ((e &&& evRxf s.params) != 0) = true := by simpa using h
  show (if ((e &&& evRxf s.params) != 0) = true then (do reapRx; fillRx) else pure () : Op Unit) s = _
  rw [if_pos hc]

theorem handleIrq_serves {s t : State} {e : Events} (h : regReadClear (evAll s.params) s = .ok (e, t))
    (hb : e &&& evBerr s.params = 0) : handleIrq s = (do serveTx e; serveRx e; returnOk [] : Op (List Word)) t := by
  have hc : ((e &&& evBerr s.params) != 0) = false := by rw [hb]; rfl
  unfold handleIrq
  rw [run_here_bind, run_bind_ok h, if_neg (by rw [hc]; exact Bool.false_ne_true)]

theorem handleIrq_halts {s t : State} {e : Events} (h : regReadClear (evAll s.params) s = .ok (e, t))
    (hb : e &&& evBerr s.params ≠ 0) :
    handleIrq s = .ok ([14, e], t.setSeq { t.seq with mode := .halted }) := by
  have hc : ((e &&& evBerr s.params) != 0) = true := by simpa using hb
  unfold handleIrq
  rw [run_here_bind, run_bind_ok h, if_pos hc]
  rfl

end Sys2Proof.Machine
end

