-- ==== Sys2Proof/Laws/Core.lean ====
section
/-!
SUPPORT. Laws/Core.lean: MAC_CORE_INIT (45_register_interface R184), where it succeeds and where it fails, and the last step of
bring-up (44_link_bringup R163), where nothing happens between C's events.
-/
namespace Sys2Proof.Machine

/-- Register writes led from `s` to `t`, and nothing else changed. -/
structure Written (s t : State) : Prop where
  priv  : t.priv = s.priv
  calls : t.calls = s.calls
  out   : t.out = s.out
  env   : t.env = s.env
  bytes : t.settled = s.settled
  quiet : t.quiet

theorem Written.trans {s t u : State} (h : Written s t) (k : Written t u) : Written s u :=
  ⟨k.priv.trans h.priv, k.calls.trans h.calls, k.out.trans h.out, k.env.trans h.env, k.bytes.trans h.bytes, k.quiet⟩

/-- One write of MAC_CORE_INIT, performed or not. -/
theorem onBit_quiet (m : BitVec 9) (k : Nat) {x : Op Unit} {g : Regs → Regs} {w : Hw → Hw}
    (hx : ∀ s : State, s.quiet → ∃ t, x s = .ok ((), t) ∧ Written s t ∧ t.regs = g s.regs ∧ t.hw = w s.hw) {s : State}
    (h : s.quiet) : ∃ t, onBit m k x s = .ok ((), t) ∧ Written s t ∧
      t.regs = (if m.getLsbD k then g s.regs else s.regs) ∧ t.hw = (if m.getLsbD k then w s.hw else s.hw) := by
  cases hm : m.getLsbD k
  · exact ⟨s, by simp [onBit, hm], ⟨rfl, rfl, rfl, rfl, rfl, h⟩, by simp, by simp⟩
  · obtain ⟨t, e, h1, h2, h3⟩ := hx s h
    exact ⟨t, by simp [onBit, hm, e], h1, by simp [h2], by simp [h3]⟩

theorem regWrite_written (g : Regs → Regs) (s : State) (h : s.quiet) :
    ∃ t, regWrite g s = .ok ((), t) ∧ Written s t ∧ t.regs = g s.regs ∧ t.hw = id s.hw :=
  ⟨_, regWrite_quiet g h, ⟨by simp, by simp, by simp, by simp, by simp, h.1, rfl⟩, by simp, by simp⟩

theorem rxEn_cleared (s : State) (h : s.quiet) :
    ∃ t, writeRxEn false s = .ok ((), t) ∧ Written s t ∧ t.regs = { s.regs with rxEn := false } ∧
      t.hw = { s.hw with rxSample := none } :=
  ⟨_, writeRxEn_quiet false h, ⟨by simp, by simp, by simp, by simp, by simp, by simpa using h.1, by simp⟩, rfl, rfl⟩

theorem writeTxEn_written (v : Bool) (s : State) (h : s.quiet) :
    ∃ t, writeTxEn v s = .ok ((), t) ∧ Written s t ∧ t.regs = { s.regs with txEn := v } ∧
      t.hw = { s.hw with txSample := none } :=
  ⟨_, writeTxEn_quiet v h, ⟨by simp, by simp, by simp, by simp, by simp, by simpa using h.1, by simp⟩, rfl, rfl⟩

theorem resetEngine_written (s : State) (h : s.quiet) :
    ∃ t, resetEngine s = .ok ((), t) ∧ Written s t ∧ t.regs = id s.regs ∧ t.hw = (fun _ => ⟨0, 0, none, none⟩ : Hw → Hw) s.hw :=
  ⟨_, rfl, ⟨rfl, rfl, rfl, rfl, rfl, h⟩, rfl, rfl⟩

theorem onBit_write (m : BitVec 9) (k : Nat) (g : Regs → Regs) {s : State} (h : s.quiet) :
    ∃ t, onBit m k (regWrite g) s = .ok ((), t) ∧ Written s t ∧ t.regs = (if m.getLsbD k then g s.regs else s.regs) ∧
      t.hw = (if m.getLsbD k then id s.hw else s.hw) := onBit_quiet m k (g := g) (w := id) (regWrite_written g) h

/-- The register writes of MAC_CORE_INIT that `m` selects. -/
theorem coreWrites_quiet (m : BitVec 9) (a b n : Word) (mac : Mac) {s : State} (h : s.quiet) :
    ∃ t, coreWrites m a b n mac s = .ok ((), t) ∧ Written s t ∧
      t.regs = { s.regs with
        macEn := if m.getLsbD 0 then false else s.regs.macEn
        rxEn := if m.getLsbD 1 then false else s.regs.rxEn
        txEn := if m.getLsbD 2 then false else s.regs.txEn
        evmask := if m.getLsbD 3 then 0 else s.regs.evmask
        rxbase := if m.getLsbD 4 then a else s.regs.rxbase
        txbase := if m.getLsbD 5 then b else s.regs.txbase
        bufsz := if m.getLsbD 6 then n else s.regs.bufsz
        macaddr := if m.getLsbD 7 then mac else s.regs.macaddr } ∧
      (m.getLsbD 8 = true → t.hw = ⟨0, 0, none, none⟩) ∧ s.hw.coreTried t.hw := by
  obtain ⟨s1, e1, w1, r1, h1⟩ := onBit_write m 0 (fun r => { r with macEn := false }) h
  obtain ⟨s2, e2, w2, r2, h2⟩ := onBit_quiet m 1 (g := fun r => { r with rxEn := false })
    (w := fun w => { w with rxSample := none }) rxEn_cleared w1.quiet
  obtain ⟨s3, e3, w3, r3, h3⟩ := onBit_quiet m 2 (g := fun r => { r with txEn := false })
    (w := fun w => { w with txSample := none }) (writeTxEn_written false) w2.quiet
  obtain ⟨s4, e4, w4, r4, h4⟩ := onBit_write m 3 (fun r => { r with evmask := 0 }) w3.quiet
  obtain ⟨s5, e5, w5, r5, h5⟩ := onBit_write m 4 (fun r => { r with rxbase := a }) w4.quiet
  obtain ⟨s6, e6, w6, r6, h6⟩ := onBit_write m 5 (fun r => { r with txbase := b }) w5.quiet
  obtain ⟨s7, e7, w7, r7, h7⟩ := onBit_write m 6 (fun r => { r with bufsz := n }) w6.quiet
  obtain ⟨s8, e8, w8, r8, h8⟩ := onBit_write m 7 (fun r => { r with macaddr := mac }) w7.quiet
  obtain ⟨s9, e9, w9, r9, h9⟩ := onBit_quiet m 8 (g := id) (w := fun _ => ⟨0, 0, none, none⟩) resetEngine_written w8.quiet
  refine ⟨s9, ?_, w1.trans <| w2.trans <| w3.trans <| w4.trans <| w5.trans <| w6.trans <| w7.trans <| w8.trans w9, ?_, ?_, ?_⟩
  · unfold coreWrites
    rw [run_bind_ok e1, run_bind_ok e2, run_bind_ok e3, run_bind_ok e4, run_bind_ok e5, run_bind_ok e6, run_bind_ok e7,
      run_bind_ok e8, e9]
  · have hx : ∀ (c : Bool) (x : Regs), (if c then id x else x) = x := fun c x => by cases c <;> rfl
    rw [hx] at r9
    rw [r9, r8]
    have k7 : s7.regs = { s.regs with
        macEn := if m.getLsbD 0 then false else s.regs.macEn
        rxEn := if m.getLsbD 1 then false else s.regs.rxEn
        txEn := if m.getLsbD 2 then false else s.regs.txEn
        evmask := if m.getLsbD 3 then 0 else s.regs.evmask
        rxbase := if m.getLsbD 4 then a else s.regs.rxbase
        txbase := if m.getLsbD 5 then b else s.regs.txbase
        bufsz := if m.getLsbD 6 then n else s.regs.bufsz } := by
      rw [r7]
      have k4 : s4.regs = { s.regs with
          macEn := if m.getLsbD 0 then false else s.regs.macEn
          rxEn := if m.getLsbD 1 then false else s.regs.rxEn
          txEn := if m.getLsbD 2 then false else s.regs.txEn
          evmask := if m.getLsbD 3 then 0 else s.regs.evmask } := by
        rw [r4, r3, r2, r1]
        cases m.getLsbD 0 <;> cases m.getLsbD 1 <;> cases m.getLsbD 2 <;> cases m.getLsbD 3 <;> rfl
      rw [r6, r5, k4]
      cases m.getLsbD 4 <;> cases m.getLsbD 5 <;> cases m.getLsbD 6 <;> rfl
    rw [k7]
    cases m.getLsbD 7 <;> rfl
  · intro h8
    rw [h9, if_pos h8]
  · have hx : ∀ (c : Bool) (x : Hw), (if c then id x else x) = x := fun c x => by cases c <;> rfl
    rw [hx] at h1 h4 h5 h6 h7 h8
    rw [h9, h8, h7, h6, h5, h4, h3, h2, h1]
    cases m.getLsbD 8 <;> cases m.getLsbD 2 <;> cases m.getLsbD 1 <;> simp [Hw.coreTried]

/-- MAC_CORE_INIT where the core comes up. -/
theorem macCoreInit_up (a b n : Word) (mac : Mac) {s : State} {r : List Bool} (h : s.quiet) (h1 : s.rx.alive = true)
    (h2 : s.tx.alive = true) (hc : s.env.answers.coreInit = true :: r) :
    ∃ t, macCoreInit a b n mac s = .ok (true, t) ∧ t.priv = { s.priv with coreFresh := true } ∧
      t.regs = s.regs.coreInit a b n mac ∧ t.hw = ⟨0, 0, none, none⟩ ∧ t.calls = s.calls ++ [.macCoreHwInit s.ctx.regs] ∧
      t.out = s.out ∧ t.settled = s.settled ∧ t.quiet ∧
      t.env = { s.env with answers := { s.env.answers with coreInit := r } } := by
  have e1 := ask_quiet (.macCoreHwInit s.ctx.regs) (get := (·.coreInit)) (fun a x => { a with coreInit := x }) Config.freeOk h hc
  generalize hs1 : (s.setCalls _).setEnv _ = s1 at e1
  have q1 : s1.quiet := by rw [← hs1]; exact h
  obtain ⟨t, et, wt, rt, ht, -⟩ := coreWrites_quiet (BitVec.allOnes 9) a b n mac q1
  refine ⟨t.setCoreFresh true, ?_, ?_, ?_, ht (by decide), ?_, ?_, ?_, wt.quiet, ?_⟩
  · simp only [macCoreInit, run_here_bind, h1, h2, Bool.and_self]
    rw [run_bind_ok (require_true _ _)]
    simp only [askCoreInit]
    rw [run_bind_ok e1]
    simp only [if_true]
    rw [run_bind_ok et]
    rfl
  · rw [State.setCoreFresh_priv, wt.priv, ← hs1]; simp
  · rw [State.setCoreFresh_regs, rt, ← hs1]; simp [Regs.coreInit]
  · rw [State.setCoreFresh_calls, wt.calls, ← hs1]; simp
  · rw [State.setCoreFresh_out, wt.out, ← hs1]; simp
  · rw [State.setCoreFresh_settled, wt.bytes, ← hs1]; simp
  · rw [State.setCoreFresh_env, wt.env, ← hs1]; simp

/-- MAC_CORE_INIT where the core does not come up. -/
theorem macCoreInit_down (a b n : Word) (mac : Mac) {s : State} {r : List Bool} (h : s.quiet) (h1 : s.rx.alive = true)
    (h2 : s.tx.alive = true) (hc : s.env.answers.coreInit = false :: r) :
    ∃ t, macCoreInit a b n mac s = .ok (false, t) ∧ t.priv = s.priv ∧ s.regs.coreTried t.regs a b n mac ∧ s.hw.coreTried t.hw ∧
      t.calls = s.calls ++ [.macCoreHwInit s.ctx.regs] ∧ t.out = s.out ∧ t.settled = s.settled ∧ t.quiet ∧
      t.env.inputs = s.env.inputs := by
  have e1 := ask_quiet (.macCoreHwInit s.ctx.regs) (get := (·.coreInit)) (fun a x => { a with coreInit := x }) Config.freeOk h hc
  generalize hs1 : (s.setCalls _).setEnv _ = s1 at e1
  have q1 : s1.quiet := by rw [← hs1]; exact h
  obtain ⟨m, s2, e2, hs2, q2, i2⟩ : ∃ m s2, drawCoreWrites s1 = .ok (m, s2) ∧ (∃ e, s2 = s1.setEnv e) ∧ s2.quiet ∧
      s2.env.inputs = s1.env.inputs := by
    simp only [drawCoreWrites, run_here_bind]
    cases s1.env.answers.coreWrites with
    | nil => exact ⟨_, s1.setEnv { s1.env with draws := s1.env.draws + 1 }, rfl, ⟨_, rfl⟩, ⟨q1.1, q1.2⟩, rfl⟩
    | cons m rest => exact ⟨m, _, rfl, ⟨_, rfl⟩, ⟨q1.1, q1.2⟩, rfl⟩
  obtain ⟨t, et, wt, rt, -, ht⟩ := coreWrites_quiet m a b n mac q2
  obtain ⟨e, rfl⟩ := hs2
  have k1 : (s1.setEnv e).regs = s.regs := by rw [← hs1]; simp
  have k2 : (s1.setEnv e).hw = s.hw := by rw [← hs1]; simp
  refine ⟨t, ?_, ?_, ?_, k2 ▸ ht, ?_, ?_, ?_, wt.quiet, ?_⟩
  · simp only [macCoreInit, run_here_bind, h1, h2, Bool.and_self]
    rw [run_bind_ok (require_true _ _)]
    simp only [askCoreInit]
    rw [run_bind_ok e1]
    simp only [Bool.false_eq_true, if_false]
    rw [run_bind_ok e2, run_bind_ok et]
    rfl
  · rw [wt.priv, ← hs1]; simp
  · rw [rt, k1]
    refine ⟨?_, ?_, ?_, ?_, ?_, ?_, ?_, ?_, rfl, rfl, rfl, rfl, rfl⟩ <;> simp only <;> split <;> simp
  · rw [wt.calls, ← hs1]; simp
  · rw [wt.out, ← hs1]; simp
  · rw [wt.bytes, ← hs1]; simp
  · rw [wt.env, i2, ← hs1]; simp

end Sys2Proof.Machine
end

