-- ==== Sys2Proof/Laws/Invariant.lean ====
section
/-!
SUPPORT. Laws/Invariant.lean: every operation that ends in a next state keeps a sound state sound (10_state R29 to R38,
60_exceptions R220), operation by operation: first what the parts of an operation of C keep between its begin and its end,
then the operations that move the sequencer, then all of them.
-/
namespace Sys2Proof.Machine

/-- The private registers as they are once the operation has ended. -/

def Private.idle (p : Private) : Private := { p with seq := { p.seq with busy := false } }

/-- The private registers are sound but for `busy`, outside bring-up. -/
def Idle (s : State) : Prop := s.priv.idle.Sound ∧ s.priv.seq.mode ≠ .bringUp

/-- What leaves C's private registers keeps them sound. -/
theorem idle_of_leaves {α} {x : Op α} (h : Leaves State.priv x) : Keeps Idle x :=
  h.keeps fun p => p.idle.Sound ∧ p.seq.mode ≠ .bringUp

/-- An operation of C keeps private registers sound where its body does. -/
theorem issue_sound {adm : State → Option Refusal} {body : Op (List Word)} {P : State → Prop}
    (hP : ∀ s, adm s = none → s.priv.Sound → s.priv.seq.busy = false → P s.begun)
    (hb : Ensures P body (fun _ => Idle)) {s t : State} (hs : s.priv.Sound)
    (ht : issue adm body s = .next t) : t.priv.Sound := by
  unfold issue at ht
  split at ht
  · cases ht
  · next hbusy =>
    split at ht
    · cases ht
    · next hadm =>
      obtain ⟨a, ha⟩ := outcome_next.1 ht
      obtain ⟨_, u, h1, h2⟩ := bind_ok ha
      cases h1
      obtain ⟨ws, v, h3, h4⟩ := bind_ok h2
      cases h4
      have := hb _ _ _ (hP s hadm hs (by show s.seq.busy = false; simpa using hbusy)) h3
      exact this.1

theorem idle_begun {s : State} (hs : s.priv.Sound) (hb : s.priv.seq.busy = false) : Idle s.begun := by
  have hm : s.priv.seq.mode ≠ .bringUp := fun h => by
    have := hs.seq.busy.2 h; rw [hb] at this; cases this
  refine ⟨?_, hm⟩
  have e : s.begun.priv.idle = s.priv := by
    show (Private.mk _ _ _ _ _ _ _ _ _) = (Private.mk _ _ _ _ _ _ _ _ _)
    congr 1
    show Seq.mk _ _ _ = s.seq
    have : s.seq.busy = false := hb
    show Seq.mk s.seq.mode s.seq.bstep false = s.seq
    rw [← this]
  rw [e]; exact hs

/-- Work on the receive ring alone. -/
theorem idle_rx {α} {x : Op α} (h1 : Keeps RxReady x) (h2 : Leaves (fun s => (s.rest, s.tx, s.ndesc)) x)  :
    Ensures (fun s => Idle s ∧ s.rx.alive = true) x (fun _ s => Idle s ∧ s.rx.alive = true) := by
  intro s a t ⟨hs, ha⟩ ht
  have hr : RxReady t := h1 s a t ⟨⟨hs.1.rings.params, hs.1.rings.rx, hs.1.rings.tx, hs.1.rings.both, hs.1.rings.apart, hs.1.rings.counts, hs.1.rings.groups⟩, ha⟩ ht
  have e := congrArg (fun p : Rest × Ring × List Nat => p.1) (h2 s a t ht)
  refine ⟨⟨hs.1.congr ?_ ⟨hr.1.params, hr.1.rx, hr.1.tx, hr.1.both, hr.1.apart, hr.1.counts, hr.1.groups⟩, ?_⟩, hr.2⟩
  · simp only [State.rest, Private.rest, Private.idle, Rest.mk.injEq] at e ⊢
    simp [e]
  · have : t.priv.seq = s.priv.seq := by
      simp only [State.rest, Private.rest, Rest.mk.injEq] at e; exact e.2.2.2.2.2.1
    rw [this]; exact hs.2

/-- Work on the transmit ring alone. -/
theorem idle_tx {α} {x : Op α} (h1 : Keeps TxReady x) (h2 : Leaves (fun s => (s.rest, s.rx)) x)  :
    Ensures (fun s => Idle s ∧ s.tx.alive = true) x (fun _ s => Idle s ∧ s.tx.alive = true) := by
  intro s a t ⟨hs, ha⟩ ht
  have hr : TxReady t := h1 s a t ⟨⟨hs.1.rings.params, hs.1.rings.rx, hs.1.rings.tx, hs.1.rings.both, hs.1.rings.apart, hs.1.rings.counts, hs.1.rings.groups⟩, ha⟩ ht
  have e := congrArg (fun p : Rest × Ring => p.1) (h2 s a t ht)
  refine ⟨⟨hs.1.congr ?_ ⟨hr.1.params, hr.1.rx, hr.1.tx, hr.1.both, hr.1.apart, hr.1.counts, hr.1.groups⟩, ?_⟩, hr.2⟩
  · simp only [State.rest, Private.rest, Private.idle, Rest.mk.injEq] at e ⊢
    simp [e]
  · have : t.priv.seq = s.priv.seq := by
      simp only [State.rest, Private.rest, Rest.mk.injEq] at e; exact e.2.2.2.2.2.1
    rw [this]; exact hs.2

theorem admit_rx {s : State} (h : admitRing .rx s = none) : s.rx.alive = true := by
  unfold admitRing at h; split at h
  · cases h
  · split at h
    · assumption
    · cases h
theorem admit_tx {s : State} (h : admitRing .tx s = none) : s.tx.alive = true := by
  unfold admitRing at h; split at h
  · cases h
  · split at h
    · assumption
    · cases h

theorem reapTx_leaves : Leaves (fun s => (s.rest, s.rx)) reapTx := fun s a t hx =>
    congrArg (fun p : Rest × Ring × List Nat => (p.1, p.2.1)) (reapTx_rest s a t hx)

theorem idle_true {α} {P Q : State → Prop} {x : Op α} (h : Ensures (fun s => Idle s ∧ P s) x (fun _ s => Idle s ∧ Q s)) : Ensures (fun s => Idle s ∧ P s) x (fun _ => Idle) :=
  h.post fun _ _ h => h.1

theorem both_alive {s : State} (h : Idle s) : s.rx.alive = s.tx.alive := h.1.rings.both

theorem idle_reapRx : Ensures (fun s => Idle s ∧ s.rx.alive = true) reapRx (fun _ s => Idle s ∧ s.rx.alive = true) := idle_rx reapRx_ready reapRx_rest
theorem idle_fillRx : Ensures (fun s => Idle s ∧ s.rx.alive = true) fillRx (fun _ s => Idle s ∧ s.rx.alive = true) := idle_rx fillRx_ready fillRx_rest
theorem idle_reapTx : Ensures (fun s => Idle s ∧ s.rx.alive = true) reapTx (fun _ s => Idle s ∧ s.rx.alive = true) := by
  refine (idle_tx reapTx_ready reapTx_leaves).weaken (fun s h => ⟨h.1, (both_alive h.1) ▸ h.2⟩) (fun _ s h => ⟨h.1, (both_alive h.1) ▸ h.2⟩)
theorem idle_enqTx (fs b) : Ensures (fun s => Idle s ∧ s.rx.alive = true) (enqTx fs b) (fun _ s => Idle s ∧ s.rx.alive = true) := by
  refine (idle_tx (enqTx_ready fs b) (enqTx_rest fs b)).weaken (fun s h => ⟨h.1, (both_alive h.1) ▸ h.2⟩) (fun _ s h => ⟨h.1, (both_alive h.1) ▸ h.2⟩)

/-- The answer at the end of a body. -/
theorem answer_idle {α : Type} (v : α) : Ensures (fun s => Idle s ∧ s.rx.alive = true) (pure v : Op α) (fun _ => Idle) := Ensures.pure fun _ h => h.1

theorem run_alive {s : State} (hs : s.priv.Sound) (h : admitRunning s = none) : s.rx.alive = true := by
  unfold admitRunning at h; split at h
  · cases h
  · next hm => 
    have hm : s.seq.mode = .running := by simpa using hm
    exact (hs.seq.started (.inl hm)).2

theorem core_alive {s : State} (h : admitCore s = none) : s.rx.alive = true ∧ s.seq.mode = .off := by
  unfold admitCore at h; split at h
  · cases h
  · split at h
    · next h1 h2 => simp at h1 h2; exact ⟨h2.1, h1⟩
    · cases h

/-- After step 10 the machine is running. -/
theorem running_of_atStep {s : State} (h : AtStep 0 s.priv) : (s.setSeq ⟨.running, 0, false⟩).priv.Sound := by
  obtain ⟨hr, hm, hst, hb, hc, hx, he, hl, hf, hn⟩ := h
  refine ⟨⟨hr.params, hr.rx, hr.tx, hr.both, hr.apart, hr.counts, hr.groups⟩, hc, hx, ?_⟩
  have hl' := hl (.inl rfl)
  exact ⟨nofun, fun _ => rfl, by constructor <;> nofun, nofun, nofun, nofun, fun _ => hl', nofun, fun _ => hn (.inl rfl)⟩

/-- After an error ended bring-up. -/
theorem sound_of_ended {s : State} {e : Err} (h : Ended e s.priv) : s.priv.idle.Sound ∧ s.priv.seq.mode ≠ .bringUp := by
  obtain ⟨hr, hst, hc, hx, hm⟩ := h
  refine ⟨⟨⟨hr.params, hr.rx, hr.tx, hr.both, hr.apart, hr.counts, hr.groups⟩, hc, hx, ?_⟩, ?_⟩
  · rcases hm with ⟨hm, -, h1, -⟩ | ⟨hm, -, h1, h2⟩
    · constructor <;> simp_all [Private.idle]
    · constructor <;> simp_all [Private.idle]
  · rcases hm with ⟨hm, -⟩ | ⟨hm, -⟩ <;> rw [hm] <;> simp

/-- INIT's end. -/
theorem endInit_idle (r : Option Err) : Ensures (After 0 r) (endInit r) (fun _ => Idle) := by
  cases r with
  | some e => exact Ensures.pure fun s h => sound_of_ended h
  | none =>
    refine Ensures.bind (Q := fun _ => Idle) (Ensures.upd fun s hs => ?_) fun _ => Ensures.pure fun _ h => h
    have := running_of_atStep hs
    have hst : s.seq.bstep = 0 := hs.step
    refine ⟨?_, by simp [State.priv]⟩
    have e : (s.setSeq { s.seq with mode := .running }).priv.idle = (s.setSeq ⟨.running, 0, false⟩).priv := by
      show (Private.mk _ _ _ _ _ _ _ _ _) = (Private.mk _ _ _ _ _ _ _ _ _)
      congr 1
      show Seq.mk _ _ _ = Seq.mk _ _ _
      congr 1
    rw [e]; exact this

theorem atStep_of_sound {s : State} (h : s.priv.Sound) (k : Nat) (hm : s.seq.mode = .bringUp) (hk : s.seq.bstep = k) (h1 : 1 ≤ k) : AtStep k s.priv := by
  have hq := h.seq
  have hm' : s.priv.seq.mode = .bringUp := hm
  have hk' : s.priv.seq.bstep = k := hk
  have hb : s.priv.seq.busy = true := hq.busy.2 hm
  refine ⟨h.rings, hm, hk, hb, h.core, h.ctx, fun _ h2 => hq.early hm (by omega), fun h2 => hq.late hm (by omega),
    fun h2 => hq.fresh hm (by omega), fun h2 => hq.link (.inr (.inr ⟨hm, by omega⟩))⟩

theorem sound_of_atStep {p : Private} {k : Nat} (h : AtStep k p) (h1 : 1 ≤ k) (h2 : k ≤ 10) : p.Sound := by
  obtain ⟨hr, hm, hst, hb, hc, hx, he, hl, hf, hn⟩ := h
  refine ⟨hr, hc, hx, ?_⟩
  constructor
  · intro _; omega
  · intro h; exact absurd hm h
  · simp [hb, hm]
  · intro h; rw [hm] at h; cases h
  · intro _ h; exact he h1 (by omega)
  · intro _ h; exact hl (by omega)
  · intro h; rw [hm] at h; simp at h
  · intro _ h; exact hf (by omega)
  · intro h; rw [hm] at h; simp at h; exact hn (by omega)

/-- A step of bring-up run as an operation keeps private registers sound. -/
theorem sequencer_sound {k : Nat} {body : Op (Option Err)} (h1 : 1 ≤ k) (h2 : k ≤ 10)
   (hb : Ensures (fun s => AtStep k s.priv) body (After (if k = 10 then 0 else k + 1)))
    {s t : State} (hs : s.priv.Sound) (ht : sequencerStep k body s = .next t) : t.priv.Sound := by
  unfold sequencerStep at ht
  split at ht
  · next hc =>
    obtain ⟨a, ha⟩ := outcome_next.1 ht
    obtain ⟨r, u, h3, h4⟩ := bind_ok ha
    have hu := hb s r u (atStep_of_sound hs k hc.1 hc.2 h1) h3
    cases r with
    | some e =>
      obtain ⟨ws, v, h5, h6⟩ := bind_ok h4
      cases h6
      exact (endInit_idle (some e) u ws v hu h5).1
    | none =>
      simp only at h4
      split at h4
      · next hk =>
        rw [if_pos hk] at hu
        obtain ⟨ws, v, h5, h6⟩ := bind_ok h4
        cases h6
        exact (endInit_idle none u ws v hu h5).1
      · next hk =>
        cases h4
        rw [if_neg hk] at hu
        exact sound_of_atStep hu (by omega) (by omega)
  · cases ht

/-- A step of H leaves C's private registers. -/
theorem engine_priv {c : State → Bool} {x : Op Unit} (hx : Leaves State.owned x) {s t : State} 
    (ht : engineStep c x s = .next t) : t.priv = s.priv := by
  unfold engineStep at ht
  split at ht
  · obtain ⟨a, ha⟩ := outcome_next.1 ht
    exact owned_priv hx s a t ha
  · cases ht

/-- HANDLE_IRQ, which halts the machine or serves the events. -/
theorem handleIrq_idle : Ensures (fun s => Idle s ∧ s.rx.alive = true ∧ s.seq.mode = .running) handleIrq (fun _ => Idle) := by
  have hk : ∀ {α} {x : Op α}, Leaves State.priv x → Keeps (fun s => Idle s ∧ s.rx.alive = true ∧ s.seq.mode = .running) x :=
    fun h => h.keeps fun p => (p.idle.Sound ∧ p.seq.mode ≠ .bringUp) ∧ p.rx.alive = true ∧ p.seq.mode = .running
  refine Ensures.bind (hk (owned_priv Leaves.here)) fun s => Ensures.bind (hk (owned_priv (regReadClear_owned _))) fun e => Ensures.ite (fun _ => ?_) fun _ => ?_
  · refine Ensures.bind (Q := fun _ => Idle) (Ensures.upd fun s hs => ?_) fun _ => Ensures.pure fun _ h => h
    obtain ⟨⟨⟨hr, hc, hx, hq⟩, hm⟩, ha, hmr⟩ := hs
    obtain ⟨q1,q2,q3,q4,q5,q6,q7,q8,q9⟩ := hq
    refine ⟨⟨⟨hr.params, hr.rx, hr.tx, hr.both, hr.apart, hr.counts, hr.groups⟩, hc, hx, ?_⟩, ?_⟩
    · have hmr' : s.priv.idle.seq.mode = .running := hmr
      have := q7 (.inl hmr')
      have := q9 (.inl hmr')
      constructor <;> simp_all [Private.idle, State.priv]
    · simp [State.priv]
  · have h0 : Ensures (fun s => Idle s ∧ s.rx.alive = true) (do serveTx e; serveRx e; returnOk []) (fun _ => Idle) := by
      refine Ensures.bind (Q := fun _ s => Idle s ∧ s.rx.alive = true) ?_ fun _ => Ensures.bind (Q := fun _ s => Idle s ∧ s.rx.alive = true) ?_ fun _ => answer_idle _
      · exact Ensures.bind (Q := fun _ s => Idle s ∧ s.rx.alive = true) Keeps.here fun _ => Ensures.ite (fun _ => idle_reapTx) fun _ => Ensures.pure fun _ h => h
      · exact Ensures.bind (Q := fun _ s => Idle s ∧ s.rx.alive = true) Keeps.here fun _ => Ensures.ite (fun _ => idle_reapRx.bind fun _ => idle_fillRx) fun _ => Ensures.pure fun _ h => h
    exact h0.pre fun s h => ⟨h.1, h.2.1⟩

/-- A change of the rings while the machine is off. -/
theorem idle_off_change {p q : Private} (hs : p.Sound) (hm : p.seq.mode = .off) (hq : q.seq = p.seq) (hc : q.ctx = p.ctx)
   (hr : RingsSound q) (hf : q.coreFresh = true → q.rx.alive = true) : q.Sound := by
  obtain ⟨h1, h2, h3, ⟨q1,q2,q3,q4,q5,q6,q7,q8,q9⟩⟩ := hs
  refine ⟨hr, hf, by rw [hc]; exact h3, ?_⟩
  have := q4 hm
  constructor <;> simp_all

/-- Every operation keeps C's private registers sound. -/
theorem exec_priv_sound (i : Instr) {s t : State} (hs : s.priv.Sound) (ht : exec i s = .next t) : t.priv.Sound := by
  have hreg : ∀ {adm : State → Option Refusal} {body : Op (List Word)}, Leaves State.priv body → issue adm body s = .next t → t.priv.Sound :=
    fun hb ht => issue_sound (P := Idle) (fun s _ hs hb => idle_begun hs hb) (idle_of_leaves hb) hs ht
  have hrx : ∀ {adm : State → Option Refusal} {body : Op (List Word)}, (∀ s, s.priv.Sound → adm s = none → s.rx.alive = true) → Ensures (fun s => Idle s ∧ s.rx.alive = true) body (fun _ => Idle) → issue adm body s = .next t → t.priv.Sound :=
    fun ha hb ht => issue_sound (P := fun s => Idle s ∧ s.rx.alive = true) (fun s h1 hs hb => ⟨idle_begun hs hb, ha s hs h1⟩) hb hs ht
  cases i with
  | ringInit a b =>
    refine issue_sound (P := fun s => Idle s ∧ s.seq.mode = .off) (fun s h1 hs hb => ⟨idle_begun hs hb, ?_⟩) ?_ hs ht
    · unfold admitRingInit at h1; split at h1
      · cases h1
      · next h => show s.seq.mode = .off; simpa using h
    · intro s ws u ⟨hi, hm⟩ hu
      obtain ⟨ok, v, h3, h4⟩ := bind_ok hu
      obtain ⟨e1, e2⟩ := ringInit_priv _ _ _ _ _ _ rfl h3
      cases ok with
      | false => cases h4; have := e1 rfl; unfold Idle; rw [this]; exact hi
      | true =>
        obtain ⟨c1, c2, -, -, x, y, k, j, hal, e⟩ := e2 rfl
        cases h4
        unfold Idle
        rw [e]
        refine ⟨?_, hi.2⟩
        have hg := RingsSound.laid (p := s.priv) (k := k) (j := j) hi.1.rings.params c1 c2 hal
        refine idle_off_change hi.1 hm rfl rfl ⟨hg.params, hg.rx, hg.tx, hg.both, hg.apart, hg.counts, hg.groups⟩ (fun h => by cases h)
  | ringTeardown =>
    refine issue_sound (P := fun s => Idle s ∧ s.seq.mode = .off) (fun s h1 hs hb => ⟨idle_begun hs hb, ?_⟩) ?_ hs ht
    · unfold admitTeardown at h1; split at h1
      · cases h1
      · next h => show s.seq.mode = .off; simpa using h
    · intro s ws u ⟨hi, hm⟩ hu
      obtain ⟨_, _, h0, h1⟩ := bind_ok hu
      cases h0
      obtain ⟨_, w, h0, h2⟩ := bind_ok h1
      obtain ⟨-, e⟩ := sound_ok h0
      rw [e] at h2
      obtain ⟨_, v, h3, h4⟩ := bind_ok h2
      cases h4
      have hr := ringTeardown_priv _ _ _ _ rfl h3
      have hg := RingsSound.released (p := s.priv) ⟨hi.1.rings.params, hi.1.rings.rx, hi.1.rings.tx, hi.1.rings.both, hi.1.rings.apart, hi.1.rings.counts, hi.1.rings.groups⟩ hr
      refine ⟨?_, by rw [hr.seq]; exact hi.2⟩
      refine idle_off_change hi.1 hm ?_ ?_ ⟨hg.params, hg.rx, hg.tx, hg.both, hg.apart, hg.counts, hg.groups⟩ ?_
      · simp [Private.idle, hr.seq]
      · simp [Private.idle, hr.ctx]
      · intro h; have := hr.fresh; simp [Private.idle, this] at h
  | fillRx => exact hrx (fun s _ h => admit_rx h) (idle_fillRx.bind fun _ => answer_idle _) ht
  | enqTx fs b => exact hrx (fun s hs h => hs.rings.both.trans (admit_tx h)) ((idle_enqTx _ _).bind fun _ => Ensures.ite (fun _ => answer_idle _) (fun _ => answer_idle _)) ht
  | reapRx => exact hrx (fun s _ h => admit_rx h) (idle_reapRx.bind fun _ => answer_idle _) ht
  | reapTx => exact hrx (fun s hs h => hs.rings.both.trans (admit_tx h)) (idle_reapTx.bind fun _ => answer_idle _) ht
  | handleIrq =>
    refine issue_sound (P := fun s => Idle s ∧ s.rx.alive = true ∧ s.seq.mode = .running) (fun s h1 hs hb => ⟨idle_begun hs hb, run_alive (s := s) hs h1, ?_⟩) handleIrq_idle hs ht
    unfold admitRunning at h1; split at h1
    · cases h1
    · next h => show s.seq.mode = .running; simpa using h
  | poll => exact hrx (fun s hs h => run_alive hs h) (idle_reapRx.bind fun _ => idle_reapTx.bind fun _ => idle_fillRx.bind fun _ => answer_idle _) ht
  | init c => 
    refine issue_sound (P := fun s => Idle s ∧ s.seq.mode = .off ∧ s.seq.busy = true ∧ s.rx.alive = false) (fun s h1 hs hb => ⟨idle_begun hs hb, ?_⟩) ?_ hs ht
    · unfold admitInit at h1; split at h1
      · cases h1
      · next h => 
        split at h1
        · cases h1
        · next h' => simp at h h'; exact ⟨h, rfl, h'.1.1⟩
    · refine Ensures.bind (Q := fun _ s => Idle s ∧ s.seq.mode = .off ∧ s.seq.busy = true ∧ s.rx.alive = false) (Keeps.upd fun s h => ?_) fun _ => Ensures.bind (Q := fun _ s => AtStep 1 s.priv) (Ensures.upd fun s h => ?_) fun _ => (runSteps_after 10 1 (by omega) (by omega)).bind fun r => endInit_idle r
      · obtain ⟨⟨⟨hr, hc, hx, ⟨q1,q2,q3,q4,q5,q6,q7,q8,q9⟩⟩, hm⟩, h2⟩ := h
        exact ⟨⟨⟨⟨hr.params, hr.rx, hr.tx, hr.both, hr.apart, hr.counts, hr.groups⟩, hc, hx, ⟨q1,q2,q3,q4,q5,q6,q7,q8,q9⟩⟩, hm⟩, h2⟩
      · obtain ⟨⟨⟨hr, hc, hx, hq⟩, hm⟩, h2, h3, h4⟩ := h
        have := hq.off h2
        exact ⟨⟨hr.params, hr.rx, hr.tx, hr.both, hr.apart, hr.counts, hr.groups⟩, rfl, rfl, h3, hc, hx, fun _ _ => ⟨this, h4⟩,
          fun h => absurd h (by omega), fun h => absurd h (by omega), fun h => absurd h (by omega)⟩
  | bu1 => exact sequencer_sound (by omega) (by omega) (by exact buStep_after 1 (by omega) (by omega)) hs ht
  | bu2 => exact sequencer_sound (by omega) (by omega) (by exact buStep_after 2 (by omega) (by omega)) hs ht
  | bu3 => exact sequencer_sound (by omega) (by omega) (by exact buStep_after 3 (by omega) (by omega)) hs ht
  | bu4 => exact sequencer_sound (by omega) (by omega) (by exact buStep_after 4 (by omega) (by omega)) hs ht
  | bu5 => exact sequencer_sound (by omega) (by omega) (by exact buStep_after 5 (by omega) (by omega)) hs ht
  | bu6 => exact sequencer_sound (by omega) (by omega) (by exact buStep_after 6 (by omega) (by omega)) hs ht
  | bu7 => exact sequencer_sound (by omega) (by omega) (by exact buStep_after 7 (by omega) (by omega)) hs ht
  | bu8 => exact sequencer_sound (by omega) (by omega) (by exact buStep_after 8 (by omega) (by omega)) hs ht
  | bu9 => exact sequencer_sound (by omega) (by omega) (by exact buStep_after 9 (by omega) (by omega)) hs ht
  | bu10 => exact sequencer_sound (by omega) (by omega) (by exact buStep_after 10 (by omega) (by omega)) hs ht
  | rxEnable => exact hreg ((owned_priv (writeRxEn_owned _)).bind fun _ => Leaves.pure) ht
  | rxDisable => exact hreg ((owned_priv (writeRxEn_owned _)).bind fun _ => Leaves.pure) ht
  | txEnable => exact hreg ((owned_priv (writeTxEn_owned _)).bind fun _ => Leaves.pure) ht
  | txDisable => exact hreg ((owned_priv (writeTxEn_owned _)).bind fun _ => Leaves.pure) ht
  | rxEnabled => exact hreg ((owned_priv (regRead_owned _)).bind fun _ => Leaves.pure) ht
  | txEnabled => exact hreg ((owned_priv (regRead_owned _)).bind fun _ => Leaves.pure) ht
  | evRead => exact hreg (Leaves.bind Leaves.here fun _ => (owned_priv (regRead_owned _)).bind fun _ => Leaves.pure) ht
  | evClear m => exact hreg (Leaves.bind Leaves.here fun _ => (owned_priv (eventClear_owned _)).bind fun _ => Leaves.pure) ht
  | evReadClear => exact hreg (Leaves.bind Leaves.here fun _ => (owned_priv (regReadClear_owned _)).bind fun _ => Leaves.pure) ht
  | evSetMask m => exact hreg ((setEventMask_priv _).bind fun _ => Leaves.pure) ht
  | setSpeedDuplex v d => exact hreg (Leaves.bind (Leaves.bind Leaves.here fun _ => Leaves.require.bind fun _ => regWrite_priv _) fun _ => Leaves.pure) ht
  | promiscSet => exact hreg ((regWrite_priv _).bind fun _ => Leaves.pure) ht
  | promiscClear => exact hreg ((regWrite_priv _).bind fun _ => Leaves.pure) ht
  | mdioRead phy reg =>
    refine hreg (Leaves.bind (Leaves.bind Leaves.here fun _ => ask_priv _ _ _ _) fun v => ?_) ht
    cases v <;> exact Leaves.pure
  | mdioWrite phy reg v => exact hreg (Leaves.bind (Leaves.bind Leaves.here fun _ => ask_priv _ _ _ _) fun v => Leaves.ite Leaves.pure Leaves.pure) ht
  | macCoreInit a b c m =>
    refine issue_sound (P := fun s => Idle s ∧ s.seq.mode = .off) (fun s h1 hs hb => ⟨idle_begun hs hb, (core_alive h1).2⟩) ?_ hs ht
    intro s ws u ⟨hi, hm⟩ hu
    obtain ⟨ok, v, h3, h4⟩ := bind_ok hu
    obtain ⟨e0, e0', e1, e2⟩ := macCoreInit_priv _ _ _ _ _ _ _ _ rfl h3
    cases ok with
    | false => cases h4; have := e2 rfl; unfold Idle; rw [this]; exact hi
    | true =>
      cases h4; have := e1 rfl; unfold Idle; rw [this]
      refine ⟨?_, hi.2⟩
      have hg := hi.1.rings
      exact idle_off_change hi.1 hm rfl rfl ⟨hg.params, hg.rx, hg.tx, hg.both, hg.apart, hg.counts, hg.groups⟩ (fun _ => e0)
  | macEnable => exact hreg (macEnable_priv.bind fun _ => Leaves.pure) ht
  | transmit fs b => exact hrx (fun s hs h => run_alive hs h) ((idle_enqTx _ _).bind fun _ => Ensures.ite (fun _ => answer_idle _) (fun _ => answer_idle _)) ht
  | getMac => exact hreg (Leaves.bind Leaves.here fun _ => Leaves.pure) ht
  | printDiag => exact hreg (Leaves.bind Leaves.here fun _ => (owned_priv (regRead_owned _)).bind fun _ => (call_priv _).bind fun _ => Leaves.pure) ht
  | hRxSample => rw [engine_priv (c := fun s => sampleEnabled s .rx) (sampleStep_owned .rx) ht]; exact hs
  | hRxDone l f => rw [engine_priv (c := fun s => rxDoneEnabled s l f) (rxDoneStep_owned l f) ht]; exact hs
  | hRxStall => rw [engine_priv (c := fun s => stallEnabled s .rx) (stallStep_owned .rx) ht]; exact hs
  | hTxSample => rw [engine_priv (c := fun s => sampleEnabled s .tx) (sampleStep_owned .tx) ht]; exact hs
  | hTxDone => rw [engine_priv txDoneStep_owned ht]; exact hs
  | hTxStall => rw [engine_priv (c := fun s => stallEnabled s .tx) (stallStep_owned .tx) ht]; exact hs
  | hBusError => rw [engine_priv busErrorStep_owned ht]; exact hs

/-- Every operation keeps a sound state sound. -/
theorem exec_inv (i : Instr) {s t : State} (hs : Inv s) (ht : exec i s = .next t) : Inv t :=
  have hp := exec_priv_sound i hs.priv ht
  ⟨hp, exec_stable stable_memOk (stable_memOk.handOverTx fun _ _ h => h) i hs.mem ht,
    exec_stable stable_maskOk (stable_maskOk.handOverTx fun _ _ h => h) i hs.mask ht,
    exec_stable stable_eventOk (stable_eventOk.handOverTx fun _ _ h => h) i (fun _ => hs.event) ht hp.rings.params,
    exec_handing i hs.handing ht⟩

end Sys2Proof.Machine
end

