-- ==== Sys2Proof/Laws/Steps.lean ====
section
/-!
SUPPORT. Laws/Steps.lean: each step of bring-up as a piece of work, where its collaborators answer with success and nothing
happens between C's events (44_link_bringup R154 to R163); what INIT makes of the steps (R150).
-/
namespace Sys2Proof.Machine

/-- A step that stores nothing led from `s` to `t`: C's private registers are `p`, the register block is `r`, the calls `c` were
made, the answers still to come are `a`. -/
structure Stepped (s t : State) (p : Private) (r : Regs) (w : Hw) (c : List Call) (a : Answers) : Prop where
  priv    : t.priv = p
  regs    : t.regs = r
  hw      : t.hw = w
  calls   : t.calls = s.calls ++ c
  out     : t.out = s.out
  bytes   : t.settled = s.settled
  quiet   : t.quiet
  inputs  : t.env.inputs = s.env.inputs
  answers : t.env.answers = a

/-- A step that was not the last one, and an error that ended INIT. -/
theorem Stepped.became {s t : State} {p r w c a} (h : Stepped s t p r w c a) : Became s t p r w c s.out :=
  ⟨h.priv, h.regs, h.hw, h.calls, h.out, .of_settled h.bytes, h.inputs, fun _ => h.quiet⟩

theorem bu1_given {s : State} (h : s.quiet) (hm : s.bring.cfg.mac ≠ Mac.zero) :
    ∃ t, bu1 s = .ok (none, t) ∧ Stepped s t { s.priv with
      bring := { s.bring with macPending := s.bring.cfg.mac }, seq := { s.seq with bstep := 2 } } s.regs s.hw []
      s.env.answers := by
  refine ⟨(s.setBring { s.bring with macPending := s.bring.cfg.mac }).setSeq { s.seq with bstep := 2 }, ?_, ?_⟩
  · unfold bu1
    simp only [run_here_bind, hm, ne_eq, not_false_eq_true, if_true, run_upd_bind]
    rfl
  · exact ⟨by simp, by simp, by simp, by simp, by simp, by simp, h, by simp, by simp⟩

theorem bu1_fuse {s : State} {m : Mac} {r : List (Option Mac)} (h : s.quiet) (hm : s.bring.cfg.mac = Mac.zero)
    (hf : s.env.answers.fuse = some m :: r) :
    ∃ t, bu1 s = .ok (none, t) ∧ Stepped s t { s.priv with
      bring := { s.bring with macPending := m }, seq := { s.seq with bstep := 2 } } s.regs s.hw
      [.fuseMac s.bring.cfg.index] { s.env.answers with fuse := r } := by
  have e := ask_quiet (.fuseMac s.bring.cfg.index) (get := (·.fuse)) (fun a x => { a with fuse := x }) Config.freeFuse h hf
  generalize hs1 : (s.setCalls _).setEnv _ = s1 at e
  refine ⟨(s1.setBring { s1.bring with macPending := m }).setSeq { s1.seq with bstep := 2 }, ?_, ?_⟩
  · unfold bu1
    simp only [run_here_bind, hm, ne_eq, not_true_eq_false, if_false, askFuse]
    rw [run_bind_ok e]
    rfl
  · rw [← hs1]
    exact ⟨by simp, by simp, by simp, by simp, by simp, by simp, h, by simp, by simp⟩

theorem bu2_up {s : State} {a b : Word} {r : List Bool} {rd : List (Option Word)} {rm : List Bool} (h : s.quiet)
    (hm : MemOk s) (h1 : 2 ≤ s.params.capRx) (h2 : 2 ≤ s.params.capTx) (hrx : s.rx.alive = false) (htx : s.tx.alive = false)
    (hc : s.env.answers.ctxAlloc = true :: r) (hda : s.env.answers.dmaAlloc = some a :: some b :: rd)
    (hma : s.env.answers.metaAlloc = true :: rm)
    (hal : allocOk s.params.dmaAlign a.toNat s.params.capRx b.toNat s.params.capTx = true) :
    ∃ t, bu2 s = .ok (none, t.setSeq { s.seq with bstep := 3 }) ∧ t.seq = s.seq ∧
      Laid (((s.setCalls (s.calls ++ .ctxAlloc :: allocCalls s.params s.params.capRx s.params.capTx)).setCtx
        ⟨true, none, s.bring.cfg.index, s.bring.cfg.phyAddr, s.bring.cfg.promisc, s.bring.macPending⟩).setEnv
        { s.env with answers := { s.env.answers with ctxAlloc := r, dmaAlloc := rd, metaAlloc := rm } }) t
        s.params.capRx s.params.capTx a b := by
  have e1 := ask_quiet .ctxAlloc (get := (·.ctxAlloc)) (fun a x => { a with ctxAlloc := x }) Config.freeOk h hc
  generalize hs1 : (s.setCalls _).setEnv _ = s1 at e1
  generalize hs2 : s1.setCtx ⟨true, none, s.bring.cfg.index, s.bring.cfg.phyAddr, s.bring.cfg.promisc,
    s.bring.macPending⟩ = s2
  have e2 : openContext s1 = .ok ((), s2) := by rw [← hs2, ← hs1]; rfl
  have k2 : s2.params = s.params := by rw [← hs2, ← hs1]; simp
  obtain ⟨t, et, lt⟩ := ringInit_quiet (s := s2) (capRx := s.params.capRx) (capTx := s.params.capTx) (a := a) (b := b) (ra := rd)
    (rm := rm) (by rw [← hs2, ← hs1]; exact h) (by rw [← hs2, ← hs1]; exact hm) h1 h2 (by rw [← hs2, ← hs1]; exact hrx)
    (by rw [← hs2, ← hs1]; exact htx) (by rw [k2]; exact hal) (by rw [← hs2, ← hs1]; exact hda)
    (by rw [← hs2, ← hs1]; exact hma)
  obtain ⟨k, j, hk⟩ := lt.priv
  have hq : t.seq = s.seq := by
    have : t.seq = s2.seq := congrArg Private.seq hk
    rw [this, ← hs2, ← hs1]
    simp
  refine ⟨t, ?_, hq, ?_⟩
  · unfold bu2
    simp only [askCtxAlloc]
    rw [run_bind_ok e1, if_pos rfl, run_bind_ok e2, run_here_bind, k2, run_bind_ok et, if_pos rfl, ← hq]
    rfl
  · refine (congrArg (fun u => Laid u t s.params.capRx s.params.capTx a b) ?_).mp lt
    rw [k2, ← hs2, ← hs1]
    simp only [State.setCalls, State.setEnv, State.setCtx, allocCalls, List.append_assoc, List.cons_append,
      List.nil_append]

theorem bu3_up {s : State} {r : List Bool} (h : s.quiet) (hx : s.ctx.index = 0) (ha : s.env.answers.platform = true :: r) :
    ∃ t, bu3 s = .ok (none, t) ∧ Stepped s t { s.priv with seq := { s.seq with bstep := 4 } } s.regs s.hw
      [.platformSetup 0] { s.env.answers with platform := r } := by
  have e := ask_quiet (.platformSetup 0) (get := (·.platform)) (fun a x => { a with platform := x }) Config.freeOk h ha
  generalize hs1 : (s.setCalls _).setEnv _ = s1 at e
  refine ⟨s1.setSeq { s1.seq with bstep := 4 }, ?_, ?_⟩
  · unfold bu3
    simp only [run_here_bind, hx, ne_eq, not_true_eq_false, if_false, askPlatform]
    rw [run_bind_ok e]
    rfl
  · rw [← hs1]
    exact ⟨by simp, by simp, by simp, by simp, by simp, by simp, h, by simp, by simp⟩

theorem bu4_up {s : State} {x : Word} {r : List (Option Word)} (h : s.quiet) (ha : s.env.answers.mapRegs = some x :: r) :
    ∃ t, bu4 s = .ok (none, t) ∧ Stepped s t { s.priv with
      ctx := { s.ctx with regs := some x }, seq := { s.seq with bstep := 5 } } s.regs s.hw [.mapRegs]
      { s.env.answers with mapRegs := r } := by
  have e := ask_quiet .mapRegs (get := (·.mapRegs)) (fun a x => { a with mapRegs := x }) Config.freeMap h ha
  generalize hs1 : (s.setCalls _).setEnv _ = s1 at e
  refine ⟨(s1.setCtx { s1.ctx with regs := some x }).setSeq { s1.seq with bstep := 5 }, ?_, ?_⟩
  · unfold bu4
    simp only [askMapRegs]
    rw [run_bind_ok e]
    rfl
  · rw [← hs1]
    exact ⟨by simp, by simp, by simp, by simp, by simp, by simp, h, by simp, by simp⟩

theorem bu5_up {s : State} {a b : Word} {r : List Bool} (h : s.quiet) (hrx : s.rx.alive = true) (htx : s.tx.alive = true)
    (ha : s.rx.base = some a) (hb : s.tx.base = some b) (hc : s.env.answers.coreInit = true :: r) :
    ∃ t, bu5 s = .ok (none, t) ∧ Stepped s t { s.priv with coreFresh := true, seq := { s.seq with bstep := 6 } }
      (s.regs.coreInit a b (BitVec.ofNat 32 s.params.bufSize) s.ctx.mac) ⟨0, 0, none, none⟩ [.macCoreHwInit s.ctx.regs]
      { s.env.answers with coreInit := r } := by
  obtain ⟨t, et, p, rg, hw, cl, ot, st, q, en⟩ :=
    macCoreInit_up a b (BitVec.ofNat 32 s.params.bufSize) s.ctx.mac h hrx htx hc
  have hq : t.seq = s.seq := congrArg Private.seq p
  refine ⟨t.setSeq { t.seq with bstep := 6 }, ?_, ?_⟩
  · unfold bu5
    rw [run_here_bind, ha, hb]
    simp only [Option.getD_some]
    rw [run_bind_ok et]
    rfl
  · exact ⟨by simp [p, hq], by simp [rg], by simp [hw], by simp [cl], by simp [ot], by simp [st], q, by simp [en], by simp [en]⟩

theorem bu6_up {s : State} (h : s.quiet) :
    ∃ t, bu6 s = .ok (none, t) ∧ Stepped s t { s.priv with seq := { s.seq with bstep := 7 } }
      { s.regs with promisc := decide (s.ctx.promisc ≠ .off) } s.hw [] s.env.answers ∧ t.pend = [] ∧ t.early = [] := by
  refine ⟨((flush s).setRegs { s.regs with promisc := decide (s.ctx.promisc ≠ .off) }).setSeq { s.seq with bstep := 7 }, ?_,
    ?_, by simp, by simp⟩
  · unfold bu6
    simp only [run_here_bind, setPromisc]
    rw [run_bind_ok (regWrite_quiet _ h)]
    rfl
  · exact ⟨by simp, by simp, by simp, by simp, by simp, by simp, ⟨by simpa using h.1, by simp⟩, by simp, by simp⟩

theorem bu7_up {s : State} {phy : Nat} {r : List Bool} {q : List (Option Nat)} (h : s.quiet)
    (hx : s.ctx.phyAddr.toNat ≤ s.params.phyAddrMax) (ha : s.env.answers.mdioInit = true :: r)
    (hc : s.env.answers.phyConnect = some phy :: q) :
    ∃ t, bu7 s = .ok (none, t) ∧ Stepped s t { s.priv with
      bring := { s.bring with phy := phy }, seq := { s.seq with bstep := 8 } } s.regs s.hw
      [.mdioInit s.ctx.regs s.bring.cfg.remoteMdio, .phyConnect (if s.ctx.phyAddr = 0 then none else some s.ctx.phyAddr)]
      { s.env.answers with mdioInit := r, phyConnect := q } := by
  have e1 := ask_quiet (.mdioInit s.ctx.regs s.bring.cfg.remoteMdio) (get := (·.mdioInit)) (fun a x => { a with mdioInit := x })
    Config.freeOk h ha
  generalize hs1 : (s.setCalls _).setEnv _ = s1 at e1
  have e2 := ask_quiet (.phyConnect (if s.ctx.phyAddr = 0 then none else some s.ctx.phyAddr)) (s := s1) (get := (·.phyConnect))
    (fun a x => { a with phyConnect := x }) Config.freePhy (by rw [← hs1]; exact h) (by rw [← hs1]; exact hc)
  generalize hs2 : (s1.setCalls _).setEnv _ = s2 at e2
  refine ⟨(s2.setBring { s2.bring with phy := phy }).setSeq { s2.seq with bstep := 8 }, ?_, ?_⟩
  · unfold bu7
    simp only [run_here_bind, show ¬(s.params.phyAddrMax < s.ctx.phyAddr.toNat) by omega, if_false, askMdioInit, askPhyConnect]
    rw [run_bind_ok e1, if_pos rfl, run_bind_ok e2]
    rfl
  · rw [← hs2, ← hs1]
    exact ⟨by simp, by simp, by simp, by simp, by simp, by simp, ⟨by simpa using h.1, by simpa using h.2⟩, by simp,
      by simp⟩

theorem bu8_up {s : State} {v : Nat} {d : Duplex} {r : List Bool} {q : List (Option (Nat × Duplex))} (h : s.quiet)
    (ha : s.env.answers.phyTune = true :: r) (hc : s.env.answers.phyStartup = some (v, d) :: q) :
    ∃ t, bu8 s = .ok (none, t) ∧ Stepped s t { s.priv with link := ⟨v, d⟩, seq := { s.seq with bstep := 9 } } s.regs s.hw
      [.phyTune s.bring.phy, .phyStartup s.bring.phy] { s.env.answers with phyTune := r, phyStartup := q } := by
  have e1 := ask_quiet (.phyTune s.bring.phy) (get := (·.phyTune)) (fun a x => { a with phyTune := x }) Config.freeOk h ha
  generalize hs1 : (s.setCalls _).setEnv _ = s1 at e1
  have e2 := ask_quiet (.phyStartup s.bring.phy) (s := s1) (get := (·.phyStartup)) (fun a x => { a with phyStartup := x })
    (freeNegotiation s1.params) (by rw [← hs1]; exact h) (by rw [← hs1]; exact hc)
  generalize hs2 : (s1.setCalls _).setEnv _ = s2 at e2
  refine ⟨(s2.setLink ⟨v, d⟩).setSeq { s2.seq with bstep := 9 }, ?_, ?_⟩
  · unfold bu8
    simp only [run_here_bind, askPhyTune]
    rw [run_bind_ok e1, if_pos rfl]
    simp only [askPhyStartup, bind_assoc, run_here_bind]
    rw [run_bind_ok e2]
    rfl
  · rw [← hs2, ← hs1]
    exact ⟨by simp, by simp, by simp, by simp, by simp, by simp, ⟨by simpa using h.1, by simpa using h.2⟩, by simp,
      by simp⟩

theorem bu9_up {s : State} (h : s.quiet) (hv : s.params.speedSet.contains s.link.speed = true) :
    ∃ t, bu9 s = .ok (none, t) ∧ Stepped s t { s.priv with seq := { s.seq with bstep := 10 } }
      { s.regs with speed := s.link.speed, duplex := s.link.duplex } s.hw [] s.env.answers ∧ t.pend = [] ∧ t.early = [] := by
  refine ⟨((flush s).setRegs { s.regs with speed := s.link.speed, duplex := s.link.duplex }).setSeq { s.seq with bstep := 10 },
    ?_, ?_, by simp, by simp⟩
  · unfold bu9
    simp only [run_here_bind, setSpeedDuplex, bind_assoc, hv]
    rw [run_bind_ok (require_true _ _), run_bind_ok (regWrite_quiet _ h)]
    rfl
  · exact ⟨by simp, by simp, by simp, by simp, by simp, by simp, ⟨by simpa using h.1, by simp⟩, by simp, by simp⟩

theorem macEnable_quiet {s : State} (h : s.quiet) (hf : s.coreFresh = true) :
    macEnable s = .ok ((), (flush s).setRegs { s.regs with macEn := true }) := by
  simp only [macEnable, run_here_bind, hf]
  rw [run_bind_ok (sound_true _ _)]
  exact regWrite_quiet _ h

theorem setEventMask_quiet (m : Events) {s : State} (h : s.quiet) :
    setEventMask m s = .ok ((), (flush s).setRegs { s.regs with evmask := m &&& evAll s.params }) := by
  simp only [setEventMask, run_here_bind]
  exact regWrite_quiet _ h

theorem bu10_up {s : State} {bs : List (Nat × Handle)} (h : s.quiet) (hm : MemOk s) (hr : RxReady s) (hf : s.coreFresh = true)
    (hb : Supplies s s.rx.remain bs) :
    ∃ c, SuppliedRx ((flush s).setRegs { s.regs with macEn := true }) bs c ∧ c.out = s.out ∧
      bu10 s = .ok (none, ((flush c).setRegs { c.regs with evmask := evAll s.params }).setSeq { c.seq with bstep := 0 }) := by
  have hr' : RxReady ((flush s).setRegs { s.regs with macEn := true }) := rxReady_iff.2 (rxReady_iff.1 hr)
  obtain ⟨c, ec, rc, -, oc⟩ := fillRx_quiet (s := (flush s).setRegs { s.regs with macEn := true }) (bs := bs) ⟨h.1, rfl⟩
    (wf_performAll s.pend hm) hr' hb
  have cp : c.params = s.params := congrArg Private.params rc.priv
  refine ⟨c, rc, oc, ?_⟩
  unfold bu10
  rw [run_bind_ok (macEnable_quiet h hf), run_bind_ok ec, run_here_bind, cp, run_bind_ok (setEventMask_quiet _ rc.quiet), cp,
    show evAll s.params &&& evAll s.params = evAll s.params from Nat.and_self _]
  rfl

/-! ### INIT -/

theorem runSteps_next {n k : Nat} {u v : State} (hk : u.seq.bstep = k) (h1 : 1 ≤ k) (h2 : k ≤ 10)
    (h : buStep k u = .ok (none, v)) : runSteps (n + 1) u = runSteps n v := by
  simp only [runSteps, run_here_bind, hk, h1, h2, and_self, if_true]
  rw [run_bind_ok h]

theorem runSteps_done {n : Nat} {u : State} (hk : u.seq.bstep = 0) : runSteps n u = .ok (none, u) := by
  cases n with
  | zero => rfl
  | succ n => simp [runSteps, hk]

end Sys2Proof.Machine
end

