-- ==== Sys2Proof/Laws/Init.lean ====
section
/-!
SUPPORT. Laws/Init.lean: INIT as one operation is its steps one by one, whatever happens between the events, and it ends running,
off or dead (44_link_bringup R150, R152, R164, R165).
-/
namespace Sys2Proof.Machine

/-- The step that `bstep` selects is `sequencerStep`'s. -/
theorem exec_buInstr (k : Nat) (h1 : 1 ≤ k) (h2 : k ≤ 10) :
    ∃ i, buInstr k = some i ∧ ∀ s, exec i s = sequencerStep k (buStep k) s := by
  have : k = 1 ∨ k = 2 ∨ k = 3 ∨ k = 4 ∨ k = 5 ∨ k = 6 ∨ k = 7 ∨ k = 8 ∨ k = 9 ∨ k = 10 := by omega
  rcases this with rfl | rfl | rfl | rfl | rfl | rfl | rfl | rfl | rfl | rfl <;> exact ⟨_, rfl, fun _ => rfl⟩

/-- Everything step `k` of an INIT in progress can do: it goes on before step `k + 1`; step 10 ends INIT well; or an error ends
it. -/
theorem buStep_cases {k : Nat} (h1 : 1 ≤ k) (h2 : k ≤ 10) {s t : State} (hs : AtStep k s.priv) :
    sequencerStep k (buStep k) s = .next t ↔
      (∃ u, buStep k s = .ok (none, u) ∧ k ≠ 10 ∧ AtStep (k + 1) u.priv ∧ t = u) ∨
      (∃ u, buStep k s = .ok (none, u) ∧ k = 10 ∧ AtStep 0 u.priv ∧ t = (u.setSeq { u.seq with mode := .running }).ended [0]) ∨
      (∃ u e, buStep k s = .ok (some e, u) ∧ Ended e u.priv ∧ t = u.ended [e.code]) := by
  have hat : s.atStep k := ⟨hs.mode, hs.step⟩
  constructor
  · intro h
    rw [sequencerStep, if_pos (show _ ∧ _ from hat), outcome_next] at h
    obtain ⟨_, h⟩ := h
    obtain ⟨r, u, e1, h⟩ := bind_ok h
    have hu := buStep_after k h1 h2 s r u hs e1
    cases r with
    | some e => cases h; exact .inr (.inr ⟨u, e, e1, hu, rfl⟩)
    | none =>
      simp only at h
      split at h
      · next hk =>
        cases h
        rw [if_pos hk] at hu
        exact .inr (.inl ⟨u, e1, hk, hu, rfl⟩)
      · next hk =>
        cases h
        rw [if_neg hk] at hu
        exact .inl ⟨_, e1, hk, hu, rfl⟩
  · rintro (⟨u, e1, hk, -, rfl⟩ | ⟨u, e1, rfl, -, rfl⟩ | ⟨u, e, e1, -, rfl⟩)
    · exact sequencer_next hat hk e1
    · exact sequencer_last hat e1
    · exact sequencer_stop hat e1

/-- A turn of INIT's loop whose step fails. -/
theorem runSteps_stop {n k : Nat} {s u : State} {e : Err} (hk : s.seq.bstep = k) (h1 : 1 ≤ k) (h2 : k ≤ 10)
    (h : buStep k s = .ok (some e, u)) : runSteps (n + 1) s = .ok (some e, u) := by
  simp only [runSteps, run_here_bind, hk, h1, h2, and_self, if_true]
  rw [run_bind_ok h]
  rfl

/-- Everything a turn that ends can do. -/
theorem runSteps_turn {n k : Nat} {s t : State} {r : Option Err} (hk : s.seq.bstep = k) (h1 : 1 ≤ k) (h2 : k ≤ 10)
    (h : runSteps (n + 1) s = .ok (r, t)) :
    (∃ e, r = some e ∧ buStep k s = .ok (some e, t)) ∨ ∃ u, buStep k s = .ok (none, u) ∧ runSteps n u = .ok (r, t) := by
  simp only [runSteps, run_here_bind, hk, h1, h2, and_self, if_true] at h
  obtain ⟨q, u, h3, h4⟩ := bind_ok h
  cases q with
  | some e => cases h4; exact .inl ⟨e, rfl, h3⟩
  | none => exact .inr ⟨u, h3, h4⟩

/-- INIT's loop from before step `k`, with what follows it, leads where the steps lead. -/
theorem runSteps_buSteps (n k : Nat) (h1 : 1 ≤ k) (h2 : k ≤ 10) (hn : k + n ≥ 11) {s t : State} (hs : AtStep k s.priv) :
    (∃ ws u, (runSteps n >>= endInit) s = .ok (ws, u) ∧ t = u.ended ws) ↔ BuSteps s t := by
  induction n generalizing k s with
  | zero => omega
  | succ n ih =>
    obtain ⟨i, hi, hx⟩ := exec_buInstr k h1 h2
    have hm : s.seq.mode = .bringUp := hs.mode
    have hk : s.seq.bstep = k := hs.step
    have hnext : sequencerNext s = some i := by simp only [sequencerNext, hm, hk, if_true, hi]
    constructor
    · rintro ⟨ws, u, e, rfl⟩
      obtain ⟨r, v, e1, e2⟩ := bind_ok e
      rcases runSteps_turn hk h1 h2 e1 with ⟨er, rfl, e3⟩ | ⟨w, e3, e4⟩
      · have hw := buStep_after k h1 h2 s _ v hs e3
        cases e2
        refine .last _ _ i hnext ((hx s).trans ((buStep_cases h1 h2 hs).2 (.inr (.inr ⟨_, er, e3, hw, rfl⟩)))) ?_
        rcases hw.mode with h | h
        · exact fun h' => by cases h.1.symm.trans h'
        · exact fun h' => by cases h.1.symm.trans h'
      · have hw := buStep_after k h1 h2 s _ w hs e3
        by_cases h10 : k = 10
        · have hw : AtStep 0 w.priv := by rwa [if_pos h10] at hw
          rw [runSteps_done hw.step] at e4
          cases e4
          cases e2
          exact .last _ _ i hnext ((hx s).trans ((buStep_cases h1 h2 hs).2 (.inr (.inl ⟨_, e3, h10, hw, rfl⟩)))) nofun
        · have hw : AtStep (k + 1) w.priv := by rwa [if_neg h10] at hw
          refine .more _ w _ i hnext ((hx s).trans ((buStep_cases h1 h2 hs).2 (.inl ⟨_, e3, h10, hw, rfl⟩))) hw.mode ?_
          exact (ih (k + 1) (by omega) (by omega) (by omega) hw).1 ⟨ws, u, by rw [run_bind_ok e4]; exact e2, rfl⟩
    · intro h
      have key : ∀ j x, sequencerNext s = some j → exec j s = .next x → sequencerStep k (buStep k) s = .next x := by
        intro j x hj hjx
        rw [hnext] at hj
        cases hj
        rw [← hx]
        exact hjx
      cases h with
      | last _ _ j hj hjx hne =>
        rcases (buStep_cases h1 h2 hs).1 (key j t hj hjx) with ⟨u, -, -, hu, rfl⟩ | ⟨u, e, h10, hu, rfl⟩ | ⟨u, er, e, -, rfl⟩
        · exact absurd hu.mode hne
        · refine ⟨[0], _, ?_, rfl⟩
          rw [run_bind_ok ((runSteps_next hk h1 h2 e).trans (runSteps_done hu.step))]
          rfl
        · refine ⟨[er.code], u, ?_, rfl⟩
          rw [run_bind_ok (runSteps_stop hk h1 h2 e)]
          rfl
      | more _ u _ j hj hju hm' hrest =>
        rcases (buStep_cases h1 h2 hs).1 (key j u hj hju) with ⟨u', e, h10, hu, rfl⟩ | ⟨u', e, h10, hu, rfl⟩ | ⟨u', er, e, hu, rfl⟩
        · obtain ⟨ws, v, e5, rfl⟩ := (ih (k + 1) (by omega) (by omega) (by omega) hu).2 hrest
          obtain ⟨r, w, e6, e7⟩ := bind_ok e5
          refine ⟨ws, v, ?_, rfl⟩
          rw [run_bind_ok ((runSteps_next hk h1 h2 e).trans e6), e7]
        · cases hm'
        · rcases hu.mode with h | h
          · cases h.1.symm.trans hm'
          · cases h.1.symm.trans hm'

/-- Before step 1 of an INIT that was admitted. -/
theorem initStarted_atStep {s : State} (hs : s.priv.Sound) (hm : s.seq.mode = .off) (hr : s.rx.alive = false)
    (cfg : PlatformCfg) : AtStep 1 (s.initStarted cfg).priv := by
  obtain ⟨⟨h1, h2, h3, h4, h5, h6, h7⟩, hc, hx, hq⟩ := hs
  exact ⟨⟨h1, h2, h3, h4, h5, h6, h7⟩, rfl, rfl, rfl, hc, hx, fun _ _ => ⟨hq.off hm, hr⟩, by omega, by omega, by omega⟩

/-- INIT as one operation leads where its steps lead. -/
theorem exec_init_buSteps {s t : State} (hs : s.priv.Sound) (hm : s.seq.mode = .off) (hr : s.rx.alive = false)
    (cfg : PlatformCfg) : exec (.init cfg) s = .next t ↔ BuSteps (s.initStarted cfg) t := by
  have hb : s.seq.busy = false := by
    have := hs.seq.busy
    cases h : s.seq.busy
    · rfl
    · exact absurd (hm.symm.trans (this.1 h)) nofun
  have ha : admitInit s = none := by
    have hx : s.ctx.alive = false := hs.seq.off hm
    have ht : s.tx.alive = false := hs.rings.both ▸ hr
    simp [admitInit, hm, hr, ht, hx]
  rw [← runSteps_buSteps 10 1 (by omega) (by omega) (by omega) (initStarted_atStep hs hm hr cfg)]
  constructor
  · intro h
    obtain ⟨ws, u, h1, rfl⟩ := issue_ok h
    exact ⟨ws, u, h1, rfl⟩
  · rintro ⟨ws, u, h1, rfl⟩
    exact issue_next hb ha h1

/-- However the steps end, INIT is running, off or dead. -/
theorem buSteps_ends {s t : State} (h : BuSteps s t) (hs : s.priv.Sound) : InitEnds t := by
  have at_ : ∀ (s : State) (i : Instr), s.priv.Sound → sequencerNext s = some i →
      ∃ k, 1 ≤ k ∧ k ≤ 10 ∧ AtStep k s.priv ∧ ∀ x, exec i s = .next x → sequencerStep k (buStep k) s = .next x := by
    intro s i hs hi
    unfold sequencerNext at hi
    split at hi
    · next hm =>
      have hk := hs.seq.step hm
      obtain ⟨j, hj, hx⟩ := exec_buInstr s.seq.bstep hk.1 hk.2
      rw [hj] at hi
      cases hi
      exact ⟨_, hk.1, hk.2, atStep_of_sound hs _ hm rfl hk.1, fun x h => (hx s).symm.trans h⟩
    · cases hi
  induction h with
  | more s u t i hi hu _ _ ih => exact ih (exec_priv_sound i hs hu)
  | last s t i hi ht hne =>
    obtain ⟨k, h1, h2, hk, hx⟩ := at_ s i hs hi
    rcases (buStep_cases h1 h2 hk).1 (hx t ht) with ⟨u, -, -, hu, rfl⟩ | ⟨u, -, -, hu, rfl⟩ | ⟨u, e, -, hu, rfl⟩
    · exact absurd hu.mode hne
    · have hl := hu.late (.inl rfl)
      have hstep : u.seq.bstep = 0 := hu.step
      refine .inl ⟨?_, rfl, hl.2, hu.rings.both ▸ hl.2, hl.1⟩
      show Seq.mk _ _ _ = _
      rw [← hstep]
      rfl
    · have hstep : u.seq.bstep = 0 := hu.step
      rcases hu.mode with ⟨hm, he, hc, hr⟩ | ⟨hm, rfl, hc, hr⟩
      · have ht : u.tx.alive = false := hu.rings.both ▸ hr
        have hm : u.seq.mode = .off := hm
        refine .inr (.inl ⟨?_, ⟨_, he, rfl⟩, hr, ht, hu.rings.rx.gone hr, hu.rings.tx.gone ht, hc, hu.ctx hc⟩)
        show Seq.mk _ _ _ = _
        rw [hm, hstep]
      · have hm : u.seq.mode = .dead := hm
        refine .inr (.inr ⟨?_, rfl, hr, hu.rings.both ▸ hr, hc⟩)
        show Seq.mk _ _ _ = _
        rw [hm, hstep]

end Sys2Proof.Machine
end

