-- ==== Sys2Proof/Laws/Order.lean ====
section
/-!
SUPPORT. Laws/Order.lean: the order of an operation's accesses under any schedule (20_memory R74, R79, 42_completion_reaper
R131, 43_interrupt_dispatch R142): which writes are still pending at the moments between its events, in which order its parts run,
and which events are left.
-/
namespace Sys2Proof.Machine

/-! ### Pending writes (20_memory R74) -/

/-- The pending writes are all among some. -/
def PendIn (Q : PendWrite → Prop) (s : State) : Prop := ∀ w ∈ s.pend, Q w

theorem gapped_pendIn (Q : PendWrite → Prop) : Gapped (PendIn Q) where
  hw _ _ h := h
  env _ _ _ h := h
  event _ _ _ h := h
  rxOff _ h := h
  txOff _ h := h
  bytes _ _ _ h := h
  pend _ _ hx h := fun w hw => h w (hx w hw)
  early _ _ h := h

/-- Nothing that C has not issued becomes pending. -/
theorem tick_pend {s t : State} {u : Unit} (h : tick s = .ok (u, t)) : ∀ w ∈ t.pend, w ∈ s.pend :=
  (gapped_pendIn (· ∈ s.pend)).tick s u t (fun _ hw => hw) h

theorem barrier_done {s t : State} {u : Unit} (h : barrier s = .ok (u, t)) : t.pend = [] ∧ t.early = [] := by
  obtain ⟨_, _, -, h⟩ := bind_ok h
  cases h
  exact ⟨rfl, rfl⟩

/-- The one write a `DescWrite` adds. -/
theorem descWrite_pend {d : Dir} {i : Nat} {f : Field} {v : Nat} {s t : State} {u : Unit}
    (h : descWrite d i f v s = .ok (u, t)) :
    ∃ w r, IsWrite s d i f v w ∧ t.pend = r ++ [w] ∧ ∀ x ∈ r, x ∈ s.pend := by
  obtain ⟨_, s1, h1, h⟩ := bind_ok h
  obtain ⟨_, _, h2, h⟩ := bind_ok h
  cases h2
  obtain ⟨a, _, h2, h⟩ := bind_ok h
  have e := owned_priv tick_owned s _ s1 h1
  have e1 : s1.params = s.params := congrArg Private.params e
  have e2 : descAddr s1 d i f = descAddr s d i f := by
    have e3 : s1.ring d = s.ring d := by
      cases d
      · exact congrArg Private.rx e
      · exact congrArg Private.tx e
    simp only [descAddr, e3, e1]
  simp only [descField, run_here_bind] at h2
  cases h3 : descAddr s1 d i f with
  | none => rw [h3] at h2; cases h2
  | some b =>
    rw [h3] at h2
    cases h2
    cases h
    exact ⟨_, _, ⟨a, e2 ▸ h3, by rw [← e1]⟩, rfl, tick_pend h1⟩

/-- What an issued write is depends on C's private registers alone. -/
theorem IsWrite.congr {s t : State} {d : Dir} {i v : Nat} {f : Field} {w : PendWrite} (e : t.priv = s.priv)
    (h : IsWrite t d i f v w) : IsWrite s d i f v w := by
  obtain ⟨a, h1, h2⟩ := h
  have e1 : t.params = s.params := congrArg Private.params e
  have e3 : t.ring d = s.ring d := by
    cases d
    · exact congrArg Private.rx e
    · exact congrArg Private.tx e
  simp only [descAddr, e3, e1] at h1
  exact ⟨a, by simpa only [descAddr] using h1, by rw [h2, e1]⟩

/-- RING_INIT's writes (40_ring_lifecycle R111). -/
theorem initSlots_pend (d : Dir) (n : Nat) {s t : State} {u : Unit} (h : initSlots d n s = .ok (u, t)) :
    ∀ w ∈ t.pend, w ∈ s.pend ∨ ∃ i, i < n ∧ (IsWrite s d i .phys 0 w ∨ IsWrite s d i .len 0 w ∨
      IsWrite s d i .stat (statInit s.params d (s.ring d) i).toNat w) := by
  induction n generalizing t u with
  | zero => cases h; exact fun w hw => .inl hw
  | succ n ih =>
    obtain ⟨_, s1, h1, h⟩ := bind_ok h
    obtain ⟨_, s2, h2, h⟩ := bind_ok h
    obtain ⟨_, s3, h3, h⟩ := bind_ok h
    obtain ⟨_, _, h4, h⟩ := bind_ok h
    cases h4
    have e1 : s1.priv = s.priv := owned_priv (initSlots_owned d n) s _ s1 h1
    have e2 : s2.priv = s.priv := (owned_priv (descWrite_owned _ _ _ _) s1 _ s2 h2).trans e1
    have e3 : s3.priv = s.priv := (owned_priv (descWrite_owned _ _ _ _) s2 _ s3 h3).trans e2
    obtain ⟨w1, r1, i1, p1, q1⟩ := descWrite_pend h2
    obtain ⟨w2, r2, i2, p2, q2⟩ := descWrite_pend h3
    obtain ⟨w3, r3, i3, p3, q3⟩ := descWrite_pend h
    have ep : s3.params = s.params := congrArg Private.params e3
    have er : s3.ring d = s.ring d := by
      cases d
      · exact congrArg Private.rx e3
      · exact congrArg Private.tx e3
    rw [ep, er] at i3
    have a1 : ∀ w ∈ s1.pend, _ := ih h1
    have b1 := i1.congr e1
    have b2 := i2.congr e2
    have b3 := i3.congr e3
    intro w hw
    rw [p3, List.mem_append, List.mem_singleton] at hw
    rcases hw with hw | rfl
    · have hw := q3 w hw
      rw [p2, List.mem_append, List.mem_singleton] at hw
      rcases hw with hw | rfl
      · have hw := q2 w hw
        rw [p1, List.mem_append, List.mem_singleton] at hw
        rcases hw with hw | rfl
        · rcases a1 w (q1 w hw) with h5 | ⟨i, hi, h5⟩
          · exact .inl h5
          · exact .inr ⟨i, by omega, h5⟩
        · exact .inr ⟨n, by omega, .inl b1⟩
      · exact .inr ⟨n, by omega, .inr (.inl b2)⟩
    · exact .inr ⟨n, by omega, .inr (.inr b3)⟩

/-- When the status word that hands a receive slot over is issued, no other write is pending (41_buffer_supply R117). -/
theorem handOverRx_pend {pa : Nat} {hd : Handle} {s t : State} {u : Unit} (h : handOverRx pa hd s = .ok (u, t)) :
    ∃ w, t.pend = [w] ∧ IsWrite s .rx s.rx.tail .stat (rxHandover s.params s.rx s.rx.tail).toNat w := by
  obtain ⟨_, _, h0, h⟩ := bind_ok h
  cases h0
  obtain ⟨_, s1, h1, h⟩ := bind_ok h
  obtain ⟨_, s2, h2, h⟩ := bind_ok h
  obtain ⟨_, s3, h3, h⟩ := bind_ok h
  obtain ⟨_, s4, h4, h⟩ := bind_ok h
  cases h
  have e : s3.priv = s.priv := (owned_priv barrier_owned s2 _ s3 h3).trans
    ((owned_priv (descWrite_owned _ _ _ _) s1 _ s2 h2).trans (owned_priv (descWrite_owned _ _ _ _) s _ s1 h1))
  obtain ⟨w, r, i, p, q⟩ := descWrite_pend h4
  rw [(barrier_done h3).1] at q
  have hr : r = [] := List.eq_nil_iff_forall_not_mem.2 fun x hx => by cases q x hx
  exact ⟨w, by show s4.pend = [w]; rw [p, hr]; rfl, i.congr e⟩

/-- While a group's addresses and lengths are issued, nothing else is (41_buffer_supply R123). -/
theorem writeFrags_pend (t n : Nat) (fs : List Frag) {s u : State} {x : Unit} (h : writeFrags t n fs s = .ok (x, u)) :
    ∀ w ∈ u.pend, w ∈ s.pend ∨ ∃ k v, n ≤ k ∧ k < n + fs.length ∧
      (IsWrite s .tx (s.tx.adv t k) .phys v w ∨ IsWrite s .tx (s.tx.adv t k) .len v w) := by
  induction fs generalizing n s with
  | nil => cases h; exact fun w hw => .inl hw
  | cons f fs ih =>
    obtain ⟨_, _, h0, h⟩ := bind_ok h
    cases h0
    obtain ⟨_, s1, h1, h⟩ := bind_ok h
    obtain ⟨_, s2, h2, h⟩ := bind_ok h
    have e1 : s1.priv = s.priv := owned_priv (descWrite_owned _ _ _ _) s _ s1 h1
    have e2 : s2.priv = s.priv := (owned_priv (descWrite_owned _ _ _ _) s1 _ s2 h2).trans e1
    have er : s2.tx = s.tx := congrArg Private.tx e2
    obtain ⟨w1, r1, i1, p1, q1⟩ := descWrite_pend h1
    obtain ⟨w2, r2, i2, p2, q2⟩ := descWrite_pend h2
    have b2 := i2.congr e1
    intro w hw
    rcases ih (n + 1) h w hw with hw | ⟨k, v, k1, k2, k3⟩
    · rw [p2, List.mem_append, List.mem_singleton] at hw
      rcases hw with hw | rfl
      · have hw := q2 w hw
        rw [p1, List.mem_append, List.mem_singleton] at hw
        rcases hw with hw | rfl
        · exact .inl (q1 w hw)
        · exact .inr ⟨n, _, by omega, by simp, .inl i1⟩
      · exact .inr ⟨n, _, by omega, by simp, .inr b2⟩
    · rw [er] at k3
      exact .inr ⟨k, v, by omega, by simp; omega, k3.imp (·.congr e2) (·.congr e2)⟩

/-- While a group's status words are issued, nothing else is (41_buffer_supply R123, R126). -/
theorem writeStats_pend (t n m : Nat) (fs : List Frag) {s u : State} {x : Unit} (h : writeStats t n m fs s = .ok (x, u)) :
    ∀ w ∈ u.pend, w ∈ s.pend ∨ ∃ k, m ≤ k ∧ k < m + fs.length ∧
      IsWrite s .tx (s.tx.adv t k) .stat (txHandover s.params s.tx (s.tx.adv t k) k n).toNat w := by
  induction fs generalizing m s with
  | nil => cases h; exact fun w hw => .inl hw
  | cons f fs ih =>
    obtain ⟨_, _, h0, h⟩ := bind_ok h
    cases h0
    obtain ⟨_, s1, h1, h⟩ := bind_ok h
    rw [run_upd_bind] at h
    have e1 : s1.priv = s.priv := owned_priv (descWrite_owned _ _ _ _) s _ s1 h1
    have er : s1.tx = s.tx := congrArg Private.tx e1
    have ep : s1.params = s.params := congrArg Private.params e1
    obtain ⟨w1, r1, i1, p1, q1⟩ := descWrite_pend h1
    intro w hw
    rcases ih (m + 1) h w hw with hw | ⟨k, k1, k2, k3⟩
    · rw [State.setHanding_pend, p1, List.mem_append, List.mem_singleton] at hw
      rcases hw with hw | rfl
      · exact .inl (q1 w hw)
      · exact .inr ⟨m, by omega, by simp, i1⟩
    · rw [State.setHanding_tx, State.setHanding_params, er, ep] at k3
      exact .inr ⟨k, by omega, by simp; omega, k3.congr e1⟩

/-- A group handed over, under any schedule (20_memory R79). -/
theorem handOverTx_handed {fs : List Frag} {hd : Handle} {s t : State} {u : Unit} (h : handOverTx fs hd s = .ok (u, t)) :
    HandedOver s fs hd t := by
  obtain ⟨_, _, h0, h⟩ := bind_ok h
  cases h0
  obtain ⟨_, s0, h0, h⟩ := bind_ok h
  obtain ⟨-, rfl⟩ := sound_ok h0
  obtain ⟨_, a, h1, h⟩ := bind_ok h
  obtain ⟨_, b, h2, h3⟩ := bind_ok h
  have e : a.priv = s0.priv := owned_priv (layGroup_owned _ _) s0 _ a h1
  have er : a.tx = s0.tx := congrArg Private.tx e
  have ep : a.params = s0.params := congrArg Private.params e
  have hb : a.pend = [] ∧ a.early = [] := by
    obtain ⟨_, _, -, h⟩ := bind_ok h1
    exact barrier_done h
  refine ⟨fun m c hm hc w hw => ?_, a, b, h1, hb.1, hb.2, fun m c hm hc w hw => ?_, h2, h3⟩
  · rcases writeFrags_pend _ _ _ hc w hw with h | ⟨k, v, -, k2, k3⟩
    · exact .inl h
    · exact .inr ⟨k, v, by simp at k2; omega, k3⟩
  · rcases writeStats_pend _ _ _ _ hc w hw with h | ⟨k, -, k2, k3⟩
    · rw [hb.1] at h
      cases h
    · rw [er, ep] at k3
      exact ⟨k, by simp at k2; omega, k3.congr e⟩

/-- What ENQ_TX's body can do, under any schedule: it hands the group over, after a reap or without one, or it leaves the
effects of the reap alone (41_buffer_supply R123, R125). -/
theorem enqTx_cases {fs : List Frag} {hd : Handle} {s t : State} {ok : Bool} (h : enqTx fs hd s = .ok (ok, t)) :
    ok = true ∧ (∃ a, (a = s ∨ reapTx s = .ok ((), a)) ∧ HandedOver a fs hd t) ∨ ok = false ∧ reapTx s = .ok ((), t) := by
  obtain ⟨_, s0, h0, h⟩ := bind_ok h
  obtain ⟨-, e0⟩ := require_ok h0
  rw [e0] at h
  obtain ⟨_, s1, h1, h⟩ := bind_ok h
  cases h1
  obtain ⟨_, s2, h2, h⟩ := bind_ok h
  obtain ⟨-, e2⟩ := require_ok h2
  rw [e2] at h
  split at h
  · obtain ⟨_, a, h3, h⟩ := bind_ok h
    obtain ⟨_, b, h4, h⟩ := bind_ok h
    cases h4
    split at h
    · cases h
      exact .inr ⟨rfl, h3⟩
    · obtain ⟨_, c, h5, h⟩ := bind_ok h
      cases h
      exact .inl ⟨rfl, a, .inr h3, handOverTx_handed h5⟩
  · obtain ⟨_, c, h5, h⟩ := bind_ok h
    cases h
    exact .inl ⟨rfl, s, .inl rfl, handOverTx_handed h5⟩

/-- FILL_RX's loop, turn by turn, under any schedule (41_buffer_supply R117). -/
theorem fillLoop_turns (n : Nat) {s t : State} {u : Unit} (h : fillLoop n s = .ok (u, t)) : FillTurns n s t := by
  induction n generalizing s with
  | zero => cases h; exact .full _
  | succ n ih =>
    obtain ⟨_, _, h0, h⟩ := bind_ok h
    cases h0
    obtain ⟨b, a, h1, h⟩ := bind_ok h
    cases b with
    | none => cases h; exact .noBuffer _ _ _ h1
    | some x =>
      obtain ⟨pa, hd⟩ := x
      obtain ⟨_, b, h2, h⟩ := bind_ok h
      obtain ⟨_, c, h3, h⟩ := bind_ok h
      obtain ⟨w, hw, hi⟩ := handOverRx_pend h3
      exact .turn _ _ _ _ _ _ _ _ w h1 h2 h3 hw hi (ih h)

/-- REAP_TX's loop, turn by turn, under any schedule (42_completion_reaper R137, R138). -/
theorem reapTxLoop_turns (n : Nat) {s t : State} {u : Unit} (h : reapTxLoop n s = .ok (u, t)) : ReapTxTurns n s t := by
  induction n generalizing s with
  | zero => cases h; exact .spent _
  | succ n ih =>
    simp only [reapTxLoop, run_here_bind] at h
    split at h
    · next hp =>
      obtain ⟨b, a, h1, h⟩ := bind_ok h
      cases b with
      | true => cases h; exact .owned _ _ _ hp h1
      | false =>
        obtain ⟨_, b, h2, h⟩ := bind_ok h
        obtain ⟨_, c, h3, h⟩ := bind_ok h
        exact .turn _ _ a b c _ hp h1 h2 (barrier_done h2).1 (barrier_done h2).2 h3 (ih h)
    · next hp =>
      cases h
      exact .empty _ _ (by simpa using hp)

/-- HANDLE_IRQ under any schedule (43_interrupt_dispatch R142 to R145): the read-and-clear, which no event that stands after it
is lost to, then a bus error alone, or transmit, receive and the refill, none of which clears an event. -/
theorem handleIrq_order {s t : State} (h : exec .handleIrq s = .next t) :
    ∃ u a, Gap s u ∧ regReadClear (evAll s.params) s.begun = .ok (u.regs.event &&& evAll s.params, a) ∧
      a = (flush u).setRegs { u.regs with event := clearBits u.regs.event (evAll s.params) } ∧
      (u.regs.event &&& evBerr s.params ≠ 0 →
        t = (a.setSeq { a.seq with mode := .halted }).ended [14, eventWord (u.regs.event &&& evAll s.params)]) ∧
      (u.regs.event &&& evBerr s.params = 0 → ∃ b c d,
        (u.regs.event &&& evTxf s.params ≠ 0 → reapTx a = .ok ((), b)) ∧ (u.regs.event &&& evTxf s.params = 0 → b = a) ∧
        (u.regs.event &&& evRxf s.params ≠ 0 → reapRx b = .ok ((), c) ∧ fillRx c = .ok ((), d)) ∧
        (u.regs.event &&& evRxf s.params = 0 → c = b ∧ d = b) ∧ t = d.ended [0] ∧
        clearBits a.regs.event b.regs.event = 0 ∧ clearBits b.regs.event c.regs.event = 0 ∧
        clearBits c.regs.event d.regs.event = 0) := by
  obtain ⟨ws, x, h1, rfl⟩ := issue_ok h
  obtain ⟨_, _, h0, h1⟩ := bind_ok h1
  cases h0
  obtain ⟨e, a, h2, h3⟩ := bind_ok h1
  have h2' : regReadClear (evAll s.params) s.begun = .ok (e, a) := h2
  obtain ⟨_, u, g, h4⟩ := bind_ok h2
  have e3 : ∀ v : Events, (v &&& evAll s.params) &&& evBerr s.params = v &&& evBerr s.params := evAll_and (.inr (.inr rfl))
  have e1 : ∀ v : Events, (v &&& evAll s.params) &&& evTxf s.params = v &&& evTxf s.params := evAll_and (.inr (.inl rfl))
  have e2 : ∀ v : Events, (v &&& evAll s.params) &&& evRxf s.params = v &&& evRxf s.params := evAll_and (.inl rfl)
  have ee : e = u.regs.event &&& evAll s.params ∧
      a = (flush u).setRegs { u.regs with event := clearBits u.regs.event (evAll s.params) } := by
    cases h4
    exact ⟨rfl, by rw [← clearBits_and]; rfl⟩
  obtain ⟨rfl, ea⟩ := ee
  refine ⟨u, a, g, h2', ea, fun hb => ?_, fun hb => ?_⟩
  · rw [if_pos (by simp [State.begun_params, e3]; exact hb)] at h3
    cases h3
    rfl
  · rw [if_neg (by simp [State.begun_params, e3]; exact hb)] at h3
    obtain ⟨_, b, h5, h6⟩ := bind_ok h3
    obtain ⟨_, d, h7, h8⟩ := bind_ok h6
    cases h8
    have pa : a.params = s.params := by rw [ea]; exact congrArg Private.params (Gap.priv g)
    have sv := served_events
    have kb : clearBits a.regs.event b.regs.event = 0 := (sv _).serveTx _ a _ b (grown_refl a).1 h5
    have pb : b.params = s.params := by
      refine Eq.trans ?_ pa
      exact (stable_params a.params).serveTx _ a _ b rfl h5
    have htx : (u.regs.event &&& evTxf s.params ≠ 0 → reapTx a = .ok ((), b)) ∧
        (u.regs.event &&& evTxf s.params = 0 → b = a) := by
      obtain ⟨_, _, h9, h10⟩ := bind_ok h5
      cases h9
      refine ⟨fun hh => ?_, fun hh => ?_⟩
      · rw [if_pos (by rw [pa, e1]; simpa using hh)] at h10
        exact h10
      · rw [if_neg (by rw [pa, e1]; simpa using hh)] at h10
        cases h10
        rfl
    obtain ⟨_, _, h9, h10⟩ := bind_ok h7
    cases h9
    by_cases hh : u.regs.event &&& evRxf s.params = 0
    · rw [if_neg (by rw [pb, e2]; simpa using hh)] at h10
      cases h10
      exact ⟨x, x, x, htx.1, htx.2, fun h => absurd hh h, fun _ => ⟨rfl, rfl⟩, rfl, kb,
        (grown_refl x).1, (grown_refl x).1⟩
    · rw [if_pos (by rw [pb, e2]; simpa using hh)] at h10
      obtain ⟨_, c, h11, h12⟩ := bind_ok h10
      exact ⟨b, c, x, htx.1, htx.2, fun _ => ⟨h11, h12⟩, fun h => absurd h hh, rfl, kb,
        (sv _).reapRx b _ c (grown_refl b).1 h11, (sv _).fillRx c _ x (grown_refl c).1 h12⟩

end Sys2Proof.Machine
end

