-- ==== Sys2Proof/Laws/Reading.lean ====
section
/-!
SUPPORT. Laws/Reading.lean: what C reads of a slot that is not H's (20_memory R74, 42_completion_reaper R131): neither H nor
the host nor the memory system changes it between two events, and REAP_RX's loop reads the length that memory holds once the
slot is software's.
-/
namespace Sys2Proof.Machine

/-! ### A slot that is not H's is left alone -/

/-- The slot at `x` is software's in memory. -/
def Unowned (p : Private) (m : Memory) (x : Nat) : Prop :=
  hwOwned p.params .rx (BitVec.ofNat 16 (memRead p.params.endian m (fieldAddr p.params.endian x .stat) (fieldWidth .stat))) =
    false

/-- From `m` to `m'` no receive slot that is software's in `m` changed. -/
def Kept (p : Private) (m m' : Memory) : Prop :=
  ∀ i x, p.rx.slotAddr i = some x → Unowned p m x → ∀ k, x ≤ k → k < x + descSize → Memory.read k m' = Memory.read k m

variable {p : Private} {m m' m'' : Memory}

theorem Kept.refl : Kept p m m := fun _ _ _ _ _ _ _ => rfl

theorem Kept.field (h : Kept p m m') {i x : Nat} (hx : p.rx.slotAddr i = some x) (hu : Unowned p m x) (f : Field) :
    memRead p.params.endian m' (fieldAddr p.params.endian x f) (fieldWidth f) =
      memRead p.params.endian m (fieldAddr p.params.endian x f) (fieldWidth f) :=
  memRead_slot_congr f (h i x hx hu)

theorem Kept.unowned (h : Kept p m m') {i x : Nat} (hx : p.rx.slotAddr i = some x) (hu : Unowned p m x) :
    Unowned p m' x := by
  unfold Unowned
  rw [h.field hx hu .stat]
  exact hu

theorem Kept.trans (h : Kept p m m') (h' : Kept p m' m'') : Kept p m m'' := fun i x hx hu k h1 h2 =>
  (h' i x hx (h.unowned hx hu) k h1 h2).trans (h i x hx hu k h1 h2)

/-- Bytes written apart from every receive slot that is software's. -/
theorem Kept.writeBytes {a : Nat} {bs : List Byte} (hm : Memory.wf m = true)
    (h : ∀ i x, p.rx.slotAddr i = some x → Unowned p m x → ∀ k, x ≤ k → k < x + descSize → k < a ∨ a + bs.length ≤ k) :
    Kept p m (Memory.writeBytes a bs m) := fun i x hx hu k h1 h2 =>
  Memory.read_writeBytes_of_outside hm (h i x hx hu k h1 h2)

/-- A buffer that is real lies off every slot of a ring. -/
theorem touches_apart {r : Ring} {a n i x : Nat} (ht : r.touches a n = false) (hx : r.slotAddr i = some x) :
    ∀ k, x ≤ k → k < x + descSize → k < a ∨ a + n ≤ k := by
  obtain ⟨b, hb, hi, rfl⟩ := slotAddr_some.1 hx
  simp only [Ring.touches, Ring.block, hb, overlaps, descSize, Bool.and_eq_false_iff, decide_eq_false_iff_not] at ht ⊢
  omega

theorem bufferReal_rx {s : State} {a n : Nat} (h : bufferReal s a n = true) : s.rx.touches a n = false := by
  simp only [bufferReal, Bool.and_eq_true, Bool.not_eq_true'] at h
  exact h.1.2

/-- What happened between two events where no write was pending: C's registers are as they were, nothing is pending, no
receive slot of software changed, and a read ahead saw a memory on the way. -/
structure Passed (s t : State) : Prop where
  priv  : t.priv = s.priv
  mem   : MemOk t
  pend  : t.pend = []
  kept  : Kept s.priv s.mem t.mem
  early : ∀ e ∈ t.early, e ∈ s.early ∨
    ∃ m, e.bytes = Memory.readBytes e.addr e.bytes.length m ∧ Kept s.priv s.mem m ∧ Kept s.priv m t.mem

theorem Passed.refl {s : State} (hm : MemOk s) (hp : s.pend = []) : Passed s s :=
  ⟨rfl, hm, hp, .refl, fun _ h => .inl h⟩

theorem Passed.trans {s t u : State} (h : Passed s t) (h' : Passed t u) : Passed s u := by
  refine ⟨h'.priv.trans h.priv, h'.mem, h'.pend, h.kept.trans (h.priv ▸ h'.kept), fun e he => ?_⟩
  rcases h'.early e he with he | ⟨m, h1, h2, h3⟩
  · rcases h.early e he with he | ⟨m, h1, h2, h3⟩
    · exact .inl he
    · exact .inr ⟨m, h1, h2, h3.trans (h.priv ▸ h'.kept)⟩
  · rw [h.priv] at h2 h3
    exact .inr ⟨m, h1, h.kept.trans h2, h3⟩

/-- A step that reads nothing ahead. -/
theorem Passed.of {s t : State} (hpriv : t.priv = s.priv) (hm : MemOk t) (hp : t.pend = []) (he : t.early = s.early)
    (hk : Kept s.priv s.mem t.mem) : Passed s t := ⟨hpriv, hm, hp, hk, fun _ h => .inl (he ▸ h)⟩

/-- The states in which no write is pending and whose rings are sound. -/
structure Idling (s : State) : Prop where
  rings : RingsSound s.priv
  mem   : MemOk s
  pend  : s.pend = []

theorem Idling.passed {s t : State} (h : Idling s) (h' : Passed s t) : Idling t :=
  ⟨h'.priv ▸ h.rings, h'.mem, h'.pend⟩

/-- `x` does nothing else from such a state. -/
def Passes {α : Type} (x : Op α) : Prop := ∀ s a t, Idling s → x s = .ok (a, t) → Passed s t

namespace Passes

variable {α β : Type} {x : Op α} {f : α → Op β}

theorem bind (hx : Passes x) (hf : ∀ a, Passes (f a)) : Passes (x >>= f) := by
  intro s b u hs h
  obtain ⟨a, t, h1, h2⟩ := bind_ok h
  have := hx s a t hs h1
  exact this.trans (hf a t b u (hs.passed this) h2)

theorem pure {a : α} : Passes (Pure.pure a : Op α) := by
  rintro s b t hs ⟨⟩
  exact .refl hs.mem hs.pend

theorem here : Passes here := by
  rintro s b t hs ⟨⟩
  exact .refl hs.mem hs.pend

theorem sound {c : Bool} {r : Fault} : Passes (sound c r) := by
  intro s u t hs h
  obtain ⟨-, rfl⟩ := sound_ok h
  exact .refl hs.mem hs.pend

theorem spoil {r : Fault} : Passes (Machine.spoil r : Op α) := by intro s a t _ h; cases h

theorem ite {c : Prop} [Decidable c] {x y : Op α} (hx : Passes x) (hy : Passes y) : Passes (if c then x else y) := by
  split <;> assumption

/-- An update that leaves memory and C alone. -/
theorem upd {g : State → State} (h : ∀ s, (g s).priv = s.priv ∧ (g s).mem = s.mem ∧ (g s).pend = s.pend ∧
    (g s).early = s.early) : Passes (Machine.upd g) := by
  rintro s b t hs ⟨⟩
  obtain ⟨h1, h2, h3, h4⟩ := h s
  refine .of h1 ?_ (h3.trans hs.pend) h4 (by rw [h2]; exact .refl)
  show Memory.wf (g s).mem = true
  rw [h2]
  exact hs.mem

/-! ### The steps of H -/

theorem setSample (d : Dir) (w : Option Half) : Passes (setSample d w) := by
  cases d <;> exact upd fun _ => ⟨rfl, rfl, rfl, rfl⟩

theorem hAdvance (d : Dir) (w : Half) : Passes (hAdvance d w) := by
  cases d <;> exact upd fun _ => ⟨rfl, rfl, rfl, rfl⟩

theorem hEvent (bit : Params → Events) : Passes (hEvent bit) := upd fun _ => ⟨rfl, rfl, rfl, rfl⟩

theorem hRead (a : Nat) (f : Field) : Passes (hRead a f) := bind here fun _ => pure

theorem hSlot (d : Dir) : Passes (hSlot d) := by
  refine bind here fun s => ?_
  cases hwSlot s d
  · exact spoil
  · exact pure

theorem sampleStep (d : Dir) : Passes (sampleStep d) :=
  bind (hSlot d) fun _ => bind (hRead _ .stat) fun _ => setSample d _

theorem stallStep (d : Dir) : Passes (stallStep d) := by
  cases d <;> exact bind (upd fun _ => ⟨rfl, rfl, rfl, rfl⟩) fun _ => setSample _ _

end Passes

/-- The slot H works on lies in its ring. -/
theorem hSlot_ok {d : Dir} {s t : State} {a : Nat} (h : hSlot d s = .ok (a, t)) :
    t = s ∧ (s.ring d).slotAddr (hwIdx s d) = some a := by
  simp only [hSlot, run_here_bind] at h
  cases hw : hwSlot s d with
  | none => rw [hw] at h; cases h
  | some b =>
    rw [hw] at h
    cases h
    refine ⟨rfl, ?_⟩
    unfold hwSlot at hw
    simp only at hw
    split at hw
    · exact hw
    · cases hw

theorem hOwns_ok {d : Dir} {s t : State} {a : Nat} {u : Unit} (h : hOwns d a s = .ok (u, t)) :
    t = s ∧ hwOwned s.params d (BitVec.ofNat 16 (memRead s.params.endian s.mem (fieldAddr s.params.endian a .stat)
      (fieldWidth .stat))) = true := by
  obtain ⟨hc, rfl⟩ := sound_ok h
  exact ⟨rfl, hc⟩

theorem hRead_ok {a : Nat} {f : Field} {s t : State} {v : Nat} (h : hRead a f s = .ok (v, t)) : t = s := by
  cases h; rfl

/-- Two slots of which H owns one and software the other are apart. -/
theorem owned_apart {s : State} {i j x y : Nat} (hy : s.rx.slotAddr j = some y)
    (ho : hwOwned s.params .rx (BitVec.ofNat 16 (memRead s.params.endian s.mem (fieldAddr s.params.endian y .stat)
      (fieldWidth .stat))) = true) (hx : s.rx.slotAddr i = some x) (hu : Unowned s.priv s.mem x) :
    x + descSize ≤ y ∨ y + descSize ≤ x := by
  refine slots_apart hx hy fun h => ?_
  subst h
  rw [hx] at hy
  cases hy
  have : hwOwned s.params .rx (BitVec.ofNat 16 (memRead s.params.endian s.mem (fieldAddr s.params.endian x .stat)
    (fieldWidth .stat))) = false := hu
  rw [ho] at this
  cases this

/-- What a piece of H's work that writes no memory leaves. -/
structure Bytesless (s t : State) : Prop where
  params : t.params = s.params
  mem    : t.mem = s.mem
  pend   : t.pend = s.pend
  early  : t.early = s.early

theorem drawFrame_bytesless {n k : Nat} {s t : State} {d : List Byte} (h : drawFrame n k s = .ok (d, t)) :
    Bytesless s t ∧ t.rx = s.rx ∧ t.tx = s.tx := by
  cases h
  exact ⟨⟨rfl, rfl, rfl, rfl⟩, rfl, rfl⟩

theorem hAdvance_bytesless {d : Dir} {w : Half} {s t : State} {u : Unit} (h : hAdvance d w s = .ok (u, t)) :
    Bytesless s t := by
  cases d <;> cases h <;> exact ⟨rfl, rfl, rfl, rfl⟩

theorem hEvent_bytesless {bit : Params → Events} {s t : State} {u : Unit} (h : hEvent bit s = .ok (u, t)) :
    Bytesless s t := by
  cases h
  exact ⟨rfl, rfl, rfl, rfl⟩

theorem hWrite_ok {a v : Nat} {f : Field} {s t : State} {u : Unit} (h : hWrite a f v s = .ok (u, t)) :
    t.mem = memWrite s.params.endian s.mem (fieldAddr s.params.endian a f) (fieldWidth f) v ∧ t.params = s.params ∧
      t.pend = s.pend ∧ t.early = s.early := by
  cases h
  exact ⟨rfl, rfl, rfl, rfl⟩

/-- A field of a slot that is H's is written. -/
theorem Kept.hWrite {s : State} {m : Memory} {j y : Nat} (hy : s.rx.slotAddr j = some y)
    (ho : hwOwned s.params .rx (BitVec.ofNat 16 (memRead s.params.endian s.mem (fieldAddr s.params.endian y .stat)
      (fieldWidth .stat))) = true) (hm : Memory.wf m = true) (hk : Kept s.priv s.mem m) (f : Field) (v : Nat) :
    Kept s.priv s.mem (memWrite s.params.endian m (fieldAddr s.params.endian y f) (fieldWidth f) v) := by
  intro i x hx hu k h1 h2
  have ha := owned_apart (s := s) hy ho hx hu
  have hf := fieldOff_le s.params.endian f
  refine (read_memWrite_outside hm ?_).trans (hk i x hx hu k h1 h2)
  simp only [fieldAddr]
  omega

theorem rxDoneStep_passes (l f : Half) : Passes (rxDoneStep l f) := by
  intro s u t hs h
  have hpriv : t.priv = s.priv := owned_priv (rxDoneStep_owned l f) s u t h
  have hm : MemOk t := gapped_memOk.rxDoneStep l f s u t hs.mem h
  obtain ⟨_, _, h0, h⟩ := bind_ok h
  cases h0
  cases hw : s.hw.rxSample with
  | none => rw [hw] at h; cases h; exact .refl hs.mem hs.pend
  | some w =>
    rw [hw] at h
    obtain ⟨y, s1, h1, h⟩ := bind_ok h
    obtain ⟨e1, hy⟩ := hSlot_ok h1
    obtain ⟨_, s2, h2, h⟩ := bind_ok h
    obtain ⟨e2, ho⟩ := hOwns_ok h2
    obtain ⟨b, s3, h3, h⟩ := bind_ok h
    have e3 : s3 = s := (hRead_ok h3).trans (e2.trans e1)
    rw [e1] at ho
    obtain ⟨data, s4, h4, h⟩ := bind_ok h
    rw [e3] at h4
    obtain ⟨b4, r4, x4⟩ := drawFrame_bytesless h4
    obtain ⟨_, s5, h5, h⟩ := bind_ok h
    obtain ⟨hb, e5⟩ := sound_ok h5
    obtain ⟨_, s6, h6, h⟩ := bind_ok h
    have m6 : s6.mem = Memory.writeBytes b (blur (s.shared s.hw.rxIdx) s.env.draws b data) s.mem ∧ s6.params = s.params ∧ s6.pend = s.pend ∧ s6.early = s.early := by
      cases h6
      rw [e5]
      exact ⟨congrArg (Memory.writeBytes b _) b4.mem, b4.params, b4.pend, b4.early⟩
    obtain ⟨_, s7, h7, h⟩ := bind_ok h
    have m7 := hWrite_ok h7
    obtain ⟨_, s8, h8, h⟩ := bind_ok h
    have m8 := hWrite_ok h8
    obtain ⟨_, s9, h9, h⟩ := bind_ok h
    have m9 := hAdvance_bytesless h9
    have m10 := hEvent_bytesless h
    rw [m6.1, m6.2.1] at m7
    rw [m7.1, m7.2.1] at m8
    have w1 := Memory.wf_writeBytes b (blur (s.shared s.hw.rxIdx) s.env.draws b data) hs.mem
    refine .of hpriv hm ?_ ?_ ?_
    · rw [m10.pend, m9.pend, m8.2.2.1, m7.2.2.1, m6.2.2.1, hs.pend]
    · rw [m10.early, m9.early, m8.2.2.2, m7.2.2.2, m6.2.2.2]
    · rw [m10.mem, m9.mem, m8.1]
      exact Kept.hWrite hy ho (wf_memWrite _ _ _ _ w1) (Kept.hWrite hy ho w1
        (Kept.writeBytes hs.mem fun i x hx _ => by
          rw [blur_length]; exact touches_apart (bufferReal_rx hb) hx) .len _) .stat _

theorem txDoneStep_passes : Passes txDoneStep := by
  intro s u t hs h
  have hpriv : t.priv = s.priv := owned_priv txDoneStep_owned s u t h
  have hm : MemOk t := gapped_memOk.txDoneStep s u t hs.mem h
  obtain ⟨_, _, h0, h⟩ := bind_ok h
  cases h0
  cases hw : s.hw.txSample with
  | none => rw [hw] at h; cases h; exact .refl hs.mem hs.pend
  | some w =>
    rw [hw] at h
    obtain ⟨y, s1, h1, h⟩ := bind_ok h
    obtain ⟨e1, hy⟩ := hSlot_ok h1
    obtain ⟨_, s2, h2, h⟩ := bind_ok h
    obtain ⟨e2, -⟩ := hOwns_ok h2
    obtain ⟨b, s3, h3, h⟩ := bind_ok h
    obtain ⟨n, s4, h4, h⟩ := bind_ok h
    obtain ⟨_, s5, h5, h⟩ := bind_ok h
    have e5 : s5 = s := (sound_ok h5).2.trans ((hRead_ok h4).trans ((hRead_ok h3).trans (e2.trans e1)))
    obtain ⟨_, s6, h6, h⟩ := bind_ok h
    have m6 := hWrite_ok h6
    rw [e5] at m6
    obtain ⟨_, s7, h7, h⟩ := bind_ok h
    have m7 := hAdvance_bytesless h7
    have m8 : Bytesless s7 t := by
      split at h
      · exact hEvent_bytesless h
      · cases h; exact ⟨rfl, rfl, rfl, rfl⟩
    refine .of hpriv hm ?_ ?_ ?_
    · rw [m8.pend, m7.pend, m6.2.2.1, hs.pend]
    · rw [m8.early, m7.early, m6.2.2.2]
    rw [m8.mem, m7.mem, m6.1]
    intro i x hx hu k h1 h2
    refine read_memWrite_outside hs.mem ?_
    obtain ⟨c, hc, hi, rfl⟩ := slotAddr_some.1 hx
    obtain ⟨c', hc', hi', rfl⟩ := slotAddr_some.1 hy
    have hap := hs.rings.apart c.toNat c'.toNat (descSize * s.priv.rx.cap) (descSize * s.priv.tx.cap)
      (by simp only [Ring.block, hc]) (by
        have : s.priv.tx.base = some c' := hc'
        simp only [Ring.block, this])
    have hi'' : hwIdx s .tx < s.priv.tx.cap := hi'
    have hf := fieldOff_le s.params.endian .stat
    simp only [overlaps, Bool.and_eq_false_iff, decide_eq_false_iff_not] at hap
    simp only [fieldAddr, descSize] at *
    omega

/-! ### The host and the memory system -/

theorem hostAct_passes (a : HostAct) : Passes (hostAct a) := by
  intro s u t hs h
  cases a with
  | register => cases h
  | write a bs =>
    obtain ⟨_, _, h0, h⟩ := bind_ok h
    cases h0
    obtain ⟨_, s1, h1, h2⟩ := bind_ok h
    obtain ⟨hb, rfl⟩ := sound_ok h1
    cases h2
    refine .of rfl (Memory.wf_writeBytes _ _ hs.mem) hs.pend rfl ?_
    have hbuf := bufferReal_rx hb
    exact Kept.writeBytes hs.mem fun i x hx _ => by rw [blur_length]; exact touches_apart hbuf hx

theorem takeIf_passes (c : State → Bool) {x : Op Unit} (h : Passes x) : Passes (takeIf c x) :=
  Passes.bind Passes.here fun _ => Passes.ite h Passes.pure

theorem envStep_passes (e : EnvStep) : Passes (envStep e) := by
  cases e with
  | rxSample => exact takeIf_passes _ (Passes.sampleStep _)
  | rxDone l f => exact takeIf_passes _ (rxDoneStep_passes l f)
  | rxStall => exact takeIf_passes _ (Passes.stallStep _)
  | txSample => exact takeIf_passes _ (Passes.sampleStep _)
  | txDone => exact takeIf_passes _ txDoneStep_passes
  | txStall => exact takeIf_passes _ (Passes.stallStep _)
  | busError => exact takeIf_passes _ (Passes.hEvent _)
  | perform k =>
    rintro s u t hs ⟨⟩
    have e : performNth k s = s := by simp [performNth, hs.pend]
    rw [e]
    exact .refl hs.mem hs.pend
  | prefetch a n =>
    rintro s u t hs ⟨⟩
    unfold prefetchAt
    split
    · exact .refl hs.mem hs.pend
    · refine ⟨rfl, hs.mem, hs.pend, .refl, fun e he => ?_⟩
      rcases List.mem_cons.1 he with rfl | he
      · exact .inr ⟨s.mem, by simp, .refl, .refl⟩
      · exact .inl he
  | host a => exact hostAct_passes a
  | otherEvents m => exact Passes.hEvent fun p => otherEvents p m

theorem tick_passes : Passes tick := by
  have hes : ∀ es, Passes (envSteps es) := fun es => by
    induction es with
    | nil => exact Passes.pure
    | cons e es ih => exact Passes.bind (envStep_passes e) fun _ => ih
  refine Passes.bind Passes.here fun s => ?_
  cases s.env.sched with
  | nil => exact Passes.pure
  | cons es rest => exact Passes.bind (Passes.upd fun _ => ⟨rfl, rfl, rfl, rfl⟩) fun _ => hes es

/-! ### Reads of C -/

/-- A slot whose status word was read ahead as software's is software's in memory. -/
def Coherent (s : State) : Prop :=
  ∀ i x, s.rx.slotAddr i = some x → ∀ e ∈ s.early, e.addr = fieldAddr s.params.endian x .stat →
    e.bytes.length = fieldWidth .stat →
    hwOwned s.params .rx (BitVec.ofNat 16 (ofBytes s.params.endian e.bytes)) = false → Unowned s.priv s.mem x

theorem Coherent.passed {s t : State} (h : Coherent s) (h' : Passed s t) : Coherent t := by
  intro i x hx e he ha hl ho
  have hp : t.params = s.params := congrArg Private.params h'.priv
  have hr : t.rx = s.rx := congrArg Private.rx h'.priv
  rw [hr] at hx
  rw [hp] at ha ho
  rw [h'.priv]
  rcases h'.early e he with he | ⟨m, h1, h2, h3⟩
  · exact h'.kept.unowned hx (h i x hx e he ha hl ho)
  · refine h3.unowned hx ?_
    rw [h1, ha, hl] at ho
    exact ho

/-- Taking slots back moves no slot. -/
theorem Coherent.take {s : State} (h : Coherent s) {n : Nat} : Coherent (s.setRx (s.rx.take n)) := h

/-- Where nothing was read ahead nothing disagrees. -/
theorem coherent_of_empty {s : State} (h : s.early = []) : Coherent s := by
  intro i x _ e he
  rw [h] at he
  cases he

/-- A descriptor read where nothing is pending: after what happens before it, the bytes come from an earlier read ahead of
exactly these bytes or from memory. -/
theorem descRead_passed {d : Dir} {i : Nat} {f : Field} {s t : State} {v : Nat} (hs : Idling s)
    (h : descRead d i f s = .ok (v, t)) :
    ∃ s1 x bs, Passed s s1 ∧ (s.ring d).slotAddr i = some x ∧ v = ofBytes s.params.endian bs ∧
      ((∃ e ∈ s1.early, e.addr = fieldAddr s.params.endian x f ∧ e.bytes.length = fieldWidth f ∧ bs = e.bytes) ∨
        bs = Memory.readBytes (fieldAddr s.params.endian x f) (fieldWidth f) s1.mem) ∧
      t.priv = s.priv ∧ t.mem = s1.mem ∧ t.pend = [] ∧ ∀ e ∈ t.early, e ∈ s1.early := by
  obtain ⟨_, s1, h1, h⟩ := bind_ok h
  have hps := tick_passes s _ s1 hs h1
  obtain ⟨_, _, h0, h⟩ := bind_ok h
  cases h0
  obtain ⟨a, s2, h2, h⟩ := bind_ok h
  have hp : s1.params = s.params := congrArg Private.params hps.priv
  have hr : s1.ring d = s.ring d := by
    cases d
    · exact congrArg Private.rx hps.priv
    · exact congrArg Private.tx hps.priv
  simp only [descField, run_here_bind, descAddr, hr, hp] at h2
  cases hx : (s.ring d).slotAddr i with
  | none => rw [hx] at h2; cases h2
  | some x =>
    rw [hx] at h2
    cases h2
    obtain ⟨bs, s3, h3, h⟩ := bind_ok h
    cases h
    obtain ⟨_, _, h4, h3⟩ := bind_ok h3
    cases h4
    cases h3
    have e1 : flushTouching (fieldAddr s.params.endian x f) (fieldWidth f) s1 = s1.setPend [] := by
      unfold flushTouching
      rw [hps.pend]
      rfl
    rw [e1]
    refine ⟨s1, x, _, hps, rfl, by rw [hp], ?_, hps.priv, rfl, rfl, fun e he => List.mem_of_mem_filter he⟩
    simp only [readValue]
    split
    · next e he =>
      have h5 := List.find?_some he
      simp only [Bool.and_eq_true, decide_eq_true_eq] at h5
      exact .inl ⟨e, List.mem_of_find?_eq_some he, h5.1, h5.2, rfl⟩
    · exact .inr rfl

/-- A status word read as software's, where reads ahead agree with memory: the slot is software's in memory. -/
theorem descRead_unowned {i x w : Nat} {s t : State} (hs : Idling s) (hc : Coherent s)
    (hx : s.rx.slotAddr i = some x) (h : descRead .rx i .stat s = .ok (w, t))
    (ho : hwOwned s.params .rx (BitVec.ofNat 16 w) = false) : Unowned s.priv t.mem x := by
  obtain ⟨s1, y, bs, hps, hy, rfl, hb, -, hm, -, -⟩ := descRead_passed hs h
  have hy : s.rx.slotAddr i = some y := hy
  rw [hx] at hy
  cases hy
  have hp : s1.params = s.params := congrArg Private.params hps.priv
  have hr : s1.rx = s.rx := congrArg Private.rx hps.priv
  rw [hm]
  rcases hb with ⟨e, he, h1, h2, rfl⟩ | rfl
  · have := hc.passed hps i x (by rw [hr]; exact hx) e he (by rw [hp]; exact h1) h2 (by rw [hp]; exact ho)
    rwa [hps.priv] at this
  · exact ho

/-- A field of a slot that is software's, read where nothing was read ahead: what memory holds. -/
theorem descRead_kept {i x v : Nat} {f : Field} {s t : State} (hs : Idling s) (he : s.early = [])
    (hx : s.rx.slotAddr i = some x) (hu : Unowned s.priv s.mem x) (h : descRead .rx i f s = .ok (v, t)) :
    s.field .rx i f = some v := by
  obtain ⟨s1, y, bs, hps, hy, rfl, hb, -⟩ := descRead_passed hs h
  have hy : s.rx.slotAddr i = some y := hy
  rw [hx] at hy
  cases hy
  have hset : s.settled = s.mem := by
    unfold State.settled
    rw [hs.pend]
    rfl
  rw [field_of_slot (d := .rx) hx, hset]
  refine congrArg some ?_
  rcases hb with ⟨e, hmem, h1, h2, rfl⟩ | rfl
  · rcases hps.early e hmem with h3 | ⟨m, h3, h4, -⟩
    · rw [he] at h3
      cases h3
    · rw [h3, h1, h2]
      exact (h4.field hx hu f).symm
  · exact (hps.kept.field hx hu f).symm

/-! ### REAP_RX's loop (42_completion_reaper R130, R131) -/

/-- Where a turn of the loop may start and be sure of what it reads. -/
structure TurnStart (s : State) : Prop where
  ready : RxReady s
  idle  : Idling s
  early : Coherent s

theorem reapRxLoop_turns {P : Prop} (n : Nat) {s t : State} {u : Unit} (hs : P → TurnStart s)
    (h : reapRxLoop n s = .ok (u, t)) : ReapTurns P n s t := by
  induction n generalizing s with
  | zero => cases h; exact .spent _
  | succ n ih =>
    obtain ⟨_, _, h0, h⟩ := bind_ok h
    cases h0
    cases hpd : s.rx.pending with
    | false => rw [hpd] at h; cases h; exact .empty _ _ hpd
    | true =>
      rw [hpd] at h
      simp only [if_true] at h
      obtain ⟨w, a, h1, h⟩ := bind_ok h
      obtain ⟨_, b, h2, h⟩ := bind_ok h
      obtain ⟨hb1, hb2⟩ := barrier_done h2
      have hab : a.priv = s.priv := owned_priv (descRead_owned _ _ _) s _ a h1
      have hbs : b.priv = s.priv := (owned_priv barrier_owned a _ b h2).trans hab
      have hrx : b.rx = s.rx := congrArg Private.rx hbs
      have hpar : b.params = s.params := congrArg Private.params hbs
      cases ho : hwOwned s.params .rx (BitVec.ofNat 16 w) with
      | true => rw [ho] at h; cases h; exact .owned _ _ _ _ w hpd h1 h2 hb1 hb2 ho
      | false =>
        rw [ho] at h
        simp only [Bool.false_eq_true, if_false] at h
        obtain ⟨l, c, h3, h⟩ := bind_ok h
        obtain ⟨_, d, h4, h⟩ := bind_ok h
        have hcs : c.priv = s.priv := (owned_priv (descRead_owned _ _ _) b _ c h3).trans hbs
        have hcrx : c.rx = s.rx := congrArg Private.rx hcs
        have known : P → (∃ x, s.rx.slotAddr s.rx.head = some x ∧ Unowned s.priv b.mem x) ∧ Idling b := by
          intro hp
          have h5 := hs hp
          obtain ⟨x, hx⟩ := h5.ready.1.rx.slot h5.ready.2 (h5.ready.1.rx.head h5.ready.2)
          have hx : s.rx.slotAddr s.rx.head = some x := hx
          have hu := descRead_unowned h5.idle h5.early hx h1 ho
          obtain ⟨s1, -, -, hps, -, -, -, hap, ham, hape, -⟩ := descRead_passed h5.idle h1
          have hia : Idling a := ⟨hap ▸ h5.idle.rings, by show Memory.wf a.mem = true; rw [ham]; exact hps.mem, hape⟩
          obtain ⟨_, a1, h6, h7⟩ := bind_ok h2
          cases h7
          have hps2 := tick_passes a _ a1 hia h6
          have hfl : (flush a1).mem = a1.mem := by
            show a1.settled = a1.mem
            unfold State.settled
            rw [hps2.pend]
            rfl
          refine ⟨⟨x, hx, ?_⟩, ⟨?_, ?_, rfl⟩⟩
          · rw [hfl]
            have := hps2.kept.unowned (p := a.priv) (i := s.rx.head) (x := x) (by rw [hap]; exact hx) (by rw [hap]; exact hu)
            rwa [hap] at this
          · show RingsSound a1.priv
            rw [hps2.priv, hap]
            exact h5.idle.rings
          · show Memory.wf (flush a1).mem = true
            rw [hfl]
            exact hps2.mem
        refine .turn _ _ a b c d _ w l hpd h1 h2 hb1 hb2 ho h3 ?_ h4 (ih (fun hp => ?_) h)
        · intro hp
          obtain ⟨⟨x, hx, hu⟩, hib⟩ := known hp
          have hf := descRead_kept (i := s.rx.head) (x := x) hib hb2 (by rw [hrx]; exact hx) (by rw [hbs]; exact hu) h3
          refine ⟨?_, hf⟩
          have hset : b.settled = b.mem := by
            unfold State.settled
            rw [hb1]
            rfl
          unfold State.slotOwned
          rw [field_of_slot (d := .rx) (x := x) (by show b.rx.slotAddr _ = _; rw [hrx]; exact hx), hset, hpar]
          exact hu
        · obtain ⟨-, hib⟩ := known hp
          obtain ⟨b1, -, -, hps, -, -, -, hcp, hcm, hcpe, hce⟩ := descRead_passed hib h3
          have hst := hs hp
          have hcr : RxReady c := rxReady_iff.2 (hcs ▸ rxReady_iff.1 hst.ready)
          have hi1 : Idling c := ⟨hcr.1, by show Memory.wf c.mem = true; rw [hcm]; exact hps.mem, hcpe⟩
          have hco : Coherent c := by
            have hcb := (coherent_of_empty hb2).passed hps
            have e1 : c.priv = b1.priv := hcp.trans hps.priv.symm
            have e2 : c.rx = b1.rx := congrArg Private.rx e1
            have e3 : c.params = b1.params := congrArg Private.params e1
            intro i x hx e he ha hl hown
            have := hcb i x (by rw [← e2]; exact hx) e (hce e he) (by rw [← e3]; exact ha) hl (by rw [← e3]; exact hown)
            rwa [e1, hcm]
          obtain ⟨_, d1, h6, h7⟩ := bind_ok h4
          rw [run_upd_bind] at h7
          cases h7
          have hps3 := tick_passes _ _ d1 hi1 h6
          have hd1 : d1.rx = c.rx := congrArg Private.rx hps3.priv
          have hrd : RxReady d1 := rxReady_iff.2 (hps3.priv ▸ rxReady_iff.1 hcr)
          have hid := hi1.passed hps3
          have hrt := hrd.take (by rw [hd1, hcrx]; exact hpd)
          exact ⟨rxReady_iff.2 (rxReady_iff.1 hrt), ⟨hrt.1, hid.mem, hid.pend⟩, (hco.passed hps3).take⟩

end Sys2Proof.Machine
end

