-- ==== Sys2Proof/Laws/Step.lean ====
section
/-!
SUPPORT. Laws/Step.lean: everything a step can do, said once: where it ends in a next state the machine is not Dead, and that
state is the old one, or what an act of the host or an operation made of the state, the input that named it used up.
-/
namespace Sys2Proof.Machine

@[simp] theorem unlessDead_of_ne {s : State} (h : s.seq.mode ≠ .dead) (o : Host.Outcome State Fault Refusal) :
    unlessDead s o = o := if_neg h

/-- Nothing goes on from a Dead machine. -/
theorem unlessDead_next {s t : State} {o : Host.Outcome State Fault Refusal} (h : unlessDead s o = .next t) :
    s.seq.mode ≠ .dead ∧ o = .next t := by
  unfold unlessDead at h
  split at h
  · split at h <;> cases h
  · next hm => exact ⟨hm, h⟩

/-- A Dead machine's only fault. -/
theorem unlessDead_fault {s : State} {o : Host.Outcome State Fault Refusal} {f : Fault} (hm : s.seq.mode = .dead)
    (h : unlessDead s o = .fault f) : f = .coreInitFailed := by
  unfold unlessDead at h
  rw [if_pos hm] at h
  split at h <;> cases h
  rfl

/-- What is performed next leaves the inputs as they are or uses one up. -/
theorem fetch_operation {s u : State} {r : Except Refusal Instr} (h : fetch s = .operation r u) : u = s ∨ u = s.popInput := by
  unfold fetch at h
  split at h <;> cases h
  · exact .inr rfl
  · exact .inl rfl
  · exact .inr rfl

theorem fetch_host {s u : State} {a : HostAct} (h : fetch s = .host a u) : u = s.popInput := by
  unfold fetch at h
  split at h <;> cases h
  rfl

/-- Everything a step that ends in a next state can do. -/
theorem step_next {s t : State} (h : step s = .next t) :
    s.seq.mode ≠ .dead ∧ (t = s ∨ (∃ a, fetch s = .host a s.popInput ∧ hostAct a s.popInput = .ok ((), t)) ∨
      ∃ i u, fetch s = .operation (.ok i) u ∧ (u = s ∨ u = s.popInput) ∧ exec i u = .next t) := by
  obtain ⟨hm, h⟩ := unlessDead_next h
  refine ⟨hm, ?_⟩
  split at h
  · cases h
    exact .inl rfl
  · next a u hf =>
    obtain rfl := fetch_host hf
    obtain ⟨_, h⟩ := outcome_next.1 h
    exact .inr (.inl ⟨a, hf, h⟩)
  · next i u hf => exact .inr (.inr ⟨i, u, hf, fetch_operation hf, h⟩)
  · cases h

/-- An act of the host keeps a sound state sound. -/
theorem hostAct_inv {a : HostAct} {s t : State} {u : Unit} (hs : Inv s) (h : hostAct a s = .ok (u, t)) : Inv t := by
  have hp : t.priv = s.priv := owned_priv (hostAct_owned a) s u t h
  have hw : t.params.wf = true := by
    rw [show t.params = s.params from congrArg Private.params hp]
    exact hs.priv.rings.params
  exact ⟨hp ▸ hs.priv, gapped_memOk.hostAct a s u t hs.mem h, stable_maskOk.gap.hostAct a s u t hs.mask h,
    gapped_eventOk.hostAct a s u t (fun _ => hs.event) h hw, (stable_handing 0).gap.hostAct a s u t hs.handing h⟩

end Sys2Proof.Machine
end

