-- ==== Sys2Proof/Tests/Slice0.lean ====
section
/-!
SUPPORT. Tests/Slice0.lean: checks of the model on fixed values. Words are written out from the tables of 30_encoding
R101 to R105, expected results by hand from the rules named beside them; the last part shows, for each obligation with
hypotheses, a state and operands that meet them.
-/
namespace Sys2Proof.Machine.Tests
-- One theorem at a time: many kernel evaluations waiting side by side take a thread, and its stack, each.
set_option Elab.async false

/-! ### Well-formedness: what the check refuses (41_buffer_supply R124, 30_encoding R106) -/

theorem test_wf_no_fragment : (Instr.enqTx [] 7).wf = false := by decide
theorem test_wf_no_fragment_transmit : (Instr.transmit [] 7).wf = false := by decide
theorem test_wf_empty_fragment : (Instr.enqTx [⟨0x30000000, 64⟩, ⟨0x30001000, 0⟩] 7).wf = false := by decide
theorem test_wf_good : (Instr.transmit [⟨0x30000000, 64⟩, ⟨0x30001000, 65535⟩] 7).wf = true := by decide

/-! ### Decoding: every constructor's word (30_encoding R103 to R105) -/

theorem test_decode_rings :
    decode [0x10000000, 0x00000040, 0x00000010] = .ok (.ringInit 64 16) ∧ decode [0x11000000] = .ok .ringTeardown ∧
    decode [0x20000000] = .ok .fillRx ∧
    decode [0x21000001, 0x30000000, 0x00000040, 0x00000001] = .ok (.enqTx [⟨0x30000000, 64⟩] 1) ∧
    decode [0x30000000] = .ok .reapRx ∧ decode [0x31000000] = .ok .reapTx ∧ decode [0x40000000] = .ok .handleIrq ∧
    decode [0x41000000] = .ok .poll := by decide

/-- CFG word 0 is `{remote[31], 0, index[23:16], 0, promisc[9:8], phy_addr[7:0]}` (R101). -/
theorem test_decode_init :
    decode [0x50000000, 0x8003021F, 0x02000000, 0x00010000] =
      .ok (.init ⟨31, .on, 3, ⟨2, 0, 0, 0, 0, 1⟩, true⟩) ∧
    decode [0x50000000, 0x00000100, 0, 0] = .ok (.init ⟨0, .off, 0, Mac.zero, false⟩) ∧
    decode [0x50000000, 0, 0, 0] = .ok (.init PlatformCfg.zero) := by decide

theorem test_decode_bringup :
    decode [0x51000000] = .ok .bu1 ∧ decode [0x52000000] = .ok .bu2 ∧ decode [0x53000000] = .ok .bu3 ∧
    decode [0x54000000] = .ok .bu4 ∧ decode [0x55000000] = .ok .bu5 ∧ decode [0x56000000] = .ok .bu6 ∧
    decode [0x57000000] = .ok .bu7 ∧ decode [0x58000000] = .ok .bu8 ∧ decode [0x59000000] = .ok .bu9 ∧
    decode [0x5A000000] = .ok .bu10 := by decide

theorem test_decode_registers :
    decode [0x60000000] = .ok .rxEnable ∧ decode [0x61000000] = .ok .rxDisable ∧ decode [0x62000000] = .ok .txEnable ∧
    decode [0x63000000] = .ok .txDisable ∧ decode [0x64000000] = .ok .rxEnabled ∧ decode [0x65000000] = .ok .txEnabled ∧
    decode [0x66000000] = .ok .evRead ∧ decode [0x67000000, 0x02000000] = .ok (.evClear 0x02000000) ∧
    decode [0x68000000] = .ok .evReadClear ∧ decode [0x69000000, 0x0A400000] = .ok (.evSetMask 0x0A400000) := by decide

/-- `{speed[23:8], 0, duplex[0]}`, `{0, phy[12:8], 0, reg[4:0]}` (R104). -/
theorem test_decode_link :
    decode [0x6B006400] = .ok (.setSpeedDuplex 100 .half) ∧ decode [0x6B03E801] = .ok (.setSpeedDuplex 1000 .full) ∧
    decode [0x6C000000] = .ok .promiscSet ∧ decode [0x6D000000] = .ok .promiscClear ∧
    decode [0x6E001F1E] = .ok (.mdioRead 31 30) ∧ decode [0x6F000201, 0x00008000] = .ok (.mdioWrite 2 1 0x8000) ∧
    decode [0x70000000, 0x10000000, 0x10000040, 0x00000800, 0x02112233, 0x44550000] =
      .ok (.macCoreInit 0x10000000 0x10000040 2048 ⟨0x02, 0x11, 0x22, 0x33, 0x44, 0x55⟩) ∧
    decode [0x71000000] = .ok .macEnable := by decide

theorem test_decode_facade_and_engine :
    decode [0x80000001, 0x30000000, 0x0000FFFF, 9] = .ok (.transmit [⟨0x30000000, 65535⟩] 9) ∧
    decode [0x81000000] = .ok .getMac ∧ decode [0x82000000] = .ok .printDiag ∧ decode [0xE0000000] = .ok .hRxSample ∧
    decode [0xE10005EA, 0x00000080] = .ok (.hRxDone 1514 0x0080) ∧ decode [0xE2000000] = .ok .hRxStall ∧
    decode [0xE3000000] = .ok .hTxSample ∧ decode [0xE4000000] = .ok .hTxDone ∧ decode [0xE5000000] = .ok .hTxStall ∧
    decode [0xE6000000] = .ok .hBusError := by decide

/-- R106: reserved selectors, a non-zero `arg`, reserved fields, `promisc` 3, no fragment; R107: the operand count. -/
theorem test_decode_refused :
    decode [0x00000000] = .error (.reservedSelector 0) ∧ decode [0x6A000000] = .error (.reservedSelector 0x6A) ∧
    decode [0x20000001] = .error .reservedArg ∧ decode [0x21000000, 7] = .error .noFragments ∧
    decode [0x50000000, 0x00000300, 0, 0] = .error .reservedPromisc ∧ decode [0x6E002002] = .error .reservedField ∧
    decode [0x6B03E802] = .error .reservedField ∧ decode [0xE1010000, 0] = .error .reservedField ∧
    decode [0x21000001, 0x30000000, 0, 7] = .error .fragmentLength ∧ decode [0x10000000, 8] = .error .operandCount := by decide

/-- The bits of a row as spec/opcode_table.json numbers them: the first word lowest. -/
theorem test_decode_table_word :
    decodeTableWord 96 0x000000100000004010000000 = some (.ringInit 64 16) ∧
    decodeTableWord 32 0x50000000 = some (.init PlatformCfg.zero) ∧ decodeTableWord 32 0x6A000000 = none := by decide

/-! ### States to test on -/

def value {α : Type} (o : Host.Outcome State Fault Refusal) (f : State → α) : Option α :=
  match o with
  | .next t => some (f t)
  | _ => none

def refusal (o : Host.Outcome State Fault Refusal) : Option Refusal :=
  match o with
  | .refused r => some r
  | _ => none

def fault (o : Host.Outcome State Fault Refusal) : Option Fault :=
  match o with
  | .fault r => some r
  | _ => none

/-- Two receive slots in flight, 6 and 7; a transmit group of two slots, 7 and 0. The slots at the heads hold the one handle
of which anything is known. -/
def rxRing : Ring := ⟨8, some 0x10000000, 6, 0, 4, true,
  List.replicate 6 (Config.handleOfWord 10) ++ [.first, Config.handleOfWord 11]⟩
def txRing : Ring := ⟨8, some 0x10000040, 7, 1, 4, true, List.replicate 7 (Config.handleOfWord 20) ++ [.first]⟩
def counts : List Nat := [0, 0, 0, 0, 0, 0, 0, 2]

/-- Receive slot 6 is completed with 60 bytes, slot 7 belongs to hardware, the transmit group is completed. -/
def memory : Memory :=
  let w := memWrite .little
  w (w (w (w (w (w (w [] 0x10000030 2 60) 0x10000034 4 0x20003000) 0x1000003A 2 0xA000) 0x1000003C 4 0x20003800)
    0x10000042 2 0x0C00) 0x10000078 2 64) 0x1000007A 2 0x2000

def answers : Answers := { Answers.none with
  dmaAlloc := [some 0x10000000, some 0x10000040], metaAlloc := [true], ctxAlloc := [true], fuse := [some ⟨2, 0, 0, 0, 0, 1⟩]
  platform := [true], mapRegs := [some 5], coreInit := [true], mdioInit := [true], phyConnect := [some 1], phyTune := [true]
  phyStartup := [some (100, .half)], buffers := [some (0x20004000, .first), none], mdioRead := [some 0x796D], mdioWrite := [false]
  frames := [List.replicate 60 1] }

/-- The machine at a place of its life cycle, with both rings alive; the register block as an INIT leaves it. -/
def at' (q : Seq) : State where
  params    := Params.default
  rx        := rxRing
  tx        := txRing
  ndesc     := counts
  ctx       := ⟨true, some 5, 0, 0, .on, ⟨2, 0, 0, 0, 0, 1⟩⟩
  link      := ⟨1000, .full⟩
  seq       := q
  bring     := ⟨PlatformCfg.zero, Mac.zero, 1⟩
  regs      := ⟨true, true, true, 0x0A000001, 0x0A400000, 1000, .full, true, 0x10000000, 0x10000040, 2048, ⟨2, 0, 0, 0, 0, 1⟩, 5⟩
  coreFresh := true
  handing   := 0
  hw        := ⟨7, 1, none, none⟩
  mem       := memory
  pend      := []
  early     := []
  env       := ⟨[], [], answers, 0⟩
  out       := []
  calls     := []

def run : State := at' ⟨.running, 0, false⟩
def halt : State := at' ⟨.halted, 0, false⟩
def step' (k : Nat) : State := at' ⟨.bringUp, k, true⟩

/-- Component-level use: mode Off, rings alive, no context. -/
def comp : State := { at' ⟨.off, 0, false⟩ with ctx := ⟨false, none, 0, 0, .unspecified, Mac.zero⟩ }

/-- The same with the MAC off, as RING_TEARDOWN needs it. -/
def still : State := { comp with regs := { comp.regs with macEn := false } }

/-- Nothing allocated, the answers listed; before a step of bring-up. -/
def bare (q : Seq) : State := { State.reset with seq := q, env := ⟨[], [], answers, 0⟩ }
def off : State := bare ⟨.off, 0, false⟩

/-- H has sampled both words: receive slot 7, empty and last; transmit slot 1, ready and the last of its packet. -/
def sampled : State := { run with
  hw := ⟨7, 1, some 0xA000, some 0x8800⟩, mem := memWrite .little memory 0x1000004A 2 0x8800 }

/-- The same, but memory no longer holds the ownership bits. -/
def takenBack : State := { run with
  hw := ⟨7, 1, some 0xA000, some 0x8800⟩, mem := memWrite .little memory 0x1000003A 2 0x2000 }

/-! ### One step, by hand -/

/-- 40_ring_lifecycle R111 with capacities 2 and 3: the wrap marker stands on the last slot alone. -/
theorem test_ringInit :
    value (exec (.ringInit 2 3) off) (fun t => (t.rx.remain, t.tx.remain, t.rx.alive, t.tx.base)) =
      some (0, 1, true, some 0x10000040) ∧
    value (exec (.ringInit 2 3) off) (fun t => (t.field .rx 0 .stat, t.field .rx 1 .stat, t.field .tx 2 .stat)) =
      some (some 0, some 0x2000, some 0x2000) := by decide +kernel

theorem test_ringTeardown :
    value (exec .ringTeardown still) (fun t => (t.rx.alive, t.tx.base, t.calls, t.out)) =
      some (false, none, [.dmaFree 0x10000000 64, .metaFree .rx, .dmaFree 0x10000040 64, .metaFree .tx], [0]) ∧
    fault (exec .ringTeardown comp) = some .teardownUnderMac := by
  decide +kernel

/-- R117 to R119: slot 0 gets address, length 0 and RXD_EMPTY. -/
theorem test_fillRx :
    value (exec .fillRx run) (fun t => (t.rx.tail, t.rx.remain, t.rx.handle.head?, Memory.readBytes 0x10000000 8 t.settled)) =
      some (1, 3, some .first, [0, 0, 0, 0x80, 0, 0x40, 0, 0x20]) := by decide +kernel

/-- R123: READY on both slots, ADDCRC and LAST on the second. -/
theorem test_enqTx :
    value (exec (.enqTx [⟨0x30000000, 64⟩, ⟨0x30001000, 1000⟩] 9) run) (fun t =>
        (t.tx.tail, t.tx.remain, t.ndesc.getD 1 0, Memory.readBytes 0x10000048 16 t.settled)) =
      some (3, 2, 2, [0x40, 0, 0, 0x80, 0, 0, 0, 0x30, 0xE8, 0x03, 0, 0x8C, 0, 0x10, 0, 0x30]) := by decide +kernel

/-- R122 step 4: the handle that the operand stands for is recorded in the group's first slot. -/
theorem test_enqTx_handle :
    value (exec (.enqTx [⟨0x30000000, 64⟩] 9) run) (fun t => t.tx.handle[1]?) = some (some (Config.handleOfWord 9)) := rfl

/-- R125: five fragments into four free slots: the completed group is reaped first, and then six slots suffice. -/
theorem test_enqTx_reaps :
    value (exec (.enqTx (List.replicate 5 ⟨0x30000000, 64⟩) 9) run) (fun t => (t.tx.head, t.tx.tail, t.tx.remain, t.calls)) =
      some (1, 6, 1, [.onTransmitComplete .first]) ∧
    value (exec (.transmit (List.replicate 7 ⟨0x30000000, 64⟩) 9) run) (fun t => (t.tx.remain, t.out)) = some (6, [2]) := by
  decide +kernel

/-- 42_completion_reaper R130: one slot is completed, the next belongs to hardware. -/
theorem test_reapRx :
    value (exec .reapRx run) (fun t => (t.rx.head, t.rx.remain, t.calls)) =
      some (7, 5, [.onReceiveComplete [.first] [60]]) := by decide +kernel

theorem test_reapTx :
    value (exec .reapTx run) (fun t => (t.tx.head, t.tx.remain, t.calls)) =
      some (1, 6, [.onTransmitComplete .first]) := by decide +kernel

/-- 43_interrupt_dispatch R142, R144: the reserved event bit stays; transmit is served first; the refill follows. -/
theorem test_handleIrq :
    value (exec .handleIrq run) (fun t => (t.regs.event, t.rx.head, t.rx.tail, t.tx.head, t.out)) =
      some (1, 7, 1, 1, [0]) ∧
    value (exec .handleIrq { run with regs := { run.regs with event := 0x02400000 } }) (fun t => (t.seq.mode, t.rx.head, t.out)) =
      some (.halted, 6, [14, 0x02400000]) := by decide +kernel

theorem test_poll :
    value (exec .poll run) (fun t => (t.regs.event, t.calls)) =
      some (0x0A000001, [.onReceiveComplete [.first] [60], .onTransmitComplete .first, .allocateReceiveBuffer 2048,
        .allocateReceiveBuffer 2048]) := by decide +kernel

/-- 44_link_bringup R150: every step succeeds; the address comes from the fuses, promiscuous mode by default. -/
theorem test_init :
    value (exec (.init PlatformCfg.zero) off) (fun t => (t.seq, t.ctx.mac, t.link, t.rx.tail, t.out)) =
      some (⟨.running, 0, false⟩, ⟨2, 0, 0, 0, 0, 1⟩, ⟨100, .half⟩, 1, [0]) ∧
    value (exec (.init PlatformCfg.zero) off) (fun t => (t.regs.rxEn, t.regs.evmask, t.regs.promisc, t.regs.txbase)) =
      some (true, 0x0A400000, true, 0x10000040) := by decide +kernel

/-- R156, R164: a device index other than 0 aborts and releases; R165: a core that does not come up unwinds nothing. -/
theorem test_bringup_failures :
    value (exec .bu3 { step' 3 with ctx := { run.ctx with index := 1 } }) (fun t => (t.seq, t.rx.alive, t.ctx.alive, t.out)) =
      some (⟨.off, 0, false⟩, false, false, [5]) ∧
    value (exec .bu5 { step' 5 with env := ⟨[], [], { answers with coreInit := [false], coreWrites := [0] }, 0⟩ })
      (fun t => (t.seq, t.rx.alive, t.ctx.alive, t.out)) = some (⟨.dead, 0, false⟩, true, true, [8]) := by decide +kernel

/-- 47_dma_engine R196: a write to an enable drops H's sample, whichever value is written and whichever stood there; nothing
else changes. -/
theorem test_enables :
    value (exec .rxEnable sampled) (fun t => (t.regs.rxEn, t.hw, t.env.draws)) =
      some (true, ⟨7, 1, none, some 0x8800⟩, 0) ∧
    value (exec .rxEnable { sampled with regs := { sampled.regs with rxEn := false } }) (fun t => (t.regs.rxEn, t.hw.rxSample)) =
      some (true, none) ∧
    value (exec .rxDisable sampled) (fun t => (t.regs.rxEn, t.hw.rxSample, t.hw.txSample, t.hw.rxIdx)) =
      some (false, none, some 0x8800, 7) ∧
    value (exec .txEnable sampled) (fun t => (t.regs.txEn, t.hw.rxSample, t.hw.txSample)) =
      some (true, some 0xA000, none) ∧ value (exec .rxEnabled run) State.out = some [0, 1] := by decide +kernel

/-- 45_register_interface R174 to R177: only bits of EV_ALL are read, cleared and unmasked. -/
theorem test_events :
    value (exec .evRead run) State.out = some [0, 0x0A000000] ∧
    value (exec (.evClear 0x02000001) run) (fun t => t.regs.event) = some 0x08000001 ∧
    value (exec .evReadClear run) (fun t => (t.out, t.regs.event)) = some ([0, 0x0A000000], 1) ∧
    value (exec (.evSetMask 0xFFFFFFFF) run) (fun t => (t.regs.evmask, irq t)) = some (0x0A400000, true) := by decide +kernel

theorem test_link :
    value (exec (.setSpeedDuplex 10 .half) run) (fun t => (t.regs.speed, t.regs.duplex, t.link.speed)) =
      some (10, .half, 1000) ∧ refusal (exec (.setSpeedDuplex 11 .half) run) = some .speedNotInSet ∧
    value (exec (.mdioRead 1 2) run) State.out = some [0, 0x796D] ∧
    value (exec (.mdioWrite 1 2 3) run) State.out = some [13] := by decide +kernel

theorem test_core :
    value (exec (.macCoreInit 1 2 3 Mac.zero) comp) (fun t => (t.regs.macEn, t.regs.rxbase, t.regs.bufsz, t.hw)) =
      some (false, 1, 3, ⟨0, 0, none, none⟩) ∧
    fault (exec .macEnable { comp with coreFresh := false }) = some .staleMacEnable := by decide +kernel

/-- 46_facade R189, R190. -/
theorem test_context :
    value (exec .getMac halt) State.out = some [0, 0x02000000, 0x00010000] ∧
    value (exec .printDiag run) State.calls = some [.diagSink 1000 .full 5] := by decide +kernel

/-- R201: the last slot is handed back with its wrap bit, H goes on at slot 0. -/
theorem test_hRxDone :
    value (exec (.hRxDone 60 0x0080) sampled) (fun t => (Memory.readBytes 0x10000038 4 t.mem, t.hw.rxIdx, t.regs.event)) =
      some ([60, 0, 0x80, 0x20], 0, 0x0A000001) ∧
    fault (exec (.hRxDone 60 0x0080) takenBack) = some .hSlotTakenBack := by decide +kernel

/-- R201 with 20_memory R87, 93 U8: the bytes behind a frame of 3 are whatever H writes there, within the buffer of 5. -/
theorem test_hRxDone_beyond :
    frameBytes (some [1, 2, 3, 4, 5, 6]) 0 3 5 = [1, 2, 3, 4, 5] ∧ (frameBytes none 0 3 5).length = 5 := by decide

/-- R204: only the ownership bit changes; the event follows the fragment marked last. -/
theorem test_hTxDone :
    value (exec .hTxDone { sampled with regs := { run.regs with event := 0 } })
      (fun t => (Memory.readBytes 0x10000048 4 t.mem, t.hw.txIdx, t.hw.txSample, t.regs.event)) =
      some ([0, 0, 0, 0x08], 2, none, 0x08000000) := by decide +kernel

theorem test_h_sample_stall :
    value (exec .hRxSample run) (fun t => (t.hw.rxSample, t.hw.txSample)) = some (some 0xA000, none) ∧
    value (exec .hTxSample run) (fun t => t.hw.txSample) = some (some 0) ∧
    value (exec .hTxStall { run with hw := ⟨7, 1, none, some 0⟩ }) (fun t => (t.regs.txEn, t.hw.txIdx, t.hw.txSample)) =
      some (false, 1, none) ∧ refusal (exec .hRxStall sampled) = some .stepNotEnabled ∧
    value (exec .hBusError run) (fun t => t.regs.event) = some 0x0A400001 := by decide +kernel

/-- 20_memory R74: a write is performed out of program order only past writes of other bytes, and a barrier performs all. -/
theorem test_ordering :
    (performNth 1 { run with pend := [⟨0, [1]⟩, ⟨4, [2]⟩] }).pend = [⟨0, [1]⟩] ∧
    (performNth 1 { run with pend := [⟨0, [1]⟩, ⟨0, [2]⟩] }).pend = [⟨0, [1]⟩, ⟨0, [2]⟩] ∧
    Memory.read 0 (performNth 1 { run with pend := [⟨0, [1]⟩, ⟨4, [2]⟩] }).mem = 0 := by decide +kernel

/-- R224 row 7: the buffers of receive slots 6 and 7, of BUF_SIZE bytes, and of the transmit group's first fragment, of 64 bytes
at address 0, are in flight to their last byte; a buffer that another shares a byte with; what such a write leaves. -/
theorem test_inFlight :
    (run.inFlight 0x20002FFF, run.inFlight 0x20003000, run.inFlight 0x20003FFF, run.inFlight 0x20004000) =
      (false, true, true, false) ∧
    (run.inFlight 0x3F, run.inFlight 0x40) = (true, false) ∧
    (run.shared 7 0x20003000, run.shared 7 0x20003800) = (true, false) := by decide +kernel

/-- 20_memory R87: a slot that is reaped or was never filled is in flight wherever H's indices stand, and no slot of a ring that
is not alive is. -/
theorem test_inFlight_exact :
    ({ run with hw := ⟨0, 0, none, none⟩ } : State).buffersOut = run.buffersOut ∧
    ({ run with rx := { rxRing with alive := false }, tx := { txRing with alive := false } } : State).buffersOut = [] := by
  decide +kernel

/-- 20_memory R87: ENQ_TX has issued the status words of slots 1 and 2 and not recorded the group; H has completed slot 1, whose
fragment of 64 bytes stays in flight. -/
def midGroup : State := { run with
  seq := ⟨.running, 0, true⟩, hw := ⟨7, 2, none, none⟩, handing := 2
  mem := memWrite .little (memWrite .little (memWrite .little memory 0x10000048 2 64) 0x1000004C 4 0x30000000) 0x10000052 2 0x8C00 }
def handed {α : Type} (o : Except Stop (α × State)) : Option Nat :=
  match o with
  | .ok (_, t) => some t.handing
  | _ => none
theorem test_handing :
    (midGroup.slotOut .tx 1, midGroup.slotOut .tx 2, midGroup.slotOut .tx 3) = (true, true, false) ∧
    (midGroup.inFlight 0x3000003F, midGroup.inFlight 0x30000040) = (true, false) ∧
    handed (writeStats 1 2 0 [⟨0x30000000, 64⟩] run) = some 1 ∧
    handed (writeStats 1 2 0 (List.replicate 2 ⟨0x30000000, 64⟩) run) = some 2 ∧
    value (exec (.enqTx (List.replicate 2 ⟨0x30000000, 64⟩) 9) run) State.handing = some 0 := by decide +kernel

/-- 10_state R46: bits of EVENT besides the three served come to be set; a served one does not. -/
theorem test_otherEvents :
    value (exec .rxEnabled { run with env := ⟨[], [[.otherEvents 0x00400006]], answers, 0⟩ }) (fun t => t.regs.event) =
      some 0x0A000007 := by decide +kernel
theorem test_blur : blur (fun a => a == 6) 3 5 [1, 2, 4] = [1, Config.freeHostByte 3 1, 4] := rfl

/-- Where the machine fetches: an engine step of the trace, the sequencer, a command (placed as the host places a word). -/
theorem test_step_places :
    value (step (run.withFetchWord 32 0x81000000)) State.out = some [0, 0x02000000, 0x00010000] ∧
    value (step (run.withFetchWord 32 0xE0000000)) (fun t => t.hw.rxSample) = some (some 0xA000) ∧
    value (step ((step' 4).withFetchWord 32 0x54000000)) (fun t => (t.seq.bstep, t.ctx.regs)) = some (5, some 5) ∧
    refusal (step (run.withFetchWord 32 0x6A000000)) = some (.encoding (.reservedSelector 0x6A)) := by decide +kernel

/-- R224 row 8: the host writes memory off the rings, and nothing else; R165, R211: nothing goes on from Dead. -/
theorem test_step_host_dead :
    value (step { run with env := ⟨[.host (.write 0x50 [9])], [], answers, 0⟩ }) (fun t => Memory.read 0x50 t.mem) = some 9 ∧
    fault (step { run with env := ⟨[.host (.write 0x10000047 [9])], [], answers, 0⟩ }) = some .behindTheBack ∧
    fault (step { run with env := ⟨[.host .register], [], answers, 0⟩ }) = some .behindTheBack ∧
    fault (step { run with seq := ⟨.dead, 0, false⟩ }) = some .coreInitFailed ∧
    refusal (step { run with seq := ⟨.dead, 0, false⟩, env := ⟨[.command [0x81000000]], [], answers, 0⟩ }) =
      some .notAdmitted := by decide +kernel

/-! ### Sound states to witness with -/

theorem rxRing_sound : Ring.Sound Params.default.dmaAlign rxRing :=
  ⟨by decide, by decide, by decide, by decide, by decide, fun _ => ⟨_, rfl, by decide, by decide⟩, by decide⟩
theorem txRing_sound : Ring.Sound Params.default.dmaAlign txRing :=
  ⟨by decide, by decide, by decide, by decide, by decide, fun _ => ⟨_, rfl, by decide, by decide⟩, by decide⟩

/-- C's private registers with the two test rings, whatever the rest of them is. -/
theorem rings_sound (p : Private) (h : (p.params, p.rx, p.tx, p.ndesc) = (Params.default, rxRing, txRing, counts)) :
    RingsSound p := by
  obtain ⟨pa, rx, tx, nd, c, l, q, b, f⟩ := p
  simp only [Prod.mk.injEq] at h
  obtain ⟨rfl, rfl, rfl, rfl⟩ := h
  refine ⟨(by decide : Params.default.wf = true), rxRing_sound, txRing_sound, rfl, ?_, fun _ => rfl, fun _ => ?_⟩
  · intro a b m n h1 h2
    simp only [Ring.block, rxRing, txRing, Option.some.injEq, Prod.mk.injEq] at h1 h2
    obtain ⟨rfl, rfl⟩ := h1
    obtain ⟨rfl, rfl⟩ := h2
    decide
  · exact .cons 7 2 0 rfl (by decide) (.nil _)

theorem memory_wf : Memory.wf memory = true := by decide +kernel
theorem sampled_wf : Memory.wf sampled.mem = true := by decide +kernel

/-- A state with the test rings is sound where its sequencing registers are. -/
theorem inv_at (s : State)
    (h : (s.params, s.rx, s.tx, s.ndesc, s.handing) = (Params.default, rxRing, txRing, counts, 0))
    (hm : s.mem = memory) (hk : s.regs.evmask = 0x0A400000 ∧ s.regs.event < 2 ^ 32) (hc : s.ctx.alive = false → s.ctx.regs = none)
    (hq : SeqSound s.priv) : Inv s := by
  have hp : s.params = Params.default := congrArg Prod.fst h
  have hr : s.rx = rxRing := congrArg (fun x => x.2.1) h
  refine ⟨⟨rings_sound _ (congrArg (fun x => (x.1, x.2.1, x.2.2.1, x.2.2.2.1)) h), fun _ => ?_, hc, hq⟩, hm ▸ memory_wf, ?_, ?_,
    congrArg (fun x => x.2.2.2.2) h⟩
  · show s.rx.alive = true
    rw [hr]
    rfl
  · rw [hk.1, hp]
    decide
  · rw [hp]
    exact hk.2

/-- A state with nothing allocated. -/
theorem inv_bare (s : State) (h : (s.params, s.rx, s.tx, s.ctx, s.coreFresh, s.handing) = (Params.default, Ring.reset, Ring.reset,
    State.reset.ctx, false, 0)) (hm : s.mem = [] ∧ s.regs.evmask = 0 ∧ s.regs.event = 0) (hq : SeqSound s.priv) : Inv s := by
  simp only [Prod.mk.injEq] at h
  obtain ⟨h1, h2, h3, h4, h5, h6⟩ := h
  refine ⟨⟨⟨by show s.params.wf = true; rw [h1]; decide, by rw [State.priv, h2]; exact .dead rfl rfl, by
    rw [State.priv, h3]; exact .dead rfl rfl, by rw [State.priv, h2, h3], ?_, ?_, ?_⟩, ?_, fun _ => ?_, hq⟩, ?_, ?_, ?_, h6⟩
  · intro a b m n h; rw [State.priv, h2] at h; cases h
  · intro h; rw [State.priv, h3] at h; cases h
  · intro h; rw [State.priv, h3] at h; cases h
  · intro h; rw [State.priv, h5] at h; cases h
  · rw [State.priv, h4]; rfl
  · rw [hm.1]; rfl
  · rw [hm.2.1, h1]; decide
  · rw [hm.2.2, h1]; decide

theorem inv_run : Inv run := inv_at _ rfl rfl ⟨rfl, by decide⟩ (by decide) (by constructor <;> decide)
theorem inv_comp : Inv comp := inv_at _ rfl rfl ⟨rfl, by decide⟩ (by decide) (by constructor <;> decide)
theorem inv_still : Inv still := inv_at _ rfl rfl ⟨rfl, by decide⟩ (by decide) (by constructor <;> decide)
theorem inv_off : Inv off := inv_bare _ rfl ⟨rfl, rfl, rfl⟩ (by constructor <;> decide)
theorem inv_step1 : Inv (bare ⟨.bringUp, 1, true⟩) := inv_bare _ rfl ⟨rfl, rfl, rfl⟩ (by constructor <;> decide)
theorem inv_step2 : Inv (bare ⟨.bringUp, 2, true⟩) := inv_bare _ rfl ⟨rfl, rfl, rfl⟩ (by constructor <;> decide)
theorem inv_step (k : Nat) (h1 : 3 ≤ k) (h2 : k ≤ 10) : Inv (step' k) := by
  refine inv_at _ rfl rfl ⟨rfl, (by decide : (0x0A000001 : Nat) < 2 ^ 32)⟩ (by simp [step', at']) ⟨fun _ => ⟨?_, h2⟩, by simp [step', at', State.priv],
    by simp [step', at', State.priv], by simp [step', at', State.priv], fun _ h => ?_, fun _ _ => ⟨rfl, rfl⟩,
    by simp [step', at', State.priv], fun _ _ => rfl,
    fun _ => (by decide : Params.default.speedSet.contains 1000 = true)⟩
  · show 1 ≤ k
    omega
  · have : k ≤ 2 := h
    omega

theorem run_rested : run.rested := ⟨⟨rfl, rfl⟩, rfl⟩
theorem run_ready : run.ready := ⟨rfl, .inr rfl⟩
theorem run_running : run.running := ⟨rfl, rfl⟩
theorem run_rxDone : RxDone run 1 := ⟨by decide, by decide +kernel, by decide +kernel⟩
theorem run_txDone : TxDone run run.tx.head run.tx.inflight [2] := ⟨by decide, rfl, by decide +kernel, .inl rfl⟩
theorem run_supplies (room : Nat) (h : 1 ≤ room) : Supplies run room [(0x20004000, .first)] :=
  ⟨h, by decide +kernel, [none], rfl, .inr ⟨[], rfl⟩⟩

/-- An operation that H interrupts: before the first event H takes both samples, and an issued write is performed. -/
def busy : State := { run with env := ⟨[], [[.rxSample, .txSample, .perform 0]], answers, 0⟩, pend := [⟨0, [1]⟩] }
theorem busy_gap : ∃ u, Gap busy u ∧ u.hw.rxSample = some 0xA000 ∧ u.pend = [] := ⟨_, rfl, by decide +kernel, by decide +kernel⟩

/-- A bus error is raised after the read-and-clear. -/
def late : State := { run with env := ⟨[], [[], [.busError]], answers, 0⟩ }

/-! ### Witnesses: the hypotheses of the obligations can be met -/

theorem witness_DecodeEncode : (Instr.enqTx [⟨0xFFFFFFFF, 65535⟩, ⟨0, 1⟩] 0xFFFFFFFF).wf = true := by decide
theorem witness_EncodeDecode : decode [0x21000001, 0xFFFFFFFF, 0xFFFF, 0] = .ok (.enqTx [⟨0xFFFFFFFF, 65535⟩] 0) := by decide

theorem witness_ReservedRefused :
    opOf 0x6A000000 ∉ selectors ∧ (opOf 0x20FFFFFF ∈ selectors ∧ opOf 0x20FFFFFF ∉ argSelectors ∧ argOf 0x20FFFFFF ≠ 0) ∧
    (opOf 0x6B000002 = 0x6B ∧ (argOf 0x6B000002).extractLsb' 1 7 ≠ 0) ∧
    ((opOf 0x6E002000 = 0x6E ∧ (argOf 0x6E002000).extractLsb' 13 11 ≠ 0) ∧ (argOf 0x6F000020).extractLsb' 5 3 ≠ 0) ∧
    (opOf 0xE1010000 = 0xE1 ∧ (argOf 0xE1010000).extractLsb' 16 8 ≠ 0) ∧ (opOf 0x80000000 = 0x80 ∧ argOf 0x80000000 = 0) ∧
    BitVec.extractLsb' 8 2 (0x00000300 : Word) = 3#2 := by decide

/-- A refused word and a step of bring-up on the command port. -/
theorem witness_ReservedRefused_port :
    sequencerNext run = none ∧ decode [0x6A000000] = .error (.reservedSelector 0x6A) ∧ decode [0x51000000] = .ok .bu1 ∧
    Instr.bu1.agent ≠ .host := by decide

theorem witness_DescriptorLayout :
    (Memory.wf [(5, 1)] = true ∧ 3 < 4 ∧ (4 < 5 ∨ 5 + 4 ≤ 4)) ∧ (∃ b, (run.ring .rx).base = some b) ∧
    (run.ring .rx).cap = 7 + 1 := ⟨by decide, ⟨_, rfl⟩, rfl⟩
def pending {α : Type} (o : Except Stop (α × State)) : Option (List PendWrite) :=
  match o with
  | .ok (_, t) => some t.pend
  | _ => none

theorem witness_HandoverBits :
    (Params.default.wf = true ∧ Params.default.rxdEmpty < 16 ∧ Params.default.txdLast < 16) ∧
    (pending (initSlots .rx 1 run)).map List.length = some 3 ∧
    pending (handOverRx 0x20004000 .first run) = some [⟨0x10000002, [0, 0x80]⟩] ∧
    (pending (writeStats 7 2 0 (List.replicate 2 ⟨0x30000000, 64⟩) run)) =
      some [⟨0x1000007A, [0, 0xA0]⟩, ⟨0x10000042, [0, 0x8C]⟩] := by decide +kernel

/-- The host writes the last byte of a buffer in flight, and the byte behind it. -/
theorem witness_StepRunsDecoded :
    (run.seq.mode ≠ .dead ∧ decode [0xE0000000] = .ok .hRxSample ∧ Instr.hRxSample.agent = .engine) ∧
    sequencerNext (step' 4) = some .bu4 ∧
    (sequencerNext run = none ∧ decode [0x81000000] = .ok .getMac ∧ Instr.getMac.agent = .host ∧ run.env.inputs = []) ∧
    (bufferReal run 0x20003FFF [9, 9].length = true ∧ run.inFlight (0x20003FFF + 0) = true ∧
      run.inFlight (0x20003FFF + 1) = false ∧ bufferReal run 0x10000047 [9].length = false) ∧
    refusal (exec .getMac { run with seq := ⟨.dead, 0, false⟩ }) = some .notAdmitted := by
  decide +kernel

theorem witness_StepKeepsInvariant :
    Inv { run with env := ⟨[.command [0x30000000]], [], answers, 0⟩ } ∧
      value (step { run with env := ⟨[.command [0x30000000]], [], answers, 0⟩ }) (fun t => t.rx.head) = some 7 :=
  ⟨inv_at _ rfl rfl ⟨rfl, by decide⟩ (by decide) (by constructor <;> decide), by decide +kernel⟩

theorem witness_RingsNeverAmbiguous :
    Inv run ∧ run.rx.alive = true ∧ run.tx.alive = true ∧ run.tx.pending = true ∧ run.tx.remain + run.tx.inflight + 2 = 8 :=
  ⟨inv_run, rfl, rfl, by decide, by decide⟩

theorem witness_StepKeepsFormAndParameters : Memory.wf run.mem = true ∧ value (step run) State.params = some Params.default :=
  ⟨memory_wf, rfl⟩

/-- Also for GapLeavesWhatIsC. -/
theorem witness_BarrierPerforms : ∃ u, tick busy = .ok ((), u) ∧ u.hw.rxSample = some 0xA000 := ⟨_, rfl, by decide +kernel⟩
theorem witness_PerformedInAnyOrder : Memory.wf busy.mem = true ∧ (performNth 0 busy).pend = [] := ⟨memory_wf, by decide +kernel⟩
/-- A write of two bytes stands behind another; it is performed first, and read ahead. -/
theorem witness_ReadsOwnWrite :
    Memory.wf busy.mem = true ∧ [EnvStep.perform 1, .prefetch 0 4].all EnvStep.ofMemory = true ∧
    ∃ u, envSteps [.perform 1, .prefetch 0 4] (issueWrite 2 [7, 8] busy) = .ok ((), u) ∧ u.pend = [⟨0, [1]⟩] ∧
      Memory.read 2 u.mem = 7 := ⟨memory_wf, rfl, _, rfl, by decide +kernel, by decide +kernel⟩

theorem witness_ModesAdmit :
    (Instr.poll.agent = .host ∧ off.seq.busy = false ∧ off.seq.mode ∉ modesOf .poll) ∧
    (Instr.bu4.agent = .sequencer ∧ ¬((step' 5).seq.mode = .bringUp ∧ (step' 5).seq.bstep = buNumber .bu4)) ∧
    (Instr.hBusError.agent = .engine ∧ value (exec .hBusError run) (fun t => t.regs.event) = some 0x0A400001) := by
  decide +kernel

theorem witness_AllocationAdmits :
    (comp.seq.busy = false ∧ comp.seq.mode = .off ∧ comp.rx.alive = true) ∧
    (off.seq.busy = false ∧ off.seq.mode = .off ∧ off.rx.alive = false ∧ off.tx.alive = false) := by decide

theorem witness_OneOperationAtATime :
    Instr.getMac.agent = .host ∧ (step' 3).seq.busy = true ∧ value (exec .getMac run) State.seq = some ⟨.running, 0, false⟩ := by
  decide +kernel

/-- One transition of each kind, and a step of bring-up that goes on. -/
theorem witness_ModeTransitions :
    value (exec (.init PlatformCfg.zero) off) State.seq = some ⟨.running, 0, false⟩ ∧
    value (exec .bu4 { step' 4 with env := ⟨[], [], { answers with mapRegs := [none] }, 0⟩ }) State.seq = some ⟨.off, 0, false⟩ ∧
    value (exec .bu5 { step' 5 with env := ⟨[], [], { answers with coreInit := [false], coreWrites := [0] }, 0⟩ }) State.seq =
      some ⟨.dead, 0, false⟩ ∧
    value (exec .bu10 (step' 10)) State.seq = some ⟨.running, 0, false⟩ ∧
    value (exec .handleIrq { run with regs := { run.regs with event := 0x00400000 } }) State.seq = some ⟨.halted, 0, false⟩ ∧
    value (exec .bu6 (step' 6)) State.seq = some ⟨.bringUp, 7, true⟩ := by decide +kernel

theorem witness_RingInitLays :
    Inv off ∧ off.quiet ∧ off.seq.busy = false ∧ off.seq.mode = .off ∧ off.rx.alive = false ∧ off.tx.alive = false ∧
    2 ≤ (2 : Word).toNat ∧ 2 ≤ (8 : Word).toNat ∧ off.env.answers.dmaAlloc = some 0x10000000 :: some 0x10000040 :: [] ∧
    off.env.answers.metaAlloc = true :: [] ∧
    allocOk off.params.dmaAlign (0x10000000 : Word).toNat (2 : Word).toNat (0x10000040 : Word).toNat (8 : Word).toNat = true :=
  ⟨inv_off, ⟨rfl, rfl⟩, rfl, rfl, rfl, rfl, by decide, by decide, rfl, rfl, by decide⟩

/-- Each of the three allocations fails alone. -/
theorem witness_RingInitFailsAtomically :
    ∀ x ∈ [(none, some 0x10000040, true), (some 0x10000000, none, true), (some 0x10000000, some 0x10000040, false)],
      ∃ s : State, Inv s ∧ s.quiet ∧ s.seq.busy = false ∧ s.seq.mode = .off ∧ s.rx.alive = false ∧ s.tx.alive = false ∧
        2 ≤ (2 : Word).toNat ∧ s.env.answers.dmaAlloc = x.1 :: x.2.1 :: [] ∧ s.env.answers.metaAlloc = x.2.2 :: [] :=
  fun x _ => ⟨{ off with env := ⟨[], [], { answers with dmaAlloc := [x.1, x.2.1], metaAlloc := [x.2.2] }, 0⟩ },
    inv_bare _ rfl ⟨rfl, rfl, rfl⟩ inv_off.priv.seq, ⟨rfl, rfl⟩, rfl, rfl, rfl, rfl, by decide, rfl, rfl⟩

/-- Alive, not alive, and with the MAC enabled. -/
theorem witness_RingTeardownReleases :
    (Inv still ∧ still.quiet ∧ still.seq.busy = false ∧ still.seq.mode = .off ∧ still.regs.macEn = false) ∧
    (Inv off ∧ off.quiet ∧ off.seq.busy = false ∧ off.seq.mode = .off ∧ off.regs.macEn = false ∧ off.rx.alive = false) ∧
    (comp.seq.busy = false ∧ comp.seq.mode = .off ∧ comp.regs.macEn = true) :=
  ⟨⟨inv_still, ⟨rfl, rfl⟩, rfl, rfl, rfl⟩, ⟨inv_off, ⟨rfl, rfl⟩, rfl, rfl, rfl, rfl⟩, rfl, rfl, rfl⟩

theorem witness_FillRxSupplies :
    Inv run ∧ run.quiet ∧ run.ready ∧ run.rx.alive = true ∧ Supplies run run.rx.remain [(0x20004000, .first)] :=
  ⟨inv_run, run_rested.1, run_ready, rfl, run_supplies _ (by decide)⟩

/-- H and the memory system act in the midst of FILL_RX, of ENQ_TX, of the reapers, of HANDLE_IRQ with both branches and a bus
error, and of step 10, and the operation completes. -/
theorem witness_orders :
    value (exec .fillRx busy) (fun t => (t.rx.tail, t.hw.rxSample, t.pend)) = some (1, some 0xA000, []) ∧
    value (exec (.enqTx (List.replicate 2 ⟨0x30000000, 64⟩) 9) busy) (fun t => (t.tx.tail, t.hw.txSample)) =
      some (3, some 0) ∧
    value (exec .reapRx busy) (fun t => (t.rx.head, t.hw.rxSample)) = some (7, some 0xA000) ∧
    value (exec .reapTx busy) (fun t => (t.tx.head, t.hw.rxSample)) = some (1, some 0xA000) ∧
    value (exec .handleIrq late) (fun t => (t.regs.event, t.tx.head, t.rx.tail, t.out)) = some (0x00400001, 1, 1, [0]) ∧
    value (exec .handleIrq { late with env := ⟨[], [[.busError]], answers, 0⟩ }) State.out = some [14, 0x0A400000] ∧
    value (exec .bu10 { step' 10 with env := busy.env }) (fun t => (t.regs.evmask, t.hw.rxSample)) =
      some (0x0A400000, some 0xA000) ∧
    (Inv { busy with pend := [] } ∧ ({ busy with pend := [] } : State).early = []) ∧
    value (exec (.transmit (List.replicate 7 ⟨0x30000000, 64⟩) 9) run) State.out = some [2] :=
  ⟨by decide +kernel, by decide +kernel, by decide +kernel, by decide +kernel, by decide +kernel, by decide +kernel,
    by decide +kernel,
    ⟨inv_at _ rfl rfl ⟨rfl, by decide⟩ (by decide) (by constructor <;> decide), rfl⟩, by decide +kernel⟩

/-- For both operations, with as many fragments as there is room. -/
theorem witness_EnqueueHandsOver :
    run.ready ∧ run.running ∧ Inv run ∧ run.quiet ∧ run.tx.alive = true ∧
    fragsAdmitted (List.replicate 4 ⟨0x30000000, 64⟩) = true ∧ fragsReal run (List.replicate 4 ⟨0x30000000, 64⟩) = true ∧
    (List.replicate 4 (⟨0x30000000, 64⟩ : Frag)).length ≤ run.tx.remain :=
  ⟨run_ready, run_running, inv_run, run_rested.1, rfl, by decide, by decide, by decide⟩

/-- Six fragments fit after the reap, seven do not. -/
theorem witness_EnqueueReapsFirst :
    run.ready ∧ run.running ∧ Inv run ∧ run.rested ∧ run.tx.alive = true ∧ TxDone run run.tx.head run.tx.inflight [2] ∧
    run.tx.remain < 6 ∧ fragsAdmitted (List.replicate 6 ⟨0x30000000, 64⟩) = true ∧
    6 ≤ run.tx.remain + [2].sum ∧ run.tx.remain + [2].sum < 7 ∧
    fragsAdmitted (List.replicate 7 ⟨0x30000000, 64⟩) = true ∧ fragsReal run (List.replicate 6 ⟨0x30000000, 64⟩) = true :=
  ⟨run_ready, run_running, inv_run, run_rested, rfl, run_txDone, by decide, by decide, by decide, by decide, by decide, by decide⟩

theorem witness_OperandLimits :
    (run.ready ∧ run.tx.alive = true ∧ ∃ f ∈ [(⟨0x30000000, 0⟩ : Frag)], f.len = 0) ∧ run.running ∧
    (off.seq.busy = false ∧ off.seq.mode = .off ∧ off.rx.alive = false ∧ off.tx.alive = false ∧ (1 : Word).toNat < 2) :=
  ⟨⟨run_ready, rfl, _, .head _, rfl⟩, run_running, rfl, rfl, rfl, rfl, by decide⟩

/-- One slot completed, and none: a ring with nothing in flight. -/
theorem witness_ReapRxDelivers :
    (Inv run ∧ run.rested ∧ run.ready ∧ run.rx.alive = true ∧ RxDone run 1) ∧
    RxDone { run with rx := { rxRing with tail := 6 } } 0 :=
  ⟨⟨inv_run, run_rested, run_ready, rfl, run_rxDone⟩, by decide, by decide, .inl rfl⟩

theorem witness_ReapTxReports :
    Inv run ∧ run.rested ∧ run.ready ∧ run.tx.alive = true ∧ TxDone run run.tx.head run.tx.inflight [2] :=
  ⟨inv_run, run_rested, run_ready, rfl, run_txDone⟩

theorem witness_BusErrorHalts :
    ({ busy with regs := { run.regs with event := 0x00400000 } } : State).running ∧
    ∃ u, Gap { busy with regs := { run.regs with event := 0x00400000 } } u ∧ u.regs.event &&& evBerr Params.default ≠ 0 :=
  ⟨⟨rfl, rfl⟩, _, rfl, by decide +kernel⟩

theorem witness_SpuriousIrq :
    ({ busy with regs := { run.regs with event := 1 } } : State).running ∧
    ∃ u, Gap { busy with regs := { run.regs with event := 1 } } u ∧ u.regs.event &&& evAll Params.default = 0 :=
  ⟨⟨rfl, rfl⟩, _, rfl, by decide +kernel⟩

/-- Both branches; with no event neither. -/
theorem witness_IrqServes :
    Inv run ∧ run.quiet ∧ run.running ∧ run.regs.event &&& evBerr run.params = 0 ∧
    run.regs.event &&& evTxf run.params ≠ 0 ∧ run.regs.event &&& evRxf run.params ≠ 0 ∧
    TxDone run run.tx.head run.tx.inflight [2] ∧ RxDone run 1 ∧ Supplies run (run.rx.remain + 1) [(0x20004000, .first)] ∧
    (1 : Events) &&& evTxf run.params = 0 ∧ (1 : Events) &&& evRxf run.params = 0 :=
  ⟨inv_run, run_rested.1, run_running, by decide, by decide, by decide, run_txDone, run_rxDone, run_supplies _ (by decide),
    by decide, by decide⟩

theorem witness_PollServes :
    Inv run ∧ run.rested ∧ run.running ∧ RxDone run 1 ∧ TxDone run run.tx.head run.tx.inflight [2] ∧
    Supplies run (run.rx.remain + 1) [(0x20004000, .first)] :=
  ⟨inv_run, run_rested, run_running, run_rxDone, run_txDone, run_supplies _ (by decide)⟩

/-- The address from the fuses, one buffer. -/
theorem witness_InitBringsUp :
    Inv off ∧ off.quiet ∧ off.seq.mode = .off ∧ off.rx.alive = false ∧
    GoodAnswers off PlatformCfg.zero ⟨2, 0, 0, 0, 0, 1⟩ 0x10000000 0x10000040 5 1 100 .half [(0x20004000, .first)] := by
  refine ⟨inv_off, ⟨rfl, rfl⟩, rfl, rfl, ⟨.inr ⟨rfl, [], rfl⟩, ⟨[], rfl⟩, ⟨[], rfl⟩, ⟨[], rfl⟩, by decide, rfl, ⟨[], rfl⟩,
    ⟨[], rfl⟩, ⟨[], rfl⟩, by decide, ⟨[], rfl⟩, ⟨[], rfl⟩, ⟨[], rfl⟩, ⟨[], rfl⟩, by decide, by decide, ⟨[none], rfl, .inr ⟨[], rfl⟩⟩,
    by decide⟩⟩

/-- The steps one by one end as INIT does; an INIT that fails at the first, at the third and at the fifth. -/
theorem witness_InitBringsUp_ends :
    (∃ t, BuSteps (({ off with env := ⟨[], [], { answers with fuse := [none] }, 0⟩ } : State).initStarted PlatformCfg.zero) t ∧
      t.out = [3]) ∧
    value (exec (.init PlatformCfg.zero) { off with env := ⟨[], [], { answers with fuse := [none] }, 0⟩ }) State.out = some [3] ∧
    value (exec (.init PlatformCfg.zero) { off with env := ⟨[], [], { answers with platform := [false] }, 0⟩ })
      (fun t => (t.out, t.rx.alive)) = some ([6], false) ∧
    value (exec (.init PlatformCfg.zero) { off with env := ⟨[], [], { answers with coreInit := [false], coreWrites := [0] }, 0⟩ })
      (fun t => (t.out, t.rx.alive)) = some ([8], true) :=
  ⟨⟨_, .last _ _ .bu1 rfl rfl (by decide), rfl⟩, by decide +kernel, by decide +kernel, by decide +kernel⟩

/-- The configured address, the fuses' address, none. -/
theorem witness_Bu1AcquiresMac :
    (bare ⟨.bringUp, 1, true⟩).quiet ∧ (bare ⟨.bringUp, 1, true⟩).atStep 1 ∧
    (bare ⟨.bringUp, 1, true⟩).bring.cfg.mac = Mac.zero ∧ (⟨2, 0, 0, 0, 0, 1⟩ : Mac) ≠ Mac.zero ∧
    (bare ⟨.bringUp, 1, true⟩).env.answers.fuse = some ⟨2, 0, 0, 0, 0, 1⟩ :: [] :=
  ⟨⟨rfl, rfl⟩, ⟨rfl, rfl⟩, rfl, by decide, rfl⟩

/-- Also for the first clause of AbortUnwinds, whose answers may hold a failure anywhere. -/
theorem witness_Bu2Allocates :
    Inv (bare ⟨.bringUp, 2, true⟩) ∧ (bare ⟨.bringUp, 2, true⟩).quiet ∧ (bare ⟨.bringUp, 2, true⟩).atStep 2 ∧
    answers.ctxAlloc = true :: [] ∧ answers.dmaAlloc = some 0x10000000 :: some 0x10000040 :: [] ∧ answers.metaAlloc = true :: [] ∧
    allocOk 32 (0x10000000 : Word).toNat 8 (0x10000040 : Word).toNat 8 = true :=
  ⟨inv_step2, ⟨rfl, rfl⟩, ⟨rfl, rfl⟩, rfl, rfl, rfl, by decide⟩

theorem witness_Bu3Bu4SetUp :
    (step' 3).quiet ∧ (step' 3).atStep 3 ∧ (step' 3).ctx.index = 0 ∧ answers.platform = true :: [] ∧ (step' 4).atStep 4 ∧
    answers.mapRegs = some 5 :: [] :=
  ⟨⟨rfl, rfl⟩, ⟨rfl, rfl⟩, rfl, rfl, ⟨rfl, rfl⟩, rfl⟩

theorem witness_Bu5InitialisesCore :
    Inv (step' 5) ∧ (step' 5).quiet ∧ (step' 5).atStep 5 ∧ (step' 5).env.answers.coreInit = true :: [] ∧
    Inv { step' 5 with env := ⟨[], [], { answers with coreInit := [false] }, 0⟩ } :=
  ⟨inv_step 5 (by decide) (by decide), ⟨rfl, rfl⟩, ⟨rfl, rfl⟩, rfl,
    ⟨(inv_step 5 (by decide) (by decide)).priv, memory_wf, (inv_step 5 (by decide) (by decide)).mask,
      (inv_step 5 (by decide) (by decide)).event, rfl⟩⟩

theorem witness_Bu6Bu9Program :
    (step' 6).quiet ∧ (step' 6).atStep 6 ∧ (step' 9).quiet ∧ (step' 9).atStep 9 ∧
    (step' 9).params.speedSet.contains (step' 9).link.speed = true :=
  ⟨⟨rfl, rfl⟩, ⟨rfl, rfl⟩, ⟨rfl, rfl⟩, ⟨rfl, rfl⟩, by decide⟩

/-- Also for the clauses of AbortUnwinds about steps 7 and 8, with the other answer. -/
theorem witness_Bu7Bu8StartPhy :
    (step' 7).quiet ∧ (step' 7).atStep 7 ∧ (step' 7).ctx.phyAddr.toNat ≤ (step' 7).params.phyAddrMax ∧
    answers.mdioInit = true :: [] ∧ answers.phyConnect = some 1 :: [] ∧ (step' 8).quiet ∧ (step' 8).atStep 8 ∧
    answers.phyTune = true :: [] ∧ answers.phyStartup = some (100, .half) :: [] ∧ Params.default.phyAddrMax < (32 : BitVec 8).toNat :=
  ⟨⟨rfl, rfl⟩, ⟨rfl, rfl⟩, by decide, rfl, rfl, ⟨rfl, rfl⟩, ⟨rfl, rfl⟩, rfl, rfl, by decide⟩

theorem witness_Bu10Completes :
    Inv (step' 10) ∧ (step' 10).quiet ∧ (step' 10).atStep 10 ∧ Supplies (step' 10) (step' 10).rx.remain [(0x20004000, .first)] :=
  ⟨inv_step 10 (by decide) (by decide), ⟨rfl, rfl⟩, ⟨rfl, rfl⟩, by decide, by decide +kernel, [none], rfl, .inr ⟨[], rfl⟩⟩

/-- Steps 3, 4, 7 and 8 with every kind of failure (an index of 1, a PHY address of 32, and failing answers); step 2 with each
of the three ring allocations failing. -/
theorem witness_AbortUnwinds :
    Inv { step' 3 with ctx := { run.ctx with index := 1 } } ∧ Inv { step' 7 with ctx := { run.ctx with phyAddr := 32 } } ∧
    (∀ (k : Nat) (mi pt : Bool), 3 ≤ k → k ≤ 10 → Inv { step' k with env := ⟨[], [], { answers with
      platform := [false], mapRegs := [none], mdioInit := [mi], phyConnect := [none], phyTune := [pt]
      phyStartup := [none] }, 0⟩ }) ∧ (step' 3).atStep 3 ∧ (step' 4).atStep 4 ∧ (step' 7).atStep 7 ∧ (step' 8).atStep 8 ∧
    (∀ x ∈ [(none, some 0x10000040, true), (some 0x10000000, none, true), (some 0x10000000, some 0x10000040, false)],
      ∃ s : State, Inv s ∧ s.quiet ∧ s.atStep 2 ∧ s.env.answers.ctxAlloc = true :: [] ∧
        s.env.answers.dmaAlloc = x.1 :: x.2.1 :: [] ∧ s.env.answers.metaAlloc = x.2.2 :: []) :=
  ⟨inv_at _ rfl rfl ⟨rfl, by decide⟩ (by decide) (by constructor <;> decide),
    inv_at _ rfl rfl ⟨rfl, by decide⟩ (by decide) (by constructor <;> decide),
    fun k _ _ h1 h2 => ⟨(inv_step k h1 h2).priv, memory_wf, (inv_step k h1 h2).mask, (inv_step k h1 h2).event, rfl⟩,
    ⟨rfl, rfl⟩, ⟨rfl, rfl⟩, ⟨rfl, rfl⟩, ⟨rfl, rfl⟩,
    fun x _ => ⟨{ bare ⟨.bringUp, 2, true⟩ with
        env := ⟨[], [], { answers with dmaAlloc := [x.1, x.2.1], metaAlloc := [x.2.2] }, 0⟩ },
      inv_bare _ rfl ⟨rfl, rfl, rfl⟩ inv_step2.priv.seq, ⟨rfl, rfl⟩, ⟨rfl, rfl⟩, rfl, rfl, rfl⟩⟩

/-- For every statement about a register access with a gap before it: PathEnables to MdioAnswers. RX_EN is 1 and H holds a
sample. -/
theorem witness_RegisterAccess : busy.ready ∧ ∃ u, Gap busy u ∧ u.hw.rxSample = some 0xA000 ∧ u.regs.rxEn = true :=
  ⟨⟨rfl, .inr rfl⟩, _, rfl, by decide +kernel, rfl⟩

theorem witness_SpeedDuplexSet :
    Params.default.speedSet.contains (1000 : Half).toNat = true ∧ Params.default.speedSet.contains (1001 : Half).toNat = false := by
  decide

theorem witness_MacCoreInitWrites :
    comp.quiet ∧ comp.seq.busy = false ∧ comp.seq.mode = .off ∧ comp.rx.alive = true ∧ comp.tx.alive = true ∧
    comp.env.answers.coreInit = true :: [] := ⟨⟨rfl, rfl⟩, rfl, rfl, rfl, rfl, rfl⟩
theorem witness_MacEnableSets :
    (comp.seq.busy = false ∧ comp.seq.mode = .off ∧ comp.rx.alive = true ∧ comp.tx.alive = true ∧ comp.coreFresh = true) ∧
    Gap comp comp.begun ∧ { comp with coreFresh := false }.coreFresh = false := ⟨⟨rfl, rfl, rfl, rfl, rfl⟩, rfl, rfl⟩

theorem witness_ContextReports :
    (run.seq.busy = false ∧ run.seq.mode = .running ∧ run.ctx.alive = true ∧ run.quiet) ∧
    (halt.seq.busy = false ∧ halt.seq.mode = .halted ∧ halt.ctx.alive = true) :=
  ⟨⟨rfl, rfl, rfl, rfl, rfl⟩, rfl, rfl, rfl⟩

/-- Also for EngineEnabledOnly and EngineFaultsOnReleased, with the enables off and the rings released. -/
theorem witness_SampleReads :
    run.regs.macEn = true ∧ run.coreFresh = true ∧ run.regs.rxEn = true ∧ run.hw.rxSample = none ∧ run.rx.alive = true ∧
    run.rx.base = some run.regs.rxbase ∧ run.hw.rxIdx < run.rx.cap ∧ run.regs.txEn = true ∧ run.hw.txSample = none ∧
    run.tx.alive = true ∧ run.tx.base = some run.regs.txbase ∧ run.hw.txIdx < run.tx.cap := by decide

/-- The last slot; a frame that fills the buffer. -/
theorem witness_RxDoneCompletes :
    Memory.wf sampled.mem = true ∧ sampled.params.wf = true ∧ sampled.regs.macEn = true ∧ sampled.regs.rxEn = true ∧
    sampled.coreFresh = true ∧ sampled.rx.alive = true ∧ sampled.rx.base = some sampled.regs.rxbase ∧
    sampled.hw.rxIdx < sampled.rx.cap ∧ sampled.hw.rxSample = some 0xA000 ∧
    (0xA000 : Half).getLsbD sampled.params.rxdEmpty = true ∧ (2048 : Half).toNat ≤ sampled.regs.bufsz.toNat ∧
    (0x5FFF : Half).getLsbD sampled.params.rxdEmpty = false ∧ (0x5FFF : Half).getLsbD sampled.params.rxdWrap = false ∧
    (BitVec.ofNat 16 (memRead sampled.params.endian sampled.mem (fieldAddr sampled.params.endian
      (sampled.regs.rxbase.toNat + 8 * sampled.hw.rxIdx) .stat) 2)).getLsbD sampled.params.rxdEmpty = true ∧
    0x20003800 = memRead sampled.params.endian sampled.mem (fieldAddr sampled.params.endian
      (sampled.regs.rxbase.toNat + 8 * sampled.hw.rxIdx) .phys) 4 ∧
    bufferReal sampled 0x20003800 sampled.regs.bufsz.toNat = true ∧
    sampled.shared sampled.hw.rxIdx (0x20003800 + 2047) = false ∧ (sampled.env.answers.frames.headD [])[0]? = some 1 :=
  ⟨sampled_wf, by decide, rfl, rfl, rfl, rfl, rfl, by decide, rfl, by decide, by decide, by decide, by decide,
    by decide +kernel, by decide +kernel, by decide⟩

theorem witness_TxDoneCompletes :
    Memory.wf sampled.mem = true ∧ sampled.regs.macEn = true ∧ sampled.regs.txEn = true ∧ sampled.coreFresh = true ∧
    sampled.tx.alive = true ∧ sampled.hw.txSample = some 0x8800 ∧
    (0x8800 : Half).getLsbD sampled.params.txdReady = true ∧ sampled.tx.base = some sampled.regs.txbase ∧
    sampled.hw.txIdx < sampled.tx.cap ∧
    (BitVec.ofNat 16 (memRead sampled.params.endian sampled.mem (fieldAddr sampled.params.endian
      (sampled.regs.txbase.toNat + 8 * sampled.hw.txIdx) .stat) 2)).getLsbD sampled.params.txdReady = true ∧
    0 = memRead sampled.params.endian sampled.mem (fieldAddr sampled.params.endian
      (sampled.regs.txbase.toNat + 8 * sampled.hw.txIdx) .phys) 4 ∧
    0 = memRead sampled.params.endian sampled.mem (fieldAddr sampled.params.endian
      (sampled.regs.txbase.toNat + 8 * sampled.hw.txIdx) .len) 2 ∧ bufferReal sampled 0 0 = true :=
  ⟨sampled_wf, rfl, rfl, rfl, rfl, rfl, by decide, rfl, by decide, by decide +kernel, by decide +kernel, by decide +kernel,
    by decide⟩

theorem witness_StallAndBusError :
    run.regs.macEn = true ∧ run.regs.rxEn = true ∧ run.regs.txEn = true ∧
    (0x7FFF : Half).getLsbD run.params.rxdEmpty = false ∧ (0x7FFF : Half).getLsbD run.params.txdReady = false := by decide

theorem witness_EngineEnabledOnly :
    Instr.hRxStall.agent = .engine ∧ Instr.hTxDone.agent = .engine ∧ State.reset.regs.macEn = false ∧
    State.reset.regs.rxEn = false ∧ State.reset.regs.txEn = false := by decide

/-- Released, laid out again since, and taken back; the sampled words are the same in all of them. -/
theorem witness_EngineFaultsOnReleased :
    (({ sampled with rx := Ring.reset, tx := Ring.reset } : State).regs.macEn = true ∧
      ({ sampled with rx := Ring.reset, tx := Ring.reset } : State).rx.alive = false ∧
      ({ sampled with rx := Ring.reset, tx := Ring.reset } : State).tx.alive = false) ∧
    ({ sampled with coreFresh := false } : State).coreFresh = false ∧
    (sampled.regs.rxEn = true ∧ sampled.regs.txEn = true ∧ sampled.hw.rxSample = some 0xA000 ∧
      (0xA000 : Half).getLsbD sampled.params.rxdEmpty = true ∧ (2048 : Half).toNat ≤ sampled.regs.bufsz.toNat ∧
      rxFlagsAdmissible sampled.params 0x5FFF = true ∧ sampled.hw.txSample = some 0x8800 ∧
      (0x8800 : Half).getLsbD sampled.params.txdReady = true ∧ run.hw.rxSample = none ∧ run.hw.txSample = none) ∧
    (hwSlot takenBack .rx = some 0x10000038 ∧
      (BitVec.ofNat 16 (memRead takenBack.params.endian takenBack.mem
        (fieldAddr takenBack.params.endian 0x10000038 .stat) 2)).getLsbD takenBack.params.rxdEmpty = false) ∧
    (hwSlot takenBack .tx = some 0x10000048 ∧
      (BitVec.ofNat 16 (memRead takenBack.params.endian takenBack.mem
        (fieldAddr takenBack.params.endian 0x10000048 .stat) 2)).getLsbD takenBack.params.txdReady = false) := by
  decide +kernel

theorem witness_EngineLeavesWhatIsC :
    Instr.hTxDone.agent = .engine ∧ value (exec .hTxDone sampled) (fun t => t.hw.txIdx) = some 2 := by decide +kernel

end Sys2Proof.Machine.Tests
end

/-! ### What every step keeps (00_scope R10, R11; 20_memory) -/

section
namespace Sys2Proof.Machine

/-- A stable property that using an input up and handing over a group keep is kept by a step, whichever of its cases the step
is: nothing done, an act of the host, an operation. -/
theorem step_stable {P : State → Prop} (h : Stable P) (hin : ∀ s, P s → P s.popInput)
    (hh : ∀ s x, P s → P (s.setHanding x)) {s t : State} (hs : P s) (ht : step s = .next t) : P t := by
  obtain ⟨-, rfl | ⟨a, -, ha⟩ | ⟨i, u, -, hu, hi⟩⟩ := step_next ht
  · exact hs
  · exact h.gap.hostAct a _ () t (hin s hs) ha
  · have hPu : P u := by
      obtain rfl | rfl := hu
      · exact hs
      · exact hin s hs
    exact exec_stable h (fun fs b => h.handOverTx hh fs b) i hPu hi

theorem step_memOk {s t : State} (hs : MemOk s) (ht : step s = .next t) : MemOk t :=
  step_stable stable_memOk (fun _ h => h) (fun _ _ h => h) hs ht

theorem step_params {s t : State} (ht : step s = .next t) : t.params = s.params :=
  step_stable (stable_params s.params) (fun _ h => h) (fun _ _ h => h) rfl ht

/-- Settles O12: canonical memory and the parameters are stable properties, which every step keeps. -/
theorem stepKeepsFormAndParameters : Obligations.StepKeepsFormAndParameters :=
  fun _ _ ht => ⟨fun hs => step_memOk hs ht, step_params ht⟩

end Sys2Proof.Machine
end

/-! ### The power-on state and sound states (10_state R29 to R38, R61) -/

section
namespace Sys2Proof.Machine

/-- Settles O8: each register of the power-on state is read off `State.reset`. -/
theorem resetState : Obligations.ResetState :=
  ⟨rfl, rfl, rfl, rfl, rfl, rfl, rfl, rfl, rfl, rfl, rfl⟩

/-- A ring of which nothing is allocated is sound, whatever the alignment. -/
theorem Ring.reset_sound (align : Nat) : Ring.reset.Sound align := .dead rfl rfl

/-- At power-on no ring is alive, so there are no blocks to keep apart and no groups in flight. -/
theorem reset_ringsSound : RingsSound State.reset.priv where
  params := by decide
  rx := Ring.reset_sound _
  tx := Ring.reset_sound _
  both := rfl
  apart := nofun
  counts := nofun
  groups := nofun

/-- Off with `bstep` 0, the sequencing registers are those of no other mode. -/
theorem reset_seqSound : SeqSound State.reset.priv := by
  constructor <;> decide

/-- Settles O9: nothing is allocated, no event is pending or unmasked, and the mode is Off. -/
theorem resetSound : Obligations.ResetSound where
  priv := ⟨reset_ringsSound, nofun, fun _ => rfl, reset_seqSound⟩
  mem := rfl
  mask := by decide
  event := by decide
  handing := rfl

/-- Using an input up keeps a sound state sound: `Inv` says nothing about the trace. -/
theorem Inv.popInput {s : State} (h : Inv s) : Inv s.popInput := ⟨h.priv, h.mem, h.mask, h.event, h.handing⟩

/-- Settles O10: a step does nothing, or it is an act of the host, or an operation on the state it was fetched from; each
keeps a sound state sound. -/
theorem stepKeepsInvariant : Obligations.StepKeepsInvariant := by
  intro s t hs ht
  obtain ⟨-, rfl | ⟨a, -, ha⟩ | ⟨i, u, -, hu, hi⟩⟩ := step_next ht
  · exact hs
  · exact hostAct_inv hs.popInput ha
  · have hu : Inv u := by
      obtain rfl | rfl := hu
      · exact hs
      · exact hs.popInput
    exact exec_inv i hu hi

/-- In a sound live ring `head = tail` means empty: with two slots in reserve it cannot mean full (10_state R30, R31). -/
theorem Ring.Sound.head_eq_tail_iff {r : Ring} {align : Nat} (h : r.Sound align) (ha : r.alive = true) :
    r.head = r.tail ↔ r.inflight = 0 := by
  rw [Ring.inflight_eq (h.head ha) (h.tail ha)]
  have := h.head ha
  split <;> omega

/-- Each of the two rings of sound private registers is sound. -/
theorem RingsSound.ring {s : State} (h : RingsSound s.priv) (d : Dir) : (s.ring d).Sound s.params.dmaAlign :=
  match d with
  | .rx => h.rx
  | .tx => h.tx

/-- The group at the head of a transmit ring with slots in flight is recorded, and whole (10_state R33). -/
theorem RingsSound.head_group {s : State} (h : RingsSound s.priv) (ha : s.tx.alive = true) (hp : s.tx.pending = true) :
    1 ≤ s.ndesc.getD s.tx.head 0 ∧ s.ndesc.getD s.tx.head 0 ≤ s.tx.inflight := by
  have hpos : 0 < s.tx.inflight := (Ring.pending_iff (h.tx.head ha) (h.tx.tail ha)).1 hp
  obtain ⟨hone, hle, -⟩ := (h.groups ha).first hpos
  exact ⟨hone, hle⟩

/-- Settles O11: the reserve is part of `Inv`, so `head = tail` means empty, and the group at the head is the first of the
groups in flight. -/
theorem ringsNeverAmbiguous : Obligations.RingsNeverAmbiguous := by
  intro s hs
  have hr : RingsSound s.priv := hs.priv.rings
  exact ⟨fun d ha => ⟨(hr.ring d).reserve ha, (hr.ring d).head_eq_tail_iff ha⟩, hr.head_group⟩

end Sys2Proof.Machine
end

/-! ### Issued writes, byte by byte, and what C reads of them (20_memory R74, R77) -/

section
namespace Sys2Proof.Machine

/-! #### One byte under issued writes -/

/-- The write touches the byte at `k`. -/
def PendWrite.covers (w : PendWrite) (k : Nat) : Bool := decide (w.addr ≤ k ∧ k < w.addr + w.bytes.length)

/-- A write that touches one of the `n` bytes at `a` overlaps them. -/
theorem overlaps_of_covers {w : PendWrite} {a n k : Nat} (h : w.covers k = true) (ha : a ≤ k) (hk : k < a + n) :
    overlaps w.addr w.bytes.length a n = true := by
  simp only [PendWrite.covers, overlaps, Bool.and_eq_true, decide_eq_true_eq] at h ⊢
  omega

/-- A write that overlaps none of the `n` bytes at `a` touches none of them. -/
theorem not_covers_of_apart {w : PendWrite} {a n k : Nat} (h : overlaps w.addr w.bytes.length a n = false)
    (ha : a ≤ k) (hk : k < a + n) : w.covers k = false :=
  Bool.eq_false_iff.2 fun hc => Bool.eq_false_iff.1 h (overlaps_of_covers hc ha hk)

theorem read_performOne (w : PendWrite) (k : Nat) {m : Memory} (h : Memory.wf m = true) :
    Memory.read k (performOne m w) = if w.covers k then w.bytes.getD (k - w.addr) 0 else Memory.read k m := by
  simp only [PendWrite.covers, decide_eq_true_eq]
  exact Memory.read_writeBytes w.addr k w.bytes h

theorem read_performOne_of_not_covers {w : PendWrite} {k : Nat} {m : Memory} (h : Memory.wf m = true)
    (hw : w.covers k = false) : Memory.read k (performOne m w) = Memory.read k m := by
  rw [read_performOne w k h, hw]
  rfl

/-- What a byte becomes depends on that byte alone. -/
theorem read_performOne_congr (w : PendWrite) {k : Nat} {m m' : Memory} (h : Memory.wf m = true)
    (h' : Memory.wf m' = true) (hk : Memory.read k m = Memory.read k m') :
    Memory.read k (performOne m w) = Memory.read k (performOne m' w) := by
  rw [read_performOne w k h, read_performOne w k h', hk]

theorem read_performAll_congr (ws : List PendWrite) {k : Nat} {m m' : Memory} (h : Memory.wf m = true)
    (h' : Memory.wf m' = true) (hk : Memory.read k m = Memory.read k m') :
    Memory.read k (performAll m ws) = Memory.read k (performAll m' ws) := by
  induction ws generalizing m m' with
  | nil => exact hk
  | cons w ws ih => exact ih (wf_performOne w h) (wf_performOne w h') (read_performOne_congr w h h' hk)

/-- Of the issued writes only those that touch a byte decide what it becomes. -/
theorem read_performAll_filter (p : PendWrite → Bool) (ws : List PendWrite) {k : Nat} {m : Memory}
    (h : Memory.wf m = true) (hp : ∀ w ∈ ws, w.covers k = true → p w = true) :
    Memory.read k (performAll m (ws.filter p)) = Memory.read k (performAll m ws) := by
  induction ws generalizing m with
  | nil => rfl
  | cons w ws ih =>
    obtain ⟨hw, hws⟩ := List.forall_mem_cons.1 hp
    cases hpw : p w with
    | true =>
      rw [List.filter_cons_of_pos hpw]
      exact ih (wf_performOne w h) hws
    | false =>
      have hcov : w.covers k = false := Bool.eq_false_iff.2 fun hc => Bool.eq_false_iff.1 hpw (hw hc)
      rw [List.filter_cons_of_neg (by simp [hpw]), ih h hws]
      exact read_performAll_congr ws h (wf_performOne w h) (read_performOne_of_not_covers h hcov).symm

theorem read_performAll_of_not_covers {ws : List PendWrite} {k : Nat} {m : Memory} (h : Memory.wf m = true)
    (hws : ∀ w ∈ ws, w.covers k = false) : Memory.read k (performAll m ws) = Memory.read k m := by
  rw [← read_performAll_filter (fun _ => false) ws h fun w hw hc => by simp [hws w hw] at hc]
  simp [performAll]

/-- A write may be performed ahead of issued writes that it does not overlap (R74 (a)). -/
theorem read_performAll_ahead {ws : List PendWrite} {w : PendWrite} (k : Nat) {m : Memory} (h : Memory.wf m = true)
    (hws : ∀ v ∈ ws, overlaps v.addr v.bytes.length w.addr w.bytes.length = false) :
    Memory.read k (performAll (performOne m w) ws) = Memory.read k (performOne (performAll m ws) w) := by
  cases hk : w.covers k with
  | true =>
    have hin : w.addr ≤ k ∧ k < w.addr + w.bytes.length := of_decide_eq_true hk
    rw [read_performAll_of_not_covers (wf_performOne w h) fun v hv => not_covers_of_apart (hws v hv) hin.1 hin.2,
      read_performOne w k h, read_performOne w k (wf_performAll ws h), if_pos hk, if_pos hk]
  | false =>
    rw [read_performOne_of_not_covers (wf_performAll ws h) hk]
    exact read_performAll_congr ws (wf_performOne w h) h (read_performOne_of_not_covers h hk)

/-! #### What the memory system does on its own -/

/-- Everything `performNth` can do: nothing, or one issued write performed ahead of those it does not overlap. -/
theorem performNth_cases (k : Nat) (s : State) :
    performNth k s = s ∨ ∃ pre w post, s.pend = pre ++ w :: post ∧
      (∀ v ∈ pre, overlaps v.addr v.bytes.length w.addr w.bytes.length = false) ∧
      performNth k s = (s.setMem (performOne s.mem w)).setPend (pre ++ post) := by
  unfold performNth
  split
  · exact .inl rfl
  · next w hw =>
    obtain ⟨hk, rfl⟩ := List.getElem?_eq_some_iff.1 hw
    split
    · exact .inl rfl
    · next hfree =>
      refine .inr ⟨s.pend.take k, s.pend[k], s.pend.drop (k + 1), ?_, by simpa using hfree, ?_⟩
      · rw [← List.drop_eq_getElem_cons hk, List.take_append_drop]
      · rw [List.eraseIdx_eq_take_drop_succ]

/-- Everything `prefetchAt` can do: nothing, or a read ahead of bytes that no issued write overlaps. -/
theorem prefetchAt_cases (a n : Nat) (s : State) :
    prefetchAt a n s = s ∨ (∀ v ∈ s.pend, overlaps v.addr v.bytes.length a n = false) ∧
      prefetchAt a n s = s.setEarly (⟨a, Memory.readBytes a n s.mem⟩ :: s.early) := by
  unfold prefetchAt
  split
  · exact .inl rfl
  · next h =>
    rw [Bool.or_eq_true, not_or] at h
    exact .inr ⟨by simpa using h.1, rfl⟩

theorem performNth_sameBytes (k : Nat) {s : State} (h : MemOk s) : SameBytes s (performNth k s) := by
  intro a
  obtain e | ⟨pre, w, post, hpend, hfree, e⟩ := performNth_cases k s
  · rw [e]
  · have hl : (performNth k s).settled = performAll (performAll (performOne s.mem w) pre) post := by
      rw [e]
      exact List.foldl_append
    have hr : s.settled = performAll (performOne (performAll s.mem pre) w) post := by
      rw [State.settled, hpend]
      exact List.foldl_append
    rw [hl, hr]
    exact read_performAll_congr post (wf_performAll pre (wf_performOne w h)) (wf_performOne w (wf_performAll pre h))
      (read_performAll_ahead a h hfree)

/-- Settles O14: the write performed passes only writes it does not overlap, so no byte sees a change of order. -/
theorem performedInAnyOrder : Obligations.PerformedInAnyOrder :=
  fun s k h => ⟨gapped_memOk.performNth k s h, performNth_sameBytes k h⟩

/-! #### What C reads -/

/-- Bytes no issued write overlaps are already what they come to be. -/
theorem readBytes_settled_of_apart {s : State} {a n : Nat} (h : MemOk s)
    (ha : ∀ v ∈ s.pend, overlaps v.addr v.bytes.length a n = false) :
    Memory.readBytes a n s.settled = Memory.readBytes a n s.mem :=
  Memory.readBytes_congr fun _ h1 h2 =>
    read_performAll_of_not_covers h fun v hv => not_covers_of_apart (ha v hv) h1 h2

/-- Once the issued writes to the bytes about to be read are performed, memory holds of them what it comes to hold. -/
theorem readBytes_flushTouching {s : State} (a n : Nat) (h : MemOk s) :
    Memory.readBytes a n (flushTouching a n s).mem = Memory.readBytes a n s.settled :=
  Memory.readBytes_congr fun _ h1 h2 =>
    read_performAll_filter _ s.pend h fun _ _ hc => overlaps_of_covers hc h1 h2

/-- A read of C ends in any state. -/
theorem issueRead_eq (a n : Nat) (s : State) :
    issueRead a n s = .ok (readValue a n (flushTouching a n s), (flushTouching a n s).setEarly
      ((flushTouching a n s).early.filter fun e => !overlaps e.addr e.bytes.length a n)) := rfl

/-- A read of C at `a` yields `bs`: memory comes to hold them, and a read ahead of exactly these bytes has them. -/
structure Yields (a : Nat) (bs : List Byte) (s : State) : Prop where
  mem     : MemOk s
  settled : Memory.readBytes a bs.length s.settled = bs
  early   : ∀ e ∈ s.early, e.addr = a → e.bytes.length = bs.length → e.bytes = bs

/-- A write of C leaves no read ahead that overlaps it; only of no bytes at all can one be of exactly its bytes. -/
theorem issueWrite_yields (a : Nat) (bs : List Byte) {s : State} (h : MemOk s) : Yields a bs (issueWrite a bs s) where
  mem := h
  settled := by
    rw [issueWrite_settled]
    exact Memory.readBytes_writeBytes a bs (settled_wf h)
  early e he ha hl := by
    have hapart : overlaps e.addr e.bytes.length a bs.length = false := by simpa using (List.mem_filter.1 he).2
    have hempty : bs.length = 0 := by
      rw [ha, hl] at hapart
      simp only [overlaps, Bool.and_eq_false_iff, decide_eq_false_iff_not] at hapart
      omega
    rw [List.length_eq_zero_iff.1 hempty, List.length_eq_zero_iff.1 (hl.trans hempty)]

section
variable {a : Nat} {bs : List Byte}

theorem Yields.performNth {s : State} (h : Yields a bs s) (k : Nat) : Yields a bs (performNth k s) where
  mem := gapped_memOk.performNth k s h.mem
  settled := (Memory.readBytes_congr fun x _ _ => performNth_sameBytes k h.mem x).trans h.settled
  early := by
    obtain e | ⟨_, _, _, -, -, e⟩ := performNth_cases k s <;> rw [e] <;> exact h.early

theorem Yields.prefetchAt {s : State} (h : Yields a bs s) (b n : Nat) : Yields a bs (prefetchAt b n s) := by
  obtain e | ⟨hfree, e⟩ := prefetchAt_cases b n s <;> rw [e]
  · exact h
  · refine ⟨h.mem, h.settled, List.forall_mem_cons.2 ⟨fun hb hn => ?_, h.early⟩⟩
    obtain rfl : b = a := hb
    obtain rfl : n = bs.length := by simpa using hn
    exact (readBytes_settled_of_apart h.mem hfree).symm.trans h.settled

theorem Yields.flush {s : State} (h : Yields a bs s) : Yields a bs (flush s) := ⟨settled_wf h.mem, h.settled, nofun⟩

theorem yields_envStep {e : EnvStep} (he : e.ofMemory = true) : Keeps (Yields a bs) (envStep e) := by
  cases e with
  | perform k => exact Keeps.upd fun _ h => h.performNth k
  | prefetch b n => exact Keeps.upd fun _ h => h.prefetchAt b n
  | _ => cases he

theorem yields_envSteps {es : List EnvStep} (hes : es.all EnvStep.ofMemory = true) :
    Keeps (Yields a bs) (envSteps es) := by
  induction es with
  | nil => exact Keeps.pure
  | cons e es ih =>
    obtain ⟨he, hes⟩ := Bool.and_eq_true_iff.1 hes
    exact Keeps.bind (yields_envStep he) fun _ => ih hes

theorem Yields.readValue {s : State} (h : Yields a bs s) :
    readValue a bs.length (flushTouching a bs.length s) = bs := by
  unfold Machine.readValue
  split
  · next e he =>
    have hexact := List.find?_some he
    simp only [Bool.and_eq_true, decide_eq_true_eq] at hexact
    exact h.early e (List.mem_of_find?_eq_some he) hexact.1 hexact.2
  · rw [readBytes_flushTouching a _ h.mem, h.settled]

theorem Yields.issueRead {s : State} (h : Yields a bs s) :
    ∃ t, issueRead a bs.length s = .ok (bs, t) ∧ t.owned = s.owned := by
  have hread := issueRead_eq a bs.length s
  rw [h.readValue] at hread
  exact ⟨_, hread, issueRead_owned _ _ _ _ _ hread⟩

end

/-- Settles O15: from the write on, its bytes are what a read yields, and neither the memory system nor a flush changes that. -/
theorem readsOwnWrite : Obligations.ReadsOwnWrite := by
  intro s u a bs es hm hes hu
  have hy : Yields a bs u := yields_envSteps hes _ () u (issueWrite_yields a bs hm) hu
  have ho : u.owned = s.owned := (gapped_owned s.owned).envSteps es (issueWrite a bs s) () u rfl hu
  obtain ⟨t, ht, hto⟩ := hy.issueRead
  obtain ⟨t', ht', hto'⟩ := hy.flush.issueRead
  exact ⟨⟨t, ht, hto.trans ho⟩, t', ht', hto'.trans ho⟩

/-! #### What happens between two events, and a barrier after it -/

/-- Settles O16: what C owns and that no event is cleared and no path enabled are kept by each thing a gap is made of. -/
theorem gapLeavesWhatIsC : Obligations.GapLeavesWhatIsC :=
  fun s t h => ⟨tick_owned s () t h, (gapped_grown _ _ _).tick s () t (grown_refl s) h⟩

theorem barrier_gap {s u : State} (h : tick s = .ok ((), u)) : barrier s = .ok ((), flush u) := by
  rw [barrier, run_bind_ok h, run_upd]

/-- Settles O13: after the gap a barrier is a flush, which changes memory and what is issued and read ahead, no other field. -/
theorem barrierPerforms : Obligations.BarrierPerforms :=
  fun _ u h => ⟨flush u, barrier_gap h, flush_mem u, flush_pend u, flush_early u, flush_regs u, flush_hw u,
    flush_owned u, flush_env u⟩

end Sys2Proof.Machine
end

/-! ### Words and the operations they stand for (30_encoding R101 to R107) -/

section
namespace Sys2Proof.Machine

/-! #### Words as fields side by side (R101 to R104) -/

/-- A run of bits of a run of bits. -/
theorem extractLsb'_extractLsb' {n s a l k : Nat} (x : BitVec n) (h : a + k ≤ l) :
    (x.extractLsb' s l).extractLsb' a k = x.extractLsb' (s + a) k := by
  refine BitVec.eq_of_getLsbD_eq fun i hi => ?_
  simp [hi, show a + i < l by omega, Nat.add_assoc]

/-- A word is two fields side by side exactly where cutting it gives the fields. -/
theorem eq_append_iff {v w : Nat} {x : BitVec v} {y : BitVec w} {z : BitVec (v + w)} :
    z = x ++ y ↔ z.extractLsb' w v = x ∧ z.extractLsb' 0 w = y := by
  constructor
  · rintro rfl
    exact ⟨BitVec.extractLsb'_append_eq_left, BitVec.extractLsb'_append_eq_right⟩
  · rintro ⟨rfl, rfl⟩
    rw [BitVec.extractLsb'_append_extractLsb'_eq_extractLsb' (Nat.zero_add w).symm, BitVec.extractLsb'_eq_self]

/-- A word is a field with zeros above it exactly where cutting it gives the zeros and the field. -/
theorem eq_setWidth_iff {v w : Nat} {x : BitVec v} {z : BitVec (w + v)} :
    z = x.setWidth (w + v) ↔ z.extractLsb' v w = 0 ∧ z.setWidth v = x := by
  rw [BitVec.setWidth_eq_append (Nat.le_add_left v w), BitVec.setWidth_eq_extractLsb' (Nat.le_add_left v w)]
  simp [eq_append_iff]

theorem eq_cmdWord_iff {op : Byte} {arg : BitVec 24} {c : Word} : c = cmdWord op arg ↔ opOf c = op ∧ argOf c = arg :=
  eq_append_iff (v := 8) (w := 24)

theorem eq_macWord0_iff {m : Mac} {w : Word} :
    w = macWord0 m ↔ w.extractLsb' 24 8 = m.b0 ∧ w.extractLsb' 16 8 = m.b1 ∧ w.extractLsb' 8 8 = m.b2 ∧
      w.extractLsb' 0 8 = m.b3 := by
  rw [macWord0, eq_append_iff (v := 24) (w := 8), eq_append_iff (v := 16) (w := 8), eq_append_iff (v := 8) (w := 8)]
  simp [extractLsb'_extractLsb', and_assoc]

theorem eq_macWord1_iff {m : Mac} {w : Word} :
    w = macWord1 m ↔ w.extractLsb' 24 8 = m.b4 ∧ w.extractLsb' 16 8 = m.b5 ∧ w.extractLsb' 0 16 = 0 := by
  rw [macWord1, eq_append_iff (v := 16) (w := 16), eq_append_iff (v := 8) (w := 8)]
  simp [extractLsb'_extractLsb', and_assoc]

theorem eq_cfgWord0_iff {c : PlatformCfg} {w : Word} :
    w = cfgWord0 c ↔ w.extractLsb' 31 1 = BitVec.ofBool c.remoteMdio ∧ w.extractLsb' 24 7 = 0 ∧
      w.extractLsb' 16 8 = c.index ∧ w.extractLsb' 10 6 = 0 ∧ w.extractLsb' 8 2 = promiscCode c.promisc ∧
      w.extractLsb' 0 8 = c.phyAddr := by
  rw [cfgWord0, eq_append_iff (v := 24) (w := 8), eq_append_iff (v := 22) (w := 2), eq_append_iff (v := 16) (w := 6),
    eq_append_iff (v := 8) (w := 8), eq_append_iff (v := 1) (w := 7)]
  simp [extractLsb'_extractLsb', and_assoc]

theorem eq_speedArg_iff {v : Half} {d : Duplex} {arg : BitVec 24} :
    arg = speedArg v d ↔ arg.extractLsb' 8 16 = v ∧ arg.extractLsb' 1 7 = 0 ∧ arg.extractLsb' 0 1 = duplexBit d := by
  rw [speedArg, eq_append_iff (v := 23) (w := 1), eq_append_iff (v := 16) (w := 7)]
  simp [extractLsb'_extractLsb', and_assoc]

theorem eq_mdioArg_iff {phy reg : BitVec 5} {arg : BitVec 24} :
    arg = mdioArg phy reg ↔ arg.extractLsb' 13 11 = 0 ∧ arg.extractLsb' 8 5 = phy ∧ arg.extractLsb' 5 3 = 0 ∧
      arg.extractLsb' 0 5 = reg := by
  rw [mdioArg, eq_append_iff (v := 19) (w := 5), eq_append_iff (v := 16) (w := 3), eq_append_iff (v := 11) (w := 5)]
  simp [extractLsb'_extractLsb', and_assoc]

theorem eq_halfWord_iff {v : Half} {w : Word} :
    w = v.setWidth 32 ↔ w.extractLsb' 16 16 = 0 ∧ w.setWidth 16 = v := eq_setWidth_iff (v := 16) (w := 16)

theorem eq_halfArg_iff {v : Half} {arg : BitVec 24} :
    arg = v.setWidth 24 ↔ arg.extractLsb' 16 8 = 0 ∧ arg.extractLsb' 0 16 = v := by
  rw [eq_setWidth_iff (v := 16) (w := 8), BitVec.setWidth_eq_extractLsb' (v := 24) (w := 16) (by decide)]

/-! #### Codes of one or two bits -/

theorem eq_promiscCode_iff {p : Promisc} {code : BitVec 2} :
    code = promiscCode p ↔ code ≠ 3 ∧ (if code = 0 then .unspecified else if code = 1 then .off else .on) = p := by
  cases p <;> revert code <;> decide

theorem extract_eq_ofBool_iff {n i : Nat} {b : Bool} {w : BitVec n} :
    w.extractLsb' i 1 = BitVec.ofBool b ↔ w.getLsbD i = b := by
  rw [BitVec.getLsbD_eq_extractLsb']
  generalize w.extractLsb' i 1 = c
  revert b c
  decide

theorem extract_eq_duplexBit_iff {n i : Nat} {d : Duplex} {w : BitVec n} :
    w.extractLsb' i 1 = duplexBit d ↔ (if w.getLsbD i then .full else .half) = d := by
  rw [BitVec.getLsbD_eq_extractLsb']
  generalize w.extractLsb' i 1 = c
  cases d <;> revert c <;> decide

/-! #### Operands: decoding answers exactly what encodes to the words -/

theorem macOfWords_eq_ok {w0 w1 : Word} {m : Mac} : macOfWords w0 w1 = .ok m ↔ w0 = macWord0 m ∧ w1 = macWord1 m := by
  rw [eq_macWord0_iff, eq_macWord1_iff, macOfWords]
  cases m
  split <;> simp_all [and_assoc]

theorem cfgOfWords_eq_ok {w0 w1 w2 : Word} {c : PlatformCfg} :
    cfgOfWords w0 w1 w2 = .ok c ↔ w0 = cfgWord0 c ∧ w1 = macWord0 c.mac ∧ w2 = macWord1 c.mac := by
  rw [eq_cfgWord0_iff, extract_eq_ofBool_iff, eq_promiscCode_iff, ← macOfWords_eq_ok, cfgOfWords]
  obtain ⟨phy, promisc, index, mac, remote⟩ := c
  split
  · next hres =>
    split
    · next hm => simp [hm]
    · next hm =>
      dsimp only
      split
      · next hcode => simp only [reduceCtorEq, false_iff]; tauto
      · next hcode =>
        simp only [hm, Except.ok.injEq, PlatformCfg.mk.injEq]
        tauto
  · next hres =>
    simp only [reduceCtorEq, false_iff]
    tauto

/-- A length word carries a fragment's length exactly within 1 to 65535 (41_buffer_supply R124). -/
theorem fragLength_iff {l : Word} {f : Frag} :
    (1 ≤ l.toNat ∧ l.toNat ≤ 65535) ∧ l.setWidth 16 = f.len ↔ f.wf = true ∧ l = f.len.setWidth 32 := by
  have hf : f.wf = true ↔ f.len.toNat ≠ 0 := by simp [Frag.wf, ← BitVec.toNat_inj]
  rw [hf, ← BitVec.toNat_inj, ← BitVec.toNat_inj, BitVec.toNat_setWidth, BitVec.toNat_setWidth]
  omega

theorem parseFrags_eq_ok {n : Nat} {ws : List Word} {fs : List Frag} {h : Word} :
    parseFrags n ws = .ok (fs, h) ↔ n = fs.length ∧ fs.all Frag.wf = true ∧ ws = fragWords fs h := by
  constructor
  · intro hp
    induction n generalizing ws fs with
    | zero =>
      match ws, hp with
      | [_], rfl => exact ⟨rfl, rfl, rfl⟩
    | succ n ih =>
      match ws, hp with
      | p :: l :: rest, hp =>
        rw [parseFrags] at hp
        split at hp
        · next hl =>
          split at hp
          · next gs g hg =>
            cases hp
            obtain ⟨hlen, hwf, hws⟩ := ih hg
            obtain ⟨hf, hfl⟩ := fragLength_iff (f := ⟨p, l.setWidth 16⟩).1 ⟨hl, rfl⟩
            exact ⟨by rw [List.length_cons, hlen], by rw [List.all_cons, hf, hwf]; rfl, by rw [fragWords, ← hfl, hws]⟩
          · cases hp
        · cases hp
  · rintro ⟨rfl, hwf, rfl⟩
    induction fs with
    | nil => rfl
    | cons f fs ih =>
      obtain ⟨hf, hwf⟩ := Bool.and_eq_true_iff.1 hwf
      obtain ⟨hl, hfl⟩ := fragLength_iff.2 ⟨hf, rfl⟩
      rw [fragWords, List.length_cons, parseFrags, if_pos hl, ih hwf, hfl]

/-- `arg` counts 1 to 2^24 − 1 fragments exactly where it has the value of a list's length that fits. -/
theorem decodeFrags_eq_ok {arg : BitVec 24} {ops : List Word} {mk : List Frag → Word → Instr} {i : Instr} :
    decodeFrags arg ops mk = .ok i ↔
      ∃ fs h, fragsWf fs = true ∧ arg = BitVec.ofNat 24 fs.length ∧ ops = fragWords fs h ∧ mk fs h = i := by
  simp only [fragsWf, Bool.and_eq_true, decide_eq_true_eq]
  constructor
  · intro hd
    unfold decodeFrags at hd
    split at hd
    · cases hd
    · next harg =>
      split at hd
      · next fs h hp =>
        cases hd
        obtain ⟨hlen, hwf, hws⟩ := parseFrags_eq_ok.1 hp
        have hpos : arg.toNat ≠ 0 := by simpa [← BitVec.toNat_inj] using harg
        exact ⟨fs, h, ⟨⟨by omega, by omega⟩, hwf⟩, by simp [← hlen], hws, rfl⟩
      · cases hd
  · rintro ⟨fs, h, ⟨⟨hpos, hlt⟩, hwf⟩, rfl, rfl, rfl⟩
    have hlen : (BitVec.ofNat 24 fs.length).toNat = fs.length := by rw [BitVec.toNat_ofNat, Nat.mod_eq_of_lt hlt]
    have harg : BitVec.ofNat 24 fs.length ≠ 0 := fun h => by
      have hzero : (BitVec.ofNat 24 fs.length).toNat = 0 := congrArg BitVec.toNat h
      omega
    rw [decodeFrags, if_neg harg, hlen, parseFrags_eq_ok.2 ⟨rfl, hwf, rfl⟩]

theorem decodePlain_eq_ok {arg : BitVec 24} {ops : List Word} {i j : Instr} :
    decodePlain arg ops i = .ok j ↔ arg = 0 ∧ ops = [] ∧ i = j := by
  unfold decodePlain
  split
  · cases ops <;> simp_all
  · simp_all

theorem decodeWord_eq_ok {arg : BitVec 24} {ops : List Word} {mk : Word → Instr} {i : Instr} :
    decodeWord arg ops mk = .ok i ↔ arg = 0 ∧ ∃ m, ops = [m] ∧ mk m = i := by
  unfold decodeWord
  split
  · split <;> simp_all
  · simp_all

theorem decodeRingInit_eq_ok {arg : BitVec 24} {ops : List Word} {i : Instr} :
    decodeRingInit arg ops = .ok i ↔ arg = 0 ∧ ∃ a b, ops = [a, b] ∧ .ringInit a b = i := by
  unfold decodeRingInit
  split
  · split <;> simp_all
  · simp_all

theorem decodeInit_eq_ok {arg : BitVec 24} {ops : List Word} {i : Instr} :
    decodeInit arg ops = .ok i ↔
      arg = 0 ∧ ∃ c, ops = [cfgWord0 c, macWord0 c.mac, macWord1 c.mac] ∧ .init c = i := by
  unfold decodeInit
  split
  · split
    · simp only [List.cons.injEq, and_true, ← cfgOfWords_eq_ok]
      split <;> simp_all
    · simp_all
  · simp_all

theorem decodeMacCoreInit_eq_ok {arg : BitVec 24} {ops : List Word} {i : Instr} :
    decodeMacCoreInit arg ops = .ok i ↔
      arg = 0 ∧ ∃ rb tb sz m, ops = [rb, tb, sz, macWord0 m, macWord1 m] ∧ .macCoreInit rb tb sz m = i := by
  unfold decodeMacCoreInit
  split
  · split
    · simp only [List.cons.injEq, and_true, ← macOfWords_eq_ok]
      split <;> simp_all
    · simp_all
  · simp_all

theorem decodeSpeed_eq_ok {arg : BitVec 24} {ops : List Word} {i : Instr} :
    decodeSpeed arg ops = .ok i ↔ ∃ v d, arg = speedArg v d ∧ ops = [] ∧ .setSpeedDuplex v d = i := by
  simp only [eq_speedArg_iff, extract_eq_duplexBit_iff]
  unfold decodeSpeed
  split
  · cases ops <;> simp_all
  · simp_all

theorem decodeMdio_eq_ok {arg : BitVec 24} {phy reg : BitVec 5} :
    decodeMdio arg = .ok (phy, reg) ↔ arg = mdioArg phy reg := by
  rw [eq_mdioArg_iff, decodeMdio]
  split <;> simp_all

theorem decodeMdioRead_eq_ok {arg : BitVec 24} {ops : List Word} {i : Instr} :
    decodeMdioRead arg ops = .ok i ↔ ∃ phy reg, arg = mdioArg phy reg ∧ ops = [] ∧ .mdioRead phy reg = i := by
  simp only [← decodeMdio_eq_ok]
  unfold decodeMdioRead
  split
  · simp_all
  · cases ops <;> simp_all

theorem decodeMdioWrite_eq_ok {arg : BitVec 24} {ops : List Word} {i : Instr} :
    decodeMdioWrite arg ops = .ok i ↔
      ∃ phy reg v, arg = mdioArg phy reg ∧ ops = [v.setWidth 32] ∧ .mdioWrite phy reg v = i := by
  simp only [← decodeMdio_eq_ok]
  unfold decodeMdioWrite
  split
  · simp_all
  · split
    · simp only [List.cons.injEq, and_true, eq_halfWord_iff]
      split <;> simp_all
    · simp_all

theorem decodeRxDone_eq_ok {arg : BitVec 24} {ops : List Word} {i : Instr} :
    decodeRxDone arg ops = .ok i ↔ ∃ l f, arg = l.setWidth 24 ∧ ops = [f.setWidth 32] ∧ .hRxDone l f = i := by
  simp only [eq_halfArg_iff]
  unfold decodeRxDone
  split
  · split
    · simp only [List.cons.injEq, and_true, eq_halfWord_iff]
      split <;> simp_all
    · simp_all
  · simp_all

/-! #### The table of selectors (R105) -/

/-- A byte is in a list where its value is. -/
theorem mem_of_toNat_mem {op : Byte} {l : List Byte} {n : Nat} (hop : op.toNat = n) (hn : n ∈ l.map BitVec.toNat) :
    op ∈ l := by
  obtain ⟨b, hb, rfl⟩ := List.mem_map.1 hn
  rwa [BitVec.eq_of_toNat_eq hop]

/-- What decoding a selector that 30_encoding R105 does not assign answers. -/
theorem decodeOp_unassigned {op : Byte} (h : op ∉ selectors) (arg : BitVec 24) (ops : List Word) :
    decodeOp op arg ops = .error (.reservedSelector op) := by
  unfold decodeOp
  split
  case h_47 => rfl
  all_goals
    next hop => exact absurd (mem_of_toNat_mem hop (by decide)) h

/-- What decoding a selector answers: the selectors of R105 with the operands that R104 gives them, family by family. -/
inductive Decoded (arg : BitVec 24) (ops : List Word) : Byte → Except DecodeError Instr → Prop
  | unassigned {op : Byte} : op ∉ selectors → Decoded arg ops op (.error (.reservedSelector op))
  | plain {op : Byte} (i : Instr) : i.wf = true → encode i = encodePlain op [] → Decoded arg ops op (decodePlain arg ops i)
  | word {op : Byte} (mk : Word → Instr) : (∀ m, (mk m).wf = true) → (∀ m, encode (mk m) = encodePlain op [m]) →
      Decoded arg ops op (decodeWord arg ops mk)
  | frags {op : Byte} (mk : List Frag → Word → Instr) : op ∈ argSelectors → (∀ fs h, (mk fs h).wf = fragsWf fs) →
      (∀ fs h, encode (mk fs h) = encodeFrags op fs h) → Decoded arg ops op (decodeFrags arg ops mk)
  | ringInit : Decoded arg ops 0x10 (decodeRingInit arg ops)
  | init : Decoded arg ops 0x50 (decodeInit arg ops)
  | macCoreInit : Decoded arg ops 0x70 (decodeMacCoreInit arg ops)
  | speed : Decoded arg ops 0x6B (decodeSpeed arg ops)
  | mdioRead : Decoded arg ops 0x6E (decodeMdioRead arg ops)
  | mdioWrite : Decoded arg ops 0x6F (decodeMdioWrite arg ops)
  | rxDone : Decoded arg ops 0xE1 (decodeRxDone arg ops)

theorem decodeOp_decoded (op : Byte) (arg : BitVec 24) (ops : List Word) : Decoded arg ops op (decodeOp op arg ops) := by
  by_cases h : op ∈ selectors
  · fin_cases h
    -- The operations without operands; what is left are those that have some, in the order of the table.
    any_goals exact .plain _ rfl rfl
    · exact .ringInit
    · exact .frags .enqTx (by decide) (fun _ _ => rfl) fun _ _ => rfl
    · exact .init
    · exact .word .evClear (fun _ => rfl) fun _ => rfl
    · exact .word .evSetMask (fun _ => rfl) fun _ => rfl
    · exact .speed
    · exact .mdioRead
    · exact .mdioWrite
    · exact .macCoreInit
    · exact .frags .transmit (by decide) (fun _ _ => rfl) fun _ _ => rfl
    · exact .rxDone
  · rw [decodeOp_unassigned h]
    exact .unassigned h

/-- What decoding answers encodes to the words. -/
theorem Decoded.encode_eq {op : Byte} {arg : BitVec 24} {ops : List Word} {r : Except DecodeError Instr} {i : Instr}
    (hd : Decoded arg ops op r) (hr : r = .ok i) : i.wf = true ∧ encode i = cmdWord op arg :: ops := by
  cases hd with
  | unassigned => cases hr
  | plain j hwf henc =>
    obtain ⟨rfl, rfl, rfl⟩ := decodePlain_eq_ok.1 hr
    exact ⟨hwf, henc⟩
  | word mk hwf henc =>
    obtain ⟨rfl, m, rfl, rfl⟩ := decodeWord_eq_ok.1 hr
    exact ⟨hwf m, henc m⟩
  | frags mk _ hwf henc =>
    obtain ⟨fs, h, hfs, rfl, rfl, rfl⟩ := decodeFrags_eq_ok.1 hr
    exact ⟨(hwf fs h).trans hfs, henc fs h⟩
  | ringInit =>
    obtain ⟨rfl, _, _, rfl, rfl⟩ := decodeRingInit_eq_ok.1 hr
    exact ⟨rfl, rfl⟩
  | init =>
    obtain ⟨rfl, _, rfl, rfl⟩ := decodeInit_eq_ok.1 hr
    exact ⟨rfl, rfl⟩
  | macCoreInit =>
    obtain ⟨rfl, _, _, _, _, rfl, rfl⟩ := decodeMacCoreInit_eq_ok.1 hr
    exact ⟨rfl, rfl⟩
  | speed =>
    obtain ⟨_, _, rfl, rfl, rfl⟩ := decodeSpeed_eq_ok.1 hr
    exact ⟨rfl, rfl⟩
  | mdioRead =>
    obtain ⟨_, _, rfl, rfl, rfl⟩ := decodeMdioRead_eq_ok.1 hr
    exact ⟨rfl, rfl⟩
  | mdioWrite =>
    obtain ⟨_, _, _, rfl, rfl, rfl⟩ := decodeMdioWrite_eq_ok.1 hr
    exact ⟨rfl, rfl⟩
  | rxDone =>
    obtain ⟨_, _, rfl, rfl, rfl⟩ := decodeRxDone_eq_ok.1 hr
    exact ⟨rfl, rfl⟩

theorem decode_cmdWord (op : Byte) (arg : BitVec 24) (ops : List Word) :
    decode (cmdWord op arg :: ops) = decodeOp op arg ops := by
  obtain ⟨hop, harg⟩ := eq_cmdWord_iff.1 (rfl : cmdWord op arg = cmdWord op arg)
  rw [decode, hop, harg]

/-- Settles O1: what an operation encodes to is, operand by operand, what its decoder answers it for. -/
theorem decodeEncode : Obligations.DecodeEncode := by
  intro i hw
  cases i with
  | enqTx fs h => exact (decode_cmdWord _ _ _).trans (decodeFrags_eq_ok.2 ⟨fs, h, hw, rfl, rfl, rfl⟩)
  | transmit fs h => exact (decode_cmdWord _ _ _).trans (decodeFrags_eq_ok.2 ⟨fs, h, hw, rfl, rfl, rfl⟩)
  | init c => exact (decode_cmdWord _ _ _).trans (decodeInit_eq_ok.2 ⟨rfl, c, rfl, rfl⟩)
  | macCoreInit rb tb sz m => exact (decode_cmdWord _ _ _).trans (decodeMacCoreInit_eq_ok.2 ⟨rfl, rb, tb, sz, m, rfl, rfl⟩)
  | setSpeedDuplex v d => exact (decode_cmdWord _ _ _).trans (decodeSpeed_eq_ok.2 ⟨v, d, rfl, rfl, rfl⟩)
  | mdioRead phy reg => exact (decode_cmdWord _ _ _).trans (decodeMdioRead_eq_ok.2 ⟨phy, reg, rfl, rfl, rfl⟩)
  | mdioWrite phy reg v => exact (decode_cmdWord _ _ _).trans (decodeMdioWrite_eq_ok.2 ⟨phy, reg, v, rfl, rfl, rfl⟩)
  | hRxDone l f => exact (decode_cmdWord _ _ _).trans (decodeRxDone_eq_ok.2 ⟨l, f, rfl, rfl, rfl⟩)
  | _ => exact decode_cmdWord _ _ _

/-- Settles O2: whatever decodes is of one of the families of the table, and each decoder answers only for the words of an
operation. -/
theorem encodeDecode : Obligations.EncodeDecode := by
  intro ws i h
  cases ws with
  | nil => cases h
  | cons c ops =>
    have hc : c = cmdWord (opOf c) (argOf c) := eq_cmdWord_iff.2 ⟨rfl, rfl⟩
    obtain ⟨hw, henc⟩ := (decodeOp_decoded _ _ _).encode_eq h
    exact ⟨hw, henc.trans (congrArg (· :: ops) hc.symm)⟩

/-- Settles O4, word by word. -/
theorem decodeWords : Obligations.DecodeWords := by
  unfold Obligations.DecodeWords
  decide

/-! #### What is refused (R106) -/

theorem Decoded.reservedArg {op : Byte} {arg : BitVec 24} {ops : List Word} {r : Except DecodeError Instr}
    (hd : Decoded arg ops op r) (hop : op ∈ selectors) (hplain : op ∉ argSelectors) (harg : arg ≠ 0) :
    r = .error .reservedArg := by
  cases hd with
  | unassigned h => exact absurd hop h
  | plain | word | ringInit | init | macCoreInit => exact if_neg harg
  | frags _ h => exact absurd h hplain
  | speed | mdioRead | mdioWrite | rxDone => exact absurd (by decide) hplain

theorem decodeMdio_reserved {arg : BitVec 24} (h : arg.extractLsb' 13 11 ≠ 0 ∨ arg.extractLsb' 5 3 ≠ 0) :
    decodeMdio arg = .error .reservedField :=
  if_neg fun ⟨h1, h2⟩ => h.elim (· h1) (· h2)

theorem decodeMdioRead_error {arg : BitVec 24} {e : DecodeError} (h : decodeMdio arg = .error e) (ops : List Word) :
    decodeMdioRead arg ops = .error e := by rw [decodeMdioRead, h]

theorem decodeMdioWrite_error {arg : BitVec 24} {e : DecodeError} (h : decodeMdio arg = .error e) (ops : List Word) :
    decodeMdioWrite arg ops = .error e := by rw [decodeMdioWrite, h]

/-- No configuration record has the code 3 (R101). -/
theorem decodeInit_promisc {w0 : Word} (h : w0.extractLsb' 8 2 = 3#2) (arg : BitVec 24) (w1 w2 : Word) :
    ∃ e, decodeInit arg [w0, w1, w2] = .error e := by
  cases hd : decodeInit arg [w0, w1, w2] with
  | error e => exact ⟨e, rfl⟩
  | ok i =>
    obtain ⟨-, c, hws, -⟩ := decodeInit_eq_ok.1 hd
    obtain ⟨-, -, -, -, hcode, -⟩ := eq_cfgWord0_iff.1 (List.cons.inj hws).1
    exact absurd h (eq_promiscCode_iff.1 hcode).1

theorem fetch_command {s : State} {ws : List Word} {rest : List Input} (hin : s.env.inputs = .command ws :: rest)
    (hseq : sequencerNext s = none) : fetch s = .operation (readWords .host ws) s.popInput := by
  rw [fetch, hin, hseq]

/-- What the fetch refuses is refused in every mode. -/
theorem step_refused {s u : State} {r : Refusal} (h : fetch s = .operation (.error r) u) : step s = .refused r := by
  rw [step, h, unlessDead]
  split <;> rfl

theorem readWords_error {a : Agent} {ws : List Word} {e : DecodeError} (h : decode ws = .error e) :
    readWords a ws = .error (.encoding e) := by rw [readWords, h]

theorem readWords_wrongPort {a : Agent} {ws : List Word} {i : Instr} (h : decode ws = .ok i) (ha : i.agent ≠ a) :
    readWords a ws = .error .wrongPort := by
  simp only [readWords, h, if_neg ha]

/-- Settles O3: what a selector refuses is read off its decoder, and a command whose words do not read as the host's is refused
by the fetch. -/
theorem reservedRefused : Obligations.ReservedRefused := by
  refine ⟨fun c ops => ⟨fun h => decodeOp_unassigned h _ _, fun h ha harg => (decodeOp_decoded _ _ _).reservedArg h ha harg,
    fun h hf => ?_, fun h hf => ?_, fun h hf => ?_, fun h harg => ?_⟩, fun w0 w1 w2 h => decodeInit_promisc h 0 w1 w2,
    fun s ws rest hin hseq => ?_⟩
  · rw [decode, h]
    exact if_neg hf
  · rw [decode]
    rcases h with h | h <;> rw [h]
    · exact decodeMdioRead_error (decodeMdio_reserved hf) ops
    · exact decodeMdioWrite_error (decodeMdio_reserved hf) ops
  · rw [decode, h]
    exact if_neg hf
  · rw [decode]
    rcases h with h | h <;> rw [h] <;> exact if_pos harg
  · have hfetch := fetch_command hin hseq
    constructor
    · intro e he
      exact step_refused (hfetch.trans (by rw [readWords_error he]))
    · intro i hi ha
      exact step_refused (hfetch.trans (by rw [readWords_wrongPort hi ha]))

end Sys2Proof.Machine
end

/-! ### Descriptors in memory and status words (30_encoding R89 to R97, 20_memory R62) -/

section
namespace Sys2Proof.Machine

theorem bytesLE_getElem? {n v k : Nat} (hk : k < n) : (bytesLE n v)[k]? = some (BitVec.ofNat 8 (v / 256 ^ k)) := by
  rw [bytesLE, List.getElem?_map, List.getElem?_range hk, Option.map_some, pow_mul]
  rfl

/-- Least significant byte first on a little-endian target, most significant first on a big-endian one (R62). -/
theorem toBytes_little_getD {n v k : Nat} (hk : k < n) : (toBytes .little n v).getD k 0 = BitVec.ofNat 8 (v / 256 ^ k) := by
  rw [toBytes, List.getD_eq_getElem?_getD, bytesLE_getElem? hk, Option.getD_some]

theorem toBytes_big_getD {n v k : Nat} (hk : k < n) :
    (toBytes .big n v).getD k 0 = BitVec.ofNat 8 (v / 256 ^ (n - 1 - k)) := by
  rw [toBytes, List.getD_eq_getElem?_getD, List.getElem?_reverse (by rwa [length_bytesLE]), length_bytesLE,
    bytesLE_getElem? (by omega), Option.getD_some]

/-- A byte of a value just written. -/
theorem read_memWrite_inside (e : Endian) {m : Memory} {a n v k : Nat} (hm : Memory.wf m = true) (hk : k < n) :
    Memory.read (a + k) (memWrite e m a n v) = (toBytes e n v).getD k 0 := by
  rw [memWrite, Memory.read_writeBytes a (a + k) _ hm, length_toBytes, if_pos (by omega), Nat.add_sub_cancel_left]

/-- Settles O5: offsets and addresses are read off their definitions, and a write sets its own bytes in the target's order. -/
theorem descriptorLayout : Obligations.DescriptorLayout := by
  refine ⟨fun x => ⟨rfl, rfl, rfl, rfl, fun _ => rfl⟩, fun m a n v k hm hk => ⟨?_, ?_⟩,
    fun e m a n v k hm hk => read_memWrite_outside hm hk, fun s d i f b hb hi => ?_⟩
  · rw [read_memWrite_inside _ hm hk, toBytes_little_getD hk]
  · rw [read_memWrite_inside _ hm hk, toBytes_big_getD hk]
  · exact descAddr_of_slot (slotAddr_some.2 ⟨b, hb, hi, rfl⟩) f

/-! #### Bits of a status word (R97) -/

theorem bit16_getLsbD {i b : Nat} (hb : b < 16) : (bit16 i).getLsbD b = (b == i) := by
  rw [bit16, BitVec.getLsbD_ofNat, Nat.testBit_two_pow]
  simp [hb, Bool.beq_eq_decide_eq, eq_comm]

theorem wrapFlag_getLsbD (p : Params) (d : Dir) (r : Ring) (i : Nat) {b : Nat} (hb : b < 16) :
    (wrapFlag p d r i).getLsbD b = (b == wrapBit p d && r.isLast i) := by
  unfold wrapFlag
  split
  · next h => rw [bit16_getLsbD hb, h, Bool.and_true]
  · next h => simp [h]

theorem rxHandover_getLsbD (p : Params) (r : Ring) (i : Nat) {b : Nat} (hb : b < 16) :
    (rxHandover p r i).getLsbD b = (b == p.rxdEmpty || (b == p.rxdWrap && r.isLast i)) := by
  rw [rxHandover, BitVec.getLsbD_or, bit16_getLsbD hb, wrapFlag_getLsbD _ _ _ _ hb, wrapBit]

theorem txHandover_getLsbD (p : Params) (r : Ring) (i k n : Nat) {b : Nat} (hb : b < 16) :
    (txHandover p r i k n).getLsbD b = (b == p.txdReady || (b == p.txdWrap && r.isLast i) ||
      ((b == p.txdAddcrc || b == p.txdLast) && k + 1 == n)) := by
  rw [txHandover, BitVec.getLsbD_or, BitVec.getLsbD_or, bit16_getLsbD hb, wrapFlag_getLsbD _ _ _ _ hb, wrapBit]
  split
  · next h => simp [h, bit16_getLsbD hb]
  · next h => simp [h]

/-- Settles O6: each status word is read bit by bit, and what the three operations leave pending is what they issue, whatever
happens between their events. -/
theorem handoverBits : Obligations.HandoverBits := by
  refine ⟨fun p r i k n b _ hb => ⟨wrapFlag_getLsbD p .rx r i hb, wrapFlag_getLsbD p .tx r i hb, rxHandover_getLsbD p r i hb,
    txHandover_getLsbD p r i k n hb⟩, fun s t d n h => initSlots_pend d n h, fun s t pa hd h w hw => ?_,
    fun s t i n fs h w hw => ?_⟩
  · obtain ⟨w', hpend, hw'⟩ := handOverRx_pend h
    rw [hpend, List.mem_singleton] at hw
    exact hw ▸ hw'
  · refine (writeStats_pend i n 0 fs h w hw).imp_right ?_
    rintro ⟨k, -, hk, hk'⟩
    exact ⟨k, by omega, hk'⟩

end Sys2Proof.Machine
end

/-! ### Ring life cycle (40_ring_lifecycle R111 to R116) -/

section
namespace Sys2Proof.Machine

/-! #### From the issue to the answer -/

theorem admitRingInit_none {s : State} (hm : s.seq.mode = .off) (hrx : s.rx.alive = false) (htx : s.tx.alive = false) :
    admitRingInit s = none := by simp [admitRingInit, hm, hrx, htx]

theorem admitTeardown_none {s : State} (hm : s.seq.mode = .off) : admitTeardown s = none := by simp [admitTeardown, hm]

/-- An operation whose body breaks a duty is that fault (60_exceptions R211). -/
theorem issue_fault {adm : State → Option Refusal} {body : Op (List Word)} {s : State} {r : Fault}
    (hb : s.seq.busy = false) (ha : adm s = none) (h : body s.begun = .error (.fault r)) : issue adm body s = .fault r := by
  simp only [issue, hb, ha, Bool.false_eq_true, if_false, outcome, whole, run_upd_bind]
  rw [run_bind_error h]

/-- Where no operation was in progress, the sequencing registers are as before once `busy` has risen and fallen. -/
theorem ended_seq_of_begun {s t : State} (ws : List Word) (hb : s.seq.busy = false) (h : t.seq = s.begun.seq) :
    (t.ended ws).seq = s.seq := by
  rw [State.ended_seq, h, State.begun_seq, ← hb]

/-- `Became` says nothing of the `busy` the operation began with. -/
theorem Became.of_begun {s t : State} {p : Private} {r : Regs} {w : Hw} {c : List Call} {o : List Word}
    (h : Became s.begun t p r w c o) : Became s t p r w c o :=
  ⟨h.priv, h.regs, h.hw, h.calls, h.out, h.bytes, h.inputs, h.quiet⟩

/-! #### RING_INIT (R111, R112) -/

/-- Rings laid out after the calls `c` alone: the fields of `LaidOut` are those of `Laid`, the private registers read off one
by one. -/
theorem Laid.laidOut {s t : State} {capRx capTx : Nat} {a b : Word} {c : List Call} {e : Env}
    (h : Laid ((s.setCalls (s.calls ++ c)).setEnv e) t capRx capTx a b) (he : e.inputs = s.env.inputs) :
    LaidOut s t capRx capTx a b c := by
  obtain ⟨k, j, hp⟩ := h.priv
  have hrx : t.rx = ⟨capRx, some a, 0, 0, capRx - 2, true, (List.range capRx).map (Config.freeHandle k)⟩ :=
    congrArg Private.rx hp
  have htx : t.tx = ⟨capTx, some b, 0, 0, capTx - 2, true, (List.range capTx).map (Config.freeHandle j)⟩ :=
    congrArg Private.tx hp
  have hn : t.ndesc = (List.range capTx).map (Config.freeNdesc k) := congrArg Private.ndesc hp
  exact {
    rx := by simp [hrx]
    tx := by simp [htx]
    ndesc := by simp [hn]
    fresh := congrArg Private.coreFresh hp
    kept := ⟨congrArg Private.params hp, congrArg Private.link hp, congrArg Private.bring hp⟩
    rxSlots := h.rxSlots
    txSlots := h.txSlots
    outside := h.outside
    regs := h.regs
    hw := h.hw
    calls := h.calls
    inputs := h.inputs.trans he
    quiet := h.quiet }

/-- `LaidOut` says nothing of `busy` and the answer words, with which an operation begins and ends. -/
theorem LaidOut.ended {s t : State} {capRx capTx : Nat} {a b : Word} {c : List Call}
    (h : LaidOut s.begun t capRx capTx a b c) (ws : List Word) : LaidOut s (t.ended ws) capRx capTx a b c :=
  ⟨h.rx, h.tx, h.ndesc, h.fresh, h.kept, h.rxSlots, h.txSlots, h.outside, h.regs, h.hw, h.calls, h.inputs, h.quiet⟩

/-- Settles O21: the body lays both rings out from the state begun, and `busy` is back where it was at the end. -/
theorem ringInitLays : Obligations.RingInitLays := by
  intro s capRx capTx a b ra rm hs hq hb hm hrx htx h1 h2 hda hma hal
  obtain ⟨t, ht, hlaid⟩ := ringInit_quiet (s := s.begun) hq hs.mem h1 h2 hrx htx hal hda hma
  obtain ⟨k, j, hp⟩ := hlaid.priv
  exact ⟨t.ended [0], issue_next hb (admitRingInit_none hm hrx htx) ((run_bind_ok ht).trans rfl),
    (hlaid.laidOut rfl).ended [0], congrArg Private.ctx hp, ended_seq_of_begun [0] hb (congrArg Private.seq hp), rfl⟩

/-- Settles O22: the body made its calls and used answers up, nothing else; and a ring that is not alive has no base. -/
theorem ringInitFailsAtomically : Obligations.RingInitFailsAtomically := by
  intro s capRx capTx x y m rd rm hs hq hb hm hrx htx h1 h2 hda hma hf
  have hr : RingsSound s.priv := hs.priv.rings
  have hrun := ringInit_fails (s := s.begun) hq h1 h2 hrx htx hda hma hf
  refine ⟨_, issue_next hb (admitRingInit_none hm hrx htx) ((run_bind_ok hrun).trans rfl), .of_begun ?_, hrx, htx,
    hr.rx.gone hrx, hr.tx.gone htx⟩
  exact called_ended [1] hb rfl rfl rfl rfl

/-! #### RING_TEARDOWN (R115, R116) -/

/-- A ring that is not alive has nothing to release. -/
theorem freeCalls_dead {d : Dir} {r : Ring} (h : r.alive = false) : freeCalls d r = [] := by simp [freeCalls, h]

/-- Settles O23: what is released is what was alive; both rings are alive or neither, so with the receive ring dead nothing is. -/
theorem ringTeardownReleases : Obligations.RingTeardownReleases := by
  refine ⟨by decide, fun s hs hq hb hm hmac => ?_, fun s hb hm hmac => ?_⟩
  · have hr : RingsSound s.priv := hs.priv.rings
    obtain ⟨r, q, k, hrun, hr1, hq1, hr2, hq2, hr3, hq3⟩ := ringTeardown_quiet (s := s.begun) hq
    have htorn : TornDown s ((torn s.begun r q k).ended [0]) [] [] :=
      tornDown_of hr hr1 hq1 hr2 hq2 hr3 hq3
        ⟨s.ctx, { s.seq with busy := false }, [0], k, s.env.answers, by simp only [List.append_nil]; rfl⟩
    refine ⟨_, issue_next hb (admitTeardown_none hm) ?_, htorn, rfl, ended_seq_of_begun [0] hb rfl, rfl, fun hrx => ?_⟩
    · rw [run_here_bind, State.begun_regs, hmac, Bool.not_false, run_bind_ok (sound_true _ _), run_bind_ok hrun]
      rfl
    · have htx : s.tx.alive = false := hr.both.symm.trans hrx
      refine ⟨hr3 hrx, hq3 htx, ?_, ?_⟩
      · simp [torn, htx]
      · simp [torn, freeCalls_dead hrx, freeCalls_dead htx]
  · refine issue_fault hb (admitTeardown_none hm) ?_
    rw [run_here_bind, State.begun_regs, hmac]
    rfl

end Sys2Proof.Machine
end

/-! ### Buffer supply (41_buffer_supply R117 to R129) -/

section
namespace Sys2Proof.Machine

/-- `busy` is no part of what makes the rings sound. -/
theorem RingsSound.begun {s : State} (h : RingsSound s.priv) : RingsSound s.begun.priv :=
  ⟨h.params, h.rx, h.tx, h.both, h.apart, h.counts, h.groups⟩

/-! #### FILL_RX (R117 to R121) -/

/-- `SuppliedRx` says nothing of `busy` and the answer words, with which an operation begins and ends. -/
theorem SuppliedRx.ended {s t : State} {bs : List (Nat × Handle)} (h : SuppliedRx s.begun bs t) (ws : List Word)
    (hb : s.seq.busy = false) : SuppliedRx s bs (t.ended ws) :=
  { h with priv := ended_rings ws hb h.priv }

/-- FILL_RX under any schedule: the turns of its loop, then the re-enable test (R117, R120). -/
theorem fillRx_turns {s t : State} {u : Unit} (h : fillRx s = .ok (u, t)) :
    ∃ v, FillTurns s.rx.remain s v ∧ reenable .rx v = .ok ((), t) := by
  obtain ⟨_, _, hhere, h⟩ := bind_ok h
  cases hhere
  obtain ⟨_, s', halive, h⟩ := bind_ok h
  obtain ⟨-, rfl⟩ := require_ok halive
  obtain ⟨_, v, hloop, hre⟩ := bind_ok h
  exact ⟨v, fillLoop_turns _ hloop, hre⟩

/-- Settles O24: the body supplies the buffers from the state begun; under any schedule it is the turns of its loop, at the
end of each of which the slot's status word alone is pending. -/
theorem fillRxSupplies : Obligations.FillRxSupplies := by
  refine ⟨fun s bs hs hq hready ha hb => ?_, fun s t h => ?_⟩
  · obtain ⟨t, ht, hsup, -, -⟩ := fillRx_quiet (s := s.begun) hq hs.mem ⟨hs.priv.rings.begun, ha⟩
      (hb.same rfl rfl rfl rfl)
    exact ⟨t.ended [0], issue_next hready.1 (hready.ring ha) ((run_bind_ok ht).trans rfl), hsup.ended [0] hready.1, rfl⟩
  · obtain ⟨ws, v, hbody, rfl⟩ := issue_ok h
    obtain ⟨_, w, hfill, hret⟩ := bind_ok hbody
    cases hret
    obtain ⟨u, hturns, hre⟩ := fillRx_turns hfill
    exact ⟨u, v, hturns, hre, rfl⟩

/-! #### ENQ_TX and TRANSMIT (R122 to R129, 46_facade R188) -/

/-- The body that ENQ_TX and TRANSMIT share: the enqueue, and the answer for what became of it. -/
def enqueueBody (fs : List Frag) (h : Word) : Op (List Word) := do
  let ok ← enqTx fs (Config.handleOfWord h)
  if ok then returnOk [] else raise .txQueueFull []

/-- The answer words of an enqueue: 0 where the group is handed over, 2 for TxQueueFull (60_exceptions R213). -/
def enqueueAnswer (ok : Bool) : List Word := if ok then [0] else [2]

theorem enqueueBody_run {fs : List Frag} {h : Word} {s t : State} {ok : Bool}
    (he : enqTx fs (Config.handleOfWord h) s = .ok (ok, t)) : enqueueBody fs h s = .ok (enqueueAnswer ok, t) := by
  rw [enqueueBody, run_bind_ok he]
  cases ok <;> rfl

theorem enqueueBody_ok {fs : List Frag} {h : Word} {s t : State} {ws : List Word} (hb : enqueueBody fs h s = .ok (ws, t)) :
    ∃ ok, enqTx fs (Config.handleOfWord h) s = .ok (ok, t) ∧ ws = enqueueAnswer ok := by
  obtain ⟨ok, u, he, ha⟩ := bind_ok hb
  cases ok <;> cases ha <;> exact ⟨_, he, rfl⟩

/-- The two operations differ in what admits them alone. -/
theorem exec_enqueue {i : Instr} {fs : List Frag} {h : Word} (hi : i = .enqTx fs h ∨ i = .transmit fs h) (s : State) :
    ∃ adm, exec i s = issue adm (enqueueBody fs h) s := by
  obtain rfl | rfl := hi
  · exact ⟨admitRing .tx, rfl⟩
  · exact ⟨admitRunning, rfl⟩

/-- ENQ_TX or TRANSMIT where the admission table lets it start (60_exceptions R221). -/
def MayEnqueue (i : Instr) (fs : List Frag) (h : Word) (s : State) : Prop :=
  (i = .enqTx fs h ∧ s.ready ∧ s.tx.alive = true) ∨ (i = .transmit fs h ∧ s.running)

theorem MayEnqueue.of_alive {i : Instr} {fs : List Frag} {h : Word} {s : State}
    (hi : (i = .enqTx fs h ∧ s.ready) ∨ (i = .transmit fs h ∧ s.running)) (ha : s.tx.alive = true) :
    MayEnqueue i fs h s :=
  hi.imp_left fun ⟨hi, hready⟩ => ⟨hi, hready, ha⟩

/-- Where one of the two may start, it runs the body they share. -/
theorem MayEnqueue.admitted {i : Instr} {fs : List Frag} {h : Word} {s : State} (hi : MayEnqueue i fs h s) :
    s.seq.busy = false ∧ ∃ adm, adm s = none ∧ exec i s = issue adm (enqueueBody fs h) s := by
  obtain ⟨rfl, hready, ha⟩ | ⟨rfl, hrun⟩ := hi
  · exact ⟨hready.1, admitRing .tx, hready.ring ha, rfl⟩
  · exact ⟨hrun.1, admitRunning, hrun.admitted, rfl⟩

/-- Where it may start and its enqueue runs to the end, it answers for it. -/
theorem MayEnqueue.exec_next {i : Instr} {fs : List Frag} {h : Word} {s t : State} {ok : Bool} (hi : MayEnqueue i fs h s)
    (he : enqTx fs (Config.handleOfWord h) s.begun = .ok (ok, t)) : exec i s = .next (t.ended (enqueueAnswer ok)) := by
  obtain ⟨hb, adm, ha, hx⟩ := hi.admitted
  rw [hx, issue_next hb ha (enqueueBody_run he)]

/-- `EnqueuedTx` says nothing of `busy` and the answer words, with which an operation begins and ends. -/
theorem EnqueuedTx.ended {s t : State} {fs : List Frag} {h : Handle} (ht : EnqueuedTx s.begun fs h t) (ws : List Word)
    (hb : s.seq.busy = false) : EnqueuedTx s fs h (t.ended ws) :=
  { ht with priv := ended_rings ws hb ht.priv }

/-- Settles O25: with room the body hands the group over from the state begun; under any schedule it hands it over, after a
reap or without one, or ends after the reap with TxQueueFull. -/
theorem enqueueHandsOver : Obligations.EnqueueHandsOver := by
  refine ⟨fun i s fs h hi hs hq ha hf hreal hn => ?_, fun i s t fs h hi hx => ?_⟩
  · have hi : MayEnqueue i fs h s := .of_alive hi ha
    obtain ⟨t, ht, henq, -⟩ := enqTx_quiet (s := s.begun) (Config.handleOfWord h) hq hs.mem ⟨hs.priv.rings.begun, ha⟩ hf hn
      hreal
    exact ⟨t.ended [0], hi.exec_next ht, henq.ended [0] hi.admitted.1, rfl⟩
  · obtain ⟨adm, hadm⟩ := exec_enqueue hi s
    obtain ⟨ws, b, hbody, rfl⟩ := issue_ok (hadm.symm.trans hx)
    obtain ⟨ok, he, rfl⟩ := enqueueBody_ok hbody
    obtain ⟨rfl, a, hstart, hhanded⟩ | ⟨rfl, hreap⟩ := enqTx_cases he
    · exact .inl ⟨rfl, a, b, hstart, hhanded, rfl⟩
    · exact .inr ⟨rfl, b, hreap, rfl⟩

/-- What is completed does not depend on `busy`. -/
theorem TxDone.begun {s : State} {gs : List Nat} {i n : Nat} (h : TxDone s i n gs) : TxDone s.begun i n gs :=
  TxDone.same (s := s) (t := s.begun) rfl rfl rfl (.of_settled rfl) gs i n h

/-- Settles O26: with too little room the body reaps first, and the room after the reap decides which answer it gives. -/
theorem enqueueReapsFirst : Obligations.EnqueueReapsFirst := by
  intro i s fs h gs hi hs hr ha hf hn hd
  have hi : MayEnqueue i fs h s := .of_alive hi ha
  obtain ⟨a, hreaped, hroom, -, hfull, hfits⟩ := enqTx_reaps (s := s.begun) (Config.handleOfWord h) hr hs.mem
    ⟨hs.priv.rings.begun, ha⟩ hf hn hd.begun
  refine ⟨a, hreaped, hroom, fun hlt => hi.exec_next (hfull hlt), fun hle hreal => ?_⟩
  obtain ⟨b, henq, -, he⟩ := hfits hle hreal
  exact ⟨b, henq, hi.exec_next he⟩

/-! #### Operands outside the limits (R124, 40_ring_lifecycle R113) -/

theorem fragsAdmitted_eq_false {fs : List Frag} (h : fs = [] ∨ ∃ f ∈ fs, f.len = 0) : fragsAdmitted fs = false := by
  obtain rfl | ⟨f, hf, hlen⟩ := h
  · rfl
  · have hall : fs.all Frag.wf = false := List.all_eq_false.2 ⟨f, hf, by simp [Frag.wf, hlen]⟩
    rw [fragsAdmitted, hall, Bool.and_false]

theorem enqueueBody_refused {fs : List Frag} (hf : fragsAdmitted fs = false) (h : Word) (s : State) :
    enqueueBody fs h s = .error (.refused .operandLimits) := by
  have he : enqTx fs (Config.handleOfWord h) s = .error (.refused .operandLimits) := by
    rw [enqTx, hf]
    rfl
  rw [enqueueBody, run_bind_error he]

theorem ringInit_tooSmall {capRx capTx : Nat} (h : capRx < 2 ∨ capTx < 2) (s : State) :
    ringInit capRx capTx s = .error (.refused .capacityTooSmall) := by
  have hc : (decide (2 ≤ capRx) && decide (2 ≤ capTx)) = false := by
    rw [Bool.and_eq_false_iff, decide_eq_false_iff_not, decide_eq_false_iff_not]
    omega
  rw [ringInit, hc]
  rfl

/-- Settles O27: the limits are the first thing either body checks. -/
theorem operandLimits : Obligations.OperandLimits := by
  refine ⟨fun i s fs h hi hf => ?_, fun s capRx capTx hb hm hrx htx hc => ?_⟩
  · obtain ⟨hb, adm, ha, hx⟩ := MayEnqueue.admitted hi
    rw [hx, issue_stop hb ha (enqueueBody_refused (fragsAdmitted_eq_false hf) h _)]
  · exact issue_stop hb (admitRingInit_none hm hrx htx) (run_bind_error (ringInit_tooSmall hc _))

end Sys2Proof.Machine
end

/-! ### Completion reaper (42_completion_reaper R130 to R141) -/

section
namespace Sys2Proof.Machine

/-! #### From the issue to the answer Ok, and from the alive ring to the re-enable test -/

/-- An operation that answers Ok whatever its body did ends where the body ends. -/
theorem issue_returnOk_next {adm : State → Option Refusal} {x : Op Unit} {s t : State} (hb : s.seq.busy = false)
    (ha : adm s = none) (h : x s.begun = .ok ((), t)) :
    issue adm (do x; returnOk []) s = .next (t.ended [0]) :=
  issue_next hb ha ((run_bind_ok h).trans rfl)

/-- Where it ended in a next state, its body ran to the end. -/
theorem issue_returnOk_ok {adm : State → Option Refusal} {x : Op Unit} {s t : State}
    (h : issue adm (do x; returnOk []) s = .next t) : ∃ v, x s.begun = .ok ((), v) ∧ t = v.ended [0] := by
  obtain ⟨ws, v, hbody, rfl⟩ := issue_ok h
  obtain ⟨_, w, hx, hret⟩ := bind_ok hbody
  cases hret
  exact ⟨_, hx, rfl⟩

/-- What both reapers are made of: the test that the ring is alive, the loop, then the re-enable test (R130, R135, R137,
R139). -/
theorem reap_ok {d : Dir} {loop : State → Op Unit} {s t : State} {u : Unit}
    (h : (do let s ← here; require (s.ring d).alive .ringNotAlive; loop s; reenable d : Op Unit) s = .ok (u, t)) :
    (s.ring d).alive = true ∧ ∃ v, loop s s = .ok ((), v) ∧ reenable d v = .ok ((), t) := by
  obtain ⟨_, _, hhere, h⟩ := bind_ok h
  cases hhere
  obtain ⟨_, s', hreq, h⟩ := bind_ok h
  obtain ⟨halive, rfl⟩ := require_ok hreq
  obtain ⟨_, v, hloop, hre⟩ := bind_ok h
  exact ⟨halive, v, hloop, hre⟩

/-! #### REAP_RX (R130 to R136) -/

/-- `ReapedRx` says nothing of `busy` and the answer words, with which an operation begins and ends. -/
theorem ReapedRx.ended {s t : State} {n : Nat} (h : ReapedRx s.begun n t) (ws : List Word) (hb : s.seq.busy = false) :
    ReapedRx s n (t.ended ws) :=
  { h with priv := ended_rings ws hb h.priv }

/-- What is completed does not depend on `busy`. -/
theorem RxDone.begun {s : State} {n : Nat} (h : RxDone s n) : RxDone s.begun n :=
  h.same rfl rfl (.of_settled rfl)

/-- In a sound state with no access of C outstanding, nothing was read ahead that could disagree with memory. -/
theorem Inv.turnStart {s : State} (hs : Inv s) (ha : s.rx.alive = true) (hp : s.pend = []) (he : s.early = []) :
    TurnStart s.begun :=
  ⟨⟨hs.priv.rings.begun, ha⟩, ⟨hs.priv.rings.begun, hs.mem, hp⟩, coherent_of_empty he⟩

/-- REAP_RX under any schedule: the turns of its loop, then the re-enable test. -/
theorem reapRx_turns {P : Prop} {s t : State} {u : Unit} (hs : P → s.rx.alive = true → TurnStart s)
    (h : reapRx s = .ok (u, t)) : ∃ v, ReapTurns P s.rx.inflight s v ∧ reenable .rx v = .ok ((), t) := by
  obtain ⟨halive, v, hloop, hre⟩ := reap_ok (d := .rx) (loop := fun s => reapRxLoop s.rx.inflight) h
  exact ⟨v, reapRxLoop_turns _ (fun hp => hs hp halive) hloop, hre⟩

/-- Settles O28: the body reaps the completed slots from the state begun; under any schedule it is the turns of its loop, and
a sound state with no access outstanding is one from which each turn reads what memory holds. -/
theorem reapRxDelivers : Obligations.ReapRxDelivers := by
  refine ⟨fun s n hs hr hready ha hd => ?_, fun s t h => ?_⟩
  · obtain ⟨t, ht, hreaped, -, -⟩ := reapRx_rested (s := s.begun) hr hs.mem ⟨hs.priv.rings.begun, ha⟩ hd.begun
    exact ⟨t.ended [0], issue_returnOk_next hready.1 (hready.ring ha) ht, hreaped.ended [0] hready.1, rfl⟩
  · obtain ⟨v, hreap, rfl⟩ := issue_returnOk_ok h
    obtain ⟨u, hturns, hre⟩ := reapRx_turns (P := Inv s ∧ s.pend = [] ∧ s.early = [])
      (fun ⟨hs, hp, he⟩ ha => hs.turnStart ha hp he) hreap
    exact ⟨u, v, hturns, hre, rfl⟩

/-! #### REAP_TX (R137 to R141) -/

/-- The callbacks are read off the transmit ring alone. -/
theorem txCalls_same {s t : State} (hr : t.tx = s.tx) (i : Nat) (gs : List Nat) : txCalls t i gs = txCalls s i gs := by
  induction gs generalizing i with
  | nil => rfl
  | cons g gs ih => simp only [txCalls, hr, ih]

/-- `ReapedTx` says nothing of `busy` and the answer words, with which an operation begins and ends. -/
theorem ReapedTx.ended {s t : State} {gs : List Nat} (h : ReapedTx s.begun gs t) (ws : List Word)
    (hb : s.seq.busy = false) : ReapedTx s gs (t.ended ws) :=
  { h with
    priv := ended_rings ws hb h.priv
    calls := h.calls.trans (congrArg (s.calls ++ ·) (txCalls_same (t := s.begun) (s := s) rfl s.tx.head gs)) }

/-- REAP_TX under any schedule: the turns of its loop, then the re-enable test. -/
theorem reapTx_turns {s t : State} {u : Unit} (h : reapTx s = .ok (u, t)) :
    ∃ v, ReapTxTurns s.tx.inflight s v ∧ reenable .tx v = .ok ((), t) := by
  obtain ⟨-, v, hloop, hre⟩ := reap_ok (d := .tx) (loop := fun s => reapTxLoop s.tx.inflight) h
  exact ⟨v, reapTxLoop_turns _ hloop, hre⟩

/-- Settles O29: the body reaps the completed groups from the state begun; under any schedule it is the turns of its loop, in
each of which the barrier stands between the group's ownership reads and its callback. -/
theorem reapTxReports : Obligations.ReapTxReports := by
  refine ⟨fun s gs hs hr hready ha hd => ?_, fun s t h => ?_⟩
  · obtain ⟨t, ht, hreaped, -, -⟩ := reapTx_rested (s := s.begun) hr hs.mem ⟨hs.priv.rings.begun, ha⟩ hd.begun
    exact ⟨t.ended [0], issue_returnOk_next hready.1 (hready.ring ha) ht, hreaped.ended [0] hready.1, rfl⟩
  · obtain ⟨v, hreap, rfl⟩ := issue_returnOk_ok h
    obtain ⟨u, hturns, hre⟩ := reapTx_turns hreap
    exact ⟨u, v, hturns, hre, rfl⟩

end Sys2Proof.Machine
end

/-! ### Interrupt dispatch (43_interrupt_dispatch R142 to R148) -/

section
namespace Sys2Proof.Machine

/-! #### The modes of the admission table (60_exceptions R221) -/

/-- The admission table's column of modes: in any other mode an operation of C issued from outside is refused. -/
theorem exec_notAdmitted {i : Instr} {s : State} (hi : i.agent = .host) (hb : s.seq.busy = false)
    (hm : s.seq.mode ∉ modesOf i) : exec i s = .refused .notAdmitted := by
  cases i with
  | init | ringInit | ringTeardown | macCoreInit | macEnable =>
    have hm : s.seq.mode ≠ .off := by simpa [modesOf] using hm
    exact issue_refused hb (if_pos hm)
  | fillRx | enqTx | reapRx | reapTx | rxEnable | rxDisable | txEnable | txDisable | rxEnabled | txEnabled | evRead | evClear
  | evReadClear | evSetMask | setSpeedDuplex | promiscSet | promiscClear | mdioRead | mdioWrite =>
    have hm : s.seq.mode ≠ .off ∧ s.seq.mode ≠ .running := by simpa [modesOf] using hm
    exact issue_refused hb (if_pos hm)
  | handleIrq | poll | transmit =>
    have hm : s.seq.mode ≠ .running := by simpa [modesOf] using hm
    exact issue_refused hb (if_pos hm)
  | getMac | printDiag =>
    have hm : s.seq.mode ≠ .running ∧ s.seq.mode ≠ .halted := by simpa [modesOf] using hm
    exact issue_refused hb (if_pos hm)
  | bu1 | bu2 | bu3 | bu4 | bu5 | bu6 | bu7 | bu8 | bu9 | bu10 | hRxSample | hRxDone | hRxStall | hTxSample | hTxDone
  | hTxStall | hBusError => cases hi

/-- Halted admits no operation of C issued from outside but GET_MAC and PRINT_DIAG. -/
theorem halted_notMem_modesOf {i : Instr} (hi : i.agent = .host) (hg : i ≠ .getMac) (hp : i ≠ .printDiag) :
    Mode.halted ∉ modesOf i := by
  cases i <;> simp_all [modesOf, Instr.agent]

/-! #### The read-and-clear (R142, R145, R146) -/

/-- The state HANDLE_IRQ's read-and-clear leaves, taking effect on `u`. -/
def State.acked (u : State) : State :=
  (flush u).setRegs { u.regs with event := clearBits u.regs.event (evAll u.params) }

section
variable (u : State)
@[simp] theorem State.acked_regs : u.acked.regs = { u.regs with event := clearBits u.regs.event (evAll u.params) } := rfl
@[simp] theorem State.acked_priv : u.acked.priv = u.priv := rfl
@[simp] theorem State.acked_hw : u.acked.hw = u.hw := rfl
@[simp] theorem State.acked_settled : u.acked.settled = u.settled := flush_settled u
@[simp] theorem State.acked_pend : u.acked.pend = [] := rfl
@[simp] theorem State.acked_early : u.acked.early = [] := rfl
@[simp] theorem State.acked_env : u.acked.env = u.env := rfl
@[simp] theorem State.acked_calls : u.acked.calls = u.calls := rfl
end

theorem Gap.params {s u : State} (h : Gap s u) : u.params = s.params := congrArg Private.params h.priv

theorem regReadClear_acked {s u : State} (h : Gap s u) :
    regReadClear (evAll s.params) s.begun = .ok (u.regs.event &&& evAll s.params, u.acked) := by
  rw [regReadClear_gap _ h, clearBits_and, State.acked, h.params]

/-- Where a bus error is among the events the body ends there (R145). -/
theorem handleIrq_busError {s u : State} (hg : Gap s u) (he : u.regs.event &&& evBerr s.params ≠ 0) :
    handleIrq s.begun =
      .ok ([14, eventWord (u.regs.event &&& evAll s.params)], u.acked.setSeq { u.seq with mode := .halted }) :=
  handleIrq_halts (regReadClear_acked hg) (by rwa [State.begun_params, evAll_and (.inr (.inr rfl))])

/-- Where none is, the two services run (R142, R144). -/
theorem handleIrq_noBusError {s u : State} (hg : Gap s u) (he : u.regs.event &&& evBerr s.params = 0) :
    handleIrq s.begun = (do
      serveTx (u.regs.event &&& evAll s.params)
      serveRx (u.regs.event &&& evAll s.params)
      returnOk [] : Op (List Word)) u.acked :=
  handleIrq_serves (regReadClear_acked hg) (by rwa [State.begun_params, evAll_and (.inr (.inr rfl))])

theorem and_eq_zero_of_evAll {p : Params} {bit : Params → Events} (h : bit = evRxf ∨ bit = evTxf ∨ bit = evBerr)
    {e : Events} (he : e &&& evAll p = 0) : e &&& bit p = 0 := by
  rw [← evAll_and h, he, Nat.zero_and]

/-- What the body leaves at a bus error: an access to the register block, and the mode Halted. -/
theorem acked_halted {s u : State} (hb : s.seq.busy = false) (hg : Gap s u) (ws : List Word) :
    Accessed u ((u.acked.setSeq { u.seq with mode := .halted }).ended ws) { s.priv with seq := { s.seq with mode := .halted } }
      { u.regs with event := clearBits u.regs.event (u.regs.event &&& evAll s.params) } u.hw ws := by
  have hseq : u.seq = s.begun.seq := congrArg Private.seq hg.priv
  exact {
    done := by simp
    became := {
      priv := by simp [State.ended_priv, hg.priv, hseq, State.begun_priv, hb]
      regs := by simp [clearBits_and, hg.params]
      hw := by simp
      calls := by simp
      out := rfl
      bytes := .of_settled (by simp)
      inputs := by simp
      quiet := fun hq => ⟨by simpa using hq.1, by simp⟩ } }

/-- Settles O30: the read-and-clear and the mode Halted are all the body does, and Halted is in no other operation's row of
the admission table. -/
theorem busErrorHalts : Obligations.BusErrorHalts := by
  intro s u hrun hg he
  exact ⟨_, issue_next hrun.1 hrun.admitted (handleIrq_busError hg he), acked_halted hrun.1 hg _,
    fun i hi hget hprint => exec_notAdmitted hi rfl (halted_notMem_modesOf hi hget hprint)⟩

/-- Settles O31: with no bit of EV_ALL set there is nothing to clear and neither service runs. -/
theorem spuriousIrq : Obligations.SpuriousIrq := by
  intro s u hrun hg he
  have hacked : u.acked = ((flush u).setRegs u.regs).setHw u.hw := by
    rw [State.acked, hg.params, ← clearBits_and, he]
    simp [clearBits, State.setRegs, State.setHw]
  have hbody : handleIrq s.begun = .ok ([0], u.acked) := by
    rw [handleIrq_noBusError hg (and_eq_zero_of_evAll (.inr (.inr rfl)) he), he,
      run_bind_ok (serveTx_none (Nat.zero_and _)), run_bind_ok (serveRx_none (Nat.zero_and _))]
    rfl
  exact ⟨_, issue_next hrun.1 hrun.admitted hbody, accessed_ended [0] hrun.1 hg.priv hacked⟩

/-! #### What a part of the dispatch leaves for the next (R142, R147) -/

/-- What a part of an operation must not disturb for the parts after it: memory comes to rest and reads as before, the rings
keep their blocks and stay sound, and the buffer source's answers are still to come. -/
structure Undisturbed (s t : State) : Prop where
  rested  : t.rested
  mem     : MemOk t
  ready   : RxReady t
  params  : t.params = s.params
  rxBlock : t.rx.block = s.rx.block
  txBlock : t.tx.block = s.tx.block
  bytes   : SameBytes s t
  env     : t.env = s.env

theorem Undisturbed.refl {s : State} (h : s.rested) (hm : MemOk s) (hr : RxReady s) : Undisturbed s s :=
  ⟨h, hm, hr, rfl, rfl, rfl, fun _ => rfl, rfl⟩

theorem Undisturbed.trans {s t u : State} (h : Undisturbed s t) (k : Undisturbed t u) : Undisturbed s u :=
  ⟨k.rested, k.mem, k.ready, k.params.trans h.params, k.rxBlock.trans h.rxBlock, k.txBlock.trans h.txBlock,
    fun a => (k.bytes a).trans (h.bytes a), k.env.trans h.env⟩

theorem RxDone.undisturbed {s t : State} {n : Nat} (h : RxDone s n) (hu : Undisturbed s t) (hr : t.rx = s.rx) : RxDone t n :=
  h.same hr hu.params hu.bytes

theorem TxDone.undisturbed {s t : State} {gs : List Nat} (h : TxDone s s.tx.head s.tx.inflight gs) (hu : Undisturbed s t)
    (hr : t.tx = s.tx) (hn : t.ndesc = s.ndesc) : TxDone t t.tx.head t.tx.inflight gs := by
  rw [hr]
  exact TxDone.same hr hn hu.params hu.bytes gs _ _ h

theorem Supplies.undisturbed {s t : State} {room : Nat} {bs : List (Nat × Handle)} (h : Supplies s room bs)
    (hu : Undisturbed s t) : Supplies t room bs :=
  h.same hu.rxBlock hu.txBlock hu.params (by rw [hu.env])

/-- The rings are alive together. -/
theorem RxReady.tx {s : State} (h : RxReady s) : TxReady s := ⟨h.1, h.1.both.symm.trans h.2⟩
theorem TxReady.rx {s : State} (h : TxReady s) : RxReady s := ⟨h.1, h.1.both.trans h.2⟩

/-- In Running both rings are alive. -/
theorem State.running.rxReady {s : State} (h : s.running) (hs : Inv s) : RxReady s.begun :=
  ⟨hs.priv.rings.begun, (hs.priv.seq.started (.inl h.2)).2⟩

theorem reapRx_undisturbed {s : State} {n : Nat} (h : s.rested) (hm : MemOk s) (hr : RxReady s) (hd : RxDone s n) :
    ∃ t, reapRx s = .ok ((), t) ∧ ReapedRx s n t ∧ Undisturbed s t := by
  obtain ⟨t, ht, hreaped, hmt, -⟩ := reapRx_rested h hm hr hd
  have hrx : t.rx = s.rx.take n := congrArg Private.rx hreaped.priv
  have htx : t.tx = s.tx := congrArg Private.tx hreaped.priv
  exact ⟨t, ht, hreaped, hreaped.rested, hmt, reapRx_ready s _ t hr ht, congrArg Private.params hreaped.priv,
    by rw [hrx]; rfl, by rw [htx], hreaped.bytes, hreaped.env⟩

theorem reapTx_undisturbed {s : State} {gs : List Nat} (h : s.rested) (hm : MemOk s) (hr : RxReady s)
    (hd : TxDone s s.tx.head s.tx.inflight gs) : ∃ t, reapTx s = .ok ((), t) ∧ ReapedTx s gs t ∧ Undisturbed s t := by
  obtain ⟨t, ht, hreaped, hmt, -⟩ := reapTx_rested h hm hr.tx hd
  have hrx : t.rx = s.rx := congrArg Private.rx hreaped.priv
  have htx : t.tx = s.tx.take gs.sum := congrArg Private.tx hreaped.priv
  exact ⟨t, ht, hreaped, hreaped.rested, hmt, (reapTx_ready s _ t hr.tx ht).rx, congrArg Private.params hreaped.priv,
    by rw [hrx], by rw [htx]; rfl, hreaped.bytes, hreaped.env⟩

theorem acked_undisturbed {s : State} (hq : s.quiet) (hm : MemOk s) (hr : RxReady s) : Undisturbed s s.acked :=
  ⟨flush_rested hq, settled_wf hm, hr, rfl, rfl, rfl, .of_settled s.acked_settled, rfl⟩

/-! #### The two services of HANDLE_IRQ (R142 to R144) -/

theorem serveTx_undisturbed {e : Events} {s : State} {gs : List Nat} (h : s.rested) (hm : MemOk s) (hr : RxReady s)
    (hd : e &&& evTxf s.params ≠ 0 → TxDone s s.tx.head s.tx.inflight gs) :
    ∃ t, serveTx e s = .ok ((), t) ∧ (e &&& evTxf s.params ≠ 0 → ReapedTx s gs t) ∧
      (e &&& evTxf s.params = 0 → t = s) ∧ Undisturbed s t ∧ t.rx = s.rx := by
  by_cases he : e &&& evTxf s.params = 0
  · exact ⟨s, serveTx_none he, absurd he, fun _ => rfl, .refl h hm hr, rfl⟩
  · obtain ⟨t, ht, hreaped, hu⟩ := reapTx_undisturbed h hm hr (hd he)
    exact ⟨t, (serveTx_some he).trans ht, fun _ => hreaped, fun h0 => absurd h0 he, hu, congrArg Private.rx hreaped.priv⟩

theorem serveRx_rested {e : Events} {s : State} {n : Nat} {bs : List (Nat × Handle)} (h : s.rested) (hm : MemOk s)
    (hr : RxReady s) (hd : e &&& evRxf s.params ≠ 0 → RxDone s n ∧ Supplies s (s.rx.remain + n) bs) :
    ∃ c t, serveRx e s = .ok ((), t) ∧ (e &&& evRxf s.params ≠ 0 → ReapedRx s n c ∧ SuppliedRx c bs t) ∧
      (e &&& evRxf s.params = 0 → t = s) := by
  by_cases he : e &&& evRxf s.params = 0
  · exact ⟨s, s, serveRx_none he, absurd he, fun _ => rfl⟩
  · obtain ⟨hdone, hsup⟩ := hd he
    obtain ⟨c, hc, hreaped, hu⟩ := reapRx_undisturbed h hm hr hdone
    have hroom : c.rx.remain = s.rx.remain + n := congrArg (·.rx.remain) hreaped.priv
    obtain ⟨t, ht, hfilled, -, -⟩ := fillRx_quiet hu.rested.1 hu.mem hu.ready (hroom ▸ hsup.undisturbed hu)
    exact ⟨c, t, (serveRx_some he).trans ((run_bind_ok hc).trans ht), fun _ => ⟨hreaped, hfilled⟩, fun h0 => absurd h0 he⟩

/-- Settles O32: the read-and-clear leaves the rings and memory to the transmit service, which leaves the receive ring to the
receive service; under any schedule the order is `handleIrq_order`. -/
theorem irqServes : Obligations.IrqServes := by
  refine ⟨fun s gs n bs hs hq hrun hberr htx hrx => ?_, fun s t h => handleIrq_order h⟩
  have hg : Gap s s.begun := tick_quiet (s := s.begun) hq
  have hua : Undisturbed s.begun s.begun.acked := acked_undisturbed hq hs.mem (hrun.rxReady hs)
  have htxBit := evAll_and (p := s.params) (.inr (.inl rfl)) s.regs.event
  have hrxBit := evAll_and (p := s.params) (.inl rfl) s.regs.event
  obtain ⟨b, hb, hreapedTx, hidleTx, hub, hbrx⟩ := serveTx_undisturbed (e := s.regs.event &&& evAll s.params) (gs := gs)
    hua.rested hua.mem hua.ready (fun he => (htx (htxBit ▸ he)).begun.undisturbed hua rfl rfl)
  have hu := hua.trans hub
  obtain ⟨c, d, hd, hserved, hidleRx⟩ := serveRx_rested (e := s.regs.event &&& evAll s.params) (n := n) (bs := bs)
    hub.rested hub.mem hub.ready fun he => by
      obtain ⟨hdone, hsup⟩ := hrx (by rwa [hu.params, State.begun_params, hrxBit] at he)
      have hsup : Supplies s.begun (s.rx.remain + n) bs := hsup.same rfl rfl rfl rfl
      exact ⟨hdone.begun.undisturbed hu hbrx, by rw [hbrx]; exact hsup.undisturbed hu⟩
  rw [hu.params] at hserved hidleRx
  refine ⟨s.begun.acked, b, c, d, ?_, htxBit ▸ hreapedTx, htxBit ▸ hidleTx, hrxBit ▸ hserved, ?_, ?_⟩
  · exact ⟨⟨rfl, rfl, rfl, (List.append_nil _).symm, rfl, hua.bytes, rfl, fun _ => hua.rested.1⟩, rfl, rfl⟩
  · exact hrxBit ▸ hidleRx
  · refine issue_next hrun.1 hrun.admitted ?_
    rw [handleIrq_noBusError hg hberr]
    exact (run_bind_ok hb).trans ((run_bind_ok hd).trans rfl)

/-! #### POLL (R147, R148) -/

/-- The reapers and the supply write no register but a path enable (R148). -/
theorem ReapedRx.event {s t : State} {n : Nat} (h : ReapedRx s n t) : t.regs.event = s.regs.event := by
  rw [h.regs]; split <;> rfl
theorem ReapedTx.event {s t : State} {gs : List Nat} (h : ReapedTx s gs t) : t.regs.event = s.regs.event := by
  rw [h.regs]; split <;> rfl
theorem SuppliedRx.event {s t : State} {bs : List (Nat × Handle)} (h : SuppliedRx s bs t) :
    t.regs.event = s.regs.event := by
  rw [h.regs]; split <;> rfl

/-- Settles O33: each reap leaves what the parts after it need, and none of the three writes the event register. -/
theorem pollServes : Obligations.PollServes := by
  intro s gs n bs hs hr hrun hrx htx hsup
  obtain ⟨a, ha, hreapedRx, hua⟩ := reapRx_undisturbed (s := s.begun) hr hs.mem (hrun.rxReady hs) hrx.begun
  obtain ⟨b, hb, hreapedTx, hub⟩ := reapTx_undisturbed hua.rested hua.mem hua.ready
    (htx.begun.undisturbed hua (congrArg Private.tx hreapedRx.priv) (congrArg Private.ndesc hreapedRx.priv))
  have hu := hua.trans hub
  have hroom : b.rx.remain = s.rx.remain + n :=
    (congrArg (·.rx.remain) hreapedTx.priv).trans (congrArg (·.rx.remain) hreapedRx.priv)
  have hsup : Supplies s.begun (s.rx.remain + n) bs := hsup.same rfl rfl rfl rfl
  obtain ⟨c, hc, hfilled, -, -⟩ := fillRx_quiet hu.rested.1 hu.mem hu.ready (hroom ▸ hsup.undisturbed hu)
  refine ⟨a, b, c, hreapedRx, hreapedTx, hfilled, ?_, ?_⟩
  · exact hfilled.event.trans (hreapedTx.event.trans hreapedRx.event)
  · exact issue_next hrun.1 hrun.admitted
      ((run_bind_ok ha).trans ((run_bind_ok hb).trans ((run_bind_ok hc).trans rfl)))

end Sys2Proof.Machine
end

/-! ### Link bring-up (44_link_bringup R150 to R165) -/

section
namespace Sys2Proof.Machine

/-! #### Calls answered inside a step (R153) -/

/-- The calls `c` were made, and the answers `a` are still to come. -/
def State.answered (s : State) (c : List Call) (a : Answers) : State :=
  (s.setCalls (s.calls ++ c)).setEnv { s.env with answers := a }

theorem State.answered_answered (s : State) (c d : List Call) (a b : Answers) :
    (s.answered c a).answered d b = s.answered (c ++ d) b := by
  simp [State.answered, State.setCalls, State.setEnv]

theorem State.answered_nil (s : State) : s.answered [] s.env.answers = s := by
  simp [State.answered, State.setCalls, State.setEnv]

theorem ask_answered {α : Type} (c : Call) {get : Answers → List α} (put : Answers → List α → Answers) (free : Nat → α)
    {s : State} {a : α} {rest : List α} (h : s.quiet) (ha : get s.env.answers = a :: rest) :
    ask c get put free s = .ok (a, s.answered [c] (put s.env.answers rest)) := ask_quiet c put free h ha

/-- The next call of the same step. -/
theorem ask_answered_again {α : Type} (c : Call) {get : Answers → List α} (put : Answers → List α → Answers)
    (free : Nat → α) {s : State} {d : List Call} {b : Answers} {a : α} {rest : List α} (h : s.quiet)
    (ha : get b = a :: rest) : ask c get put free (s.answered d b) = .ok (a, s.answered (d ++ [c]) (put b rest)) := by
  rw [ask_answered (s := s.answered d b) c put free h ha, State.answered_answered]
  rfl

/-! #### How a step ends (R150, R152) -/

/-- Which step an operation of the sequencer is, and that it stands there, is all `sequencerStep` adds before the body. -/
theorem sequencerStep_ok {k : Nat} {body : Op (Option Err)} {s t : State} (h : sequencerStep k body s = .next t) :
    s.atStep k ∧ ∃ r u, body s = .ok (r, u) ∧
      t = match r with
        | some e => u.ended [e.code]
        | none => if k = 10 then (u.setSeq { u.seq with mode := .running }).ended [0] else u := by
  unfold sequencerStep at h
  split at h
  · next hat =>
    refine ⟨hat, ?_⟩
    obtain ⟨_, h⟩ := outcome_next.1 h
    obtain ⟨r, u, hbody, h⟩ := bind_ok h
    refine ⟨r, u, hbody, ?_⟩
    cases r with
    | some e => cases h; rfl
    | none =>
      simp only at h ⊢
      split at h
      · next hk => cases h; exact (if_pos hk).symm
      · next hk => cases h; exact (if_neg hk).symm
  · cases h

/-- A step before the last one that stores nothing and went well leaves what it left (R152). -/
theorem sequencer_became {k : Nat} {body : Op (Option Err)} {s : State} {p : Private} {r : Regs} {w : Hw} {c : List Call}
    {a : Answers} (hat : s.atStep k) (hk : k ≠ 10) (h : ∃ t, body s = .ok (none, t) ∧ Stepped s t p r w c a) :
    ∃ t, sequencerStep k body s = .next t ∧ Became s t p r w c s.out := by
  obtain ⟨t, ht, hstep⟩ := h
  exact ⟨t, sequencer_next hat hk ht, hstep.became⟩

/-- The same where the step ends with an access to the register block. -/
theorem sequencer_accessed {k : Nat} {body : Op (Option Err)} {s : State} {p : Private} {r : Regs} {w : Hw}
    {a : Answers} (hat : s.atStep k) (hk : k ≠ 10)
    (h : ∃ t, body s = .ok (none, t) ∧ Stepped s t p r w [] a ∧ t.pend = [] ∧ t.early = []) :
    ∃ t, sequencerStep k body s = .next t ∧ Accessed s t p r w s.out := by
  obtain ⟨t, ht, hstep, hdone⟩ := h
  exact ⟨t, sequencer_next hat hk ht, hstep.became, hdone⟩

/-- A step that fails before anything exists leaves the machine off with its code and nothing else changed (R154, R155). -/
theorem sequencer_failsEarly {k : Nat} {body : Op (Option Err)} {s : State} {c : List Call} {a : Answers} {e : Err}
    (hat : s.atStep k) (h : body s = failEarly e (s.answered c a)) :
    ∃ t, sequencerStep k body s = .next t ∧ Became s t { s.priv with seq := ⟨.off, 0, false⟩ } s.regs s.hw c [e.code] := by
  refine ⟨_, sequencer_stop hat (h.trans rfl), ?_⟩
  exact ⟨by simp [State.answered, State.ended_priv], rfl, rfl, rfl, rfl, .of_settled (by simp [State.answered]), rfl,
    fun hq => ⟨hq.1, hq.2⟩⟩

/-- A step that aborts unwinds what was built, whatever it did to the context before (R164). -/
theorem sequencer_aborts {k : Nat} {body : Op (Option Err)} {s : State} {x : Ctx} {c : List Call} {a : Answers} {e : Err}
    (hat : s.atStep k) (hr : RingsSound s.priv) (hq : s.quiet) (h : body s = abort e ((s.answered c a).setCtx x)) :
    ∃ t, sequencerStep k body s = .next t ∧ Aborted s t c e.code := by
  obtain ⟨u, hu, hab⟩ := abort_quiet (s := s) (t := (s.answered c a).setCtx x) e hr hq ⟨x, a, rfl⟩
  exact ⟨_, sequencer_stop hat (h.trans hu), hab⟩

/-! #### Step 1 (R154) -/

theorem bu1_noFuse {s : State} {r : List (Option Mac)} (h : s.quiet) (hm : s.bring.cfg.mac = Mac.zero)
    (hf : s.env.answers.fuse = none :: r) :
    bu1 s = failEarly .macAddressUnavailable (s.answered [.fuseMac s.bring.cfg.index] { s.env.answers with fuse := r }) := by
  rw [bu1, run_here_bind, if_neg (not_not.2 hm), askFuse, run_bind_ok (ask_answered _ _ _ h hf)]

/-- Settles O35: a step 1 that gets an address stores it as pending and moves on; one that gets none fails early. -/
theorem bu1AcquiresMac : Obligations.Bu1AcquiresMac := by
  refine fun s hq hat => ⟨fun hm => ?_, fun m r hm hf => ?_, fun r hm hf => ?_⟩
  · exact sequencer_became hat (by decide) (bu1_given hq hm)
  · exact sequencer_became hat (by decide) (bu1_fuse hq hm hf)
  · exact sequencer_failsEarly hat (bu1_noFuse hq hm hf)

/-! #### Step 2 (R155) -/

theorem Params.caps_of_wf {p : Params} (h : p.wf = true) : 2 ≤ p.capRx ∧ 2 ≤ p.capTx := by
  simp only [Params.wf, Bool.and_eq_true, decide_eq_true_eq] at h
  omega

/-- Step 2 with no context allocated. -/
theorem bu2_noContext {s : State} {r : List Bool} (h : s.quiet) (hc : s.env.answers.ctxAlloc = false :: r) :
    bu2 s = failEarly .contextAllocFailed (s.answered [.ctxAlloc] { s.env.answers with ctxAlloc := r }) := by
  rw [bu2, askCtxAlloc, run_bind_ok (ask_answered _ _ _ h hc)]
  rfl

/-- Before step 2 no ring is alive. -/
theorem Inv.noRings {s : State} (h : Inv s) (hat : s.atStep 2) : s.rx.alive = false ∧ s.tx.alive = false := by
  obtain ⟨hmode, hstep⟩ := hat
  have hrx : s.rx.alive = false := (h.priv.seq.early hmode (Nat.le_of_eq hstep)).2
  exact ⟨hrx, h.priv.rings.both.symm.trans hrx⟩

/-- The context that step 2 opens: the configuration's values and the address step 1 found (R155). -/
def State.openedCtx (s : State) : Ctx :=
  ⟨true, none, s.bring.cfg.index, s.bring.cfg.phyAddr, s.bring.cfg.promisc, s.bring.macPending⟩

/-- `LaidOut` says nothing of the context before and of the sequencer after. -/
theorem LaidOut.of_setCtx {s t : State} {x : Ctx} {capRx capTx : Nat} {a b : Word} {c : List Call}
    (h : LaidOut (s.setCtx x) t capRx capTx a b c) (q : Seq) : LaidOut s (t.setSeq q) capRx capTx a b c :=
  ⟨h.rx, h.tx, h.ndesc, h.fresh, h.kept, h.rxSlots, h.txSlots, h.outside, h.regs, h.hw, h.calls, h.inputs, h.quiet⟩

/-- Settles O36: with the context opened step 2 is RING_INIT's layout of both rings; without one it fails early. -/
theorem bu2Allocates : Obligations.Bu2Allocates := by
  intro s r hs hq hat
  obtain ⟨hrx, htx⟩ := hs.noRings hat
  obtain ⟨hcapRx, hcapTx⟩ := Params.caps_of_wf hs.priv.rings.params
  refine ⟨fun a b rd rm hc hda hma hal => ?_, fun hc => sequencer_failsEarly hat (bu2_noContext hq hc)⟩
  obtain ⟨t, ht, -, hlaid⟩ := bu2_up hq hs.mem hcapRx hcapTx hrx htx hc hda hma hal
  have hctx : t.ctx = s.openedCtx := by
    obtain ⟨k, j, hp⟩ := hlaid.priv
    exact congrArg Private.ctx hp
  have hl := (hlaid.laidOut (s := s.setCtx s.openedCtx) rfl).of_setCtx { s.seq with bstep := 3 }
  exact ⟨_, sequencer_next hat (by decide) ht, hl, hctx, rfl, hlaid.out⟩

/-! #### Steps 3, 4, 6, 7, 8 and 9 where they go well (R156, R157, R159 to R162) -/

/-- Settles O37: steps 3 and 4 ask and move on. -/
theorem bu3Bu4SetUp : Obligations.Bu3Bu4SetUp := by
  refine fun s hq => ⟨fun r hat hx ha => ?_, fun h r hat ha => ?_⟩
  · exact sequencer_became hat (by decide) (bu3_up hq hx ha)
  · exact sequencer_became hat (by decide) (bu4_up hq ha)

/-- Settles O39: each of the two steps is one register access. -/
theorem bu6Bu9Program : Obligations.Bu6Bu9Program := by
  refine fun s hq => ⟨fun hat => ?_, fun hat hv => ?_⟩
  · exact sequencer_accessed hat (by decide) (bu6_up hq)
  · exact sequencer_accessed hat (by decide) (bu9_up hq hv)

/-- Settles O40: each of the two steps asks twice, stores the second answer and moves on. -/
theorem bu7Bu8StartPhy : Obligations.Bu7Bu8StartPhy := by
  refine fun s r hq => ⟨fun phy q hat hx ha hc => ?_, fun v d q hat ha hc => ?_⟩
  · exact sequencer_became hat (by decide) (bu7_up hq hx ha hc)
  · exact sequencer_became hat (by decide) (bu8_up hq ha hc)

/-! #### Step 5 (R158, R165) -/

theorem bu5_down {s : State} {a b : Word} {r : List Bool} (h : s.quiet) (hrx : s.rx.alive = true) (htx : s.tx.alive = true)
    (ha : s.rx.base = some a) (hb : s.tx.base = some b) (hc : s.env.answers.coreInit = false :: r) :
    ∃ t, bu5 s = .ok (some .macCoreInitFailed, t) ∧
      Became s (t.ended [8]) { s.priv with seq := ⟨.dead, 0, false⟩ } t.regs t.hw [.macCoreHwInit s.ctx.regs] [8] ∧
      s.regs.coreTried t.regs a b (BitVec.ofNat 32 s.params.bufSize) s.ctx.mac ∧ s.hw.coreTried t.hw := by
  obtain ⟨t, ht, hp, hregs, hhw, hcalls, -, hbytes, hquiet, hin⟩ :=
    macCoreInit_down a b (BitVec.ofNat 32 s.params.bufSize) s.ctx.mac h hrx htx hc
  refine ⟨t.setSeq { t.seq with mode := .dead, bstep := 0 }, ?_, ?_, hregs, hhw⟩
  · rw [bu5, run_here_bind, ha, hb, Option.getD_some, Option.getD_some, run_bind_ok ht]
    rfl
  · exact ⟨by rw [← hp]; rfl, rfl, rfl, hcalls, rfl, .of_settled hbytes, hin, fun _ => hquiet⟩

/-- Before step 5 both rings are alive, each with its block. -/
theorem Inv.twoRings {s : State} (h : Inv s) (hat : s.atStep 5) :
    s.rx.alive = true ∧ s.tx.alive = true ∧ ∃ a b, s.rx.base = some a ∧ s.tx.base = some b := by
  obtain ⟨hmode, hstep⟩ := hat
  have hr : RingsSound s.priv := h.priv.rings
  have hlate : 3 ≤ s.seq.bstep := by omega
  have hrx : s.rx.alive = true := (h.priv.seq.late hmode hlate).2
  have htx : s.tx.alive = true := hr.both.symm.trans hrx
  obtain ⟨a, ha, -⟩ := hr.rx.base hrx
  obtain ⟨b, hb, -⟩ := hr.tx.base htx
  exact ⟨hrx, htx, a, b, ha, hb⟩

/-- Settles O38: step 5 is MAC_CORE_INIT on the rings' blocks; where it fails only the mode is left to write. -/
theorem bu5InitialisesCore : Obligations.Bu5InitialisesCore := by
  intro s r hs hq hat
  obtain ⟨hrx, htx, a, b, ha, hb⟩ := hs.twoRings hat
  refine ⟨a, b, ha, hb, fun hc => ?_, fun hc => ?_⟩
  · exact sequencer_became hat (by decide) (bu5_up hq hrx htx ha hb hc)
  · obtain ⟨t, ht, hbecame, hregs, hhw⟩ := bu5_down hq hrx htx ha hb hc
    exact ⟨t.ended [8], sequencer_stop hat ht, hbecame, hregs, hhw⟩

/-! #### Step 10 (R163) -/

/-- Once step 10 has enabled the MAC. -/
def State.macOn (u : State) : State := (flush u).setRegs { u.regs with macEn := true }

/-- Once step 10 has unmasked, and INIT has ended. -/
def State.upEnded (c : State) : State :=
  (((flush c).setRegs { c.regs with evmask := evAll c.params }).setSeq ⟨.running, 0, true⟩).ended [0]

section
variable (u : State)
@[simp] theorem State.macOn_priv : u.macOn.priv = u.priv := flush_priv u
@[simp] theorem State.macOn_params : u.macOn.params = u.params := rfl
@[simp] theorem State.macOn_ring (d : Dir) : u.macOn.ring d = u.ring d := ring_of_priv u.macOn_priv d
@[simp] theorem State.macOn_regs : u.macOn.regs = { u.regs with macEn := true } := rfl
@[simp] theorem State.macOn_hw : u.macOn.hw = u.hw := rfl
@[simp] theorem State.macOn_env : u.macOn.env = u.env := rfl
@[simp] theorem State.macOn_settled : u.macOn.settled = u.settled := flush_settled u
end

section
variable (c : State)
@[simp] theorem State.upEnded_priv : c.upEnded.priv = { c.priv with seq := ⟨.running, 0, false⟩ } := by
  simp [State.upEnded, State.ended_priv]
@[simp] theorem State.upEnded_params : c.upEnded.params = c.params := congrArg Private.params c.upEnded_priv
@[simp] theorem State.upEnded_ring (d : Dir) : c.upEnded.ring d = c.ring d := by
  cases d <;> simp [State.upEnded, State.ring]
@[simp] theorem State.upEnded_regs : c.upEnded.regs = { c.regs with evmask := evAll c.params } := rfl
@[simp] theorem State.upEnded_hw : c.upEnded.hw = c.hw := by simp [State.upEnded]
@[simp] theorem State.upEnded_env : c.upEnded.env = c.env := by simp [State.upEnded]
@[simp] theorem State.upEnded_settled : c.upEnded.settled = c.settled := by simp [State.upEnded]
end

theorem macOn_accessed (s : State) : Accessed s s.macOn s.priv { s.regs with macEn := true } s.hw s.out :=
  ⟨⟨by simp, by simp, by simp, (List.append_nil _).symm, rfl, .of_settled (by simp), by simp,
    fun h => ⟨by simpa using h.1, rfl⟩⟩, rfl, rfl⟩

theorem upEnded_accessed (c : State) : Accessed c c.upEnded { c.priv with seq := ⟨.running, 0, false⟩ }
    { c.regs with evmask := evAll c.params } c.hw [0] :=
  ⟨⟨by simp, by simp, by simp, by simp [State.upEnded], by simp [State.upEnded], .of_settled (by simp), by simp,
    fun h => ⟨by simpa using h.1, by simp [State.upEnded]⟩⟩, by simp [State.upEnded], by simp [State.upEnded]⟩

/-- Step 10 where H rests: what is left once INIT has ended is `upEnded` of what FILL_RX left. -/
theorem bu10_upEnded {s : State} {bs : List (Nat × Handle)} (h : s.quiet) (hm : MemOk s) (hr : RxReady s)
    (hf : s.coreFresh = true) (hb : Supplies s s.rx.remain bs) :
    ∃ c u, SuppliedRx s.macOn bs c ∧ bu10 s = .ok (none, u) ∧
      (u.setSeq { u.seq with mode := .running }).ended [0] = c.upEnded := by
  obtain ⟨c, hsup, -, hrun⟩ := bu10_up h hm hr hf hb
  have hparams : c.params = s.params := congrArg Private.params hsup.priv
  rw [← hparams] at hrun
  exact ⟨c, _, hsup, hrun, rfl⟩

/-- Step 10 under any schedule: MAC_ENABLE, FILL_RX and EV_SET_MASK, one after the other. -/
theorem bu10_ok {s u : State} {r : Option Err} (h : bu10 s = .ok (r, u)) :
    ∃ a c b, macEnable s = .ok ((), a) ∧ fillRx a = .ok ((), c) ∧ setEventMask (evAll s.params) c = .ok ((), b) ∧
      r = none ∧ u = b.setSeq { b.seq with bstep := 0 } := by
  obtain ⟨_, a, hen, h⟩ := bind_ok h
  obtain ⟨_, c, hfill, h⟩ := bind_ok h
  obtain ⟨_, _, hhere, h⟩ := bind_ok h
  cases hhere
  obtain ⟨_, b, hmask, h⟩ := bind_ok h
  have ha : a.params = s.params := congrArg Private.params (macEnable_priv s _ a hen)
  have hc : c.params = a.params := congrArg (fun x : Rest × Ring × List Nat => x.1.params) (fillRx_rest a _ c hfill)
  rw [hc, ha] at hmask
  cases h
  exact ⟨a, c, b, hen, hfill, hmask, rfl, rfl⟩

/-- Settles O41: where H rests the three parts follow one another as `bu10_upEnded` says; under any schedule they are all of step
10 but the move to Running. -/
theorem bu10Completes : Obligations.Bu10Completes := by
  refine ⟨fun s bs hs hq hat hb => ?_, fun s t h => ?_⟩
  · have hat' : AtStep 10 s.priv := atStep_of_sound hs.priv 10 hat.1 hat.2 (by decide)
    have hready : RxReady s := ⟨hs.priv.rings, (hat'.late (by decide)).2⟩
    obtain ⟨c, u, hsup, hrun, hu⟩ := bu10_upEnded hq hs.mem hready (hat'.fresh (by decide)) hb
    have hparams : c.params = s.params := congrArg Private.params hsup.priv
    have hlast : exec .bu10 s = .next c.upEnded := hu ▸ sequencer_last hat hrun
    exact ⟨s.macOn, c, c.upEnded, macOn_accessed s, hsup, hlast, hparams ▸ upEnded_accessed c⟩
  · obtain ⟨hat, r, u, hbody, ht⟩ := sequencerStep_ok h
    obtain ⟨a, c, b, hen, hfill, hmask, rfl, rfl⟩ := bu10_ok hbody
    exact ⟨hat, a, c, b, hen, hfill, hmask, ht⟩

/-! #### Failures that unwind (R164) -/

theorem bu2_noRings {s : State} {x y : Option Word} {m : Bool} {r : List Bool} {rd : List (Option Word)} {rm : List Bool}
    (h : s.quiet) (h1 : 2 ≤ s.params.capRx) (h2 : 2 ≤ s.params.capTx) (hrx : s.rx.alive = false) (htx : s.tx.alive = false)
    (hc : s.env.answers.ctxAlloc = true :: r) (hda : s.env.answers.dmaAlloc = x :: y :: rd)
    (hma : s.env.answers.metaAlloc = m :: rm) (hf : x = none ∨ y = none ∨ m = false) :
    bu2 s = abort .ringInitFailed ((s.answered (.ctxAlloc :: allocCalls s.params s.params.capRx s.params.capTx ++
        unwindCalls s.params.capRx s.params.capTx x y m)
      { s.env.answers with ctxAlloc := r, dmaAlloc := rd, metaAlloc := rm }).setCtx s.openedCtx) := by
  have hfail := ringInit_fails (s := (s.answered [.ctxAlloc] { s.env.answers with ctxAlloc := r }).setCtx s.openedCtx)
    h h1 h2 hrx htx hda hma hf
  have hopen : openContext (s.answered [.ctxAlloc] { s.env.answers with ctxAlloc := r }) =
      .ok ((), (s.answered [.ctxAlloc] { s.env.answers with ctxAlloc := r }).setCtx s.openedCtx) := rfl
  rw [bu2, askCtxAlloc, run_bind_ok (ask_answered _ _ _ h hc), if_pos rfl, run_bind_ok hopen, run_here_bind]
  refine (run_bind_ok hfail).trans ?_
  simp [State.answered, State.setCalls, State.setEnv, State.setCtx]

theorem bu3_unsupported {s : State} (hx : s.ctx.index ≠ 0) : bu3 s = abort .unsupportedConfiguration s := by
  rw [bu3, run_here_bind, if_pos hx]

theorem bu3_noPlatform {s : State} {r : List Bool} (h : s.quiet) (hx : s.ctx.index = 0)
    (ha : s.env.answers.platform = false :: r) :
    bu3 s = abort .platformSetupFailed (s.answered [.platformSetup 0] { s.env.answers with platform := r }) := by
  rw [bu3, run_here_bind, if_neg (not_not.2 hx), askPlatform, run_bind_ok (ask_answered _ _ _ h ha)]
  rfl

theorem bu4_noMap {s : State} {r : List (Option Word)} (h : s.quiet) (ha : s.env.answers.mapRegs = none :: r) :
    bu4 s = abort .mapFailed (s.answered [.mapRegs] { s.env.answers with mapRegs := r }) := by
  rw [bu4, askMapRegs, run_bind_ok (ask_answered _ _ _ h ha)]

theorem bu7_invalidAddr {s : State} (hx : s.params.phyAddrMax < s.ctx.phyAddr.toNat) : bu7 s = abort .invalidPhyAddress s := by
  rw [bu7, run_here_bind, if_pos hx]

theorem bu7_noMdio {s : State} {r : List Bool} (h : s.quiet) (hx : s.ctx.phyAddr.toNat ≤ s.params.phyAddrMax)
    (ha : s.env.answers.mdioInit = false :: r) :
    bu7 s = abort .mdioInitFailed
      (s.answered [.mdioInit s.ctx.regs s.bring.cfg.remoteMdio] { s.env.answers with mdioInit := r }) := by
  rw [bu7, run_here_bind, if_neg (Nat.not_lt.2 hx), askMdioInit, run_bind_ok (ask_answered _ _ _ h ha)]
  rfl

theorem bu7_noPhy {s : State} {r : List Bool} {l : List (Option Nat)} (h : s.quiet)
    (hx : s.ctx.phyAddr.toNat ≤ s.params.phyAddrMax) (ha : s.env.answers.mdioInit = true :: r)
    (hc : s.env.answers.phyConnect = none :: l) :
    bu7 s = abort .phyNotFound (s.answered [.mdioInit s.ctx.regs s.bring.cfg.remoteMdio,
        .phyConnect (if s.ctx.phyAddr = 0 then none else some s.ctx.phyAddr)]
      { s.env.answers with mdioInit := r, phyConnect := l }) := by
  rw [bu7, run_here_bind, if_neg (Nat.not_lt.2 hx), askMdioInit, run_bind_ok (ask_answered _ _ _ h ha), if_pos rfl,
    askPhyConnect, run_bind_ok (ask_answered_again _ _ _ h (b := { s.env.answers with mdioInit := r }) hc)]
  rfl

theorem bu8_noTune {s : State} {r : List Bool} (h : s.quiet) (ha : s.env.answers.phyTune = false :: r) :
    bu8 s = abort .phyStartupFailed (s.answered [.phyTune s.bring.phy] { s.env.answers with phyTune := r }) := by
  rw [bu8, run_here_bind, askPhyTune, run_bind_ok (ask_answered _ _ _ h ha)]
  rfl

theorem bu8_noLink {s : State} {r : List Bool} {l : List (Option (Nat × Duplex))} (h : s.quiet)
    (ha : s.env.answers.phyTune = true :: r) (hc : s.env.answers.phyStartup = none :: l) :
    bu8 s = abort .phyStartupFailed (s.answered [.phyTune s.bring.phy, .phyStartup s.bring.phy]
      { s.env.answers with phyTune := r, phyStartup := l }) := by
  rw [bu8, run_here_bind, askPhyTune, run_bind_ok (ask_answered _ _ _ h ha), if_pos rfl, askPhyStartup, bind_assoc,
    run_here_bind, run_bind_ok (ask_answered_again _ _ _ h (b := { s.env.answers with phyTune := r }) hc)]
  rfl

/-- `sequencer_aborts` for a step that left the context alone. -/
theorem sequencer_aborts_ctx {k : Nat} {body : Op (Option Err)} {s : State} {c : List Call} {a : Answers} {e : Err}
    (hat : s.atStep k) (hr : RingsSound s.priv) (hq : s.quiet) (h : body s = abort e (s.answered c a)) :
    ∃ t, sequencerStep k body s = .next t ∧ Aborted s t c e.code := by
  have hctx : (s.answered c a).setCtx s.ctx = s.answered c a := rfl
  exact sequencer_aborts hat hr hq (h.trans (congrArg _ hctx.symm))

/-- `sequencer_aborts` for a step that had called nothing. -/
theorem sequencer_aborts_at_once {k : Nat} {body : Op (Option Err)} {s : State} {e : Err} (hat : s.atStep k)
    (hr : RingsSound s.priv) (hq : s.quiet) (h : body s = abort e s) :
    ∃ t, sequencerStep k body s = .next t ∧ Aborted s t [] e.code :=
  sequencer_aborts_ctx hat hr hq (h.trans (congrArg _ s.answered_nil.symm))

/-- Settles O42: each failing step is `abort` after the calls it had made. -/
theorem abortUnwinds : Obligations.AbortUnwinds := by
  intro s r q hs hq
  have hr : RingsSound s.priv := hs.priv.rings
  refine ⟨fun x y m rd rm hat hc hda hma hf => ?_, fun hat hx => ?_, fun hat hx ha => ?_, fun l hat ha => ?_,
    fun hat hx => ?_, fun hat hx ha => ?_, fun l hat hx ha hc => ?_, fun hat ha => ?_, fun l hat ha hc => ?_⟩
  · obtain ⟨hrx, htx⟩ := hs.noRings hat
    obtain ⟨hcapRx, hcapTx⟩ := Params.caps_of_wf hr.params
    exact sequencer_aborts hat hr hq (bu2_noRings hq hcapRx hcapTx hrx htx hc hda hma hf)
  · exact sequencer_aborts_at_once hat hr hq (bu3_unsupported hx)
  · exact sequencer_aborts_ctx hat hr hq (bu3_noPlatform hq hx ha)
  · exact sequencer_aborts_ctx hat hr hq (bu4_noMap hq ha)
  · exact sequencer_aborts_at_once hat hr hq (bu7_invalidAddr hx)
  · exact sequencer_aborts_ctx hat hr hq (bu7_noMdio hq hx ha)
  · exact sequencer_aborts_ctx hat hr hq (bu7_noPhy hq hx ha hc)
  · exact sequencer_aborts_ctx hat hr hq (bu8_noTune hq ha)
  · exact sequencer_aborts_ctx hat hr hq (bu8_noLink hq ha hc)

end Sys2Proof.Machine
end

/-! ### The step (44_link_bringup R150, R165; 60_exceptions R211, R224) -/

section
namespace Sys2Proof.Machine

/-! #### What is performed next (20_memory R73, 30_encoding R103) -/

theorem readWords_ok {a : Agent} {ws : List Word} {i : Instr} (h : decode ws = .ok i) (ha : i.agent = a) :
    readWords a ws = .ok i := by
  simp only [readWords, h, if_pos ha]

theorem popInput_eq {s : State} {x : Input} {rest : List Input} (h : s.env.inputs = x :: rest) :
    s.popInput = s.setEnv { s.env with inputs := rest } := by
  rw [State.popInput, h, List.tail_cons]

theorem fetch_hstep {s : State} {ws : List Word} {rest : List Input} (h : s.env.inputs = .hstep ws :: rest) :
    fetch s = .operation (readWords .engine ws) s.popInput := by
  rw [fetch, h]

theorem fetch_hostAct {s : State} {a : HostAct} {rest : List Input} (h : s.env.inputs = .host a :: rest) :
    fetch s = .host a s.popInput := by
  rw [fetch, h]

/-- Where the trace names no step of H and no act of the host, the sequencer comes first. -/
theorem fetch_sequencer {s : State} {i : Instr} (hstep : ∀ ws rest, s.env.inputs ≠ .hstep ws :: rest)
    (hhost : ∀ a rest, s.env.inputs ≠ .host a :: rest) (hseq : sequencerNext s = some i) :
    fetch s = .operation (.ok i) s := by
  rw [fetch, hseq]
  rcases hin : s.env.inputs with _ | ⟨ws | ws | a, rest⟩
  · rfl
  · rfl
  · exact absurd hin (hstep ws rest)
  · exact absurd hin (hhost a rest)

theorem fetch_idle {s : State} (hin : s.env.inputs = []) (hseq : sequencerNext s = none) : fetch s = .idle := by
  rw [fetch, hin, hseq]

theorem sequencerNext_dead {s : State} (hm : s.seq.mode = .dead) : sequencerNext s = none := by
  rw [sequencerNext, hm]
  rfl

/-! #### What the step makes of it -/

theorem step_operation {s u : State} {i : Instr} (h : fetch s = .operation (.ok i) u) :
    step s = unlessDead s (exec i u) := by
  rw [step, h]

theorem step_hostAct {s u : State} {a : HostAct} (h : fetch s = .host a u) :
    step s = unlessDead s (outcome (hostAct a) u) := by
  rw [step, h]

theorem step_idle {s : State} (h : fetch s = .idle) : step s = unlessDead s (.next s) := by
  rw [step, h]

/-- A step that reads words of an operation runs it, the input used up. -/
theorem step_words {s : State} {x : Input} {a : Agent} {ws : List Word} {rest : List Input} {i : Instr}
    (hin : s.env.inputs = x :: rest) (hf : fetch s = .operation (readWords a ws) s.popInput) (hd : decode ws = .ok i)
    (ha : i.agent = a) : step s = unlessDead s (exec i (s.setEnv { s.env with inputs := rest })) := by
  rw [readWords_ok hd ha, popInput_eq hin] at hf
  exact step_operation hf

/-! #### Acts of the host (60_exceptions R224 rows 7 and 8) -/

/-- A write of the host off the rings: any byte of it that lies in a buffer in flight is any value. -/
theorem hostAct_write {s : State} {a : Nat} {bs : List Byte} (h : bufferReal s a bs.length = true) :
    hostAct (.write a bs) s = .ok ((), (s.setEnv { s.env with draws := s.env.draws + 1 }).setMem
      (Memory.writeBytes a (blur s.inFlight s.env.draws a bs) s.mem)) := by
  rw [hostAct, run_here_bind, h, run_bind_ok (sound_true _ _)]
  rfl

theorem hostAct_write_fault {s : State} {a : Nat} {bs : List Byte} (h : bufferReal s a bs.length = false) :
    hostAct (.write a bs) s = .error (.fault .behindTheBack) := by
  rw [hostAct, run_here_bind, h]
  rfl

theorem outcome_fault {α : Type} {x : Op α} {s : State} {r : Fault} (h : x s = .error (.fault r)) :
    outcome x s = .fault r := by
  rw [outcome, h]

theorem step_hostWrite {s : State} {a : Nat} {bs : List Byte} {rest : List Input}
    (hin : s.env.inputs = .host (.write a bs) :: rest) (hm : s.seq.mode ≠ .dead) :
    (bufferReal s a bs.length = true → ∃ cs e, cs.length = bs.length ∧
      (∀ k, s.inFlight (a + k) = false → cs[k]? = bs[k]?) ∧ e.inputs = rest ∧ e.sched = s.env.sched ∧
      e.answers = s.env.answers ∧ step s = .next ((s.setEnv e).setMem (Memory.writeBytes a cs s.mem))) ∧
    (bufferReal s a bs.length = false → step s = .fault .behindTheBack) := by
  have hstep := step_hostAct (fetch_hostAct hin)
  rw [unlessDead_of_ne hm, popInput_eq hin] at hstep
  constructor
  · intro hreal
    refine ⟨blur s.inFlight s.env.draws a bs, { s.env with inputs := rest, draws := s.env.draws + 1 }, blur_length _ _ _ _,
      fun k hk => blur_getElem? hk, rfl, rfl, rfl, ?_⟩
    rw [hstep, outcome_next]
    exact ⟨(), hostAct_write hreal⟩
  · intro hreal
    exact hstep.trans (outcome_fault (hostAct_write_fault hreal))

/-! #### Every step -/

/-- On a Dead machine even doing nothing is the fault. -/
theorem unlessDead_stays {s t : State} (hm : s.seq.mode = .dead) : unlessDead s (.next t) = .fault .coreInitFailed :=
  if_pos hm

/-- A refusal is all that is left of an operation on a Dead machine. -/
theorem unlessDead_refused (s : State) (r : Refusal) : unlessDead s (.refused r) = .refused r := by
  unfold unlessDead
  split <;> rfl

/-- Settles O7: the fetch decides what is performed by the first input and the sequencer; a Dead machine
lets only a refusal through. -/
theorem stepRunsDecoded : Obligations.StepRunsDecoded := by
  refine fun s => ⟨fun hm => ⟨fun ws rest i hin hd ha => ?_, fun i hstep hhost hseq => ?_,
    fun ws rest i hin hseq hd ha => ?_, fun a bs rest hin => step_hostWrite hin hm, fun rest hin => ?_, fun hin hseq => ?_⟩,
    fun hm => ⟨fun t ht => (unlessDead_next ht).1 hm, fun f hf => unlessDead_fault hm hf,
      fun ws rest i r hin hd ha hr => ?_, fun hin => ?_⟩⟩
  · rw [step_words hin (fetch_hstep hin) hd ha, unlessDead_of_ne hm]
  · rw [step_operation (fetch_sequencer hstep hhost hseq), unlessDead_of_ne hm]
  · rw [step_words hin (fetch_command hin hseq) hd ha, unlessDead_of_ne hm]
  · rw [step_hostAct (fetch_hostAct hin), unlessDead_of_ne hm]
    rfl
  · rw [step_idle (fetch_idle hin hseq), unlessDead_of_ne hm]
  · rw [step_words hin (fetch_command hin (sequencerNext_dead hm)) hd ha, hr, unlessDead_refused]
  · rw [step_idle (fetch_idle hin (sequencerNext_dead hm)), unlessDead_stays hm]

end Sys2Proof.Machine
end

/-! ### INIT (44_link_bringup R150 to R165) -/

section
namespace Sys2Proof.Machine

/-! #### From the steps to INIT (R150) -/

/-- An operation that ended in a next state was admitted (60_exceptions R221). -/
theorem issue_admitted {adm : State → Option Refusal} {body : Op (List Word)} {s t : State}
    (h : issue adm body s = .next t) : adm s = none := by
  unfold issue at h
  split at h
  · cases h
  · split at h
    · cases h
    · next hadm => exact hadm

theorem admitInit_ok {s : State} (h : admitInit s = none) : s.seq.mode = .off ∧ s.rx.alive = false := by
  unfold admitInit at h
  split at h
  · cases h
  · next hmode =>
    split at h
    · cases h
    · next halive =>
      simp only [Bool.or_eq_true, not_or, Bool.not_eq_true] at halive
      exact ⟨not_not.1 hmode, halive.1.1⟩

/-- An INIT whose ten turns all go well ends running. -/
theorem exec_init_of_runs {s u : State} {cfg : PlatformCfg} (hs : s.priv.Sound) (hm : s.seq.mode = .off)
    (hr : s.rx.alive = false) (h : runSteps 10 (s.initStarted cfg) = .ok (none, u)) :
    exec (.init cfg) s = .next ((u.setSeq { u.seq with mode := .running }).ended [0]) := by
  have hat := initStarted_atStep hs hm hr cfg
  refine (exec_init_buSteps hs hm hr cfg).2 ((runSteps_buSteps 10 1 (by decide) (by decide) (by decide) hat).1 ?_)
  exact ⟨[0], _, (run_bind_ok h).trans rfl, rfl⟩

/-! #### Turns that go well and store nothing (R154, R156 to R162) -/

/-- A turn of INIT's loop leads from `s` to `t`. -/
def Turn (s t : State) : Prop := ∀ n, runSteps (n + 1) s = runSteps n t

/-- Where an INIT stands between two steps: C's registers are `p`, the register block is `r`, H's hidden registers
are `w`, the answers still to come are `a`, and memory is as `o` left it. -/
structure Stands (o : State) (p : Private) (r : Regs) (w : Hw) (a : Answers) (s : State) : Prop where
  priv    : s.priv = p
  regs    : s.regs = r
  hw      : s.hw = w
  answers : s.env.answers = a
  bytes   : s.settled = o.settled
  inputs  : s.env.inputs = o.env.inputs
  mem     : MemOk s
  quiet   : s.quiet

/-- A step that stores nothing and goes well is a turn. -/
theorem Stands.turn {o s : State} {p p' : Private} {r r' : Regs} {w w' : Hw} {a a' : Answers} {k : Nat} {c : List Call}
    (h : Stands o p r w a s) (hk : p.seq.bstep = k) (h1 : 1 ≤ k) (h2 : k ≤ 10)
    (hrun : ∃ t, buStep k s = .ok (none, t) ∧ Stepped s t p' r' w' c a') : ∃ t, Turn s t ∧ Stands o p' r' w' a' t := by
  obtain ⟨t, ht, hstep⟩ := hrun
  have hk : s.seq.bstep = k := (congrArg (·.seq.bstep) h.priv).trans hk
  exact ⟨t, fun n => runSteps_next hk h1 h2 ht, hstep.priv, hstep.regs, hstep.hw, hstep.answers, hstep.bytes.trans h.bytes,
    hstep.inputs.trans h.inputs, stable_memOk.buStep k s none t h.mem ht, hstep.quiet⟩

section
variable {o s : State} {p : Private} {r : Regs} {w : Hw} {a : Answers} (h : Stands o p r w a s)
include h

theorem Stands.bu1 {m : Mac} (hk : p.seq.bstep = 1)
    (hm : p.bring.cfg.mac ≠ Mac.zero ∧ m = p.bring.cfg.mac ∨ p.bring.cfg.mac = Mac.zero ∧ ∃ l, a.fuse = some m :: l) :
    ∃ t l, Turn s t ∧ Stands o { p with bring := { p.bring with macPending := m }, seq := { p.seq with bstep := 2 } } r w
      { a with fuse := l } t := by
  obtain ⟨rfl, rfl, rfl, rfl, -⟩ := id h
  obtain ⟨hm, rfl⟩ | ⟨hm, l, hl⟩ := hm
  · obtain ⟨t, ht⟩ := h.turn hk (by decide) (by decide) (bu1_given h.quiet hm)
    exact ⟨t, s.env.answers.fuse, ht⟩
  · obtain ⟨t, ht⟩ := h.turn hk (by decide) (by decide) (bu1_fuse h.quiet hm hl)
    exact ⟨t, l, ht⟩

theorem Stands.bu3 {l : List Bool} (hk : p.seq.bstep = 3) (hx : p.ctx.index = 0) (ha : a.platform = true :: l) :
    ∃ t, Turn s t ∧ Stands o { p with seq := { p.seq with bstep := 4 } } r w { a with platform := l } t := by
  obtain ⟨rfl, rfl, rfl, rfl, -⟩ := id h
  exact h.turn hk (by decide) (by decide) (bu3_up h.quiet hx ha)

theorem Stands.bu4 {x : Word} {l : List (Option Word)} (hk : p.seq.bstep = 4) (ha : a.mapRegs = some x :: l) :
    ∃ t, Turn s t ∧ Stands o { p with ctx := { p.ctx with regs := some x }, seq := { p.seq with bstep := 5 } } r w
      { a with mapRegs := l } t := by
  obtain ⟨rfl, rfl, rfl, rfl, -⟩ := id h
  exact h.turn hk (by decide) (by decide) (bu4_up h.quiet ha)

theorem Stands.bu5 {x y : Word} {l : List Bool} (hk : p.seq.bstep = 5) (hrx : p.rx.alive = true) (htx : p.tx.alive = true)
    (hx : p.rx.base = some x) (hy : p.tx.base = some y) (ha : a.coreInit = true :: l) :
    ∃ t, Turn s t ∧ Stands o { p with coreFresh := true, seq := { p.seq with bstep := 6 } }
      (r.coreInit x y (BitVec.ofNat 32 p.params.bufSize) p.ctx.mac) ⟨0, 0, none, none⟩ { a with coreInit := l } t := by
  obtain ⟨rfl, rfl, rfl, rfl, -⟩ := id h
  exact h.turn hk (by decide) (by decide) (bu5_up h.quiet hrx htx hx hy ha)

theorem Stands.bu6 (hk : p.seq.bstep = 6) :
    ∃ t, Turn s t ∧ Stands o { p with seq := { p.seq with bstep := 7 } }
      { r with promisc := decide (p.ctx.promisc ≠ .off) } w a t := by
  obtain ⟨rfl, rfl, rfl, rfl, -⟩ := id h
  obtain ⟨t, ht, hstep, -⟩ := bu6_up h.quiet
  exact h.turn hk (by decide) (by decide) ⟨t, ht, hstep⟩

theorem Stands.bu7 {phy : Nat} {l : List Bool} {q : List (Option Nat)} (hk : p.seq.bstep = 7)
    (hx : p.ctx.phyAddr.toNat ≤ p.params.phyAddrMax) (ha : a.mdioInit = true :: l) (hc : a.phyConnect = some phy :: q) :
    ∃ t, Turn s t ∧ Stands o { p with bring := { p.bring with phy := phy }, seq := { p.seq with bstep := 8 } } r w
      { a with mdioInit := l, phyConnect := q } t := by
  obtain ⟨rfl, rfl, rfl, rfl, -⟩ := id h
  exact h.turn hk (by decide) (by decide) (bu7_up h.quiet hx ha hc)

theorem Stands.bu8 {v : Nat} {d : Duplex} {l : List Bool} {q : List (Option (Nat × Duplex))} (hk : p.seq.bstep = 8)
    (ha : a.phyTune = true :: l) (hc : a.phyStartup = some (v, d) :: q) :
    ∃ t, Turn s t ∧ Stands o { p with link := ⟨v, d⟩, seq := { p.seq with bstep := 9 } } r w
      { a with phyTune := l, phyStartup := q } t := by
  obtain ⟨rfl, rfl, rfl, rfl, -⟩ := id h
  exact h.turn hk (by decide) (by decide) (bu8_up h.quiet ha hc)

theorem Stands.bu9 (hk : p.seq.bstep = 9) (hv : p.params.speedSet.contains p.link.speed = true) :
    ∃ t, Turn s t ∧ Stands o { p with seq := { p.seq with bstep := 10 } }
      { r with speed := p.link.speed, duplex := p.link.duplex } w a t := by
  obtain ⟨rfl, rfl, rfl, rfl, -⟩ := id h
  obtain ⟨t, ht, hstep, -⟩ := bu9_up h.quiet hv
  exact h.turn hk (by decide) (by decide) ⟨t, ht, hstep⟩

end

/-! #### The turn that lays the rings out (R155) -/

/-- What both rings hold just laid out from `s`, and that no other byte changed (40_ring_lifecycle R111). -/
structure Fresh (s t : State) (a b : Word) : Prop where
  rxSlots : ∀ i, i < s.params.capRx → t.field .rx i .phys = some 0 ∧ t.field .rx i .len = some 0 ∧
    t.field .rx i .stat = some (if i + 1 = s.params.capRx then bit16 s.params.rxdWrap else 0).toNat
  txSlots : ∀ i, i < s.params.capTx → t.field .tx i .phys = some 0 ∧ t.field .tx i .len = some 0 ∧
    t.field .tx i .stat = some (if i + 1 = s.params.capTx then bit16 s.params.txdWrap else 0).toNat
  outside : ∀ x, (x < a.toNat ∨ a.toNat + descSize * s.params.capRx ≤ x) →
    (x < b.toNat ∨ b.toNat + descSize * s.params.capTx ≤ x) → Memory.read x t.settled = Memory.read x s.settled

/-- What the rings hold depends on the blocks, the capacities and the bytes. -/
theorem Fresh.after {s t u : State} {a b : Word} (h : Fresh s t a b)
    (hring : ∀ d, (u.ring d).base = (t.ring d).base ∧ (u.ring d).cap = (t.ring d).cap) (hp : u.params = t.params)
    (hbytes : u.settled = t.settled) : Fresh s u a b := by
  have hfield : ∀ d i f, u.field d i f = t.field d i f := fun d i f =>
    field_congr (hring d).1 (hring d).2 hp (fun _ _ _ _ _ => by rw [hbytes]) f
  refine ⟨fun i hi => ?_, fun i hi => ?_, fun x hx hy => ?_⟩
  · rw [hfield, hfield, hfield]
    exact h.rxSlots i hi
  · rw [hfield, hfield, hfield]
    exact h.txSlots i hi
  · rw [hbytes]
    exact h.outside x hx hy

/-- Of the state before, it depends on the parameters and the bytes. -/
theorem Fresh.before {s s' t : State} {a b : Word} (h : Fresh s t a b) (hp : s.params = s'.params)
    (hbytes : s.settled = s'.settled) : Fresh s' t a b := by
  obtain ⟨hrx, htx, hout⟩ := h
  rw [hp] at hrx htx hout
  rw [hbytes] at hout
  exact ⟨hrx, htx, hout⟩

/-- C's registers after step 2: the rings laid, the context opened. -/
def Private.opened (p : Private) (a b : Word) (k j : Nat) : Private :=
  { p.laid p.params.capRx p.params.capTx a b k j with
    ctx := ⟨true, none, p.bring.cfg.index, p.bring.cfg.phyAddr, p.bring.cfg.promisc, p.bring.macPending⟩
    seq := { p.seq with bstep := 3 } }

theorem Stands.bu2 {o s : State} {p : Private} {r : Regs} {w : Hw} {n : Answers} {a b : Word} {l lm : List Bool}
    {ld : List (Option Word)} (h : Stands o p r w n s) (hk : p.seq.bstep = 2) (hp : p.params.wf = true)
    (hrx : p.rx.alive = false) (htx : p.tx.alive = false) (hc : n.ctxAlloc = true :: l)
    (hda : n.dmaAlloc = some a :: some b :: ld) (hma : n.metaAlloc = true :: lm)
    (hal : allocOk p.params.dmaAlign a.toNat p.params.capRx b.toNat p.params.capTx = true) :
    ∃ t k j, Turn s t ∧ Stands t (p.opened a b k j) r w { n with ctxAlloc := l, dmaAlloc := ld, metaAlloc := lm } t ∧
      t.env.inputs = o.env.inputs ∧ Fresh s t a b := by
  obtain ⟨rfl, rfl, rfl, rfl, -⟩ := id h
  obtain ⟨hcapRx, hcapTx⟩ := Params.caps_of_wf hp
  obtain ⟨t, ht, -, hlaid⟩ := bu2_up h.quiet h.mem hcapRx hcapTx hrx htx hc hda hma hal
  obtain ⟨k, j, hpriv⟩ := hlaid.priv
  refine ⟨t.setSeq { s.seq with bstep := 3 }, k, j, fun n => runSteps_next hk (by decide) (by decide) ht, ?_,
    hlaid.inputs.trans h.inputs, hlaid.rxSlots, hlaid.txSlots, hlaid.outside⟩
  exact ⟨by rw [State.setSeq_priv, hpriv]; rfl, hlaid.regs, hlaid.hw, hlaid.answers, rfl, rfl, hlaid.mem, hlaid.quiet⟩

/-! #### Steps 1 to 9 (R154 to R162) -/

/-- An INIT issued at `s` whose steps 1 to 9 succeeded with the answers named stands at `u`, before step 10. -/
structure Poised (s u : State) (cfg : PlatformCfg) (m : Mac) (a b h : Word) (v : Nat) (d : Duplex) : Prop where
  priv    : ∃ k j phy, u.priv = { s.priv.laid s.params.capRx s.params.capTx a b k j with
    ctx := ⟨true, some h, cfg.index, cfg.phyAddr, cfg.promisc, m⟩, link := ⟨v, d⟩, seq := ⟨.bringUp, 10, true⟩
    bring := ⟨cfg, m, phy⟩, coreFresh := true }
  regs    : u.regs = { s.regs.coreInit a b (BitVec.ofNat 32 s.params.bufSize) m with
    promisc := decide (cfg.promisc ≠ .off), speed := v, duplex := d }
  hw      : u.hw = ⟨0, 0, none, none⟩
  buffers : u.env.answers.buffers = s.env.answers.buffers
  inputs  : u.env.inputs = s.env.inputs
  mem     : MemOk u
  quiet   : u.quiet
  fresh   : Fresh s u a b

section
variable {s u : State} {cfg : PlatformCfg} {m : Mac} {a b h : Word} {phy v : Nat} {d : Duplex} {bs : List (Nat × Handle)}

/-- With success answers of every collaborator nine turns lead before step 10. -/
theorem GoodAnswers.poised (hg : GoodAnswers s cfg m a b h phy v d bs) (hs : Inv s) (hq : s.quiet)
    (hr : s.rx.alive = false) :
    ∃ u, runSteps 10 (s.initStarted cfg) = runSteps 1 u ∧ Poised s u cfg m a b h v d := by
  have htx : s.tx.alive = false := hs.priv.rings.both.symm.trans hr
  obtain ⟨l2, hctx⟩ := hg.ctx
  obtain ⟨ld, hdma⟩ := hg.dma
  obtain ⟨lm, hmeta⟩ := hg.metas
  obtain ⟨l3, hplatform⟩ := hg.platform
  obtain ⟨l4, hmap⟩ := hg.map
  obtain ⟨l5, hcore⟩ := hg.core
  obtain ⟨l7, hmdio⟩ := hg.mdio
  obtain ⟨q7, hphy⟩ := hg.connect
  obtain ⟨l8, htune⟩ := hg.tune
  obtain ⟨q8, hlink⟩ := hg.startup
  have h0 : Stands s (s.initStarted cfg).priv s.regs s.hw s.env.answers (s.initStarted cfg) :=
    ⟨rfl, rfl, rfl, rfl, rfl, rfl, hs.mem, hq⟩
  obtain ⟨u1, l1, t1, h1⟩ := h0.bu1 rfl hg.mac
  obtain ⟨u2, k, j, t2, h2, hin, hfresh⟩ := h1.bu2 rfl hs.priv.rings.params hr htx hctx hdma hmeta hg.blocks
  obtain ⟨u3, t3, h3⟩ := h2.bu3 rfl hg.index hplatform
  obtain ⟨u4, t4, h4⟩ := h3.bu4 rfl hmap
  obtain ⟨u5, t5, h5⟩ := h4.bu5 rfl rfl rfl rfl rfl hcore
  obtain ⟨u6, t6, h6⟩ := h5.bu6 rfl
  obtain ⟨u7, t7, h7⟩ := h6.bu7 rfl hg.phyAddr hmdio hphy
  obtain ⟨u8, t8, h8⟩ := h7.bu8 rfl htune hlink
  obtain ⟨u9, t9, h9⟩ := h8.bu9 rfl hg.speed
  refine ⟨u9, by rw [t1, t2, t3, t4, t5, t6, t7, t8, t9], ⟨k, j, phy, h9.priv⟩, h9.regs, h9.hw,
    (congrArg Answers.buffers h9.answers :), h9.inputs.trans hin, h9.mem, h9.quiet, ?_⟩
  refine (hfresh.before (s' := s) (congrArg Private.params h1.priv) h1.bytes).after (fun ring => ?_)
    ((congrArg Private.params h9.priv).trans (congrArg Private.params h2.priv).symm) h9.bytes
  cases ring with
  | rx => exact ⟨(congrArg (·.rx.base) h9.priv).trans (congrArg (·.rx.base) h2.priv).symm,
      (congrArg (·.rx.cap) h9.priv).trans (congrArg (·.rx.cap) h2.priv).symm⟩
  | tx => exact ⟨(congrArg (·.tx.base) h9.priv).trans (congrArg (·.tx.base) h2.priv).symm,
      (congrArg (·.tx.cap) h9.priv).trans (congrArg (·.tx.cap) h2.priv).symm⟩

/-! #### Step 10 after them (R163) -/

theorem Poised.params (hp : Poised s u cfg m a b h v d) : u.params = s.params := by
  obtain ⟨k, j, phy, hpriv⟩ := hp.priv
  exact congrArg Private.params hpriv

/-- The receive ring before step 10 is as RING_INIT laid it. -/
theorem Poised.rx (hp : Poised s u cfg m a b h v d) :
    ∃ x, u.rx = ⟨s.params.capRx, some a, 0, 0, s.params.capRx - 2, true, x⟩ := by
  obtain ⟨k, j, phy, hpriv⟩ := hp.priv
  exact ⟨_, congrArg Private.rx hpriv⟩

theorem Poised.tx (hp : Poised s u cfg m a b h v d) :
    ∃ x, u.tx = ⟨s.params.capTx, some b, 0, 0, s.params.capTx - 2, true, x⟩ := by
  obtain ⟨k, j, phy, hpriv⟩ := hp.priv
  exact ⟨_, congrArg Private.tx hpriv⟩

theorem Poised.rxReady (hp : Poised s u cfg m a b h v d) (hw : s.params.wf = true)
    (hal : allocOk s.params.dmaAlign a.toNat s.params.capRx b.toNat s.params.capTx = true) : RxReady u := by
  obtain ⟨k, j, phy, hpriv⟩ := hp.priv
  obtain ⟨hcapRx, hcapTx⟩ := Params.caps_of_wf hw
  have hr := RingsSound.laid (p := s.priv) (k := k) (j := j) hw hcapRx hcapTx hal
  rw [rxReady_iff, hpriv]
  exact ⟨⟨hr.params, hr.rx, hr.tx, hr.both, hr.apart, hr.counts, hr.groups⟩, rfl⟩

/-- Buffers off both blocks are real, and there is room for them (60_exceptions R224 row 6). -/
theorem GoodAnswers.supplies (hg : GoodAnswers s cfg m a b h phy v d bs) (hp : Poised s u cfg m a b h v d) :
    Supplies u u.rx.remain bs := by
  obtain ⟨x, hrx⟩ := hp.rx
  obtain ⟨y, htx⟩ := hp.tx
  rw [hrx]
  refine ⟨hg.count, fun z hz => ?_, by rw [hp.buffers]; exact hg.buffers⟩
  obtain ⟨hfits, hphys, hoffRx, hoffTx⟩ := hg.real z hz
  have hrxOff : u.rx.touches z.1 s.params.bufSize = false := by rw [hrx]; exact hoffRx
  have htxOff : u.tx.touches z.1 s.params.bufSize = false := by rw [htx]; exact hoffTx
  rw [hp.params, bufferReal, hrxOff, htxOff, decide_eq_true hfits]
  exact ⟨hphys, rfl⟩

end

/-! #### Buffers supplied to a ring just laid out (41_buffer_supply R117) -/

/-- A byte of a slot of a ring lies in the ring's block. -/
theorem inSlots_block {r : Ring} {i n x : Nat} {a : Word} (hb : r.base = some a) (hx : inSlots r i n x) :
    a.toNat ≤ x ∧ x < a.toNat + descSize * r.cap := by
  obtain ⟨k, y, -, hy, hle, hlt⟩ := hx
  obtain ⟨c, hc, hi, rfl⟩ := slotAddr_some.1 hy
  obtain rfl : a = c := Option.some.inj (hb.symm.trans hc)
  simp only [descSize] at *
  omega

/-- A byte of a slot that is none of the `n` slots from slot `i` on is in none of them. -/
theorem not_inSlots {r : Ring} {i n j x y : Nat} (hy : r.slotAddr j = some y) (hj : ∀ k, k < n → r.adv i k ≠ j)
    (hle : y ≤ x) (hlt : x < y + descSize) : ¬inSlots r i n x := by
  rintro ⟨k, z, hk, hz, hle', hlt'⟩
  have := slots_apart hz hy (hj k hk)
  omega

/-- A slot that is not the last one is handed over without the wrap marker (10_state R35). -/
theorem rxHandover_notLast {p : Params} {r : Ring} {i : Nat} (h : i + 1 < r.cap) : rxHandover p r i = bit16 p.rxdEmpty := by
  have hlast : r.isLast i = false := beq_eq_false_iff_ne.2 (Nat.ne_of_lt h)
  simp [rxHandover, wrapFlag, hlast]

theorem zero_adv {r : Ring} {k : Nat} (hk : k < r.cap) : r.adv 0 k = k := by
  rw [Ring.adv, Nat.zero_add, Nat.mod_eq_of_lt hk]

/-- A receive ring with all its slots free, its tail at slot 0. -/
structure Ring.Unused (r : Ring) (n : Nat) (a : Word) : Prop where
  cap    : r.cap = n
  base   : r.base = some a
  head   : r.head = 0
  tail   : r.tail = 0
  remain : r.remain = n - 2
  alive  : r.alive = true

theorem Ring.Unused.adv {r : Ring} {n k : Nat} {a : Word} (h : r.Unused n a) (hn : 2 ≤ n) (hk : k ≤ n - 2) :
    r.adv r.tail k = k := by
  rw [h.tail, zero_adv (by rw [h.cap]; omega)]

section
variable {s t : State} {bs : List (Nat × Handle)} {cap : Nat} {a : Word} (h : SuppliedRx s bs t) (hu : s.rx.Unused cap a)
  (hcap : 2 ≤ cap) (hlen : bs.length ≤ cap - 2)
include h hu hcap hlen

theorem SuppliedRx.unused_rx : t.rx.cap = cap ∧ t.rx.base = some a ∧ t.rx.head = 0 ∧ t.rx.tail = bs.length ∧
    t.rx.remain = cap - 2 - bs.length ∧ t.rx.alive = true := by
  have hremain := h.remain
  rw [hu.remain] at hremain
  exact ⟨h.cap.trans hu.cap, h.base.trans hu.base, h.head.trans hu.head, h.tail.trans (hu.adv hcap hlen),
    by omega, h.alive.trans hu.alive⟩

theorem SuppliedRx.unused_pending : t.rx.pending = !bs.isEmpty := by
  obtain ⟨-, -, hhead, htail, -⟩ := h.unused_rx hu hcap hlen
  rw [Ring.pending, hhead, htail]
  cases bs <;> rfl

theorem SuppliedRx.unused_handle {k : Nat} (hk : k < bs.length) : t.rx.handle[k]? = some bs[k].2 := by
  have := h.handles k hk
  rwa [hu.adv hcap (by omega)] at this

theorem SuppliedRx.unused_filled {k : Nat} (hk : k < bs.length) : t.field .rx k .phys = some bs[k].1 ∧
    t.field .rx k .len = some 0 ∧ t.field .rx k .stat = some (bit16 s.params.rxdEmpty).toNat := by
  have hphys := h.phys k hk
  have hlength := h.len k hk
  have hstat := h.stat k hk
  rw [hu.adv hcap (by omega)] at hphys hlength hstat
  rw [rxHandover_notLast (by rw [hu.cap]; omega)] at hstat
  exact ⟨hphys, hlength, hstat⟩

/-- The slots behind those supplied are as they were. -/
theorem SuppliedRx.unused_others {k : Nat} (hk : bs.length ≤ k) (f : Field) : t.field .rx k f = s.field .rx k f := by
  refine field_congr (d := .rx) h.base h.cap (congrArg Private.params h.priv) (fun x y hx hle hlt => h.outside y ?_) f
  refine not_inSlots hx (fun j hj => ?_) hle hlt
  rw [hu.adv hcap (by omega)]
  omega

omit hcap hlen in
theorem SuppliedRx.unused_outside {x : Nat} (hx : x < a.toNat ∨ a.toNat + descSize * cap ≤ x) :
    Memory.read x t.settled = Memory.read x s.settled := by
  refine h.outside x fun hin => ?_
  obtain ⟨hle, hlt⟩ := inSlots_block hu.base hin
  rw [hu.cap] at hlt
  omega

omit hcap hlen in
/-- The transmit ring, whose block is apart, is as it was. -/
theorem SuppliedRx.unused_tx {b : Word} (hb : s.tx.base = some b)
    (hd : a.toNat + descSize * cap ≤ b.toNat ∨ b.toNat + descSize * s.tx.cap ≤ a.toNat) (k : Nat) (f : Field) :
    t.field .tx k f = s.field .tx k f := by
  have htx : t.tx = s.tx := congrArg Private.tx h.priv
  refine field_block (d := .tx) hb (by rw [← hb]; exact congrArg Ring.base htx) (congrArg Ring.cap htx)
    (congrArg Private.params h.priv) (fun x hle hlt => h.unused_outside hu ?_) k f
  simp only [State.ring] at hlt
  omega

end

/-! #### The ten steps (R150) -/

section
variable {s u : State} {cfg : PlatformCfg} {m : Mac} {a b h : Word} {phy v : Nat} {d : Duplex} {bs : List (Nat × Handle)}

/-- The fields of the descriptors do not depend on the registers. -/
theorem State.upEnded_field (c : State) (d : Dir) (i : Nat) (f : Field) : c.upEnded.field d i f = c.field d i f :=
  field_congr (by rw [State.upEnded_ring]) (by rw [State.upEnded_ring]) c.upEnded_params
    (fun _ _ _ _ _ => by rw [State.upEnded_settled]) f

theorem Poised.unused (hp : Poised s u cfg m a b h v d) : u.rx.Unused s.params.capRx a := by
  obtain ⟨x, hrx⟩ := hp.rx
  constructor <;> rw [hrx]

/-- What step 10 makes of the state before it. -/
theorem Poised.broughtUp {c : State} (hp : Poised s u cfg m a b h v d) (hw : s.params.wf = true)
    (hal : allocOk s.params.dmaAlign a.toNat s.params.capRx b.toNat s.params.capTx = true)
    (hlen : bs.length ≤ s.params.capRx - 2) (hsup : SuppliedRx u.macOn bs c) :
    BroughtUp s c.upEnded cfg m a b h v d bs := by
  obtain ⟨hcapRx, hcapTx⟩ := Params.caps_of_wf hw
  obtain ⟨k, j, phy, hpriv⟩ := hp.priv
  have hu : u.macOn.rx.Unused s.params.capRx a := hp.unused
  have hcp : c.priv = { u.priv with rx := c.rx } := hsup.priv.trans (by rw [State.macOn_priv])
  have hend : c.upEnded.priv = { s.priv.laid s.params.capRx s.params.capTx a b k j with
      rx := c.rx, ctx := ⟨true, some h, cfg.index, cfg.phyAddr, cfg.promisc, m⟩, link := ⟨v, d⟩
      seq := ⟨.running, 0, false⟩, bring := ⟨cfg, m, phy⟩, coreFresh := true } := by
    rw [State.upEnded_priv, hcp, hpriv]
  have hcparams : c.params = s.params := (congrArg Private.params hcp).trans hp.params
  have hrx : c.upEnded.rx = c.rx := congrArg Private.rx hend
  have htx : c.upEnded.tx = _ := congrArg Private.tx hend
  have hfresh : Fresh s u.macOn a b :=
    hp.fresh.after (fun ring => by simp) u.macOn_params u.macOn_settled
  have hblocks : a.toNat + descSize * s.params.capRx ≤ b.toNat ∨ b.toNat + descSize * s.params.capTx ≤ a.toNat := by
    simp only [allocOk, Bool.and_eq_true, decide_eq_true_eq, Bool.not_eq_true'] at hal
    exact overlaps_false hal.2 (by simp only [descSize]; omega) (by simp only [descSize]; omega)
  constructor
  case seq => exact congrArg Private.seq hend
  case ctx => exact congrArg Private.ctx hend
  case link => exact congrArg Private.link hend
  case params => exact congrArg Private.params hend
  case fresh => exact congrArg Private.coreFresh hend
  case regs =>
    rw [State.upEnded_regs, hsup.regs, hsup.unused_pending hu hcapRx hlen, State.macOn_regs, hp.regs, hcparams]
    cases bs <;> rfl
  case hw => rw [State.upEnded_hw, hsup.hw, State.macOn_hw, hp.hw, ite_self]
  case rx =>
    rw [hrx]
    exact hsup.unused_rx hu hcapRx hlen
  case tx => simp [htx, Private.laid]
  case handles =>
    rw [hrx]
    exact fun k hk => hsup.unused_handle hu hcapRx hlen hk
  case filled =>
    intro k hk
    simp only [State.upEnded_field, ← hp.params, ← u.macOn_params]
    exact hsup.unused_filled hu hcapRx hlen hk
  case empty =>
    intro k hk hk'
    simp only [State.upEnded_field, hsup.unused_others hu hcapRx hlen hk]
    exact hfresh.rxSlots k hk'
  case txSlots =>
    obtain ⟨y, hy⟩ := hp.tx
    have hbase : u.macOn.tx.base = some b := congrArg Ring.base hy
    have hcap : u.macOn.tx.cap = s.params.capTx := congrArg Ring.cap hy
    intro k hk
    simp only [State.upEnded_field, hsup.unused_tx hu hbase (hcap ▸ hblocks)]
    exact hfresh.txSlots k hk
  case outside =>
    intro x hx hy
    rw [State.upEnded_settled, hsup.unused_outside hu hx]
    exact hfresh.outside x hx hy
  case out => rfl
  case inputs =>
    rw [State.upEnded_env, hsup.inputs, State.macOn_env]
    exact hp.inputs

theorem GoodAnswers.broughtUp (hg : GoodAnswers s cfg m a b h phy v d bs) (hs : Inv s) (hq : s.quiet)
    (hm : s.seq.mode = .off) (hr : s.rx.alive = false) :
    ∃ t, exec (.init cfg) s = .next t ∧ BroughtUp s t cfg m a b h v d bs := by
  have hw : s.params.wf = true := hs.priv.rings.params
  obtain ⟨u, hrun, hp⟩ := hg.poised hs hq hr
  obtain ⟨k, j, phy, hpriv⟩ := hp.priv
  obtain ⟨c, w, hsup, hlast, hw'⟩ := bu10_upEnded hp.quiet hp.mem (hp.rxReady hw hg.blocks)
    (congrArg Private.coreFresh hpriv) (hg.supplies hp)
  have hstep : u.seq.bstep = 10 := congrArg (·.seq.bstep) hpriv
  have hturns : runSteps 10 (s.initStarted cfg) = .ok (none, w) :=
    hrun.trans (runSteps_next hstep (by decide) (by decide) hlast)
  exact ⟨c.upEnded, hw' ▸ exec_init_of_runs hs.priv hm hr hturns, hp.broughtUp hw hg.blocks hg.count hsup⟩

end

/-- Settles O34: with success answers the ten turns lead to `BroughtUp`; whatever is answered, INIT is its steps one by one,
and an INIT that was admitted ends as they end. -/
theorem initBringsUp : Obligations.InitBringsUp := by
  refine ⟨fun s cfg m a b h phy v d bs hs hq hm hr hg => hg.broughtUp hs hq hm hr,
    fun s t cfg hs hm hr => exec_init_buSteps hs.priv hm hr cfg, fun s t cfg hs h => ?_⟩
  obtain ⟨hm, hr⟩ := admitInit_ok (issue_admitted h)
  have hsound : (s.initStarted cfg).priv.Sound :=
    sound_of_atStep (initStarted_atStep hs.priv hm hr cfg) (by decide) (by decide)
  exact buSteps_ends ((exec_init_buSteps hs.priv hm hr cfg).1 h) hsound

end Sys2Proof.Machine
end

/-! ### Register interface (45_register_interface R168 to R185) -/

section
namespace Sys2Proof.Machine

/-! #### Operations of one access (R168 to R180) -/

section
variable {s u : State}

/-- An operation whose body is one access to the register block, which takes effect on what the gap left (20_memory R73, R82). -/
theorem issue_accessed {adm : State → Option Refusal} {body : Op (List Word)} {r : Regs} {w : Hw} {ws : List Word}
    (hb : s.seq.busy = false) (ha : adm s = none) (hg : Gap s u)
    (h : body s.begun = .ok (ws, ((flush u).setRegs r).setHw w)) :
    ∃ t, issue adm body s = .next t ∧ Accessed u t s.priv r w ws :=
  ⟨_, issue_next hb ha h, accessed_ended ws hb hg.priv rfl⟩

/-- A register write that answers Ok. -/
theorem issue_regWrite {body : Op (List Word)} (set : Regs → Regs) (hs : s.ready) (hg : Gap s u)
    (h : body s.begun = (do regWrite set; returnOk [] : Op (List Word)) s.begun) :
    ∃ t, issue admitRegister body s = .next t ∧ Accessed u t s.priv (set u.regs) u.hw [0] :=
  issue_accessed hs.1 hs.register hg (h.trans (run_bind_ok (regWrite_gap set hg)))

/-- A register read, whose answer word is made of the value read (R172 to R174). -/
theorem issue_regRead {α : Type} {body : Op (List Word)} (get : Regs → α) (word : α → Word) (hs : s.ready) (hg : Gap s u)
    (h : body s.begun = (do let x ← regRead get; returnOk [word x] : Op (List Word)) s.begun) :
    ∃ t, issue admitRegister body s = .next t ∧ Accessed u t s.priv u.regs u.hw [0, word (get u.regs)] :=
  issue_accessed hs.1 hs.register hg (h.trans (run_bind_ok (regRead_gap get hg)))

/-- A write to RX_EN drops H's receive sample, whichever value stood there (47_dma_engine R196). -/
theorem issue_writeRxEn (v : Bool) (hs : s.ready) (hg : Gap s u) :
    ∃ t, issue admitRegister (do writeRxEn v; returnOk []) s = .next t ∧
      Accessed u t s.priv { u.regs with rxEn := v } { u.hw with rxSample := none } [0] :=
  issue_accessed hs.1 hs.register hg (run_bind_ok (writeRxEn_gap v hg))

/-- The same of TX_EN and the transmit sample. -/
theorem issue_writeTxEn (v : Bool) (hs : s.ready) (hg : Gap s u) :
    ∃ t, issue admitRegister (do writeTxEn v; returnOk []) s = .next t ∧
      Accessed u t s.priv { u.regs with txEn := v } { u.hw with txSample := none } [0] :=
  issue_accessed hs.1 hs.register hg (run_bind_ok (writeTxEn_gap v hg))

/-- The speed is tested before the registers are written (R178). -/
theorem setSpeedDuplex_gap {v : Nat} (d : Duplex) (hg : Gap s u) (hv : s.params.speedSet.contains v = true) :
    setSpeedDuplex v d s.begun = .ok ((), (flush u).setRegs { u.regs with speed := v, duplex := d }) := by
  rw [setSpeedDuplex, run_here_bind, State.begun_params, hv, run_bind_ok (require_true _ _), regWrite_gap _ hg]

theorem setSpeedDuplex_notInSet {v : Nat} (d : Duplex) (hv : s.params.speedSet.contains v = false) :
    setSpeedDuplex v d s = .error (.refused .speedNotInSet) := by
  rw [setSpeedDuplex, run_here_bind, hv]
  rfl

end

/-- Settles O43: each of the four is one write to a path enable. -/
theorem pathEnables : Obligations.PathEnables := fun _ _ hs hg =>
  ⟨issue_writeRxEn true hs hg, issue_writeRxEn false hs hg, issue_writeTxEn true hs hg, issue_writeTxEn false hs hg⟩

/-- Settles O44: each of the three is one register read. -/
theorem registerReads : Obligations.RegisterReads :=
  ⟨rfl, rfl, rfl, fun s _ hs hg => ⟨issue_regRead (·.rxEn) flagWord hs hg rfl, issue_regRead (·.txEn) flagWord hs hg rfl,
    issue_regRead (·.event) (fun e => eventWord (e &&& evAll s.params)) hs hg rfl⟩⟩

/-- Settles O45: one write, of EVENT as it then is less the bits of the mask. -/
theorem evClearClears : Obligations.EvClearClears := fun s _ m hs hg =>
  ⟨rfl, issue_regWrite (fun r => { r with event := clearBits r.event (m.toNat &&& evAll s.params) }) hs hg rfl⟩

/-- Settles O46: the read and the clearing are one access, so what is cleared is what was read. -/
theorem evReadClearAtomic : Obligations.EvReadClearAtomic := by
  refine ⟨rfl, fun s u hs hg => ?_⟩
  have hrun := regReadClear_gap (evAll s.params) hg
  exact ⟨_, _, issue_next hs.1 hs.register ((run_here_bind _ _).trans (run_bind_ok hrun)), rfl,
    accessed_ended _ hs.1 hg.priv rfl⟩

/-- Settles O47: one write of the mask; the line is computed from what then stands in both registers. -/
theorem evSetMaskUnmasks : Obligations.EvSetMaskUnmasks := by
  intro s u m hs hg
  obtain ⟨t, ht, hacc⟩ := issue_regWrite (body := do setEventMask m.toNat; returnOk [])
    (fun r => { r with evmask := m.toNat &&& evAll s.params }) hs hg rfl
  exact ⟨rfl, t, ht, hacc, by rw [irq, hacc.became.regs]⟩

/-- Settles O48: the test of the speed, then one write to both registers. -/
theorem speedDuplexSet : Obligations.SpeedDuplexSet := by
  refine fun s v d hs => ⟨fun u hg hv => ?_, fun hv => ?_⟩
  · exact issue_accessed hs.1 hs.register hg (run_bind_ok (setSpeedDuplex_gap d hg hv))
  · exact issue_stop hs.1 hs.register (run_bind_error (setSpeedDuplex_notInSet d hv))

/-- Settles O49: each of the two is one register write. -/
theorem promiscWritten : Obligations.PromiscWritten :=
  ⟨rfl, rfl, fun _ _ hs hg => ⟨issue_regWrite (fun r => { r with promisc := true }) hs hg rfl,
    issue_regWrite (fun r => { r with promisc := false }) hs hg rfl⟩⟩

/-! #### MDIO (R181 to R183) -/

/-- An operation whose body is one answered call, with the answer words `word x` for the answer `x`. -/
theorem issue_asked {α : Type} {c : Call} {get : Answers → List α} {put : Answers → List α → Answers} {free : Nat → α}
    {body : Op α} {k : α → Op (List Word)} {word : α → List Word} {s u : State} (hs : s.ready) (hg : Gap s u)
    (h : body s.begun = ask c get put free s.begun) (hk : ∀ x, k x = pure (word x)) :
    ∃ t x, issue admitRegister (body >>= k) s = .next t ∧ (∀ y l, get u.env.answers = y :: l → x = y) ∧
      Became u t s.priv u.regs u.hw [c] (word x) := by
  obtain ⟨x, e, hask, hlisted, hin, hsched⟩ := ask_gap c get put free hg
  refine ⟨_, x, issue_next hs.1 hs.register ?_, hlisted, called_ended (word x) hs.1 hg.priv rfl hin hsched⟩
  rw [run_bind_ok (h.trans hask), hk]
  rfl

/-- The bus asked is the one the context and its configuration name as the operation begins (R183). -/
theorem askMdioRead_eq (phy reg : BitVec 5) (s : State) :
    askMdioRead phy reg s = ask (.mdioRead (remoteMdio s) phy reg) (·.mdioRead) (fun a x => { a with mdioRead := x })
      Config.freeMdio s := rfl

theorem askMdioWrite_eq (phy reg : BitVec 5) (v : Half) (s : State) :
    askMdioWrite phy reg v s = ask (.mdioWrite (remoteMdio s) phy reg v) (·.mdioWrite) (fun a x => { a with mdioWrite := x })
      Config.freeOk s := rfl

/-- Settles O50: each is one call, and its answer picks the answer words. -/
theorem mdioAnswers : Obligations.MdioAnswers := by
  refine fun s u phy reg hs hg => ⟨?_, fun v => ?_⟩
  · exact issue_asked hs hg (askMdioRead_eq phy reg _) fun x => by cases x <;> rfl
  · exact issue_asked hs hg (askMdioWrite_eq phy reg v _) fun x => by cases x <;> rfl

/-! #### MAC_CORE_INIT and MAC_ENABLE (R184, R185) -/

/-- `ended_priv` where the body made the core fresh. -/
theorem ended_coreFresh {s t : State} (ws : List Word) (hb : s.seq.busy = false)
    (h : t.priv = { s.begun.priv with coreFresh := true }) : (t.ended ws).priv = { s.priv with coreFresh := true } := by
  have hseq : (t.ended ws).seq = s.seq := ended_seq_of_begun ws hb (congrArg Private.seq h)
  calc (t.ended ws).priv = { t.priv with seq := (t.ended ws).seq } := rfl
    _ = { s.priv with coreFresh := true } := by rw [hseq, h]; rfl

/-- Whether the core was initialised since the rings were is tested before the register is written (R185). -/
theorem macEnable_gap {s u : State} (hg : Gap s u) (hf : s.coreFresh = true) :
    macEnable s.begun = .ok ((), (flush u).setRegs { u.regs with macEn := true }) := by
  rw [macEnable, run_here_bind, State.begun_coreFresh, hf, run_bind_ok (sound_true _ _), regWrite_gap _ hg]

theorem macEnable_stale {s : State} (hf : s.coreFresh = false) : macEnable s = .error (.fault .staleMacEnable) := by
  rw [macEnable, run_here_bind, hf]
  rfl

/-- Settles O51: the body is MAC_CORE_INIT itself, and its answer picks the answer word. -/
theorem macCoreInitWrites : Obligations.MacCoreInitWrites := by
  refine fun s a b n m r hq hb hm hrx htx => ⟨fun hc => ?_, fun hc => ?_⟩
  · obtain ⟨t, ht, hp, hregs, hhw, hcalls, -, hbytes, hquiet, henv⟩ := macCoreInit_up (s := s.begun) a b n m hq hrx htx hc
    exact ⟨t.ended [0], issue_next hb (admitCore_none hm hrx htx) (run_bind_ok ht),
      ended_coreFresh [0] hb hp, hregs, hhw, hcalls, rfl, .of_settled hbytes, congrArg (·.inputs) henv, fun _ => hquiet⟩
  · obtain ⟨t, ht, hp, hregs, hhw, hcalls, -, hbytes, hquiet, hin⟩ := macCoreInit_down (s := s.begun) a b n m hq hrx htx hc
    exact ⟨t.ended [8], issue_next hb (admitCore_none hm hrx htx) (run_bind_ok ht),
      ⟨ended_priv [8] hb hp, rfl, rfl, hcalls, rfl, .of_settled hbytes, hin, fun _ => hquiet⟩, hregs, hhw⟩

/-- Settles O52: the test for a fresh MAC_CORE_INIT, then one register write; without one the test is the fault. -/
theorem macEnableSets : Obligations.MacEnableSets := by
  refine fun s u hb hm hrx htx => ⟨fun hg hf => ?_, fun hf => ?_⟩
  · exact issue_accessed hb (admitCore_none hm hrx htx) hg (run_bind_ok (macEnable_gap hg hf))
  · exact issue_fault hb (admitCore_none hm hrx htx) (run_bind_error (macEnable_stale hf))

end Sys2Proof.Machine
end

/-! ### Façade (46_facade R189, R190) -/

section
namespace Sys2Proof.Machine

theorem admitContext_none {s : State} (hm : s.seq.mode = .running ∨ s.seq.mode = .halted) (hc : s.ctx.alive = true) :
    admitContext s = none := by
  rcases hm with hm | hm <;> simp [admitContext, hm, hc]

/-- An operation with no event leaves its answer words and nothing else: `busy` rose and fell again. -/
theorem State.begun_ended {s : State} (ws : List Word) (hb : s.seq.busy = false) : s.begun.ended ws = s.setOut ws := by
  have hseq : (s.begun.ended ws).seq = s.seq := ended_seq_of_begun ws hb rfl
  calc s.begun.ended ws = (s.setSeq (s.begun.ended ws).seq).setOut ws := rfl
    _ = s.setOut ws := by rw [hseq]; rfl

/-- That the issued writes were performed on the way is no change of a byte (20_memory R74). -/
theorem Became.of_flush {s t : State} {p : Private} {r : Regs} {w : Hw} {c : List Call} {o : List Word}
    (h : Became (flush s) t p r w c o) : Became s t p r w c o :=
  ⟨h.priv, h.regs, h.hw, h.calls, h.out, h.bytes, h.inputs, fun hq => h.quiet (flush_rested hq).1⟩

/-- A register read and a call on the value read, the report of PRINT_DIAG (R190). -/
theorem regRead_call_quiet {α : Type} (get : Regs → α) (c : α → Call) {s : State} (h : s.quiet) :
    (do let x ← regRead get; call (c x); returnOk [] : Op (List Word)) s =
      .ok ([0], (flush s).setCalls (s.calls ++ [c (get s.regs)])) := by
  rw [run_bind_ok (regRead_quiet get h), run_bind_ok (call_quiet _ (flush_rested h).1)]
  rfl

/-- Settles O53: GET_MAC reads the context alone; PRINT_DIAG is one register read, which performs the issued writes, and one
call with what it read. -/
theorem contextReports : Obligations.ContextReports := by
  intro s hb hm hc
  have hadm := admitContext_none hm hc
  refine ⟨?_, fun hq => ?_⟩
  · exact (issue_next hb hadm rfl).trans (congrArg _ (State.begun_ended _ hb))
  · have hrun := regRead_call_quiet (·.mib) (Call.diagSink s.link.speed s.link.duplex) (s := s.begun) hq
    refine ⟨_, issue_next hb hadm hrun, Became.of_begun (Became.of_flush ?_)⟩
    exact called_ended (e := s.env) [0] hb rfl rfl rfl rfl

end Sys2Proof.Machine
end

/-! ### The DMA engine (47_dma_engine R195 to R208) -/

section
namespace Sys2Proof.Machine

/-! #### The seven steps of H as what enables them and what they do -/

/-- What enables the step of H that an operation of the engine names (R196, R200 to R206). -/
def hEnabled : Instr → State → Bool
  | .hRxSample, s => sampleEnabled s .rx
  | .hRxDone l f, s => rxDoneEnabled s l f
  | .hRxStall, s => stallEnabled s .rx
  | .hTxSample, s => sampleEnabled s .tx
  | .hTxDone, s => txDoneEnabled s
  | .hTxStall, s => stallEnabled s .tx
  | .hBusError, s => busErrorEnabled s
  | _, _ => false

/-- What that step does. -/
def hStep : Instr → Op Unit
  | .hRxSample => sampleStep .rx
  | .hRxDone l f => rxDoneStep l f
  | .hRxStall => stallStep .rx
  | .hTxSample => sampleStep .tx
  | .hTxDone => txDoneStep
  | .hTxStall => stallStep .tx
  | .hBusError => busErrorStep
  | _ => pure ()

theorem exec_engine {i : Instr} (hi : i.agent = .engine) (s : State) : exec i s = engineStep (hEnabled i) (hStep i) s := by
  cases i with
  | hRxSample | hRxDone | hRxStall | hTxSample | hTxDone | hTxStall | hBusError => rfl
  | _ => cases hi

section
variable {i : Instr} {s t : State} (hi : i.agent = .engine)
include hi

theorem exec_engine_refused (hc : hEnabled i s = false) : exec i s = .refused .stepNotEnabled := by
  rw [exec_engine hi, engineStep, if_neg (by simp [hc])]

theorem exec_engine_next (hc : hEnabled i s = true) (hx : hStep i s = .ok ((), t)) : exec i s = .next t := by
  rw [exec_engine hi, engineStep, if_pos hc, outcome, hx]

theorem exec_engine_fault {r : Fault} (hc : hEnabled i s = true) (hx : hStep i s = .error (.fault r)) :
    exec i s = .fault r := by
  rw [exec_engine hi, engineStep, if_pos hc, outcome, hx]

/-- A step of H that was performed was enabled. -/
theorem exec_engine_ok (h : exec i s = .next t) : hEnabled i s = true ∧ hStep i s = .ok ((), t) := by
  rw [exec_engine hi, engineStep] at h
  split at h
  · next hc =>
    obtain ⟨_, hx⟩ := outcome_next.1 h
    exact ⟨hc, hx⟩
  · cases h
end

/-! #### Where H is enabled (R196) -/

section
variable {s : State} {d : Dir}

theorem pathWorks_of_macOff (h : s.regs.macEn = false) : pathWorks s d = false := by simp [pathWorks, h]

theorem pathWorks_of_pathOff (h : pathEnabled s d = false) : pathWorks s d = false := by simp [pathWorks, h]

theorem sampleEnabled_of_off (h : pathWorks s d = false) : sampleEnabled s d = false := by simp [sampleEnabled, h]

theorem stallEnabled_of_off (h : pathWorks s d = false) : stallEnabled s d = false := by simp [stallEnabled, h]

theorem rxDoneEnabled_of_off {l f : Half} (h : pathWorks s .rx = false) : rxDoneEnabled s l f = false := by
  simp [rxDoneEnabled, h]

theorem txDoneEnabled_of_off (h : pathWorks s .tx = false) : txDoneEnabled s = false := by simp [txDoneEnabled, h]

theorem hEnabled_of_macOff (h : s.regs.macEn = false) (i : Instr) : hEnabled i s = false := by
  cases i with
  | hRxSample | hTxSample => exact sampleEnabled_of_off (pathWorks_of_macOff h)
  | hRxStall | hTxStall => exact stallEnabled_of_off (pathWorks_of_macOff h)
  | hRxDone => exact rxDoneEnabled_of_off (pathWorks_of_macOff h)
  | hTxDone => exact txDoneEnabled_of_off (pathWorks_of_macOff h)
  | hBusError => exact h
  | _ => rfl
end

/-- Settles O58: every condition that enables a step of H asks for the MAC's enable, and for the path's on a path. -/
theorem engineEnabledOnly : Obligations.EngineEnabledOnly := by
  intro s i hi
  refine ⟨fun hmac => exec_engine_refused hi (hEnabled_of_macOff hmac i), fun hrx h => ?_, fun htx h => ?_⟩
  · have hoff : pathWorks s .rx = false := pathWorks_of_pathOff hrx
    rcases h with rfl | rfl | ⟨l, f, rfl⟩
    · exact exec_engine_refused hi (sampleEnabled_of_off hoff)
    · exact exec_engine_refused hi (stallEnabled_of_off hoff)
    · exact exec_engine_refused hi (rxDoneEnabled_of_off hoff)
  · have hoff : pathWorks s .tx = false := pathWorks_of_pathOff htx
    rcases h with rfl | rfl | rfl
    · exact exec_engine_refused hi (sampleEnabled_of_off hoff)
    · exact exec_engine_refused hi (stallEnabled_of_off hoff)
    · exact exec_engine_refused hi (txDoneEnabled_of_off hoff)

section
variable {s : State} (hmac : s.regs.macEn = true)
include hmac

theorem sampleEnabled_of {d : Dir} (hpath : pathEnabled s d = true) (hs : hwSample s d = none) :
    sampleEnabled s d = true := by
  simp [sampleEnabled, pathWorks, hmac, hpath, hs]

theorem stallEnabled_of {d : Dir} {w : Half} (hpath : pathEnabled s d = true) (hs : hwSample s d = some w)
    (hw : hwOwned s.params d w = false) : stallEnabled s d = true := by
  simp [stallEnabled, pathWorks, hmac, hpath, hs, hw]

theorem rxDoneEnabled_of {w len flags : Half} (hpath : pathEnabled s .rx = true) (hs : s.hw.rxSample = some w)
    (hw : hwOwned s.params .rx w = true) (hl : len.toNat ≤ s.regs.bufsz.toNat)
    (hf : rxFlagsAdmissible s.params flags = true) : rxDoneEnabled s len flags = true := by
  simp [rxDoneEnabled, pathWorks, hmac, hpath, hs, hw, hl, hf]

theorem txDoneEnabled_of {w : Half} (hpath : pathEnabled s .tx = true) (hs : s.hw.txSample = some w)
    (hw : hwOwned s.params .tx w = true) : txDoneEnabled s = true := by
  simp [txDoneEnabled, pathWorks, hmac, hpath, hs, hw]
end

/-! #### The slot H works on (R197, R207, R208 (a)) -/

/-- The status word of the slot at `x` as memory holds it says that the slot is H's. -/
def ownsInMemory (s : State) (d : Dir) (x : Nat) : Bool :=
  hwOwned s.params d (BitVec.ofNat 16 (memRead s.params.endian s.mem (fieldAddr s.params.endian x .stat) 2))

theorem hwSlot_live {s : State} {d : Dir} (hf : s.coreFresh = true) (ha : (s.ring d).alive = true)
    (hb : (s.ring d).base = some (hwBase s d)) (hi : hwIdx s d < (s.ring d).cap) :
    hwSlot s d = some ((hwBase s d).toNat + descSize * hwIdx s d) := by
  have hslot : (s.ring d).slotAddr (hwIdx s d) = some ((hwBase s d).toNat + descSize * hwIdx s d) :=
    slotAddr_some.2 ⟨_, hb, hi, rfl⟩
  simp [hwSlot, hf, ha, hb, hslot]

theorem hwSlot_released {s : State} {d : Dir} (h : (s.ring d).alive = false ∨ s.coreFresh = false) :
    hwSlot s d = none := by
  rcases h with h | h <;> simp [hwSlot, h]

section
variable {s : State} {d : Dir} {x : Nat}

theorem hSlot_some (h : hwSlot s d = some x) : hSlot d s = .ok (x, s) := by
  rw [hSlot, run_here_bind, h]
  rfl

theorem hSlot_none (h : hwSlot s d = none) : hSlot d s = .error (.fault .hOutsideLiveRing) := by
  rw [hSlot, run_here_bind, h]
  rfl

theorem run_hRead (f : Field) : hRead x f s =
    .ok (memRead s.params.endian s.mem (fieldAddr s.params.endian x f) (fieldWidth f), s) := rfl

theorem run_hOwns : hOwns d x s = sound (ownsInMemory s d x) .hSlotTakenBack s := rfl

theorem hOwns_owned (h : ownsInMemory s d x = true) : hOwns d x s = .ok ((), s) := by
  rw [run_hOwns, h, sound_true]

theorem hOwns_takenBack (h : ownsInMemory s d x = false) : hOwns d x s = .error (.fault .hSlotTakenBack) := by
  rw [run_hOwns, h]
  rfl
end

/-! #### Sampling, stalling, bus error (R200, R202, R203, R205, R206) -/

section
variable {s : State}

theorem sampleStep_slot {d : Dir} {x : Nat} (h : hwSlot s d = some x) :
    sampleStep d s = setSample d (some (BitVec.ofNat 16
      (memRead s.params.endian s.mem (fieldAddr s.params.endian x .stat) 2))) s := by
  rw [sampleStep, run_bind_ok (hSlot_some h), run_bind_ok (run_hRead .stat)]
  rfl

theorem sampleStep_noSlot {d : Dir} (h : hwSlot s d = none) : sampleStep d s = .error (.fault .hOutsideLiveRing) := by
  rw [sampleStep, run_bind_error (hSlot_none h)]
end

/-- Settles O54: the step reads the slot's status word and keeps it as the sample. -/
theorem sampleReads : Obligations.SampleReads := by
  intro s hmac hfresh
  refine ⟨fun hpath hs ha hb hi => ?_, fun hpath hs ha hb hi => ?_⟩
  · have hslot := hwSlot_live (d := .rx) hfresh ha hb hi
    exact exec_engine_next rfl (sampleEnabled_of hmac hpath hs) (sampleStep_slot hslot)
  · have hslot := hwSlot_live (d := .tx) hfresh ha hb hi
    exact exec_engine_next rfl (sampleEnabled_of hmac hpath hs) (sampleStep_slot hslot)

/-- Settles O57: each of the three steps is enabled, and is its updates. -/
theorem stallAndBusError : Obligations.StallAndBusError := by
  intro s hmac
  refine ⟨fun w hpath hs hw => ?_, fun w hpath hs hw => ?_, ?_⟩
  · exact exec_engine_next rfl (stallEnabled_of (d := .rx) hmac hpath hs hw) rfl
  · exact exec_engine_next rfl (stallEnabled_of (d := .tx) hmac hpath hs hw) rfl
  · exact exec_engine_next rfl hmac rfl

/-! #### Completing a slot, from its sample to the buffer (R201, R204, R207, R208 (a)) -/

section
variable {s : State} {w : Half} {x : Nat}

theorem rxDoneStep_noSlot (l f : Half) (hs : s.hw.rxSample = some w) (h : hwSlot s .rx = none) :
    rxDoneStep l f s = .error (.fault .hOutsideLiveRing) := by
  rw [rxDoneStep, run_here_bind, hs]
  exact run_bind_error (hSlot_none h)

theorem rxDoneStep_takenBack (l f : Half) (hs : s.hw.rxSample = some w) (h : hwSlot s .rx = some x)
    (ho : ownsInMemory s .rx x = false) : rxDoneStep l f s = .error (.fault .hSlotTakenBack) := by
  rw [rxDoneStep, run_here_bind, hs]
  exact (run_bind_ok (hSlot_some h)).trans (run_bind_error (hOwns_takenBack ho))

theorem txDoneStep_noSlot (hs : s.hw.txSample = some w) (h : hwSlot s .tx = none) :
    txDoneStep s = .error (.fault .hOutsideLiveRing) := by
  rw [txDoneStep, run_here_bind, hs]
  exact run_bind_error (hSlot_none h)

theorem txDoneStep_takenBack (hs : s.hw.txSample = some w) (h : hwSlot s .tx = some x)
    (ho : ownsInMemory s .tx x = false) : txDoneStep s = .error (.fault .hSlotTakenBack) := by
  rw [txDoneStep, run_here_bind, hs]
  exact (run_bind_ok (hSlot_some h)).trans (run_bind_error (hOwns_takenBack ho))
end

/-- Settles O59: the slot's address is the first thing a step asks for, and its ownership the second. -/
theorem engineFaultsOnReleased : Obligations.EngineFaultsOnReleased := by
  intro s hmac
  refine ⟨fun hpath hrel => ?_, fun hpath hrel => ?_, fun w l f x hpath hslot hs hw hl hf ho => ?_,
    fun w x hpath hslot hs hw ho => ?_⟩
  · have hslot : hwSlot s .rx = none := hwSlot_released hrel
    exact ⟨fun hs => exec_engine_fault rfl (sampleEnabled_of hmac hpath hs) (sampleStep_noSlot hslot),
      fun w l f hs hw hl hf =>
        exec_engine_fault rfl (rxDoneEnabled_of hmac hpath hs hw hl hf) (rxDoneStep_noSlot l f hs hslot)⟩
  · have hslot : hwSlot s .tx = none := hwSlot_released hrel
    exact ⟨fun hs => exec_engine_fault rfl (sampleEnabled_of hmac hpath hs) (sampleStep_noSlot hslot),
      fun w hs hw => exec_engine_fault rfl (txDoneEnabled_of hmac hpath hs hw) (txDoneStep_noSlot hs hslot)⟩
  · exact exec_engine_fault rfl (rxDoneEnabled_of hmac hpath hs hw hl hf) (rxDoneStep_takenBack l f hs hslot ho)
  · exact exec_engine_fault rfl (txDoneEnabled_of hmac hpath hs hw) (txDoneStep_takenBack hs hslot ho)

/-! #### A transmit slot completed (R204) -/

/-- The state H_TX_DONE leaves: the status word written, the index moved on, the event on the fragment marked last. -/
def State.txCompleted (s : State) (x : Nat) (w : Half) : State :=
  ((s.setMem (memWrite s.params.endian s.mem (fieldAddr s.params.endian x .stat) 2 (txDoneStat s.params w).toNat)).setHw
    { s.hw with txIdx := if w.getLsbD s.params.txdWrap then 0 else s.hw.txIdx + 1, txSample := none }).setRegs
    { s.regs with event := if w.getLsbD s.params.txdLast then s.regs.event ||| evTxf s.params else s.regs.event }

theorem txDoneStep_completes {s : State} {w : Half} {x p l : Nat} (hs : s.hw.txSample = some w) (hslot : hwSlot s .tx = some x)
    (ho : ownsInMemory s .tx x = true)
    (hp : p = memRead s.params.endian s.mem (fieldAddr s.params.endian x .phys) 4)
    (hl : l = memRead s.params.endian s.mem (fieldAddr s.params.endian x .len) 2) (hreal : bufferReal s p l = true) :
    txDoneStep s = .ok ((), s.txCompleted x w) := by
  subst hp hl
  rw [txDoneStep, run_here_bind, hs]
  simp only
  rw [run_bind_ok (hSlot_some hslot), run_bind_ok (hOwns_owned ho), run_bind_ok (run_hRead .phys),
    run_bind_ok (run_hRead .len), fieldWidth, fieldWidth, hreal, run_bind_ok (sound_true _ _)]
  cases hlast : w.getLsbD s.params.txdLast with
  | true => simp only [State.txCompleted, hlast]; rfl
  | false => simp only [State.txCompleted, hlast]; rfl

/-- Settles O56: of the slot only the status word is written, and what it reads as is what was written. -/
theorem txDoneCompletes : Obligations.TxDoneCompletes := by
  intro s w p l x hm hmac hpath hs hw hfresh ha hb hi hx ho hp hl hreal
  subst hx
  have hslot := hwSlot_live (d := .tx) hfresh ha hb hi
  have hdone := txDoneStep_completes hs hslot ho hp hl hreal
  exact ⟨_, exec_engine_next rfl (txDoneEnabled_of hmac hpath hs hw) hdone, txDoneStep_owned _ _ _ hdone, rfl, rfl, rfl, rfl,
    rfl, memRead_memWrite _ _ 2 _ hm (BitVec.isLt _), fun _ ha => read_memWrite_outside hm ha⟩

/-! #### A receive slot completed (R201) -/

/-- What H writes for a frame never goes beyond the buffer (R201). -/
theorem length_frameBytes_le {f : Option (List Byte)} {k n limit : Nat} (hn : n ≤ limit) :
    (frameBytes f k n limit).length ≤ limit := by
  cases f with
  | none => simp [frameBytes]
  | some f =>
    simp only [frameBytes, List.length_append, List.length_map, List.length_range, List.length_drop, List.length_take]
    omega

/-- A byte of the frame that is listed is the byte H writes, behind the frame's length too. -/
theorem frameBytes_listed {f : List Byte} {k n limit i : Nat} {b : Byte} (hi : i < limit) (hb : f[i]? = some b) :
    (frameBytes (some f) k n limit)[i]? = some b := by
  simp only [frameBytes, List.getElem?_append, List.length_map, List.length_range]
  split
  · next hin => simp [hin, hb]
  · next hin =>
    rw [List.getElem?_drop, Nat.add_sub_cancel' (Nat.le_of_not_lt hin), List.getElem?_take_of_lt hi, hb]

theorem overlaps_mono {a m n b k : Nat} (hm : m ≤ n) (h : overlaps a n b k = false) : overlaps a m b k = false := by
  simp only [overlaps, Bool.and_eq_false_iff, decide_eq_false_iff_not] at h ⊢
  omega

theorem touches_mono {r : Ring} {a m n : Nat} (hm : m ≤ n) (h : r.touches a n = false) : r.touches a m = false := by
  unfold Ring.touches at h ⊢
  cases hb : r.block with
  | none => rfl
  | some block =>
    rw [hb] at h
    exact overlaps_mono hm h

/-- The first bytes of a buffer that is real are a buffer that is real. -/
theorem bufferReal_mono {s : State} {a m n : Nat} (hm : m ≤ n) (h : bufferReal s a n = true) : bufferReal s a m = true := by
  simp only [bufferReal, Bool.and_eq_true, decide_eq_true_eq, Bool.not_eq_true'] at h ⊢
  obtain ⟨⟨hfits, hrx⟩, htx⟩ := h
  exact ⟨⟨by omega, touches_mono hm hrx⟩, touches_mono hm htx⟩

/-- The bytes H writes into the buffer at `p` for a frame of `n` (R201, 60_exceptions R224 row 6a). -/
def State.rxData (s : State) (p n : Nat) : List Byte :=
  blur (s.shared s.hw.rxIdx) s.env.draws p (frameBytes s.env.answers.frames.head? s.env.draws n s.regs.bufsz.toNat)

/-- Memory once the frame, its length and the status word stand. -/
def State.rxMemory (s : State) (x p : Nat) (len stat : Half) : Memory :=
  memWrite s.params.endian (memWrite s.params.endian (Memory.writeBytes p (s.rxData p len.toNat) s.mem)
    (fieldAddr s.params.endian x .len) 2 len.toNat) (fieldAddr s.params.endian x .stat) 2 stat.toNat

theorem length_rxData_le {s : State} {p n : Nat} (hn : n ≤ s.regs.bufsz.toNat) :
    (s.rxData p n).length ≤ s.regs.bufsz.toNat := by
  rw [State.rxData, blur_length]
  exact length_frameBytes_le hn

theorem rxData_listed {s : State} {p n k : Nat} {b : Byte} (hk : k < s.regs.bufsz.toNat)
    (hs : s.shared s.hw.rxIdx (p + k) = false) (hb : (s.env.answers.frames.headD [])[k]? = some b) :
    (s.rxData p n)[k]? = some b := by
  rw [State.rxData, blur_getElem? hs]
  cases hf : s.env.answers.frames with
  | nil => rw [hf] at hb; cases hb
  | cons f rest =>
    rw [hf] at hb
    exact frameBytes_listed hk hb

section
variable {s : State} {w len flags stat : Half} {x p : Nat}

/-- H_RX_DONE performed: memory as `rxMemory` has it, the index moved on, the event raised. -/
theorem rxDoneStep_completes (hs : s.hw.rxSample = some w) (hslot : hwSlot s .rx = some x) (ho : ownsInMemory s .rx x = true)
    (hp : p = memRead s.params.endian s.mem (fieldAddr s.params.endian x .phys) 4)
    (hl : len.toNat ≤ s.regs.bufsz.toNat) (hreal : bufferReal s p s.regs.bufsz.toNat = true) :
    ∃ t, rxDoneStep len flags s = .ok ((), t) ∧ t.mem = s.rxMemory x p len (rxDoneStat s.params w flags) ∧
      t.pend = s.pend ∧ t.early = s.early ∧ t.regs = { s.regs with event := s.regs.event ||| evRxf s.params } ∧
      t.hw = { s.hw with rxIdx := if w.getLsbD s.params.rxdWrap then 0 else s.hw.rxIdx + 1, rxSample := none } := by
  subst hp
  rw [rxDoneStep, run_here_bind, hs]
  simp only
  rw [run_bind_ok (hSlot_some hslot), run_bind_ok (hOwns_owned ho), run_bind_ok (run_hRead .phys), drawFrame, bind_assoc,
    run_here_bind, bind_assoc, run_upd_bind, run_pure_bind, fieldWidth,
    bufferReal_mono (length_frameBytes_le hl) hreal, run_bind_ok (sound_true _ _)]
  simp only [hWrite, hAdvance, hEvent, run_upd_bind, run_upd]
  refine ⟨_, rfl, rfl, by simp, by simp, by simp, ?_⟩
  simp only [State.setRegs_hw, State.setHw_hw]
  rfl

theorem read_rxMemory_len (hm : Memory.wf s.mem = true) :
    memRead s.params.endian (s.rxMemory x p len stat) (fieldAddr s.params.endian x .len) 2 = len.toNat := by
  have hm' : Memory.wf (Memory.writeBytes p (s.rxData p len.toNat) s.mem) = true := Memory.wf_writeBytes _ _ hm
  have hapart := fields_apart s.params.endian (f := .len) (g := .stat) (by decide)
  refine (memRead_memWrite_of_disjoint _ (wf_memWrite _ _ _ _ hm') ?_).trans (memRead_memWrite _ _ 2 _ hm' len.isLt)
  simp only [fieldAddr, fieldWidth] at hapart ⊢
  omega

theorem read_rxMemory_stat (hm : Memory.wf s.mem = true) :
    memRead s.params.endian (s.rxMemory x p len stat) (fieldAddr s.params.endian x .stat) 2 = stat.toNat :=
  memRead_memWrite _ _ 2 _ (wf_memWrite _ _ _ _ (Memory.wf_writeBytes _ _ hm)) stat.isLt

/-- Length and status word are the first four bytes of a descriptor: elsewhere only the buffer was written. -/
theorem read_rxMemory_outside {a : Nat} (hm : Memory.wf s.mem = true) (ha : a < x ∨ x + 4 ≤ a) :
    Memory.read a (s.rxMemory x p len stat) = Memory.read a (Memory.writeBytes p (s.rxData p len.toNat) s.mem) := by
  have hm' : Memory.wf (Memory.writeBytes p (s.rxData p len.toNat) s.mem) = true := Memory.wf_writeBytes _ _ hm
  have hoff : fieldOff s.params.endian .len ≤ 2 ∧ fieldOff s.params.endian .stat ≤ 2 := by
    cases s.params.endian <;> decide
  refine (read_memWrite_outside (wf_memWrite _ _ _ _ hm') ?_).trans (read_memWrite_outside hm' ?_)
  · simp only [fieldAddr]; omega
  · simp only [fieldAddr]; omega
end

/-- Settles O55: the buffer lies off the ring, so the frame, the length and the status word do not disturb one another. -/
theorem rxDoneCompletes : Obligations.RxDoneCompletes := by
  intro s w len flags p x hm _ hmac hpath hs hw hl hflagOwn hflagWrap hfresh ha hb hi hx ho hp hreal
  have hslot : hwSlot s .rx = some x := hx ▸ hwSlot_live (d := .rx) hfresh ha hb hi
  have hflags : rxFlagsAdmissible s.params flags = true := by simp [rxFlagsAdmissible, hflagOwn, hflagWrap]
  obtain ⟨t, hdone, hmem, hpend, hearly, hregs, hhw⟩ := rxDoneStep_completes (flags := flags) hs hslot ho hp hl hreal
  have hoff : ∀ k, k < s.regs.bufsz.toNat → p + k < x ∨ x + 4 ≤ p + k := fun k hk => by
    have happart := touches_apart (bufferReal_rx hreal) (slotAddr_some.2 ⟨_, hb, hi, hx⟩) (p + k)
    simp only [descSize] at happart
    omega
  refine ⟨t, exec_engine_next rfl (rxDoneEnabled_of hmac hpath hs hw hl hflags) hdone, rxDoneStep_owned _ _ _ _ _ hdone,
    hpend, hearly, hregs, hhw, fun k b hk hshared hb => ?_, ?_, ?_, fun a hbuf ha => ?_⟩
  · have hdata := rxData_listed (n := len.toNat) hk hshared hb
    have hlen : k < (s.rxData p len.toNat).length := (List.getElem?_eq_some_iff.1 hdata).1
    rw [hmem, read_rxMemory_outside hm (hoff k hk), Memory.read_writeBytes _ _ _ hm, if_pos (by omega),
      Nat.add_sub_cancel_left, List.getD_eq_getElem?_getD, hdata]
    rfl
  · rw [hmem, read_rxMemory_len hm]
  · rw [hmem, read_rxMemory_stat hm]
    rfl
  · have hlen := length_rxData_le (p := p) hl
    rw [hmem, read_rxMemory_outside hm ha, Memory.read_writeBytes_of_outside hm (by omega)]

/-! #### What a step of H leaves alone (R195, R208 (e)) -/

theorem Gapped.hStep {P : State → Prop} (h : Gapped P) (i : Instr) : Keeps P (hStep i) := by
  cases i with
  | hRxSample => exact h.sampleStep .rx
  | hTxSample => exact h.sampleStep .tx
  | hRxDone l f => exact h.rxDoneStep l f
  | hTxDone => exact h.txDoneStep
  | hRxStall => exact h.stallStep .rx
  | hTxStall => exact h.stallStep .tx
  | hBusError => exact h.busErrorStep
  | _ => exact Keeps.pure

theorem hStep_owned (i : Instr) : Leaves State.owned (hStep i) := .of_keeps fun o => (gapped_owned o).hStep i

theorem exec_engine_owned {i : Instr} {s t : State} (hi : i.agent = .engine) (h : exec i s = .next t) :
    t.owned = s.owned := hStep_owned i _ _ _ (exec_engine_ok hi h).2

/-! The issued writes are not among what `Gapped` keeps, since the memory system performs them; H does not. -/

theorem setSample_pend (d : Dir) (w : Option Half) : Leaves State.pend (setSample d w) := by
  cases d <;> exact Leaves.upd fun _ => rfl

theorem hAdvance_pend (d : Dir) (w : Half) : Leaves State.pend (hAdvance d w) := by
  cases d <;> exact Leaves.upd fun _ => rfl

theorem hEvent_pend (bit : Params → Events) : Leaves State.pend (hEvent bit) := Leaves.upd fun _ => rfl

theorem hWrite_pend (a : Nat) (f : Field) (v : Nat) : Leaves State.pend (hWrite a f v) := Leaves.upd fun _ => rfl

theorem drawFrame_pend (n limit : Nat) : Leaves State.pend (drawFrame n limit) :=
  Leaves.bind Leaves.here fun _ => Leaves.bind (Leaves.upd fun _ => rfl) fun _ => Leaves.pure

section
variable {γ : Type} {F : State → γ}
theorem hSlot_leaves (d : Dir) : Leaves F (hSlot d) := .of_keeps fun _ => Gapped.hSlot d
theorem hRead_leaves (a : Nat) (f : Field) : Leaves F (hRead a f) := .of_keeps fun _ => Gapped.hRead a f
theorem hOwns_leaves (d : Dir) (a : Nat) : Leaves F (hOwns d a) := .of_keeps fun _ => Gapped.hOwns d a
end

theorem sampleStep_pend (d : Dir) : Leaves State.pend (sampleStep d) :=
  (hSlot_leaves d).bind fun _ => (hRead_leaves _ _).bind fun _ => setSample_pend _ _

theorem stallStep_pend (d : Dir) : Leaves State.pend (stallStep d) := by
  cases d <;> exact Leaves.bind (Leaves.upd fun _ => rfl) fun _ => setSample_pend _ _

theorem rxDoneStep_pend (l f : Half) : Leaves State.pend (rxDoneStep l f) := by
  refine Leaves.bind Leaves.here fun s => ?_
  cases s.hw.rxSample with
  | none => exact Leaves.pure
  | some w =>
    exact (hSlot_leaves _).bind fun _ => (hOwns_leaves _ _).bind fun _ => (hRead_leaves _ _).bind fun _ =>
      (drawFrame_pend _ _).bind fun _ => Leaves.sound.bind fun _ => Leaves.bind (Leaves.upd fun _ => rfl) fun _ =>
      (hWrite_pend _ _ _).bind fun _ => (hWrite_pend _ _ _).bind fun _ => (hAdvance_pend _ _).bind fun _ => hEvent_pend _

theorem txDoneStep_pend : Leaves State.pend txDoneStep := by
  refine Leaves.bind Leaves.here fun s => ?_
  cases s.hw.txSample with
  | none => exact Leaves.pure
  | some w =>
    exact (hSlot_leaves _).bind fun _ => (hOwns_leaves _ _).bind fun _ => (hRead_leaves _ _).bind fun _ =>
      (hRead_leaves _ _).bind fun _ => Leaves.sound.bind fun _ => (hWrite_pend _ _ _).bind fun _ =>
      (hAdvance_pend _ _).bind fun _ => Leaves.ite (hEvent_pend _) Leaves.pure

theorem hStep_pend (i : Instr) : Leaves State.pend (hStep i) := by
  cases i with
  | hRxSample => exact sampleStep_pend .rx
  | hTxSample => exact sampleStep_pend .tx
  | hRxDone l f => exact rxDoneStep_pend l f
  | hTxDone => exact txDoneStep_pend
  | hRxStall => exact stallStep_pend .rx
  | hTxStall => exact stallStep_pend .tx
  | hBusError => exact hEvent_pend evBerr
  | _ => exact Leaves.pure

/-- Settles O60: what C owns, and that no event is cleared and no path enabled, are kept by each update of H's. -/
theorem engineLeavesWhatIsC : Obligations.EngineLeavesWhatIsC := by
  intro i s t hi h
  have hrun := (exec_engine_ok hi h).2
  exact ⟨hStep_owned i s () t hrun, hStep_pend i s () t hrun, (gapped_grown _ _ _).hStep i s () t (grown_refl s) hrun⟩

end Sys2Proof.Machine
end

/-! ### Modes and admission (60_exceptions R220 to R222) -/

section
namespace Sys2Proof.Machine

/-! #### A step of H does not see the sequencing registers (R221) -/

/-- `x` does the same whatever the sequencing registers hold, and leaves them. -/
def SeqBlind {α : Type} (x : Op α) : Prop :=
  ∀ s a t (q : Seq), x s = .ok (a, t) → x (s.setSeq q) = .ok (a, t.setSeq q)

namespace SeqBlind

variable {α β : Type}

theorem pure {a : α} : SeqBlind (Pure.pure a : Op α) := by rintro s b t q ⟨⟩; rfl

theorem upd {f : State → State} (h : ∀ s q, f (s.setSeq q) = (f s).setSeq q) : SeqBlind (upd f) := by
  rintro s u t q ⟨⟩
  rw [run_upd, h]

theorem spoil {r : Fault} : SeqBlind (spoil r : Op α) := by intro s a t q h; cases h

theorem sound {c : Bool} {r : Fault} : SeqBlind (sound c r) := by
  intro s u t q h
  obtain ⟨rfl, rfl⟩ := sound_ok h
  rfl

theorem bind {x : Op α} {f : α → Op β} (hx : SeqBlind x) (hf : ∀ a, SeqBlind (f a)) : SeqBlind (x >>= f) := by
  intro s b u q h
  obtain ⟨a, t, h₁, h₂⟩ := bind_ok h
  rw [run_bind_ok (hx s a t q h₁), hf a t b u q h₂]

/-- The state is read, but what follows depends on other parts of it. -/
theorem here {f : State → Op β} (hf : ∀ s, SeqBlind (f s)) (h : ∀ s (q : Seq), f (s.setSeq q) = f s) :
    SeqBlind (here >>= f) := by
  intro s b u q hx
  rw [run_here_bind, h]
  exact hf s s b u q hx

theorem ite {c : Prop} [Decidable c] {x y : Op α} (hx : SeqBlind x) (hy : SeqBlind y) :
    SeqBlind (if c then x else y) := by split <;> assumption

theorem hSlot (d : Dir) : SeqBlind (hSlot d) := by
  refine here (fun s => ?_) fun s q => ?_
  · cases hwSlot s d with
    | none => exact spoil
    | some x => exact pure
  · cases d <;> rfl

theorem hRead (a : Nat) (f : Field) : SeqBlind (hRead a f) := here (fun _ => pure) fun _ _ => rfl

theorem hOwns (d : Dir) (a : Nat) : SeqBlind (hOwns d a) :=
  here (fun _ => (hRead _ _).bind fun _ => sound) fun _ _ => rfl

theorem hWrite (a : Nat) (f : Field) (v : Nat) : SeqBlind (hWrite a f v) := upd fun _ _ => rfl

theorem setSample (d : Dir) (w : Option Half) : SeqBlind (setSample d w) := by cases d <;> exact upd fun _ _ => rfl

theorem hAdvance (d : Dir) (w : Half) : SeqBlind (hAdvance d w) := by cases d <;> exact upd fun _ _ => rfl

theorem hEvent (bit : Params → Events) : SeqBlind (hEvent bit) := upd fun _ _ => rfl

theorem drawFrame (n limit : Nat) : SeqBlind (drawFrame n limit) :=
  here (fun _ => (upd fun _ _ => rfl).bind fun _ => pure) fun _ _ => rfl

theorem sampleStep (d : Dir) : SeqBlind (sampleStep d) :=
  (hSlot d).bind fun _ => (hRead _ _).bind fun _ => setSample _ _

theorem stallStep (d : Dir) : SeqBlind (stallStep d) := by
  cases d <;> exact (upd fun _ _ => rfl).bind fun _ => setSample _ _

theorem rxDoneStep (l f : Half) : SeqBlind (rxDoneStep l f) := by
  refine here (fun s => ?_) fun _ _ => rfl
  cases s.hw.rxSample with
  | none => exact pure
  | some w =>
    exact (hSlot _).bind fun _ => (hOwns _ _).bind fun _ => (hRead _ _).bind fun _ => (drawFrame _ _).bind fun _ =>
      sound.bind fun _ => (upd fun _ _ => rfl).bind fun _ => (hWrite _ _ _).bind fun _ => (hWrite _ _ _).bind fun _ =>
      (hAdvance _ _).bind fun _ => hEvent _

theorem txDoneStep : SeqBlind txDoneStep := by
  refine here (fun s => ?_) fun _ _ => rfl
  cases s.hw.txSample with
  | none => exact pure
  | some w =>
    exact (hSlot _).bind fun _ => (hOwns _ _).bind fun _ => (hRead _ _).bind fun _ => (hRead _ _).bind fun _ =>
      sound.bind fun _ => (hWrite _ _ _).bind fun _ => (hAdvance _ _).bind fun _ => ite (hEvent _) pure

theorem hStep (i : Instr) : SeqBlind (hStep i) := by
  cases i with
  | hRxSample => exact sampleStep .rx
  | hTxSample => exact sampleStep .tx
  | hRxDone l f => exact rxDoneStep l f
  | hTxDone => exact txDoneStep
  | hRxStall => exact stallStep .rx
  | hTxStall => exact stallStep .tx
  | hBusError => exact hEvent evBerr
  | _ => exact pure

end SeqBlind

theorem hEnabled_setSeq (i : Instr) (s : State) (q : Seq) : hEnabled i (s.setSeq q) = hEnabled i s := by
  cases i <;> rfl

/-! #### The steps of bring-up as operations (44_link_bringup R150) -/

theorem exec_sequencer {i : Instr} (hi : i.agent = .sequencer) (s : State) :
    exec i s = sequencerStep (buNumber i) (buStep (buNumber i)) s := by
  cases i with
  | bu1 | bu2 | bu3 | bu4 | bu5 | bu6 | bu7 | bu8 | bu9 | bu10 => rfl
  | _ => cases hi

theorem sequencerStep_refused {k : Nat} {body : Op (Option Err)} {s : State}
    (h : ¬(s.seq.mode = .bringUp ∧ s.seq.bstep = k)) : sequencerStep k body s = .refused .notAdmitted := if_neg h

/-- Settles O17: the table's modes are what each operation's admission tests, the sequencer's place is what `sequencerStep`
tests, and no step of H reads a sequencing register. -/
theorem modesAdmit : Obligations.ModesAdmit := by
  refine fun i s => ⟨exec_notAdmitted, fun hi hat => ?_, fun t q hi h => ?_⟩
  · rw [exec_sequencer hi]
    exact sequencerStep_refused hat
  · obtain ⟨hon, hrun⟩ := exec_engine_ok hi h
    exact exec_engine_next hi ((hEnabled_setSeq i s q).trans hon) (SeqBlind.hStep i s () t q hrun)

/-! #### Where the rings and the context do not admit an operation (R221) -/

section
variable {s : State}

theorem admitRingInit_allocated (hm : s.seq.mode = .off) (h : s.rx.alive = true ∨ s.tx.alive = true) :
    admitRingInit s = some .alreadyAllocated := by
  rcases h with h | h <;> simp [admitRingInit, hm, h]

theorem admitInit_allocated (hm : s.seq.mode = .off) (h : s.rx.alive = true ∨ s.tx.alive = true ∨ s.ctx.alive = true) :
    admitInit s = some .alreadyAllocated := by
  rcases h with h | h | h <;> simp [admitInit, hm, h]

theorem admitRing_dead {d : Dir} (hm : s.seq.mode = .off ∨ s.seq.mode = .running) (h : (s.ring d).alive = false) :
    admitRing d s = some .ringNotAlive := by
  rcases hm with hm | hm <;> simp [admitRing, hm, h]

theorem admitCore_dead (hm : s.seq.mode = .off) (h : s.rx.alive = false ∨ s.tx.alive = false) :
    admitCore s = some .ringNotAlive := by
  rcases h with h | h <;> simp [admitCore, hm, h]
end

/-- Settles O18: each of these operations is refused by its line of the admission table. -/
theorem allocationAdmits : Obligations.AllocationAdmits := fun _ hb =>
  ⟨fun hm h _ _ => issue_refused hb (admitRingInit_allocated hm h),
    fun hm h _ => issue_refused hb (admitInit_allocated hm h),
    fun hm h => ⟨issue_refused hb (admitRing_dead (d := .rx) hm h), issue_refused hb (admitRing_dead (d := .rx) hm h)⟩,
    fun hm h => ⟨issue_refused hb (admitRing_dead (d := .tx) hm h),
      fun _ _ => issue_refused hb (admitRing_dead (d := .tx) hm h)⟩,
    fun hm h => ⟨issue_refused hb (admitCore_dead hm h), fun _ _ _ _ => issue_refused hb (admitCore_dead hm h)⟩⟩

/-! #### One operation at a time (R222) -/

/-- An operation of the host is its admission and its body between `begun` and `ended`. -/
theorem exec_host {i : Instr} (hi : i.agent = .host) : ∃ adm body, ∀ s, exec i s = issue adm body s := by
  cases i with
  | bu1 | bu2 | bu3 | bu4 | bu5 | bu6 | bu7 | bu8 | bu9 | bu10 => cases hi
  | hRxSample | hRxDone | hRxStall | hTxSample | hTxDone | hTxStall | hBusError => cases hi
  | _ => exact ⟨_, _, fun _ => rfl⟩

/-- Settles O19: `issue` tests `busy` first, and what an operation ends with clears it. -/
theorem oneOperationAtATime : Obligations.OneOperationAtATime := by
  intro i s hi
  obtain ⟨adm, body, hexec⟩ := exec_host hi
  rw [hexec]
  refine ⟨issue_busy, fun t h => ?_⟩
  obtain ⟨ws, u, -, rfl⟩ := issue_ok h
  rfl

/-! #### Pieces of work that leave the sequencing registers -/

theorem Leaves.map {α γ δ : Type} {F : State → γ} {x : Op α} (g : γ → δ) (h : Leaves F x) : Leaves (fun s => g (F s)) x :=
  fun s a t hx => congrArg g (h s a t hx)

theorem priv_seq {α : Type} {x : Op α} (h : Leaves State.priv x) : Leaves State.seq x := h.map Private.seq

theorem owned_seq {α : Type} {x : Op α} (h : Leaves State.owned x) : Leaves State.seq x := priv_seq (owned_priv h)

theorem here_seq : Leaves State.seq here := Leaves.here

theorem ask_seq {α : Type} (c : Call) (get : Answers → List α) (put : Answers → List α → Answers) (free : Nat → α) :
    Leaves State.seq (ask c get put free) := priv_seq (ask_priv c get put free)

theorem reapRx_seq : Leaves State.seq reapRx := reapRx_rest.map fun p => p.1.seq
theorem reapTx_seq : Leaves State.seq reapTx := reapTx_rest.map fun p => p.1.seq
theorem fillRx_seq : Leaves State.seq fillRx := fillRx_rest.map fun p => p.1.seq
theorem enqTx_seq (fs : List Frag) (b : Handle) : Leaves State.seq (enqTx fs b) := (enqTx_rest fs b).map fun p => p.1.seq

theorem ringInit_seq (capRx capTx : Nat) : Leaves State.seq (ringInit capRx capTx) := by
  intro s ok t h
  obtain ⟨hfailed, hlaid⟩ := ringInit_priv capRx capTx s.priv s ok t rfl h
  cases ok with
  | false => exact congrArg Private.seq (hfailed rfl)
  | true =>
    obtain ⟨-, -, -, -, a, b, k, j, -, hp⟩ := hlaid rfl
    exact congrArg Private.seq hp

theorem ringTeardown_seq : Leaves State.seq ringTeardown := fun s a t h => (ringTeardown_priv s.priv s a t rfl h).seq

theorem macCoreInit_seq (a b n : Word) (m : Mac) : Leaves State.seq (macCoreInit a b n m) := by
  intro s ok t h
  obtain ⟨-, -, hup, hdown⟩ := macCoreInit_priv a b n m s.priv s ok t rfl h
  cases ok with
  | true => exact congrArg Private.seq (hup rfl)
  | false => exact congrArg Private.seq (hdown rfl)

theorem setSpeedDuplex_seq (v : Nat) (d : Duplex) : Leaves State.seq (setSpeedDuplex v d) :=
  fun s a t h => congrArg Private.seq (setSpeedDuplex_priv v d s.priv s a t rfl h).1

/-! #### Operations of the host that leave the mode (R220) -/

theorem issue_mode {adm : State → Option Refusal} {body : Op (List Word)} {s t : State} (hb : Leaves State.seq body)
    (h : issue adm body s = .next t) : t.seq.mode = s.seq.mode := by
  obtain ⟨ws, u, hrun, rfl⟩ := issue_ok h
  rw [State.ended_seq, hb _ _ _ hrun, State.begun_seq]

/-- All but INIT and HANDLE_IRQ. -/
theorem exec_host_mode {i : Instr} {s t : State} (hi : i.agent = .host) (hinit : ∀ c, i ≠ .init c) (hirq : i ≠ .handleIrq)
    (h : exec i s = .next t) : t.seq.mode = s.seq.mode := by
  cases i with
  | init c => exact absurd rfl (hinit c)
  | handleIrq => exact absurd rfl hirq
  | ringInit a b => exact issue_mode ((ringInit_seq _ _).bind fun _ => Leaves.ite Leaves.pure Leaves.pure) h
  | ringTeardown =>
    exact issue_mode (here_seq.bind fun _ => Leaves.sound.bind fun _ => ringTeardown_seq.bind fun _ => Leaves.pure) h
  | fillRx => exact issue_mode (fillRx_seq.bind fun _ => Leaves.pure) h
  | reapRx => exact issue_mode (reapRx_seq.bind fun _ => Leaves.pure) h
  | reapTx => exact issue_mode (reapTx_seq.bind fun _ => Leaves.pure) h
  | poll => exact issue_mode (reapRx_seq.bind fun _ => reapTx_seq.bind fun _ => fillRx_seq.bind fun _ => Leaves.pure) h
  | enqTx | transmit => exact issue_mode ((enqTx_seq _ _).bind fun _ => Leaves.ite Leaves.pure Leaves.pure) h
  | rxEnable | rxDisable => exact issue_mode ((owned_seq (writeRxEn_owned _)).bind fun _ => Leaves.pure) h
  | txEnable | txDisable => exact issue_mode ((owned_seq (writeTxEn_owned _)).bind fun _ => Leaves.pure) h
  | rxEnabled | txEnabled => exact issue_mode ((owned_seq (regRead_owned _)).bind fun _ => Leaves.pure) h
  | evRead => exact issue_mode (here_seq.bind fun _ => (owned_seq (regRead_owned _)).bind fun _ => Leaves.pure) h
  | evClear m =>
    exact issue_mode (here_seq.bind fun _ => (owned_seq (eventClear_owned _)).bind fun _ => Leaves.pure) h
  | evReadClear =>
    exact issue_mode (here_seq.bind fun _ => (owned_seq (regReadClear_owned _)).bind fun _ => Leaves.pure) h
  | evSetMask m => exact issue_mode ((priv_seq (setEventMask_priv _)).bind fun _ => Leaves.pure) h
  | setSpeedDuplex v d => exact issue_mode ((setSpeedDuplex_seq _ _).bind fun _ => Leaves.pure) h
  | promiscSet | promiscClear => exact issue_mode ((priv_seq (regWrite_priv _)).bind fun _ => Leaves.pure) h
  | mdioRead =>
    refine issue_mode (Leaves.bind (here_seq.bind fun _ => ask_seq _ _ _ _) fun v => ?_) h
    cases v <;> exact Leaves.pure
  | mdioWrite =>
    exact issue_mode (Leaves.bind (here_seq.bind fun _ => ask_seq _ _ _ _) fun _ =>
      Leaves.ite Leaves.pure Leaves.pure) h
  | macCoreInit => exact issue_mode ((macCoreInit_seq _ _ _ _).bind fun _ => Leaves.ite Leaves.pure Leaves.pure) h
  | macEnable => exact issue_mode ((priv_seq macEnable_priv).bind fun _ => Leaves.pure) h
  | getMac => exact issue_mode (here_seq.bind fun _ => Leaves.pure) h
  | printDiag =>
    exact issue_mode (here_seq.bind fun _ => (owned_seq (regRead_owned _)).bind fun _ =>
      (priv_seq (call_priv _)).bind fun _ => Leaves.pure) h
  | bu1 | bu2 | bu3 | bu4 | bu5 | bu6 | bu7 | bu8 | bu9 | bu10 => cases hi
  | hRxSample | hRxDone | hRxStall | hTxSample | hTxDone | hTxStall | hBusError => cases hi

/-- HANDLE_IRQ leaves the mode or halts (43_interrupt_dispatch R145). -/
theorem handleIrq_mode (q : Seq) : Ensures (fun s => s.seq = q) handleIrq
    (fun _ s => s.seq.mode = q.mode ∨ s.seq.mode = .halted) := by
  refine (here_seq.ensures q).bind fun s =>
    ((owned_seq (regReadClear_owned _)).ensures q).bind fun e => Ensures.ite (fun _ => ?_) fun _ => ?_
  · exact Ensures.bind (Q := fun _ s => s.seq.mode = .halted) (Ensures.upd fun _ _ => rfl) fun _ =>
      Ensures.pure fun _ hm => .inr hm
  · have hTx : Leaves State.seq (serveTx e) := here_seq.bind fun _ => Leaves.ite reapTx_seq Leaves.pure
    have hRx : Leaves State.seq (serveRx e) :=
      here_seq.bind fun _ => Leaves.ite (reapRx_seq.bind fun _ => fillRx_seq) Leaves.pure
    exact (hTx.ensures q).bind fun _ => (hRx.ensures q).bind fun _ => Ensures.pure fun _ hq => .inl (congrArg Seq.mode hq)

/-! #### The steps of bring-up (R220, 44_link_bringup R150) -/

/-- The mode in which an error of step `k` leaves the machine, where the step can fail (44_link_bringup R154 to R165). -/
def errorMode : Nat → Option Mode
  | 1 | 2 | 3 | 4 | 7 | 8 => some .off
  | 5 => some .dead
  | _ => none

/-- Where a step run from the sequencing registers `q` leaves them: at step `j`, or in the mode `m` with bring-up left. -/
def StepEnds (q : Seq) (j : Nat) (m : Option Mode) (r : Option Err) (s : State) : Prop :=
  match r with
  | none => s.seq = { q with bstep := j }
  | some _ => ∃ x, m = some x ∧ s.seq = { q with mode := x, bstep := 0 }

section
variable (q : Seq) (j : Nat)

theorem goTo_ends (m : Option Mode) : Ensures (fun s => s.seq = q) (goTo j) (StepEnds q j m) := by
  rintro s r t rfl ⟨⟩
  rfl

theorem leaveBringUp_ends (m : Mode) (e : Err) :
    Ensures (fun s => s.seq = q) (do leaveBringUp m; pure (some e)) (StepEnds q j (some m)) := by
  rintro s r t rfl ⟨⟩
  exact ⟨m, rfl, rfl⟩

/-- A store to another part of the state goes before the end. -/
theorem store_ends {m : Option Mode} {f : State → State} {k : Unit → Op (Option Err)} (hf : ∀ s, (f s).seq = s.seq)
    (hk : Ensures (fun s => s.seq = q) (k ()) (StepEnds q j m)) :
    Ensures (fun s => s.seq = q) (upd f >>= k) (StepEnds q j m) :=
  Ensures.bind (Q := fun _ s => s.seq = q) (Ensures.upd fun s hs => (hf s).trans hs) fun _ => hk

theorem abort_ends (e : Err) : Ensures (fun s => s.seq = q) (abort e) (StepEnds q j (some .off)) :=
  (ringTeardown_seq.ensures q).bind fun _ => ((priv_seq (call_priv _)).ensures q).bind fun _ =>
    store_ends q j (fun _ => rfl) (leaveBringUp_ends q j .off e)
end

section
variable (q : Seq)

theorem bu1_ends : Ensures (fun s => s.seq = q) bu1 (StepEnds q 2 (some .off)) := by
  refine (here_seq.ensures q).bind fun s => Ensures.ite (fun _ => store_ends q 2 (fun _ => rfl) (goTo_ends q 2 _)) fun _ =>
    ((ask_seq _ _ _ _).ensures q).bind fun f => ?_
  cases f with
  | none => exact leaveBringUp_ends q 2 .off _
  | some m => exact store_ends q 2 (fun _ => rfl) (goTo_ends q 2 _)

theorem bu2_ends : Ensures (fun s => s.seq = q) bu2 (StepEnds q 3 (some .off)) :=
  ((ask_seq _ _ _ _).ensures q).bind fun _ => Ensures.ite
    (fun _ => store_ends q 3 (fun _ => rfl) ((here_seq.ensures q).bind fun _ => ((ringInit_seq _ _).ensures q).bind fun _ =>
      Ensures.ite (fun _ => goTo_ends q 3 _) fun _ => abort_ends q 3 _))
    fun _ => leaveBringUp_ends q 3 .off _

theorem bu3_ends : Ensures (fun s => s.seq = q) bu3 (StepEnds q 4 (some .off)) :=
  (here_seq.ensures q).bind fun _ => Ensures.ite (fun _ => abort_ends q 4 _) fun _ =>
    ((ask_seq _ _ _ _).ensures q).bind fun _ => Ensures.ite (fun _ => goTo_ends q 4 _) fun _ => abort_ends q 4 _

theorem bu4_ends : Ensures (fun s => s.seq = q) bu4 (StepEnds q 5 (some .off)) := by
  refine ((ask_seq _ _ _ _).ensures q).bind fun m => ?_
  cases m with
  | none => exact abort_ends q 5 _
  | some h => exact store_ends q 5 (fun _ => rfl) (goTo_ends q 5 _)

theorem bu5_ends : Ensures (fun s => s.seq = q) bu5 (StepEnds q 6 (some .dead)) :=
  (here_seq.ensures q).bind fun _ => ((macCoreInit_seq _ _ _ _).ensures q).bind fun _ =>
    Ensures.ite (fun _ => goTo_ends q 6 _) fun _ => leaveBringUp_ends q 6 .dead _

theorem bu6_ends : Ensures (fun s => s.seq = q) bu6 (StepEnds q 7 none) :=
  (here_seq.ensures q).bind fun _ => ((priv_seq (regWrite_priv _)).ensures q).bind fun _ =>
    goTo_ends q 7 _

theorem bu7_ends : Ensures (fun s => s.seq = q) bu7 (StepEnds q 8 (some .off)) := by
  refine (here_seq.ensures q).bind fun _ => Ensures.ite (fun _ => abort_ends q 8 _) fun _ =>
    ((ask_seq _ _ _ _).ensures q).bind fun _ => Ensures.ite (fun _ =>
      ((ask_seq _ _ _ _).ensures q).bind fun p => ?_) fun _ => abort_ends q 8 _
  cases p with
  | none => exact abort_ends q 8 _
  | some phy => exact store_ends q 8 (fun _ => rfl) (goTo_ends q 8 _)

theorem bu8_ends : Ensures (fun s => s.seq = q) bu8 (StepEnds q 9 (some .off)) := by
  refine (here_seq.ensures q).bind fun _ => ((ask_seq _ _ _ _).ensures q).bind fun _ =>
    Ensures.ite (fun _ => ((here_seq.bind fun _ => ask_seq _ _ _ _).ensures q).bind fun r => ?_)
      fun _ => abort_ends q 9 _
  cases r with
  | none => exact abort_ends q 9 _
  | some r => exact store_ends q 9 (fun _ => rfl) (goTo_ends q 9 _)

theorem bu9_ends : Ensures (fun s => s.seq = q) bu9 (StepEnds q 10 none) :=
  (here_seq.ensures q).bind fun _ => ((setSpeedDuplex_seq _ _).ensures q).bind fun _ =>
    goTo_ends q 10 _

theorem bu10_ends : Ensures (fun s => s.seq = q) bu10 (StepEnds q 0 none) :=
  ((priv_seq macEnable_priv).ensures q).bind fun _ => (fillRx_seq.ensures q).bind fun _ =>
    (here_seq.ensures q).bind fun _ => ((priv_seq (setEventMask_priv _)).ensures q).bind fun _ =>
    goTo_ends q 0 _

theorem buStep_ends {k : Nat} (h1 : 1 ≤ k) (h2 : k ≤ 10) :
    Ensures (fun s => s.seq = q) (buStep k) (StepEnds q (if k = 10 then 0 else k + 1) (errorMode k)) :=
  match k with
  | 0 => absurd h1 (by decide)
  | 1 => bu1_ends q
  | 2 => bu2_ends q
  | 3 => bu3_ends q
  | 4 => bu4_ends q
  | 5 => bu5_ends q
  | 6 => bu6_ends q
  | 7 => bu7_ends q
  | 8 => bu8_ends q
  | 9 => bu9_ends q
  | 10 => bu10_ends q
  | k + 11 => absurd h2 (by omega)
end

theorem errorMode_off_or_dead {k : Nat} {m : Mode} (h : errorMode k = some m) : m = .off ∨ m = .dead := by
  unfold errorMode at h
  split at h <;> simp_all

/-- Where step `k` run as an operation of its own leaves the sequencing registers: at the next step, running after the last
one, or in the mode of its error. -/
theorem sequencer_seq {k : Nat} {s t : State} (h1 : 1 ≤ k) (h2 : k ≤ 10) (h : sequencerStep k (buStep k) s = .next t) :
    s.atStep k ∧ (t.seq.mode = .bringUp ∧ t.seq.bstep = k + 1 ∨ k = 10 ∧ t.seq.mode = .running ∧ t.seq.bstep = 0 ∨
      errorMode k = some t.seq.mode ∧ t.seq.bstep = 0) := by
  obtain ⟨hat, r, u, hrun, rfl⟩ := sequencerStep_ok h
  refine ⟨hat, ?_⟩
  have hends := buStep_ends s.seq h1 h2 s r u rfl hrun
  cases r with
  | some e =>
    obtain ⟨m, hm, hu⟩ := hends
    exact .inr (.inr ⟨by simp [hm, hu], by simp [hu]⟩)
  | none =>
    have hu : u.seq = { s.seq with bstep := if k = 10 then 0 else k + 1 } := hends
    by_cases hk : k = 10
    · exact .inr (.inl (by simp [hk, hu]))
    · exact .inl (by simp [hk, hu, hat.1])

/-! #### INIT as one operation (R220) -/

/-- INIT's loop from inside bring-up goes to its end, or an error has left bring-up. -/
theorem runSteps_mode (n : Nat) : Ensures (fun s => s.seq.mode = .bringUp) (runSteps n)
    (fun r s => r = none ∨ s.seq.mode = .off ∨ s.seq.mode = .dead) := by
  induction n with
  | zero => exact Ensures.pure fun _ _ => .inl rfl
  | succ n ih =>
    refine Ensures.here fun s hs => Ensures.ite (fun hk => ?_) fun _ => Ensures.pure fun _ _ => .inl rfl
    have hstep := (buStep_ends s.seq hk.1 hk.2).pre (P' := (· = s)) fun u hu => hu ▸ rfl
    refine hstep.bind fun r => ?_
    cases r with
    | some e =>
      refine Ensures.pure fun u ⟨m, hm, hu⟩ => .inr ?_
      rw [hu]
      exact errorMode_off_or_dead hm
    | none => exact ih.pre fun u hu => (congrArg Seq.mode hu).trans hs

theorem initAll_mode (cfg : PlatformCfg) : Ensures (fun _ => True) (initAll cfg)
    (fun _ s => s.seq.mode = .running ∨ s.seq.mode = .off ∨ s.seq.mode = .dead) := by
  refine Ensures.bind (Q := fun _ _ => True) (Ensures.upd fun _ _ => trivial) fun _ =>
    Ensures.bind (Q := fun _ s => s.seq.mode = .bringUp) (Ensures.upd fun _ _ => rfl) fun _ =>
    (runSteps_mode 10).bind fun r => ?_
  cases r with
  | some e => exact Ensures.pure fun _ hs => .inr (hs.resolve_left nofun)
  | none =>
    exact Ensures.bind (Q := fun _ s => s.seq.mode = .running) (Ensures.upd fun _ _ => rfl) fun _ => Ensures.pure fun _ hm =>
      .inl hm

/-! #### The transitions (R220) -/

theorem exec_init_mode {cfg : PlatformCfg} {s t : State} (h : exec (.init cfg) s = .next t) :
    s.seq.mode = .off ∧ (t.seq.mode = .running ∨ t.seq.mode = .off ∨ t.seq.mode = .dead) := by
  refine ⟨(admitInit_ok (issue_admitted h)).1, ?_⟩
  obtain ⟨ws, u, hrun, rfl⟩ := issue_ok h
  have hmode := initAll_mode cfg _ _ _ trivial hrun
  exact hmode

theorem admitRunning_ok {s : State} (h : admitRunning s = none) : s.seq.mode = .running := by
  unfold admitRunning at h
  split at h
  · cases h
  · next hm => exact not_not.1 hm

theorem exec_handleIrq_mode {s t : State} (h : exec .handleIrq s = .next t) :
    s.seq.mode = .running ∧ (t.seq.mode = s.seq.mode ∨ t.seq.mode = .halted) := by
  refine ⟨admitRunning_ok (issue_admitted h), ?_⟩
  obtain ⟨ws, u, hrun, rfl⟩ := issue_ok h
  have hmode := handleIrq_mode s.begun.seq _ _ _ rfl hrun
  exact hmode

theorem exec_sequencer_seq {i : Instr} {s t : State} (hi : i.agent = .sequencer) (h : exec i s = .next t) :
    s.atStep (buNumber i) ∧ (t.seq.mode = .bringUp ∧ t.seq.bstep = buNumber i + 1 ∨
      buNumber i = 10 ∧ t.seq.mode = .running ∧ t.seq.bstep = 0 ∨
      errorMode (buNumber i) = some t.seq.mode ∧ t.seq.bstep = 0) := by
  have hk : 1 ≤ buNumber i ∧ buNumber i ≤ 10 := by
    cases i with
    | bu1 | bu2 | bu3 | bu4 | bu5 | bu6 | bu7 | bu8 | bu9 | bu10 => simp [buNumber]
    | _ => cases hi
  exact sequencer_seq hk.1 hk.2 ((exec_sequencer hi s).symm.trans h)

theorem eq_bu10 {i : Instr} (h : buNumber i = 10) : i = .bu10 := by
  cases i with
  | bu10 => rfl
  | _ => cases h

theorem errorMode_instr {i : Instr} {m : Mode} (h : errorMode (buNumber i) = some m) :
    i ∈ [.bu1, .bu2, .bu3, .bu4, .bu7, .bu8] ∧ m = .off ∨ i = .bu5 ∧ m = .dead := by
  cases i with
  | bu1 | bu2 | bu3 | bu4 | bu7 | bu8 => exact .inl ⟨by simp, (Option.some.inj h).symm⟩
  | bu5 => exact .inr ⟨rfl, (Option.some.inj h).symm⟩
  | _ => cases h

/-- Settles O20: of the host's operations INIT and HANDLE_IRQ alone write the mode; each step of bring-up moves on or leaves
bring-up as `sequencer_seq` says; H writes no sequencing register. -/
theorem modeTransitions : Obligations.ModeTransitions := by
  intro i s t h
  cases hi : i.agent with
  | engine =>
    have hseq : t.seq = s.seq := congrArg (fun o => o.priv.seq) (exec_engine_owned hi h)
    exact ⟨fun hne => absurd (congrArg Seq.mode hseq) hne, nofun⟩
  | host =>
    refine ⟨fun hne => ?_, nofun⟩
    by_cases hinit : ∃ c, i = .init c
    · obtain ⟨c, rfl⟩ := hinit
      obtain ⟨hoff, hmode⟩ := exec_init_mode h
      rw [hoff] at hne
      exact .inl ⟨hoff, ⟨c, rfl⟩, hmode.imp_right (Or.resolve_left · hne)⟩
    · by_cases hirq : i = .handleIrq
      · subst hirq
        obtain ⟨hrun, hmode⟩ := exec_handleIrq_mode h
        exact .inr (.inr (.inr (.inr ⟨hrun, rfl, hmode.resolve_left hne⟩)))
      · exact absurd (exec_host_mode hi (fun c hc => hinit ⟨c, hc⟩) hirq h) hne
  | sequencer =>
    obtain ⟨⟨hmode, hstep⟩, hends⟩ := exec_sequencer_seq hi h
    rcases hends with ⟨hm, hb⟩ | ⟨hk, hm, hb⟩ | ⟨he, hb⟩
    · exact ⟨fun hne => absurd (hm.trans hmode.symm) hne, fun _ => ⟨hstep, fun _ => hb, fun hne => absurd hm hne⟩⟩
    · exact ⟨fun _ => .inr (.inr (.inr (.inl ⟨hmode, eq_bu10 hk, hm⟩))),
        fun _ => ⟨hstep, fun hup => by simp [hm] at hup, fun _ => hb⟩⟩
    · refine ⟨fun _ => ?_, fun _ => ⟨hstep, fun hup => ?_, fun _ => hb⟩⟩
      · rcases errorMode_instr he with ⟨hin, hm⟩ | ⟨rfl, hm⟩
        · exact .inr (.inl ⟨hmode, hin, hm⟩)
        · exact .inr (.inr (.inl ⟨hmode, rfl, hm⟩))
      · rcases errorMode_off_or_dead he with hm | hm <;> simp [hm] at hup

end Sys2Proof.Machine
end
